-- ==== Sys2Proof/Word.lean ====
section
/-! DEFINITION. The byte, the packet of bytes, and the numbers of the part's indexed items (00_scope.md Table 4). -/

namespace Sys2Proof

/-- One lane, bus or payload byte. -/
abbrev Byte := BitVec 8

/-- A transport packet: 188 bytes, byte 0 first (R27). -/
abbrev Packet := List Byte

/-- Bytes of one packet (R27). -/
def packetLen : Nat := 188

/-- The sync byte of every packet (R27). -/
def syncByte : Byte := 0x47

/-- The null identifier (R1). -/
def nullId : Nat := 0x1FFF

/-- The insertion lane (R1 Table 4). -/
def insertionLane : Nat := 16

/-- The multiplex number that stands for LOCAL, as Table 74 encodes it. -/
def localMux : Nat := 0xFFFF

/-- The code that stands for an absent value (Table 75). -/
def absentCode : Nat := 0xFFFF

/-- The number of bits set in a byte. -/
def popCount (b : Byte) : Nat :=
  ((List.range 8).filter (fun i => b.getLsbD i)).length

end Sys2Proof
end

