-- ==== Sys2Proof/Syntax.lean ====
section
/-! DEFINITION. The commands of the block: one constructor per row of spec/opcode_table.json, with the operands the
row's event brings from outside (the lane and its byte, the timer's owner, what a device answered on a bus). The rows of
the management channel carry no operand: the Management Unit takes the packet at the head of its inbound queue (R166),
and that packet holds the table, the index and the operands. -/

namespace Sys2Proof

/-- How a WRITE step's transfer goes on or ends (R78, R79). -/
inductive WriteAnswer where
  /-- the bus has put this many more bytes on the lines, every byte before the last of them acknowledged; the transfer goes
  on -/
  | bytesPut (count : Nat)
  /-- every byte was acknowledged, those not yet put on the lines included -/
  | allAcked
  /-- no device acknowledged the address -/
  | noAddress
  /-- the byte with this index, counted from 0, was not acknowledged -/
  | byteRefused (index : Nat)
  deriving DecidableEq, Repr

/-- How a READ step's transfer goes on or ends (R78, R80). -/
inductive ReadAnswer where
  /-- the next bytes received, first received first; the transfer goes on -/
  | bytesIn (bytes : List Byte)
  /-- the last bytes received, first received first, with which the transfer ends -/
  | received (bytes : List Byte)
  /-- no device acknowledged the address -/
  | noAddress
  deriving DecidableEq, Repr

/-- The commands and events of the UR-1640. -/
inductive Instr where
  /-- the reset input or power-up (R42, R179) -/
  | powerOnReset
  /-- a valid byte on a lane (R26) -/
  | laneByte (lane : Nat) (byte : Byte)
  /-- the running window of a lane expires (R63) -/
  | windowExpiry (lane : Nat)
  /-- an emission slot of an output (R150) -/
  | emissionSlot (output : Nat)
  /-- the 1000 ms drop period of an output ends (R154) -/
  | overflowPeriodEnd (output : Nat)
  /-- the expiry of a second of the rank clock (R130) -/
  | rankClockSecond
  /-- the acquire timer of a tuner expires (R94) -/
  | acquireTimerExpiry (tuner : Nat)
  /-- the relock timer of a tuner expires (R97) -/
  | relockTimerExpiry (tuner : Nat)
  /-- the first expiry of the timer of a service's cut record (R158) -/
  | cutForceExpiry (service : Nat)
  /-- the second expiry of the timer of a service's cut record (R158) -/
  | cutAbandonExpiry (service : Nat)
  /-- bytes of a WRITE step's transfer are put on the lines, or the transfer ends (R79) -/
  | writeStep (bus : Nat) (answer : WriteAnswer)
  /-- bytes of a READ step's transfer are received, or the transfer ends (R80) -/
  | readStep (bus : Nat) (answer : ReadAnswer)
  /-- one read of a POLL step ends, with its byte, or unacknowledged (R81) -/
  | pollRead (bus : Nat) (answer : Option Byte)
  /-- one poll interval after the last read of a POLL step began (R81) -/
  | pollIntervalExpiry (bus : Nat)
  /-- the time value of a POLL step runs out (R81) -/
  | pollTimeValueExpiry (bus : Nat)
  /-- the time value of a WAIT step elapses (R82) -/
  | waitStepExpiry (bus : Nat)
  /-- a line held low for more than 25 ms, with the bytes a READ step had received by then and not yet shown
  (R80, R83) -/
  | busStall (bus : Nat) (received : List Byte)
  /-- the recovery sequence of a bus has been sent (R83) -/
  | recoveryEnd (bus : Nat)
  /-- the recovery sequence of a bus is abandoned (R83) -/
  | recoveryAbandon (bus : Nat)
  /-- WRITE_ENTRY, table SERVICE (R7) -/
  | writeEntryService
  /-- WRITE_ENTRY, table COPY (R12) -/
  | writeEntryCopy
  /-- WRITE_ENTRY, table MULTIPLEX (R16) -/
  | writeEntryMultiplex
  /-- WRITE_ENTRY, table TUNER (R19) -/
  | writeEntryTuner
  /-- WRITE_ENTRY, table OUTPUT (R20) -/
  | writeEntryOutput
  /-- WRITE_ENTRY, table SETTINGS (R22) -/
  | writeEntrySettings
  /-- WRITE_ENTRY, table STEP (R74) -/
  | writeEntryStep
  /-- WRITE_ENTRY, table POOL (R75) -/
  | writeEntryPool
  /-- READ_ENTRY (R2) -/
  | readEntry
  /-- READ_RANK (R169) -/
  | readRank
  /-- READ_LANE (R169) -/
  | readLane
  /-- READ_CENSUS (R169) -/
  | readCensus
  /-- READ_INDICATIONS (R169) -/
  | readIndications
  /-- SET_ROLE (R104) -/
  | setRole
  /-- URGENT (R109) -/
  | urgent
  /-- PIN (R145) -/
  | pin
  /-- UNPIN (R145) -/
  | unpin
  /-- CLEAR_INDICATION (R173) -/
  | clearIndication
  /-- SET_ENABLES (R174) -/
  | setEnables
  /-- CLEAR_COUNTERS (R71) -/
  | clearCounters
  /-- SET_PROTECTION (R171) -/
  | setProtection
  /-- SOFT_RESET (R178) -/
  | softReset
  /-- every block has completed its soft reset (R178) -/
  | softResetComplete
  /-- a command whose kind lies outside 1 to 15 (R166) -/
  | unrecognisedCommand
  /-- a WRITE_ENTRY whose table code names no table (R3, R166) -/
  | writeEntryUnknownTable
  deriving DecidableEq, Repr

end Sys2Proof
end

