-- ==== Sys2Proof/Decode.lean ====
section
/-! DEFINITION. The words of spec/opcode_table.json. The table gives no bits for any of its 44 rows (98_reader.md:
"n_rows_with_fixed": 0, "n_rows_with_fields": 0), so no word spells a command. The bytes of a command PACKET are another
matter: they are read in Machine/Operands.lean. -/

namespace Sys2Proof

/-- The command that the low `nbits` bits of `w` spell by the table's bits: none, since the table gives no row bits. -/
def decodeTableWord (_nbits _w : Nat) : Option Instr := none

end Sys2Proof
end

