-- ==== Sys2Proof/Machine/Types.lean ====
section
/-! DEFINITION. The records the part holds: table entries (Chapter 1, Table 37), and the state of each block, with the
names of the manual's tables. Every type is plain data. -/

namespace Sys2Proof.Machine

/-- A sparse table by index, addresses strictly rising, no entry equal to the table's default (Ops.lean). -/
abbrev Tab (α : Type) := List (Nat × α)

/-! ## Loaded tables (Chapter 1) -/

/-- Service record, Table 9. -/
structure Service where
  enabled : Bool := false
  output : Nat := 0
  comps : Nat := 1
  outIds : List Nat := List.replicate 8 0x0010
  required : List Bool := List.replicate 8 false
  cutKey : Nat := 0
  hyst : Nat := 60
  debounce : Nat := 3
  failCount : Nat := 2
  floor : Nat := 150
  staleLimit : Nat := 900
  fastFailover : Bool := false
  act : Bool := false
  deriving DecidableEq, Repr

/-- Copy record, loaded fields, Table 10. The multiplex is 0–127 or `localMux`. -/
structure CopyRec where
  defined : Bool := false
  mux : Nat := 0
  src : List Nat := List.replicate 8 0
  deriving DecidableEq, Repr

/-- Ring membership, Table 12. -/
inductive Ring where
  | none | a | b
  deriving DecidableEq, Repr

/-- Multiplex entry, Table 12. -/
structure MuxRec where
  defined : Bool := false
  feed : Nat := 0
  head : Nat := 0
  dwell : Nat := 3
  ring : Ring := .none
  sigs : List Nat := []
  deriving DecidableEq, Repr

/-- Tuner role, Table 13. -/
inductive Role where
  | off | live | scan
  deriving DecidableEq, Repr

/-- Tuner entry other than its role, Table 13 (the role is `State.roles`, R18). -/
structure TunerRec where
  bus : Nat := 0
  addr : Nat := 0x08
  reach : BitVec 8 := 0
  measure : Nat := 0
  release : Option Nat := none
  acquireLimit : Nat := 1500
  relockLimit : Nat := 5000
  deriving DecidableEq, Repr

/-- Output entry, Table 14. -/
structure OutputRec where
  enabled : Bool := false
  rate : Nat := 8000
  deriving DecidableEq, Repr

/-- Sync count mode, Table 15. -/
inductive SyncMode where
  | packet | bit
  deriving DecidableEq, Repr

/-- Bus clock, Table 15. -/
inductive BusClock where
  | khz100 | khz400
  deriving DecidableEq, Repr

/-- Settings record, Table 15. -/
structure Settings where
  winLen : Nat := 1000
  lockCount : Nat := 4
  lossCount : Nat := 3
  syncMode : SyncMode := .packet
  excess : Nat := 400
  weight : Nat := 8
  shift : Nat := 2
  aShare : Nat := 3
  censusMin : Nat := 10
  censusPeriod : Nat := 30
  cutLimit : Nat := 1500
  hostRetry : Nat := 30
  busClock : BusClock := .khz100
  pollInterval : Nat := 10
  mgmtId : Nat := 0x1FF0
  replyId : Nat := 0x1FF1
  instId : Nat := 0x1FF2
  mask : BitVec 24 := 0
  deriving DecidableEq, Repr

/-- Step kind, Table 37. -/
inductive StepKind where
  | none | write | read | poll | wait
  deriving DecidableEq, Repr

/-- Step capture, Table 37. -/
inductive Capture where
  | none | margin
  deriving DecidableEq, Repr

/-- Recipe step, Table 37. -/
structure Step where
  kind : StepKind := .none
  addrOff : Nat := 0
  byteOff : Nat := 0
  count : Nat := 1
  mask : Byte := 0
  want : Byte := 0
  time : Nat := 1
  capture : Capture := .none
  next : Option Nat := none
  deriving DecidableEq, Repr

/-- The loaded tables of the MU's table memory (R2, R3), by index. -/
structure Tables where
  services : Tab Service := []
  copies : Tab CopyRec := []
  muxes : Tab MuxRec := []
  tuners : Tab TunerRec := []
  outputs : Tab OutputRec := []
  settings : Settings := {}
  steps : Tab Step := []
  pool : Tab Byte := []
  deriving DecidableEq, Repr

/-! ## Lane Framer (Chapter 2) -/

/-- Framer state, Table 18. -/
inductive FramerState where
  | idle | hunt | verify | locked | flywheel
  deriving DecidableEq, Repr

/-- A search for an alignment: HUNT and VERIFY, or the offline search (R29, R30, R35). -/
structure Search where
  /-- position of the next byte the search examines -/
  next : Nat := 0
  /-- position of the candidate byte, and the confirmation count -/
  cand : Option (Nat × Nat) := none
  /-- retained bytes from the candidate byte on -/
  buf : List Byte := []
  deriving DecidableEq, Repr

/-- Lane Framer state, Table 18. The candidate phase, the confirmation count and the offline search are read from
`search`; the retained bytes are `last` and `search.buf`. -/
structure Framer where
  state : FramerState := .idle
  /-- position of the next byte the lane takes (R26) -/
  pos : Nat := 0
  lockPhase : Option Nat := none
  miss : Nat := 0
  prevPhase : Option Nat := none
  search : Search := {}
  /-- the packet in progress, in LOCKED -/
  pkt : List Byte := []
  /-- the last delivered packet, retained for the offline search (R35) -/
  last : List Byte := []
  deriving DecidableEq, Repr

/-- What a Lane Framer hands on (Table 22). -/
inductive FramerEvent where
  /-- entry to LOCKED under R31: first-lock mark, realignment counted, lane was out of lock -/
  | lock (first realign wasOut : Bool)
  | packet (p : Packet)
  | syncError (amount : Nat)
  | loss
  deriving DecidableEq, Repr

/-! ## Identifier Tracker (Chapter 3) -/

/-- A binding of a track-list entry, Table 26 and R45. -/
structure Binding where
  svc : Nat
  slot : Nat
  comp : Nat
  /-- whole-window (or partial) -/
  whole : Bool
  /-- marked unobservable under R45 -/
  unobs : Bool
  deriving DecidableEq, Repr

/-- Track list entry, Table 26. -/
structure TrackEntry where
  ident : Nat
  sig : Bool := false
  bindings : List Binding := []
  lastCc : Option Nat := none
  repeated : Bool := false
  pkts : Nat := 0
  breaks : Nat := 0
  deriving DecidableEq, Repr

/-- The tracker of one lane: its track list (R44) and its lane census (R50). -/
structure Tracker where
  entries : List TrackEntry := []
  census : List (Nat × Nat) := []
  overflow : Nat := 0
  windows : Nat := 0
  deriving DecidableEq, Repr

/-- A census record that is present (R52). -/
structure CensusRecord where
  pairs : List (Nat × Nat)
  overflow : Nat
  deriving DecidableEq, Repr

/-! ## Quality Monitor (Chapter 4) -/

/-- Margin state, Table 34. -/
inductive MarginState where
  | fresh | held | none
  deriving DecidableEq, Repr

/-- A copy line of a window report, Table 34. -/
structure CopyLine where
  svc : Nat
  slot : Nat
  counts : List Nat
  breaks : Nat
  deriving DecidableEq, Repr

/-- Window report, Table 34. -/
structure Report where
  lane : Nat
  mux : Nat
  seq : Nat
  len : Nat
  p : Nat
  e : Nat
  sat : Bool
  y : Nat
  s : Nat
  r : Nat
  l : Nat
  margin : Nat
  marginState : MarginState
  mismatch : Bool
  lines : List CopyLine
  deriving DecidableEq, Repr

/-- Window state of one lane, Table 32. -/
structure QmLane where
  /-- start and length in force of the running window, in ms -/
  window : Option (Nat × Nat) := none
  seq : Nat := 0
  p : Nat := 0
  e : Nat := 0
  y : Nat := 0
  s : Nat := 0
  r : Nat := 0
  /-- whole milliseconds in lock, of the spells that have ended -/
  lockedMs : Nat := 0
  /-- start of the present spell in lock within the window -/
  lockSince : Option Nat := none
  sat : Bool := false
  pending : Option Report := none
  outstanding : Bool := false
  awaited : Bool := false
  lastFresh : Option Nat := none
  hold : Nat := 0
  degraded : Bool := false
  degCount : Nat := 0
  deriving DecidableEq, Repr

/-- Lifetime counters of one lane (R71). -/
structure Lifetime where
  p : Nat := 0
  e : Nat := 0
  y : Nat := 0
  s : Nat := 0
  r : Nat := 0
  deriving DecidableEq, Repr

/-! ## Tuner Bus Controller (Chapter 5) -/

/-- Run purpose, Table 38. -/
inductive Purpose where
  | tune | measure | release
  deriving DecidableEq, Repr

/-- Run outcome, Table 39. -/
inductive RunOutcome where
  | done | ackFail | pollTimeout | busStall | loopLimit | range | aborted
  deriving DecidableEq, Repr

/-- Where the executing step stands: a transfer under way, or a pause (R78 to R82). -/
inductive StepPhase where
  /-- a transfer of the step is under way -/
  | transfer
  /-- a POLL step between two reads, or a WAIT step -/
  | pause
  deriving DecidableEq, Repr

/-- The executing step of a run, with the fields as they were read (R77) and what R81 keeps from its beginning. -/
structure Current where
  index : Nat
  step : Step
  phase : StepPhase
  /-- when the step began, in ms -/
  since : Nat
  /-- when the last read of a POLL step began -/
  readSince : Nat
  /-- poll interval in force when the step began -/
  interval : Nat
  /-- the time value of a POLL step has run out while a read is in progress -/
  timedOut : Bool
  /-- the bytes of the transfer under way put on the lines or received so far (R79, R80) -/
  bytes : List Byte := []
  deriving DecidableEq, Repr

/-- Run record, Table 38. -/
structure Run where
  tuner : Nat
  purpose : Purpose
  /-- the multiplex being tuned, for a TUNE run -/
  mux : Nat
  bus : Nat
  base : Nat
  head : Nat
  steps : Nat := 0
  current : Option Current := none
  margin : Option Nat := none
  withdrawn : Bool := false
  /-- bus clock in force when the run started (R25) -/
  clock : BusClock := .khz100
  /-- the run has started and a check of R77 to R80 failed at its head; its end is still to be taken -/
  failing : Option RunOutcome := none
  deriving DecidableEq, Repr

/-- A request that could not be placed (R85). -/
structure Deferred where
  tuner : Nat
  purpose : Purpose
  mux : Nat
  deriving DecidableEq, Repr

/-- Bus state (R83). -/
inductive BusState where
  | idle | running | recovering
  deriving DecidableEq, Repr

/-- A completed transfer as the two-wire lines carried it (R78). -/
structure Transfer where
  addr : Nat
  read : Bool
  bytes : List Byte
  deriving DecidableEq, Repr

/-- One tuner bus (R83 to R85). -/
structure Bus where
  state : BusState := .idle
  run : Option Run := none
  queue : List Run := []
  deferred : List Deferred := []
  /-- activity that a soft reset found on the bus is still being finished (R89) -/
  finishing : Bool := false
  /-- a READ transfer that a soft reset is ending: the pool offset of its next byte, and how many it had still to receive
  (R80, R89) -/
  tail : Option (Nat × Nat) := none
  /-- the last transfer the bus made -/
  lastTransfer : Option Transfer := none
  deriving DecidableEq, Repr

/-! ## Tuner Pool Manager (Chapter 6) -/

/-- Tuner state, Table 44. -/
inductive TunerState where
  | off | free | tuning | acquiring | observing | releasing
  deriving DecidableEq, Repr

/-- What a tune or observation is for, Table 43. -/
inductive Work where
  | host | visit | retune
  deriving DecidableEq, Repr

/-- A running timer: when it started and its limit, in ms. -/
structure Timer where
  start : Nat
  limit : Nat
  deriving DecidableEq, Repr

/-- Tuner record other than the role, Table 43. -/
structure Tuner where
  state : TunerState := .off
  mux : Option Nat := none
  work : Option Work := none
  acquire : Option Timer := none
  relock : Option Timer := none
  /-- relock limit as it stood when the hosting period began (R97) -/
  relockLimit : Nat := 0
  /-- winding-down items: a withdrawn TUNE run, a RELEASE run (R95) -/
  windTune : Bool := false
  windRelease : Bool := false
  committed : Option Nat := none
  deriving DecidableEq, Repr

/-- An entry of the host request queue (R99). -/
structure HostReq where
  mux : Nat
  committed : Bool := false
  deriving DecidableEq, Repr

/-- Answers to a filing, Table 45. -/
inductive FileAnswer where
  | hosted | inProgress | queued | unreachable | full
  deriving DecidableEq, Repr

/-- Why a tune or a host request failed (R91, R93, R94, R101). -/
inductive FailCause where
  | noLock
  | run (o : RunOutcome)
  | unreachable
  deriving DecidableEq, Repr

/-! ## Scan Scheduler (Chapter 7) -/

/-- Where a pick came from, Table 51. -/
inductive PickSource where
  | urgent | ringA | ringB
  deriving DecidableEq, Repr

/-- Visit phase, Table 51. -/
inductive VisitPhase where
  | tuning | observing
  deriving DecidableEq, Repr

/-- Visit outcome, Table 51. -/
inductive VisitOutcome where
  | complete | noLock | recipeFail | promoted | aborted
  deriving DecidableEq, Repr

/-- Visit record, Table 51. The outcome of a visit that has ended is `Sched.lastOutcome`. -/
structure Visit where
  mux : Nat
  source : PickSource
  phase : VisitPhase
  dwell : Nat
  deriving DecidableEq, Repr

/-- Scan Scheduler state, Table 50. -/
structure Sched where
  urgent : List Nat := []
  ptrA : Nat := 0
  ptrB : Nat := 0
  aRun : Nat := 0
  visits : Tab (Option Visit) := []
  lastOutcome : Tab (Option VisitOutcome) := []
  deriving DecidableEq, Repr

/-! ## Ranking Engine (Chapters 8 and 9) -/

/-- Live fields of a copy, Table 11, with the stale mark of R131. -/
structure Live where
  q : Option Nat := none
  w : Option Nat := none
  zeros : Nat := 0
  observedAt : Option Nat := none
  barredUntil : Option Nat := none
  stale : Bool := false
  deriving DecidableEq, Repr

/-- Copy class, Table 59. -/
inductive CopyClass where
  | fresh | stale | never
  deriving DecidableEq, Repr

/-- Filing mark, Table 65. -/
inductive Filing where
  | filed | unfiled
  deriving DecidableEq, Repr

/-- Ranking record of one service, Table 65. The rank list is `State.rankList`, computed by its rule R133. -/
structure Ranking where
  selected : Option Nat := none
  target : Option Nat := none
  filing : Option Filing := none
  cutting : Bool := false
  challenger : Option Nat := none
  challenges : Nat := 0
  pin : Option Nat := none
  degraded : Bool := false
  sweep : List Nat := []
  deriving DecidableEq, Repr

/-- Service states, Table 66. -/
inductive SvcState where
  | disabled | cutting | awaitHost | served | unserved
  deriving DecidableEq, Repr

/-- What started an evaluation (R135): a report or zero-window notice that updated these copy slots, or another trigger. -/
inductive Trigger where
  | observed (slots : List Nat)
  | other
  deriving DecidableEq, Repr

/-- The rank clock and the instant of its last second (R130). -/
structure RankClock where
  secs : Nat := 0
  since : Nat := 0
  deriving DecidableEq, Repr

/-! ## Output Assembler (Chapter 10) -/

/-- Cut record, Table 71. -/
structure Cut where
  old : Option Nat
  new : Nat
  limit : Nat
  start : Nat
  expiries : Nat := 0
  forced : Bool := false
  down : Bool
  deriving DecidableEq, Repr

/-! ## Management Unit (Chapter 11) -/

/-- Authority of a command packet (R54). -/
inductive Authority where
  | property | installer
  deriving DecidableEq, Repr

/-- A packet of the inbound queue with the authority it was taken with (R165). -/
structure Cmd where
  auth : Authority
  bytes : Packet
  deriving DecidableEq, Repr

/-- Reply outcomes, Table 76. -/
inductive ReplyOutcome where
  | done | doneClamped | range | unknown | conflict | inUse | prot | full | unreachable
  deriving DecidableEq, Repr

/-- Lane Framer state as READ_LANE returns it: Table 18 without the retained bytes. -/
structure FramerView where
  state : FramerState
  lockPhase : Option Nat
  candPhase : Option Nat
  confirmations : Nat
  miss : Nat
  prevPhase : Option Nat
  /-- the offline search's candidate phase and confirmation count, present in FLYWHEEL only -/
  offline : Option (Option Nat × Nat)
  deriving DecidableEq, Repr

/-- One row of a rank list as READ_RANK returns it (R169). -/
structure RankRow where
  slot : Nat
  cls : CopyClass
  live : Live
  deriving DecidableEq, Repr

/-- READ_LANE part 0 (R169). -/
structure LaneData where
  framer : FramerView
  window : QmLane
  lifetime : Lifetime
  censusWindows : Nat
  censusOverflow : Nat
  entryCount : Nat
  urgent : List Nat
  ptrA : Nat
  ptrB : Nat
  aRun : Nat
  /-- role and record of the lane's tuner, absent for lane 16 -/
  tuner : Option (Role × Tuner)
  visit : Option Visit
  lastOutcome : Option VisitOutcome
  deriving DecidableEq, Repr

/-- READ_RANK (R169). -/
structure RankData where
  state : SvcState
  record : Ranking
  list : List RankRow
  /-- claim count of each multiplex of the service's copies, in slot order -/
  claims : List (Nat × Nat)
  deriving DecidableEq, Repr

/-- READ_INDICATIONS (R169): latched set and status values of each source, the summary, the lost flag. -/
structure IndData where
  flags : List (BitVec 24 × BitVec 24)
  summary : List Bool
  lost : Bool
  deriving DecidableEq, Repr

/-- What the four reading commands of R169 return. -/
inductive ReadData where
  | rank (d : RankData)
  | lane (d : LaneData)
  | tracks (l : List TrackEntry)
  | census (r : Option CensusRecord)
  | indications (d : IndData)
  deriving DecidableEq, Repr

/-- The data of a reply: bytes encoded as Table 75 says, or what a reading command of R169 returns. -/
inductive ReplyData where
  | bytes (bs : List Byte)
  | read (d : ReadData)
  deriving DecidableEq, Repr

/-- A reply packet, Table 76. -/
structure Reply where
  tag : Nat
  kind : Nat
  outcome : ReplyOutcome
  detail : Nat
  data : ReplyData
  deriving DecidableEq, Repr

/-- Source kinds (Table 75). -/
inductive SourceKind where
  | lane | tuner | multiplex | service | output | device
  deriving DecidableEq, Repr

/-- Indication kinds, Table 81. -/
inductive Kind where
  | degraded | persistent | mismatch | trackOverflow | censusChange | busFault | tuneFailed | retuned | unreachable
  | unhosted | switched | unserved | liveDegraded | sweepComplete | cutForced | cutCancelled | overflow | urgentFull
  | commandCorrupt | commandOverrun | replyOverrun
  deriving DecidableEq, Repr

/-- Event record, Table 78. -/
structure EventRecord where
  source : SourceKind
  index : Nat
  kind : Kind
  status : Bool
  stamp : Nat
  deriving DecidableEq, Repr

/-- A report packet, Table 77. -/
structure ReportPacket where
  lost : Bool
  records : List EventRecord
  deriving DecidableEq, Repr

/-- A packet in the MU's list for output 0, with the reply identifier it was built with (R167, R176, R23). -/
inductive MgmtPacket where
  | reply (ident : Nat) (r : Reply)
  | report (ident : Nat) (r : ReportPacket)
  deriving DecidableEq, Repr

/-- The MU's list for output 0, its report queue and the queue's lost flag (R167, R175). -/
structure Mgmt where
  list : List MgmtPacket := []
  queue : List EventRecord := []
  lost : Bool := false
  deriving DecidableEq, Repr

/-- Latched flags and status values (R172), by indication key (Flags.lean). -/
structure Indications where
  latched : Tab Bool := []
  status : Tab Bool := []
  deriving DecidableEq, Repr

/-- Protection level (R170). -/
inductive Level where
  | soft | hard
  deriving DecidableEq, Repr

/-- Group flags and level (R170): bit i − 1 of `flags` is group i of Table 80. -/
structure Protection where
  flags : BitVec 5 := 0
  level : Level := .soft
  deriving DecidableEq, Repr

/-- What an output port sent at a slot (R150). -/
inductive Sent where
  | packet (p : Packet)
  | mgmt (m : MgmtPacket) (cc : Nat)
  | null
  deriving DecidableEq, Repr

/-- Output state of one output, Table 69, with the drop period's start and the packet of its latest slot
(notes/assumptions/25). -/
structure OutState where
  queue : List Packet := []
  counters : Tab Nat := []
  reserve : Nat := 0
  drops : Nat := 0
  lastDrops : Nat := 0
  overflowRaised : Bool := false
  periodStart : Nat := 0
  port : Option Sent := none
  deriving DecidableEq, Repr

/-! ## Hand-overs between blocks -/

/-- A hand-over from one block to another (00_scope.md, Paths through the part; R91, R76, R70, R111, R121, R161), or
the waking of a block that has something to try (R101, R113). They are taken in the order they were handed on. -/
inductive Notice where
  /-- a run outcome to its requester (R76) -/
  | runDone (tuner : Nat) (purpose : Purpose) (o : RunOutcome) (margin : Option Nat)
  /-- the run that started on a bus with failing checks ends (R77) -/
  | checkEnd (bus : Nat)
  /-- HOSTED (X) to the RE and the SCH (R91) -/
  | hosted (x : Nat)
  /-- HOST_FAILED (X, cause) to the RE (R91) -/
  | hostFailed (x : Nat) (c : FailCause)
  /-- UNHOSTED (X) to the RE, the OA and the SCH (R91, R159) -/
  | unhosted (x : Nat)
  /-- OBSERVING reached, to the SCH (R94) -/
  | observing (tuner : Nat)
  /-- failure of a tune with work VISIT, to the SCH (R94) -/
  | visitFailed (tuner x : Nat) (c : FailCause)
  /-- FREE to the SCH (R91) -/
  | scanFree (tuner : Nat)
  /-- an accepted change of role, to the SCH (R105) -/
  | roleChanged
  /-- the TPM tries to serve its queue (R101) -/
  | serveTry
  /-- the SCH tries picks (R113) -/
  | pickTry
  /-- a completed window report to the RE, and to the SCH when `toSch` (R70) -/
  | report (r : Report) (toSch : Bool)
  /-- zero-window notice to the RE (R119): the multiplex and the copy indices -/
  | zeroWindow (x : Nat) (copies : List Nat)
  /-- visit-end notice to the RE (R121) -/
  | visitEnd (tuner x : Nat) (o : VisitOutcome)
  /-- DROPPED (X) to the RE (R111) -/
  | dropped (x : Nat)
  /-- cut done to the RE (R161) -/
  | cutDone (svc slot : Nat)
  /-- cut cancelled to the RE (R161) -/
  | cutCancelled (svc : Nat)
  deriving DecidableEq, Repr

end Sys2Proof.Machine
end

