-- ==== Sys2Proof/Config.lean ====
section
/-! DEFINITION. What one implementation fixes: the capacities and bounds the manual states, the bounds of the model's own
loops, and the free value of the model. -/

namespace Sys2Proof.Config

/-- Capacity of a track list (R44). -/
def trackCap : Nat := 96
/-- Capacity of a lane census (R50). -/
def censusCap : Nat := 32
/-- Entries of a census record (R52). -/
def recordCap : Nat := 16
/-- Maximum of a 24-bit saturating counter (R61, Table 26). -/
def max24 : Nat := 16777215
/-- Maximum of a 16-bit saturating counter. -/
def max16 : Nat := 65535
/-- Maximum of a 32-bit saturating counter (R71, R130). -/
def max32 : Nat := 4294967295
/-- Capacity of a bus queue (R84). -/
def busQueueCap : Nat := 12
/-- Steps one run may execute (R77). -/
def stepCap : Nat := 64
/-- Capacity of the host request queue (R99). -/
def hostQueueCap : Nat := 16
/-- Capacity of the urgent list (R109). -/
def urgentCap : Nat := 8
/-- Capacity of an output queue (R149). -/
def outQueueCap : Nat := 256
/-- Reserve count at which a management packet takes a slot (R151). -/
def reserveFull : Nat := 31
/-- Capacity of the inbound queue (R165). -/
def inboundCap : Nat := 8
/-- Replies that may wait for output 0 (R167). -/
def replyCap : Nat := 16
/-- Capacity of the report queue (R175). -/
def reportQueueCap : Nat := 32
/-- Records of one report packet (R176). -/
def recordsPerPacket : Nat := 6

/-- Hand-overs taken in one command; those beyond it wait for the next (notes/assumptions/5). -/
def handOverFuel : Nat := 100000
/-- Byte examinations of one search (notes/assumptions/5); a search holds at most 1504 bytes (R29). -/
def searchFuel : Nat := 10000000

/-- FREE VALUE: the byte layout of what READ_RANK, READ_LANE, READ_CENSUS and READ_INDICATIONS return, which the manual
does not give (notes/assumptions/6). -/
opaque readLayout : Machine.ReadData → List Byte

end Sys2Proof.Config
end

