-- ==== Sys2Proof/Machine/State.lean ====
section
/-! DEFINITION. The state of the part, its reset value, and the reasons a command can stop. INVENTORY.md '## State' lists
every field with the rule that names it. -/

namespace Sys2Proof.Machine

/-- Why the machine stops. Every constructor is raised only for an operand outside its range of R1 Table 4, which names
no part of the hardware: SAFE (the model stops where nothing could happen). -/
inductive Fault where
  /-- a lane number above 16, raised by the lane and window events: safe -/
  | noSuchLane
  /-- an output number above 3, raised by the output events: safe -/
  | noSuchOutput
  /-- a tuner number above 15, raised by the tuner timers: safe -/
  | noSuchTuner
  /-- a service number above 255, raised by the cut timers: safe -/
  | noSuchService
  /-- a bus number above 3, raised by the bus events: safe -/
  | noSuchBus
  deriving DecidableEq, Repr

/-- Why a command has no meaning. -/
inductive Refusal where
  /-- the command is not modelled; raised by no arm of exec: safe -/
  | notModelled (mnemonic : String)
  deriving DecidableEq, Repr

/-- The whole state of the part. -/
structure State where
  /-- commands waiting at the block, first in first out (the model's own) -/
  pending : List Instr
  /-- hand-overs between blocks not yet taken (the model's own; empty between commands but for notes/assumptions/4, 5) -/
  notices : List Notice
  /-- tuner and purpose of the runs whose checks failed at their start in this command (the model's own) -/
  settled : List (Nat × Purpose)
  /-- milliseconds since power-on (the model's own view of the reference clock) -/
  now : Nat
  /-- the loaded tables but for the roles (R2) -/
  tables : Tables
  /-- the role field of each Tuner Table entry (R18) -/
  roles : Tab Role
  /-- Lane Framers (R26) -/
  framers : Tab Framer
  /-- Identifier Trackers (R44, R50) -/
  trackers : Tab Tracker
  /-- census records, by multiplex, `localMux` for the insertion record (R52, R55) -/
  censusRecs : Tab (Option CensusRecord)
  /-- window state of each lane (R58) -/
  qmLanes : Tab QmLane
  /-- mismatch status of each multiplex (R69) -/
  mismatch : Tab Bool
  /-- lifetime counters of each lane (R71) -/
  lifetimes : Tab Lifetime
  /-- tuner buses (R83) -/
  buses : Tab Bus
  /-- tuner records (R90) -/
  tuners : Tab Tuner
  /-- host request queue (R99) -/
  hostQueue : List HostReq
  /-- Scan Scheduler (R107) -/
  sched : Sched
  /-- rank clock (R130) -/
  clock : RankClock
  /-- live fields of each copy (R11) -/
  lives : Tab Live
  /-- ranking records (R132) -/
  ranks : Tab Ranking
  /-- the service floor in force of each service, taken at its latest evaluation (R10, R146) -/
  floors : Tab Nat
  /-- output states (R149) -/
  outs : Tab OutState
  /-- emitting copy of each service gate (R152) -/
  gates : Tab (Option Nat)
  /-- cut records (R156) -/
  cuts : Tab (Option Cut)
  /-- inbound queue (R165) -/
  inbound : List Cmd
  /-- list for output 0, report queue, lost flag (R167, R175) -/
  mgmt : Mgmt
  /-- latched flags and status values (R172) -/
  inds : Indications
  /-- protection (R170) -/
  prot : Protection
  /-- the SOFT_RESET command whose reply is still to be built (R178) -/
  resetting : Option Cmd
  deriving DecidableEq, Repr

/-- Lane 16 at power-on: HUNT, position 0 (R42). -/
def Framer.hunting : Framer := { state := .hunt }

/-- The first window of lane 16, which starts at power-on reset with the power-on window length (R72). -/
def QmLane.atPowerOn : QmLane := { window := some (0, 1000) }

/-- The part right after power-on reset (R2, R42, R57, R72, R89, R106, R122, R130, R148, R163, R179); what the manual does not name is
in notes/assumptions/17. -/
def State.reset : State :=
  { pending := [], notices := [], settled := [], now := 0, tables := {}, roles := [],
    framers := [(16, Framer.hunting)], trackers := [], censusRecs := [],
    qmLanes := [(16, QmLane.atPowerOn)], mismatch := [], lifetimes := [],
    buses := [], tuners := [], hostQueue := [], sched := {}, clock := {}, lives := [], ranks := [], floors := [],
    outs := [], gates := [], cuts := [], inbound := [], mgmt := {}, inds := {}, prot := {}, resetting := none }

end Sys2Proof.Machine
end

