-- ==== Sys2Proof/Machine/Ops.lean ====
section
/-! DEFINITION. Sparse tables, the update of each field of State, and the named reads and writes of each indexed item
(00_scope.md Table 4). Every block reads and writes State through these. -/

namespace Sys2Proof.Machine

/-! ## Sparse tables -/

/-- The value at an index, the default where the index is not listed. -/
def Tab.get {α : Type} (d : α) : Tab α → Nat → α
  | [], _ => d
  | (k, v) :: t, i => if k = i then v else Tab.get d t i

/-- The table with a value stored at an index, in canonical form. -/
def Tab.set {α : Type} [DecidableEq α] (d : α) : Tab α → Nat → α → Tab α
  | [], i, v => if v = d then [] else [(i, v)]
  | (k, w) :: t, i, v =>
    if i < k then (if v = d then (k, w) :: t else (i, v) :: (k, w) :: t)
    else if i = k then (if v = d then t else (i, v) :: t)
    else (k, w) :: Tab.set d t i v

/-- Every index of the table is at least `lo`, the indices rise strictly, and no entry is the default. -/
def Tab.wfFrom {α : Type} [DecidableEq α] (d : α) : Nat → Tab α → Bool
  | _, [] => true
  | lo, (k, v) :: t => decide (lo ≤ k) && decide (v ≠ d) && Tab.wfFrom d (k + 1) t

/-- Canonical form of a sparse table: equal tables are equal data. -/
def Tab.wf {α : Type} [DecidableEq α] (d : α) (t : Tab α) : Bool := Tab.wfFrom d 0 t

/-! ## Updates of the fields of State -/

/-- The state with `pending` replaced. -/
def State.setPending (s : State) (x : List Instr) : State := { s with pending := x }

/-- The state with `notices` replaced. -/
def State.setNotices (s : State) (x : List Notice) : State := { s with notices := x }

/-- The state with `settled` replaced. -/
def State.setSettled (s : State) (x : List (Nat × Purpose)) : State := { s with settled := x }

/-- The state with `now` replaced. -/
def State.setNow (s : State) (x : Nat) : State := { s with now := x }

/-- The state with `tables` replaced. -/
def State.setTables (s : State) (x : Tables) : State := { s with tables := x }

/-- The state with `roles` replaced. -/
def State.setRoles (s : State) (x : Tab Role) : State := { s with roles := x }

/-- The state with `framers` replaced. -/
def State.setFramers (s : State) (x : Tab Framer) : State := { s with framers := x }

/-- The state with `trackers` replaced. -/
def State.setTrackers (s : State) (x : Tab Tracker) : State := { s with trackers := x }

/-- The state with `censusRecs` replaced. -/
def State.setCensusRecs (s : State) (x : Tab (Option CensusRecord)) : State := { s with censusRecs := x }

/-- The state with `qmLanes` replaced. -/
def State.setQmLanes (s : State) (x : Tab QmLane) : State := { s with qmLanes := x }

/-- The state with `mismatch` replaced. -/
def State.setMismatch (s : State) (x : Tab Bool) : State := { s with mismatch := x }

/-- The state with `lifetimes` replaced. -/
def State.setLifetimes (s : State) (x : Tab Lifetime) : State := { s with lifetimes := x }

/-- The state with `buses` replaced. -/
def State.setBuses (s : State) (x : Tab Bus) : State := { s with buses := x }

/-- The state with `tuners` replaced. -/
def State.setTuners (s : State) (x : Tab Tuner) : State := { s with tuners := x }

/-- The state with `hostQueue` replaced. -/
def State.setHostQueue (s : State) (x : List HostReq) : State := { s with hostQueue := x }

/-- The state with `sched` replaced. -/
def State.setSched (s : State) (x : Sched) : State := { s with sched := x }

/-- The state with `clock` replaced. -/
def State.setClock (s : State) (x : RankClock) : State := { s with clock := x }

/-- The state with `lives` replaced. -/
def State.setLives (s : State) (x : Tab Live) : State := { s with lives := x }

/-- The state with `ranks` replaced. -/
def State.setRanks (s : State) (x : Tab Ranking) : State := { s with ranks := x }

/-- The state with `floors` replaced. -/
def State.setFloors (s : State) (x : Tab Nat) : State := { s with floors := x }

/-- The state with `outs` replaced. -/
def State.setOuts (s : State) (x : Tab OutState) : State := { s with outs := x }

/-- The state with `gates` replaced. -/
def State.setGates (s : State) (x : Tab (Option Nat)) : State := { s with gates := x }

/-- The state with `cuts` replaced. -/
def State.setCuts (s : State) (x : Tab (Option Cut)) : State := { s with cuts := x }

/-- The state with `inbound` replaced. -/
def State.setInbound (s : State) (x : List Cmd) : State := { s with inbound := x }

/-- The state with `mgmt` replaced. -/
def State.setMgmt (s : State) (x : Mgmt) : State := { s with mgmt := x }

/-- The state with `inds` replaced. -/
def State.setInds (s : State) (x : Indications) : State := { s with inds := x }

/-- The state with `prot` replaced. -/
def State.setProt (s : State) (x : Protection) : State := { s with prot := x }

/-- The state with `resetting` replaced. -/
def State.setResetting (s : State) (x : Option Cmd) : State := { s with resetting := x }

/-! ## Reads and writes of the indexed items -/

/-- The record of a service (R6). -/
def State.service (s : State) (i : Nat) : Service := Tab.get ({} : Service) s.tables.services i

/-- Stores the record of a service. -/
def State.putService (s : State) (i : Nat) (x : Service) : State :=
  s.setTables { s.tables with services := Tab.set ({} : Service) s.tables.services i x }

/-- The loaded fields of the copy with an index 4 × service + slot (R3, R11). -/
def State.copy (s : State) (i : Nat) : CopyRec := Tab.get ({} : CopyRec) s.tables.copies i

/-- Stores the loaded fields of the copy with an index 4 × service + slot. -/
def State.putCopy (s : State) (i : Nat) (x : CopyRec) : State :=
  s.setTables { s.tables with copies := Tab.set ({} : CopyRec) s.tables.copies i x }

/-- The entry of a multiplex (R15). -/
def State.mux (s : State) (i : Nat) : MuxRec := Tab.get ({} : MuxRec) s.tables.muxes i

/-- Stores the entry of a multiplex. -/
def State.putMux (s : State) (i : Nat) (x : MuxRec) : State :=
  s.setTables { s.tables with muxes := Tab.set ({} : MuxRec) s.tables.muxes i x }

/-- The table entry of a tuner (R18). -/
def State.tunerRec (s : State) (i : Nat) : TunerRec := Tab.get ({} : TunerRec) s.tables.tuners i

/-- Stores the table entry of a tuner. -/
def State.putTunerRec (s : State) (i : Nat) (x : TunerRec) : State :=
  s.setTables { s.tables with tuners := Tab.set ({} : TunerRec) s.tables.tuners i x }

/-- The entry of an output (R20). -/
def State.outputRec (s : State) (i : Nat) : OutputRec := Tab.get ({} : OutputRec) s.tables.outputs i

/-- Stores the entry of an output. -/
def State.putOutputRec (s : State) (i : Nat) (x : OutputRec) : State :=
  s.setTables { s.tables with outputs := Tab.set ({} : OutputRec) s.tables.outputs i x }

/-- A recipe step (R74). -/
def State.step (s : State) (i : Nat) : Step := Tab.get ({} : Step) s.tables.steps i

/-- Stores a recipe step. -/
def State.putStep (s : State) (i : Nat) (x : Step) : State :=
  s.setTables { s.tables with steps := Tab.set ({} : Step) s.tables.steps i x }

/-- A byte of the pool (R75). -/
def State.poolByte (s : State) (i : Nat) : Byte := Tab.get (0 : Byte) s.tables.pool i

/-- Stores a byte of the pool. -/
def State.putPoolByte (s : State) (i : Nat) (x : Byte) : State :=
  s.setTables { s.tables with pool := Tab.set (0 : Byte) s.tables.pool i x }

/-- The role of a tuner (R18). -/
def State.role (s : State) (i : Nat) : Role := Tab.get Role.off s.roles i

/-- Stores the role of a tuner. -/
def State.putRole (s : State) (i : Nat) (x : Role) : State :=
  s.setRoles (Tab.set Role.off s.roles i x)

/-- The framer of a lane (R26). -/
def State.framer (s : State) (i : Nat) : Framer := Tab.get ({} : Framer) s.framers i

/-- Stores the framer of a lane. -/
def State.putFramer (s : State) (i : Nat) (x : Framer) : State :=
  s.setFramers (Tab.set ({} : Framer) s.framers i x)

/-- The tracker of a lane (R44, R50). -/
def State.tracker (s : State) (i : Nat) : Tracker := Tab.get ({} : Tracker) s.trackers i

/-- Stores the tracker of a lane. -/
def State.putTracker (s : State) (i : Nat) (x : Tracker) : State :=
  s.setTrackers (Tab.set ({} : Tracker) s.trackers i x)

/-- The census record of a multiplex (R52). -/
def State.censusRec (s : State) (i : Nat) : (Option CensusRecord) := Tab.get none s.censusRecs i

/-- Stores the census record of a multiplex. -/
def State.putCensusRec (s : State) (i : Nat) (x : (Option CensusRecord)) : State :=
  s.setCensusRecs (Tab.set none s.censusRecs i x)

/-- The window state of a lane (R58). -/
def State.qmLane (s : State) (i : Nat) : QmLane := Tab.get ({} : QmLane) s.qmLanes i

/-- Stores the window state of a lane. -/
def State.putQmLane (s : State) (i : Nat) (x : QmLane) : State :=
  s.setQmLanes (Tab.set ({} : QmLane) s.qmLanes i x)

/-- The mismatch status of a multiplex (R69). -/
def State.mismatched (s : State) (i : Nat) : Bool := Tab.get false s.mismatch i

/-- Stores the mismatch status of a multiplex. -/
def State.putMismatched (s : State) (i : Nat) (x : Bool) : State :=
  s.setMismatch (Tab.set false s.mismatch i x)

/-- The lifetime counters of a lane (R71). -/
def State.lifetime (s : State) (i : Nat) : Lifetime := Tab.get ({} : Lifetime) s.lifetimes i

/-- Stores the lifetime counters of a lane. -/
def State.putLifetime (s : State) (i : Nat) (x : Lifetime) : State :=
  s.setLifetimes (Tab.set ({} : Lifetime) s.lifetimes i x)

/-- A tuner bus (R83). -/
def State.bus (s : State) (i : Nat) : Bus := Tab.get ({} : Bus) s.buses i

/-- Stores a tuner bus. -/
def State.putBus (s : State) (i : Nat) (x : Bus) : State :=
  s.setBuses (Tab.set ({} : Bus) s.buses i x)

/-- The record of a tuner (R90). -/
def State.tuner (s : State) (i : Nat) : Tuner := Tab.get ({} : Tuner) s.tuners i

/-- Stores the record of a tuner. -/
def State.putTuner (s : State) (i : Nat) (x : Tuner) : State :=
  s.setTuners (Tab.set ({} : Tuner) s.tuners i x)

/-- The visit record of a tuner (R107). -/
def State.visit (s : State) (i : Nat) : (Option Visit) := Tab.get none s.sched.visits i

/-- Stores the visit record of a tuner. -/
def State.putVisit (s : State) (i : Nat) (x : (Option Visit)) : State :=
  s.setSched { s.sched with visits := Tab.set none s.sched.visits i x }

/-- The outcome of a tuner's last visit (R107). -/
def State.lastOutcome (s : State) (i : Nat) : (Option VisitOutcome) := Tab.get none s.sched.lastOutcome i

/-- Stores the outcome of a tuner's last visit. -/
def State.putLastOutcome (s : State) (i : Nat) (x : (Option VisitOutcome)) : State :=
  s.setSched { s.sched with lastOutcome := Tab.set none s.sched.lastOutcome i x }

/-- The live fields of a copy (R11). -/
def State.live (s : State) (i : Nat) : Live := Tab.get ({} : Live) s.lives i

/-- Stores the live fields of a copy. -/
def State.putLive (s : State) (i : Nat) (x : Live) : State :=
  s.setLives (Tab.set ({} : Live) s.lives i x)

/-- The ranking record of a service (R132). -/
def State.rank (s : State) (i : Nat) : Ranking := Tab.get ({} : Ranking) s.ranks i

/-- Stores the ranking record of a service. -/
def State.putRank (s : State) (i : Nat) (x : Ranking) : State :=
  s.setRanks (Tab.set ({} : Ranking) s.ranks i x)

/-- The service floor in force of a service, 150 until an evaluation takes another (R10, Table 9): DEDUCED
(notes/assumptions/35). -/
def State.floor (s : State) (i : Nat) : Nat := Tab.get 150 s.floors i

/-- Stores the service floor in force of a service. -/
def State.putFloor (s : State) (i : Nat) (x : Nat) : State :=
  s.setFloors (Tab.set 150 s.floors i x)

/-- The state of an output (R149). -/
def State.out (s : State) (i : Nat) : OutState := Tab.get ({} : OutState) s.outs i

/-- Stores the state of an output. -/
def State.putOut (s : State) (i : Nat) (x : OutState) : State :=
  s.setOuts (Tab.set ({} : OutState) s.outs i x)

/-- The emitting copy of a service (R152). -/
def State.gate (s : State) (i : Nat) : (Option Nat) := Tab.get none s.gates i

/-- Stores the emitting copy of a service. -/
def State.putGate (s : State) (i : Nat) (x : (Option Nat)) : State :=
  s.setGates (Tab.set none s.gates i x)

/-- The cut record of a service (R156). -/
def State.cut (s : State) (i : Nat) : (Option Cut) := Tab.get none s.cuts i

/-- Stores the cut record of a service. -/
def State.putCut (s : State) (i : Nat) (x : (Option Cut)) : State :=
  s.setCuts (Tab.set none s.cuts i x)

/-- The settings in force (R21). -/
def State.settings (s : State) : Settings := s.tables.settings

/-- Hands a notice on: it joins the tail of the hand-overs. -/
def State.post (s : State) (n : Notice) : State := s.setNotices (s.notices ++ [n])

/-- The clock brought to an instant it has not yet reached (notes/assumptions/2). -/
def State.reach (s : State) (t : Nat) : State := s.setNow (max s.now t)

/-! ## Derived reads of several blocks -/

/-- Index of the copy of a service in a slot (R3). -/
def copyIndex (v slot : Nat) : Nat := 4 * v + slot

/-- A tuner occupies a multiplex while TUNING, ACQUIRING or OBSERVING for it (R15, R90). -/
def State.occupies (s : State) (t x : Nat) : Bool :=
  let r := s.tuner t
  decide (r.mux = some x) &&
    (decide (r.state = .tuning) || decide (r.state = .acquiring) || decide (r.state = .observing))

/-- A multiplex is occupied by some tuner (R15). -/
def State.occupied (s : State) (x : Nat) : Bool := (List.range 16).any (fun t => s.occupies t x)

/-- A tuner hosts a multiplex: role LIVE, and OBSERVING it with work HOST or retuning it (R90). -/
def State.hosts (s : State) (t x : Nat) : Bool :=
  let r := s.tuner t
  decide (s.role t = .live) && decide (r.mux = some x) &&
    ((decide (r.state = .observing) && decide (r.work = some .host)) ||
      ((decide (r.state = .tuning) || decide (r.state = .acquiring)) && decide (r.work = some .retune)))

/-- The tuner that hosts a multiplex. -/
def State.hostOf (s : State) (x : Nat) : Option Nat := (List.range 16).find? (fun t => s.hosts t x)

/-- A multiplex is hosted while a tuner hosts it (R90). -/
def State.hosted (s : State) (x : Nat) : Bool := (s.hostOf x).isSome

/-- The tuner that observes a multiplex, its lane holding a track list for it (R44). -/
def State.observerOf (s : State) (x : Nat) : Option Nat :=
  (List.range 16).find? (fun t =>
    decide ((s.tuner t).mux = some x) &&
      (decide ((s.tuner t).state = .acquiring) || decide ((s.tuner t).state = .observing)))

/-- A lane is in lock in LOCKED and FLYWHEEL (Table 20). -/
def Framer.inLock (f : Framer) : Bool := decide (f.state = .locked) || decide (f.state = .flywheel)

/-- The multiplex of a service's copy in a slot. -/
def State.copyMux (s : State) (v slot : Nat) : Nat := (s.copy (copyIndex v slot)).mux

/-- The lane that carries a copy's multiplex: its host's lane, or lane 16 for a local copy (R143, R156). -/
def State.carrier (s : State) (x : Nat) : Option Nat :=
  if x = localMux then some insertionLane else s.hostOf x

/-- The copy may be emitted now: it is local, or its multiplex is hosted (R138, R142). -/
def State.available (s : State) (x : Nat) : Bool := decide (x = localMux) || s.hosted x

/-- The multiplexes that an enabled service claims: those of its selected and target copies that are not local (R134). -/
def State.claims (s : State) (v : Nat) : List Nat :=
  if (s.service v).enabled then
    (((s.rank v).selected.toList ++ (s.rank v).target.toList).map (s.copyMux v)).filter (· ≠ localMux)
  else []

/-- Claim count of a multiplex (R134). -/
def State.claimCount (s : State) (x : Nat) : Nat :=
  (s.ranks.filter (fun r => (s.claims r.1).contains x)).length

/-- A LIVE tuner observes a hosted multiplex with claim count 0 (R90). -/
def State.idleHosted (s : State) (t : Nat) : Bool :=
  match (s.tuner t).mux with
  | some x =>
    decide (s.role t = .live) && decide ((s.tuner t).state = .observing) && decide ((s.tuner t).work = some .host) &&
      decide (s.claimCount x = 0)
  | none => false

/-- A feed lies in a tuner's reach (R18). -/
def State.reaches (s : State) (t feed : Nat) : Bool := (s.tunerRec t).reach.getLsbD feed

/-- Some tuner of a role, in any state, has a multiplex's feed in its reach (R99, R109). -/
def State.roleReaches (s : State) (r : Role) (x : Nat) : Bool :=
  (List.range 16).any (fun t => decide (s.role t = r) && s.reaches t (s.mux x).feed)

/-- Used component positions of a copy of a service with their source identifiers (R11). -/
def State.usedSources (s : State) (i : Nat) : List (Nat × Nat) :=
  (List.range (s.service (i / 4)).comps).map (fun j => (j, (s.copy i).src.getD j 0))

/-- Indices of the defined copies on a multiplex, ascending (R44). -/
def State.copiesOn (s : State) (x : Nat) : List Nat :=
  (s.tables.copies.filter (fun c => c.2.defined && decide (c.2.mux = x))).map (·.1)

/-- Indices of the defined copies of a service, in slot order. -/
def State.copiesOf (s : State) (v : Nat) : List Nat :=
  ((List.range 4).map (copyIndex v)).filter (fun i => (s.copy i).defined)

/-- A number joins an ascending list without duplicates. -/
def insertAscending (x : Nat) : List Nat → List Nat
  | [] => [x]
  | y :: t => if x < y then x :: y :: t else if x = y then y :: t else y :: insertAscending x t

/-- A list in ascending order without duplicates. -/
def ascending (l : List Nat) : List Nat := l.foldr insertAscending []

/-- A saturating addition. -/
def satAdd (cap a b : Nat) : Nat := min cap (a + b)

end Sys2Proof.Machine
end

