-- ==== Sys2Proof/Machine/Operands.lean ====
section
/-! DEFINITION. The fields of packets: the header of Table 19, the command packet of Table 74, and the byte encodings of
Tables 74 to 78. Multi-byte values are most significant byte first (R164). -/

namespace Sys2Proof.Machine

/-! ## Packet header (Table 19) -/

/-- Byte `i` of a packet. -/
def byteAt (p : Packet) (i : Nat) : Byte := p.getD i 0

/-- The 13-bit identifier (R27). -/
def Packet.ident (p : Packet) : Nat := (byteAt p 1).toNat % 32 * 256 + (byteAt p 2).toNat

/-- The transport-error flag (Table 19). -/
def Packet.flagged (p : Packet) : Bool := (byteAt p 1).getLsbD 7

/-- The unit-start flag (Table 19). -/
def Packet.unitStart (p : Packet) : Bool := (byteAt p 1).getLsbD 6

/-- The payload-present flag (Table 19). -/
def Packet.payload (p : Packet) : Bool := (byteAt p 3).getLsbD 4

/-- The continuity count (Table 19). -/
def Packet.cc (p : Packet) : Nat := (byteAt p 3).toNat % 16

/-- The packet under another identifier and continuity count; its flags, carried bits and payload are kept (R153). -/
def Packet.rewrite (p : Packet) (ident cc : Nat) : Packet :=
  [byteAt p 0, BitVec.ofNat 8 ((byteAt p 1).toNat / 32 * 32 + ident / 256 % 32), BitVec.ofNat 8 (ident % 256),
    BitVec.ofNat 8 ((byteAt p 3).toNat / 16 * 16 + cc % 16)] ++ p.drop 4

/-- The null packet (R150). -/
def nullPacket : Packet := [0x47, 0x1F, 0xFF, 0x10] ++ List.replicate 184 0xFF

/-! ## Bytes and numbers (R164) -/

/-- A value of two bytes. -/
def word (hi lo : Byte) : Nat := hi.toNat * 256 + lo.toNat

/-- The low `n` bytes of a value, most significant first. -/
def bytesOf : Nat → Nat → List Byte
  | 0, _ => []
  | n + 1, x => bytesOf n (x / 256) ++ [BitVec.ofNat 8 (x % 256)]

/-- The value of a run of bytes, most significant first. -/
def valueOf (bs : List Byte) : Nat := bs.foldl (fun a b => a * 256 + b.toNat) 0

/-- Field `i` of an entry of two-byte fields. -/
def fieldAt (bs : List Byte) (i : Nat) : Nat := word (bs.getD (2 * i) 0) (bs.getD (2 * i + 1) 0)

/-- Fields `i` to `i + n − 1`. -/
def fieldsAt (bs : List Byte) (i n : Nat) : List Nat := (List.range n).map (fun j => fieldAt bs (i + j))

/-- A field in two bytes. -/
def field (x : Nat) : List Byte := bytesOf 2 x

/-- yes / no and on / off, by their place in the list of values (Table 75). -/
def yesNo (b : Bool) : Nat := if b then 0 else 1

/-- REPORT / ACT, by their place. -/
def actCode (b : Bool) : Nat := if b then 1 else 0

/-- An absent value is 0xFFFF (Table 75). -/
def optCode (x : Option Nat) : Nat := x.getD absentCode

/-- A rank-clock time: a byte of 0 for absent or 1 for present, then four bytes (Table 75), which for an absent time are 0:
DESIGN CHOICE (notes/assumptions/42). -/
def timeBytes : Option Nat → List Byte
  | none => bytesOf 1 0 ++ bytesOf 4 0
  | some t => bytesOf 1 1 ++ bytesOf 4 t

/-- The absent value of an entry's field. -/
def optOf (x : Nat) : Option Nat := if x = absentCode then none else some x

/-! ## Command packets (Table 74) -/

/-- Tag, bytes 4–5. -/
def Cmd.tag (c : Cmd) : Nat := word (byteAt c.bytes 4) (byteAt c.bytes 5)
/-- Kind, byte 6. -/
def Cmd.kind (c : Cmd) : Nat := (byteAt c.bytes 6).toNat
/-- Table, byte 7. -/
def Cmd.table (c : Cmd) : Nat := (byteAt c.bytes 7).toNat
/-- Index, bytes 8–9. -/
def Cmd.index (c : Cmd) : Nat := word (byteAt c.bytes 8) (byteAt c.bytes 9)
/-- Operand length, byte 10. -/
def Cmd.len (c : Cmd) : Nat := (byteAt c.bytes 10).toNat
/-- Operands, from byte 11. -/
def Cmd.operands (c : Cmd) : List Byte := (c.bytes.drop 11).take c.len
/-- Operand byte `i`. -/
def Cmd.operand (c : Cmd) (i : Nat) : Nat := (c.operands.getD i 0).toNat

/-! ## Entries (Table 75) -/

/-- Ring code, by its place in NONE / A / B. -/
def Ring.code : Ring → Nat
  | .none => 0 | .a => 1 | .b => 2
/-- Ring of a code. -/
def Ring.ofCode (n : Nat) : Ring := if n = 1 then .a else if n = 2 then .b else .none
/-- Role code (Table 75). -/
def Role.code : Role → Nat
  | .off => 0 | .live => 1 | .scan => 2
/-- Role of a code. -/
def Role.ofCode (n : Nat) : Role := if n = 1 then .live else if n = 2 then .scan else .off
/-- Sync count mode code. -/
def SyncMode.code : SyncMode → Nat
  | .packet => 0 | .bit => 1
/-- Bus clock code. -/
def BusClock.code : BusClock → Nat
  | .khz100 => 0 | .khz400 => 1
/-- Step kind code, by its place in NONE, WRITE, READ, POLL, WAIT. -/
def StepKind.code : StepKind → Nat
  | .none => 0 | .write => 1 | .read => 2 | .poll => 3 | .wait => 4
/-- Step kind of a code; a code outside the set is NONE (R74). -/
def StepKind.ofCode (n : Nat) : StepKind :=
  if n = 1 then .write else if n = 2 then .read else if n = 3 then .poll else if n = 4 then .wait else .none
/-- Capture code. -/
def Capture.code : Capture → Nat
  | .none => 0 | .margin => 1
/-- Capture of a code; a code outside the set is NONE (R74). -/
def Capture.ofCode (n : Nat) : Capture := if n = 1 then .margin else .none

/-- A numeric tuning field clamped to its bounds (R5). -/
def clamp (lo hi x : Nat) : Nat := max lo (min hi x)

/-- A SERVICE entry as its 27 fields carry it, tuning fields clamped (R7). -/
def readService (bs : List Byte) : Service :=
  { enabled := decide (fieldAt bs 0 = 0), output := fieldAt bs 1, comps := fieldAt bs 2, outIds := fieldsAt bs 3 8,
    required := (fieldsAt bs 11 8).map (fun x => decide (x = 0)), cutKey := fieldAt bs 19,
    hyst := clamp 0 300 (fieldAt bs 20), debounce := clamp 1 15 (fieldAt bs 21), failCount := clamp 1 8 (fieldAt bs 22),
    floor := clamp 0 1000 (fieldAt bs 23), staleLimit := clamp 10 7200 (fieldAt bs 24),
    fastFailover := decide (fieldAt bs 25 = 0), act := decide (fieldAt bs 26 = 1) }

/-- A SERVICE entry in bytes (Table 9, Table 75). -/
def serviceBytes (r : Service) : List Byte :=
  ([yesNo r.enabled, r.output, r.comps] ++ r.outIds ++ r.required.map yesNo ++
    [r.cutKey, r.hyst, r.debounce, r.failCount, r.floor, r.staleLimit, yesNo r.fastFailover, actCode r.act]).flatMap field

/-- A COPY entry as its 10 fields carry it. -/
def readCopy (bs : List Byte) : CopyRec :=
  { defined := decide (fieldAt bs 0 = 0), mux := fieldAt bs 1, src := fieldsAt bs 2 8 }

/-- The loaded fields of a copy in bytes (Table 10). -/
def copyBytes (r : CopyRec) : List Byte := ([yesNo r.defined, r.mux] ++ r.src).flatMap field

/-- The live fields of a copy in bytes (Table 11, Table 75). -/
def liveBytes (l : Live) : List Byte :=
  field (optCode l.q) ++ field (optCode l.w) ++ field l.zeros ++ timeBytes l.observedAt ++ timeBytes l.barredUntil

/-- Elements of the signature list of a MULTIPLEX entry: the count stands in field 5 (Table 75). -/
def sigCount (bs : List Byte) : Nat := fieldAt bs 5

/-- A MULTIPLEX entry, dwell clamped (R16). -/
def readMux (bs : List Byte) : MuxRec :=
  { defined := decide (fieldAt bs 0 = 0), feed := fieldAt bs 1, head := fieldAt bs 2, dwell := clamp 1 16 (fieldAt bs 3),
    ring := Ring.ofCode (fieldAt bs 4), sigs := fieldsAt bs 6 (sigCount bs) }

/-- A MULTIPLEX entry in bytes (Table 12, Table 75). -/
def muxBytes (r : MuxRec) : List Byte :=
  ([yesNo r.defined, r.feed, r.head, r.dwell, r.ring.code, r.sigs.length] ++ r.sigs).flatMap field

/-- A TUNER entry, limits clamped; its role position is not read (R18, R19,
notes/assumptions/8). -/
def readTuner (bs : List Byte) : TunerRec :=
  { bus := fieldAt bs 1, addr := fieldAt bs 2, reach := BitVec.ofNat 8 (fieldAt bs 3), measure := fieldAt bs 4,
    release := optOf (fieldAt bs 5), acquireLimit := clamp 200 8000 (fieldAt bs 6),
    relockLimit := clamp 1000 30000 (fieldAt bs 7) }

/-- A TUNER entry with its role in bytes (Table 13, Table 75). -/
def tunerBytes (role : Role) (r : TunerRec) : List Byte :=
  [role.code, r.bus, r.addr, r.reach.toNat, r.measure, optCode r.release, r.acquireLimit, r.relockLimit].flatMap field

/-- An OUTPUT entry, rate clamped; the rate takes four bytes (R20, Table 75). -/
def readOutput (bs : List Byte) : OutputRec :=
  { enabled := decide (fieldAt bs 0 = 0), rate := clamp 1000 90000 (valueOf ((bs.drop 2).take 4)) }

/-- An OUTPUT entry in bytes (Table 14, Table 75). -/
def outputBytes (r : OutputRec) : List Byte := field (yesNo r.enabled) ++ bytesOf 4 r.rate

/-- A window length rounded down to a whole 100 ms and then bounded (R21). -/
def windowLength (x : Nat) : Nat := clamp 500 4000 (x / 100 * 100)

/-- A SETTINGS entry, tuning fields clamped; the mask position is not read (R21). -/
def readSettings (mask : BitVec 24) (bs : List Byte) : Settings :=
  { winLen := windowLength (fieldAt bs 0), lockCount := clamp 2 8 (fieldAt bs 1), lossCount := clamp 2 6 (fieldAt bs 2),
    syncMode := if fieldAt bs 3 = 1 then .bit else .packet, excess := clamp 1 65535 (fieldAt bs 4),
    weight := clamp 1 32 (fieldAt bs 5), shift := clamp 0 4 (fieldAt bs 6), aShare := clamp 1 8 (fieldAt bs 7),
    censusMin := clamp 1 255 (fieldAt bs 8), censusPeriod := clamp 8 255 (fieldAt bs 9),
    cutLimit := clamp 200 5000 (fieldAt bs 10), hostRetry := clamp 2 600 (fieldAt bs 11),
    busClock := if fieldAt bs 12 = 1 then .khz400 else .khz100, pollInterval := clamp 2 50 (fieldAt bs 13),
    mgmtId := fieldAt bs 14, replyId := fieldAt bs 15, instId := fieldAt bs 16, mask := mask }

/-- A SETTINGS entry in bytes; the mask takes four bytes (Table 15, Table 75). -/
def settingsBytes (r : Settings) : List Byte :=
  [r.winLen, r.lockCount, r.lossCount, r.syncMode.code, r.excess, r.weight, r.shift, r.aShare, r.censusMin,
    r.censusPeriod, r.cutLimit, r.hostRetry, r.busClock.code, r.pollInterval, r.mgmtId, r.replyId, r.instId].flatMap field
    ++ bytesOf 4 r.mask.toNat

/-- The time value of a step by its kind: bounds for WAIT and POLL, as written otherwise (R74). -/
def stepTime (k : StepKind) (x : Nat) : Nat :=
  match k with
  | .wait => clamp 1 1000 x
  | .poll => clamp 10 8000 x
  | _ => x

/-- A STEP entry, numeric fields clamped and bad codes stored as NONE (R74). -/
def readStep (bs : List Byte) : Step :=
  { kind := StepKind.ofCode (fieldAt bs 0), addrOff := clamp 0 7 (fieldAt bs 1), byteOff := clamp 0 4095 (fieldAt bs 2),
    count := clamp 1 32 (fieldAt bs 3), mask := BitVec.ofNat 8 (fieldAt bs 4), want := BitVec.ofNat 8 (fieldAt bs 5),
    time := stepTime (StepKind.ofCode (fieldAt bs 0)) (fieldAt bs 6), capture := Capture.ofCode (fieldAt bs 7),
    next := optOf (fieldAt bs 8) }

/-- A STEP entry in bytes (Table 37, Table 75). -/
def stepBytes (r : Step) : List Byte :=
  [r.kind.code, r.addrOff, r.byteOff, r.count, r.mask.toNat, r.want.toNat, r.time, r.capture.code, optCode r.next].flatMap
    field

/-! ## Numbers of the tables and source kinds -/

/-- Index range of the table with a code of Table 7. -/
def tableRange : Nat → Nat
  | 1 => 256 | 2 => 1024 | 3 => 128 | 4 => 16 | 5 => 4 | 6 => 1 | 7 => 512 | 8 => 256 | _ => 0

/-- Source kind of a code (Table 75). -/
def SourceKind.ofCode : Nat → Option SourceKind
  | 1 => some .lane | 2 => some .tuner | 3 => some .multiplex | 4 => some .service | 5 => some .output | 6 => some .device
  | _ => none

/-- Code of a source kind (Table 75). -/
def SourceKind.code : SourceKind → Nat
  | .lane => 1 | .tuner => 2 | .multiplex => 3 | .service => 4 | .output => 5 | .device => 6

/-- Number of sources of a kind (Table 4). -/
def SourceKind.range : SourceKind → Nat
  | .lane => 17 | .tuner => 16 | .multiplex => 128 | .service => 256 | .output => 4 | .device => 1

/-- Reply outcome code (Table 76). -/
def ReplyOutcome.code : ReplyOutcome → Nat
  | .done => 0 | .doneClamped => 1 | .range => 2 | .unknown => 3 | .conflict => 4 | .inUse => 5 | .prot => 6 | .full => 7
  | .unreachable => 8

/-- Indication code (Table 81). -/
def Kind.code : Kind → Nat
  | .degraded => 1 | .persistent => 2 | .mismatch => 3 | .trackOverflow => 4 | .censusChange => 5 | .busFault => 6
  | .tuneFailed => 7 | .retuned => 8 | .unreachable => 9 | .unhosted => 10 | .switched => 11 | .unserved => 12
  | .liveDegraded => 13 | .sweepComplete => 14 | .cutForced => 15 | .cutCancelled => 16 | .overflow => 17
  | .urgentFull => 18 | .commandCorrupt => 19 | .commandOverrun => 20 | .replyOverrun => 21

/-! ## Reply and report packets (Tables 76 to 78) -/

/-- Bytes of a reply's data, at most 176 (Table 76). -/
def ReplyData.toBytes : ReplyData → List Byte
  | .bytes bs => bs.take 176
  | .read d => (Config.readLayout d).take 176

/-- A management packet: the header with unit-start and payload-present set, a payload filled with 0xFF (R164). The bits that
Table 19 marks as carried are 0: DESIGN CHOICE (notes/assumptions/42). -/
def mgmtFrame (ident cc : Nat) (payload : List Byte) : Packet :=
  let p := payload.take 184
  [0x47, BitVec.ofNat 8 (0x40 + ident / 256 % 32), BitVec.ofNat 8 (ident % 256), BitVec.ofNat 8 (0x10 + cc % 16)] ++ p
    ++ List.replicate (184 - p.length) 0xFF

/-- Payload of a reply packet (Table 76). -/
def Reply.payload (r : Reply) : List Byte :=
  bytesOf 1 1 ++ bytesOf 2 r.tag ++ bytesOf 1 r.kind ++ bytesOf 1 r.outcome.code ++ bytesOf 2 r.detail
    ++ bytesOf 1 r.data.toBytes.length ++ r.data.toBytes

/-- An event record in 9 bytes (Table 78). -/
def EventRecord.toBytes (r : EventRecord) : List Byte :=
  bytesOf 1 r.source.code ++ bytesOf 2 r.index ++ bytesOf 1 r.kind.code ++ bytesOf 1 (if r.status then 1 else 0)
    ++ bytesOf 4 r.stamp

/-- Payload of a report packet (Table 77). -/
def ReportPacket.payload (r : ReportPacket) : List Byte :=
  bytesOf 1 2 ++ bytesOf 1 r.records.length ++ bytesOf 1 (if r.lost then 1 else 0) ++ r.records.flatMap EventRecord.toBytes

/-- The reply identifier a management packet was built with (R23). -/
def MgmtPacket.ident : MgmtPacket → Nat
  | .reply i _ => i
  | .report i _ => i

/-- A management packet is a reply. -/
def MgmtPacket.isReply : MgmtPacket → Bool
  | .reply _ _ => true
  | .report _ _ => false

/-- The bytes of what an output port sends. -/
def Sent.bytes : Sent → Packet
  | .packet p => p
  | .mgmt (.reply i r) cc => mgmtFrame i cc r.payload
  | .mgmt (.report i r) cc => mgmtFrame i cc r.payload
  | .null => nullPacket

end Sys2Proof.Machine
end

