-- ==== Sys2Proof/Machine/Flags.lean ====
section
/-! DEFINITION. Indications, event records, report packets, replies and ALERT (R167, R172 to R177). -/

namespace Sys2Proof.Machine

/-- Key of the indication of a source and a kind. -/
def indKey (k : SourceKind) (idx : Nat) (kind : Kind) : Nat := (k.code * 65536 + idx) * 32 + kind.code

/-- The latched flag of a source and kind (R172). -/
def State.latched (s : State) (k : SourceKind) (idx : Nat) (kind : Kind) : Bool :=
  Tab.get false s.inds.latched (indKey k idx kind)

/-- The status value of a source and kind (R172). -/
def State.statusValue (s : State) (k : SourceKind) (idx : Nat) (kind : Kind) : Bool :=
  Tab.get false s.inds.status (indKey k idx kind)

/-- The report enable of a kind (R174). -/
def enabledIn (mask : BitVec 24) (code : Nat) : Bool := mask.getLsbD (code - 1)

/-- The ALERT line: some latched flag belongs to an enabled kind (R177). -/
def State.alert (s : State) : Bool := s.inds.latched.any (fun e => e.2 && enabledIn s.settings.mask (e.1 % 32))

/-- A report packet waits in the list for output 0. -/
def Mgmt.reportWaits (m : Mgmt) : Bool := m.list.any (fun p => !p.isReply)

/-- Builds a report packet when the report queue is not empty and none waits (R176). -/
def State.buildReport (s : State) : State :=
  if s.mgmt.reportWaits || s.mgmt.queue.isEmpty then s
  else s.setMgmt
    { list := s.mgmt.list ++ [.report s.settings.replyId
        { lost := s.mgmt.lost, records := s.mgmt.queue.take Config.recordsPerPacket }],
      queue := s.mgmt.queue.drop Config.recordsPerPacket, lost := false }

/-- An event record offered to the report queue: queued, or the lost flag is set (R175). -/
def State.offerRecord (s : State) (r : EventRecord) : State :=
  if !enabledIn s.settings.mask r.kind.code then s
  else if s.mgmt.queue.length < Config.reportQueueCap then
    (s.setMgmt { s.mgmt with queue := s.mgmt.queue ++ [r] }).buildReport
  else s.setMgmt { s.mgmt with lost := true }

/-- A raise of an indication with its status value (R172). -/
def State.raise (s : State) (k : SourceKind) (idx : Nat) (kind : Kind) (val : Bool := true) : State :=
  let s1 := s.setInds { s.inds with status := Tab.set false s.inds.status (indKey k idx kind) val }
  if s.latched k idx kind then s1
  else (s1.setInds { s1.inds with latched := Tab.set false s1.inds.latched (indKey k idx kind) true }).offerRecord
    { source := k, index := idx, kind := kind, status := val, stamp := s.clock.secs }

/-- The list without its oldest reply. -/
def dropOldestReply : List MgmtPacket → List MgmtPacket
  | [] => []
  | .reply _ _ :: t => t
  | .report i r :: t => .report i r :: dropOldestReply t

/-- A reply joins the list for output 0; while 16 replies wait the oldest is discarded (R167). REPLY_OVERRUN is raised once the
reply is in the list, so a report packet built by that raise stands behind it: DESIGN CHOICE (notes/assumptions/43). -/
def State.buildReply (s : State) (ident : Nat) (r : Reply) : State :=
  if (s.mgmt.list.filter MgmtPacket.isReply).length < Config.replyCap then
    s.setMgmt { s.mgmt with list := s.mgmt.list ++ [.reply ident r] }
  else
    (s.setMgmt { s.mgmt with list := dropOldestReply s.mgmt.list ++ [.reply ident r] }).raise .device 0 .replyOverrun

/-- The reply to a command under the reply identifier in force (R167). -/
def State.answer (s : State) (c : Cmd) (o : ReplyOutcome) (detail : Nat) (data : ReplyData) : State :=
  s.buildReply s.settings.replyId { tag := c.tag, kind := c.kind, outcome := o, detail := detail, data := data }

end Sys2Proof.Machine
end

