-- ==== Sys2Proof/Machine/Outputs.lean ====
section
/-! DEFINITION. The Output Assembler (Chapter 10): admission, rewriting, the cut record and its ends, emission. -/

namespace Sys2Proof.Machine

/-! ## Admission (R152 to R155) -/

/-- The continuity count an output gives a packet of an identifier: the counter after its rise for a packet with payload,
the counter as it stands otherwise (R153). -/
def nextCount (counter : Nat) (payload : Bool) : Nat := if payload then (counter + 1) % 16 else counter

/-- An admitted packet of a component of a service: rewritten and queued, or dropped (R153 to R155). -/
def State.admitPacket (s : State) (v comp : Nat) (p : Packet) : State :=
  let o := (s.service v).output
  let ident := (s.service v).outIds.getD comp 0
  let q := s.out o
  if !(s.outputRec o).enabled then s
  else if q.queue.length < Config.outQueueCap then
    let c := nextCount (Tab.get 0 q.counters ident) (Packet.payload p)
    s.putOut o { q with queue := q.queue ++ [Packet.rewrite p ident c], counters := Tab.set 0 q.counters ident c }
  else
    let s1 := s.putOut o { q with drops := satAdd Config.max16 q.drops 1, overflowRaised := true }
    if q.overflowRaised then s1 else s1.raise .output o .overflow

/-- A clean cut point: a unit start of the cut key component, not error-flagged (R157). -/
def cleanCut (r : Service) (comp : Nat) (p : Packet) : Bool :=
  decide (comp = r.cutKey) && Packet.unitStart p && !Packet.flagged p

/-- The cutting packet performs the cut (R157). CUT_FORCED is raised after the packet's admission and before the RE takes the
cut done: DESIGN CHOICE (notes/assumptions/41). -/
def State.performCut (s : State) (v : Nat) (c : Cut) (comp : Nat) (p : Packet) : State :=
  let s1 := ((s.putGate v (some c.new)).putCut v none).admitPacket v comp p
  let s2 := s1.post (.cutDone v c.new)
  if c.down || cleanCut (s.service v) comp p then s2 else s2.raise .service v .cutForced

/-- An offer of the new copy is examined against the record (R157). -/
def State.examine (s : State) (v : Nat) (c : Cut) (comp : Nat) (p : Packet) : State :=
  if cleanCut (s.service v) comp p || c.down || c.forced then s.performCut v c comp p else s

/-- One offer from a tracker, decided by Table 70 (R152). -/
def State.offer (s : State) (p : Packet) (v slot comp : Nat) : State :=
  if !(s.service v).enabled then s
  else match s.cut v with
    | some c =>
      if c.new = slot then s.examine v c comp p
      else if c.old = some slot then s.admitPacket v comp p
      else s
    | none => if s.gate v = some slot then s.admitPacket v comp p else s

/-! ## The cut record (R156 to R161) -/

/-- Old source down at the creation of a record (R156). -/
def State.sourceDown (s : State) (v : Nat) : Option Nat → Bool
  | none => true
  | some slot =>
    match s.carrier (s.copyMux v slot) with
    | none => true
    | some lane => !(s.framer lane).inLock

/-- A cut record for a service, its timer started (R156). -/
def State.createCut (s : State) (v : Nat) (old : Option Nat) (new : Nat) : State :=
  s.putCut v (some { old := old, new := new, limit := s.settings.cutLimit, start := s.now, down := s.sourceDown v old })

/-- The services with a cut record, ascending. -/
def State.cutServices (s : State) : List Nat := s.cuts.map (·.1)

/-- A record's old copy lies on a lane: by its host, or lane 16 for a local copy (R143, R159). -/
def State.cutOldOn (s : State) (v : Nat) (c : Cut) (lane : Nat) : Bool :=
  match c.old with
  | some slot => decide (s.carrier (s.copyMux v slot) = some lane)
  | none => false

/-- The OA takes a loss of a lane: old source down on the records whose old copy it carries (R159). -/
def State.oaLoss (s : State) (lane : Nat) : State :=
  s.cutServices.foldl (fun s v =>
    match s.cut v with
    | some c => if s.cutOldOn v c lane then s.putCut v (some { c with down := true }) else s
    | none => s) s

/-- A record is removed with CUT_CANCELLED and, unless its service was disabled, a cut cancelled to the RE
(R158, R160, R161). -/
def State.cancelCut (s : State) (v : Nat) (toRe : Bool) : State :=
  let s1 := (s.putCut v none).raise .service v .cutCancelled
  if toRe then s1.post (.cutCancelled v) else s1

/-- The OA takes UNHOSTED (X): cuts toward X are cancelled, cuts from X get old source down (R159, R160), in ascending order
of service: DESIGN CHOICE (notes/assumptions/34). -/
def State.oaUnhosted (s : State) (x : Nat) : State :=
  s.cutServices.foldl (fun s v =>
    match s.cut v with
    | some c =>
      if s.copyMux v c.new = x then s.cancelCut v true
      else match c.old with
        | some slot => if s.copyMux v slot = x then s.putCut v (some { c with down := true }) else s
        | none => s
    | none => s) s

/-- The OA takes the notice that a service is disabled (R160). -/
def State.oaDisable (s : State) (v : Nat) : State :=
  let s1 := s.putGate v none
  if (s.cut v).isSome then s1.cancelCut v false else s1

/-! ## Emission (R150, R151) -/

/-- Output 0 chooses a management packet at this slot (R151). -/
def State.mgmtTurn (s : State) (o : Nat) : Bool :=
  decide (o = 0) && !s.mgmt.list.isEmpty &&
    ((s.out o).queue.isEmpty || decide ((s.out o).reserve = Config.reserveFull))

/-- The reserve count after a slot that sent no management packet (R151). -/
def State.nextReserve (s : State) (o : Nat) : Nat :=
  if o = 0 then (if s.mgmt.list.isEmpty then 0 else (s.out o).reserve + 1) else (s.out o).reserve

/-- The slot sends the oldest management packet, which leaves the MU's list (R151, R176). -/
def State.sendMgmt (s : State) (o : Nat) (m : MgmtPacket) (rest : List MgmtPacket) : State :=
  let q := s.out o
  let c := nextCount (Tab.get 0 q.counters m.ident) true
  let s1 := (s.setMgmt { s.mgmt with list := rest }).putOut o
    { q with reserve := 0, counters := Tab.set 0 q.counters m.ident c, port := some (.mgmt m c) }
  s1.buildReport

/-- The slot sends the queue head, or a null packet (R150). -/
def State.sendQueue (s : State) (o : Nat) : State :=
  let q := s.out o
  match q.queue with
  | p :: rest => s.putOut o { q with queue := rest, reserve := s.nextReserve o, port := some (.packet p) }
  | [] => s.putOut o { q with reserve := s.nextReserve o, port := some .null }

/-- One emission slot of an output (R150). -/
def State.emit (s : State) (o : Nat) : State :=
  if !(s.outputRec o).enabled then s
  else if s.mgmtTurn o then
    match s.mgmt.list with
    | m :: rest => s.sendMgmt o m rest
    | [] => s.sendQueue o
  else s.sendQueue o

/-- The 1000 ms period of an output ends (R154). -/
def State.endPeriod (s : State) (o : Nat) : State :=
  let s1 := s.reach ((s.out o).periodStart + 1000)
  let q := s.out o
  s1.putOut o { q with lastDrops := q.drops, drops := 0, overflowRaised := false, periodStart := s1.now }

/-- An output is disabled: its queue is flushed and its reserve count becomes 0 (R155). -/
def State.disableOutput (s : State) (o : Nat) : State :=
  s.putOut o { s.out o with queue := [], reserve := 0 }

end Sys2Proof.Machine
end

