-- ==== Sys2Proof/Machine/Tracker.lean ====
section
/-! DEFINITION. The Identifier Tracker (Chapter 3): track lists, continuity, the census, and the sorting of packets. -/

namespace Sys2Proof.Machine

/-! ## The track list (R44 to R46, R55) -/

/-- Signature identifiers of a multiplex; lane 16 has none (R44, R55). -/
def State.signatures (s : State) (x : Nat) : List Nat := if x = localMux then [] else (s.mux x).sigs

/-- The needed set of a multiplex, ascending, no identifier twice (R44, R55). -/
def State.neededSet (s : State) (x : Nat) : List Nat :=
  ascending (s.signatures x ++ (s.copiesOn x).flatMap (fun i => (s.usedSources i).map (·.2)))

/-- The identifiers a build makes entries for: the 96 lowest (R45). -/
def State.keptIds (s : State) (x : Nat) : List Nat := (s.neededSet x).take Config.trackCap

/-- Every used component of a copy has an identifier among `ids`. -/
def State.coveredBy (s : State) (ids : List Nat) (i : Nat) : Bool :=
  (s.usedSources i).all (fun c => ids.contains c.2)

/-- The copies that a build of a multiplex's track list would make observable, ascending (R45, R119). -/
def State.observableCopies (s : State) (x : Nat) : List Nat :=
  (s.copiesOn x).filter (s.coveredBy (s.keptIds x))

/-- The bindings a build makes at an identifier (R44, R45). -/
def State.buildBindings (s : State) (x ident : Nat) : List Binding :=
  (s.copiesOn x).flatMap (fun i =>
    ((s.usedSources i).filter (fun c => decide (c.2 = ident))).map (fun c =>
      { svc := i / 4, slot := i % 4, comp := c.1, whole := true, unobs := !s.coveredBy (s.keptIds x) i }))

/-- The entries of a new track list for a multiplex (R44). -/
def State.buildEntries (s : State) (x : Nat) : List TrackEntry :=
  (s.keptIds x).map (fun ident =>
    { ident := ident, sig := (s.signatures x).contains ident, bindings := s.buildBindings x ident })

/-- Source of the indications of a census or track list: its multiplex, or lane 16 (Table 81). -/
def State.raiseOn (s : State) (x : Nat) (k : Kind) : State :=
  if x = localMux then s.raise .lane insertionLane k else s.raise .multiplex x k

/-- The build of a lane's track list and the start of its census (R44, R45, R50). -/
def State.buildTracker (s : State) (lane x : Nat) : State :=
  let s1 := s.putTracker lane { entries := s.buildEntries x }
  if (s.neededSet x).length ≤ Config.trackCap then s1 else s1.raiseOn x .trackOverflow

/-- A binding belongs to a copy. -/
def Binding.ofCopy (i : Nat) (b : Binding) : Bool := decide (b.svc = i / 4) && decide (b.slot = i % 4)

/-- Entries with a binding or the signature role (R46). -/
def prune (es : List TrackEntry) : List TrackEntry := es.filter (fun e => e.sig || !e.bindings.isEmpty)

/-- A copy's bindings removed (R46). -/
def removeCopy (i : Nat) (es : List TrackEntry) : List TrackEntry :=
  prune (es.map (fun e => { e with bindings := e.bindings.filter (fun b => !b.ofCopy i) }))

/-- Order of bindings: (service, slot, component) (Table 26). -/
def Binding.before (a b : Binding) : Bool :=
  decide (copyIndex a.svc a.slot * 8 + a.comp < copyIndex b.svc b.slot * 8 + b.comp)

/-- A binding joins an entry's bindings in their order. -/
def insertBinding (b : Binding) : List Binding → List Binding
  | [] => [b]
  | c :: t => if b.before c then b :: c :: t else c :: insertBinding b t

/-- An entry joins a track list in ascending order of identifier. -/
def insertEntry (e : TrackEntry) : List TrackEntry → List TrackEntry
  | [] => [e]
  | f :: t => if e.ident < f.ident then e :: f :: t else f :: insertEntry e t

/-- The entries with `f` applied at an identifier: at its entry, or at a new entry, with the signature role when `sig` says
so, while the list has room; `none` when the list is full (R46, Table 26). -/
def touchEntry (es : List TrackEntry) (ident : Nat) (sig : Bool) (f : TrackEntry → TrackEntry) : Option (List TrackEntry) :=
  if es.any (fun e => decide (e.ident = ident)) then
    some (es.map (fun e => if e.ident = ident then f e else e))
  else if es.length < Config.trackCap then some (insertEntry (f { ident := ident, sig := sig }) es)
  else none

/-- Merges one partial binding under the multiplex's signature list; the flag says whether some identifier found no entry. -/
def mergeBinding (sigs : List Nat) (acc : List TrackEntry × Bool) (ident : Nat) (b : Binding) : List TrackEntry × Bool :=
  match touchEntry acc.1 ident (sigs.contains ident) (fun e => { e with bindings := insertBinding b e.bindings }) with
  | some es => (es, acc.2)
  | none => (acc.1, true)

/-- Merges a copy's bindings, partial; when an identifier finds no entry the copy is unobservable (R45, R46). The flag
says whether that happened. When the list has room for some of its identifiers only, they take it in component order:
DESIGN CHOICE (notes/assumptions/29). -/
def State.mergeCopy (s : State) (i : Nat) (es : List TrackEntry) : List TrackEntry × Bool :=
  let r := (s.usedSources i).foldl (fun acc c =>
    mergeBinding (s.signatures (s.copy i).mux) acc c.2 { svc := i / 4, slot := i % 4, comp := c.1, whole := false, unobs := false }) (es, false)
  if r.2 then
    (r.1.map (fun e => { e with bindings := e.bindings.map (fun b => if b.ofCopy i then { b with unobs := true } else b) }),
      true)
  else r

/-- The tracker of a lane with other entries. -/
def State.putEntries (s : State) (lane : Nat) (es : List TrackEntry) : State :=
  s.putTracker lane { s.tracker lane with entries := es }

/-- A lane 0–15 that observes multiplex `x` merges a copy as stored (R46). -/
def State.mergeOn (s : State) (x i : Nat) : State :=
  match s.observerOf x with
  | none => s
  | some lane =>
    let r := s.mergeCopy i (s.tracker lane).entries
    let s1 := s.putEntries lane r.1
    if r.2 then s1.raiseOn x .trackOverflow else s1

/-- A lane 0–15 that observes multiplex `x` removes a copy's bindings (R46). -/
def State.removeOn (s : State) (x i : Nat) : State :=
  match s.observerOf x with
  | none => s
  | some lane => s.putEntries lane (removeCopy i (s.tracker lane).entries)

/-- A new signature identifier gains its entry; the flag says whether one found none. Several new ones take the list's room
in the order of the signature list: DESIGN CHOICE (notes/assumptions/29). -/
def gainSignature (acc : List TrackEntry × Bool) (ident : Nat) : List TrackEntry × Bool :=
  match touchEntry acc.1 ident true (fun e => { e with sig := true }) with
  | some es => (es, acc.2)
  | none => (acc.1, true)

/-- The observing lane follows a change of a multiplex's signature list from `old` to the list as stored: entries gain or
lose their role, and the new identifiers alone gain entries (R17, R46). -/
def State.followSignatures (s : State) (x : Nat) (old : List Nat) : State :=
  match s.observerOf x with
  | none => s
  | some lane =>
    let kept := prune ((s.tracker lane).entries.map (fun e => { e with sig := (s.mux x).sigs.contains e.ident }))
    let r := ((s.mux x).sigs.filter (fun i => !old.contains i)).foldl gainSignature (kept, false)
    let s1 := s.putEntries lane r.1
    if r.2 then s1.raiseOn x .trackOverflow else s1

/-- The (component, identifier) pairs under which a track list binds a copy, with the copy's unobservable mark. -/
def boundPairs (es : List TrackEntry) (i : Nat) : List (Nat × Nat × Bool) :=
  es.flatMap (fun e => (e.bindings.filter (Binding.ofCopy i)).map (fun b => (b.comp, e.ident, b.unobs)))

/-- The mark a kept binding had in the old list. -/
def oldWhole (es : List TrackEntry) (ident : Nat) (b : Binding) : Bool :=
  es.any (fun e => decide (e.ident = ident) &&
    e.bindings.any (fun c => decide (c.svc = b.svc) && decide (c.slot = b.slot) && decide (c.comp = b.comp) && c.whole))

/-- One entry of a rebuild of lane 16: a kept identifier keeps its continuity state and counts, and the bindings of
copies the rebuild adds or changes are partial (R55). A copy that keeps its bound (component, identifier) pairs and its
observability, as after a change of unused positions only, is not changed: DESIGN CHOICE (notes/assumptions/30). -/
def rebuildEntry (old new : List TrackEntry) (e : TrackEntry) : TrackEntry :=
  let marked := e.bindings.map (fun b =>
    let i := copyIndex b.svc b.slot
    { b with whole := decide (boundPairs old i = boundPairs new i) && oldWhole old e.ident b })
  match old.find? (fun o => decide (o.ident = e.ident)) with
  | some o => { o with sig := e.sig, bindings := marked }
  | none => { e with bindings := marked }

/-- The rebuild of lane 16's track list (R55). -/
def State.rebuildLocal (s : State) : State :=
  let old := (s.tracker insertionLane).entries
  let new := s.buildEntries localMux
  let s1 := s.putEntries insertionLane (new.map (rebuildEntry old new))
  if (s.neededSet localMux).length ≤ Config.trackCap then s1 else s1.raiseOn localMux .trackOverflow

/-! ## Continuity (R48) -/

/-- Table 28: the judgement of a packet against an entry's last count and repeat mark: break, new last count, new mark. -/
def judge (last : Option Nat) (mark payload : Bool) (cc : Nat) : Bool × Nat × Bool :=
  match last with
  | none => (false, cc, false)
  | some c =>
    if payload then
      if cc = (c + 1) % 16 then (false, cc, false)
      else if cc = c then (if mark then (true, c, true) else (false, c, true))
      else (true, cc, false)
    else if cc = c then (false, c, mark)
    else (true, cc, false)

/-- A tracked packet is counted and judged (R48). -/
def TrackEntry.count (e : TrackEntry) (p : Packet) : TrackEntry :=
  let j := judge e.lastCc e.repeated (Packet.payload p) (Packet.cc p)
  { e with pkts := satAdd Config.max24 e.pkts 1, breaks := satAdd Config.max16 e.breaks (if j.1 then 1 else 0),
           lastCc := some j.2.1, repeated := j.2.2 }

/-! ## The lane census (R50 to R52) -/

/-- The census with one more packet of an identifier that has an entry. -/
def censusAdd (ident : Nat) (l : List (Nat × Nat)) : List (Nat × Nat) :=
  l.map (fun e => if e.1 = ident then (e.1, satAdd Config.max16 e.2 1) else e)

/-- An unknown packet is recorded in the lane census (R50). -/
def Tracker.recordUnknown (t : Tracker) (ident : Nat) : Tracker :=
  if t.census.any (fun e => decide (e.1 = ident)) then { t with census := censusAdd ident t.census }
  else if t.census.length < Config.censusCap then { t with census := t.census ++ [(ident, 1)] }
  else { t with overflow := satAdd Config.max16 t.overflow 1 }

/-- Order of a close set: descending count, between equal counts ascending identifier (R52). -/
def censusBefore (a b : Nat × Nat) : Bool := decide (b.2 < a.2) || (decide (a.2 = b.2) && decide (a.1 < b.1))

/-- An entry joins a close set in its order. -/
def insertCensus (e : Nat × Nat) : List (Nat × Nat) → List (Nat × Nat)
  | [] => [e]
  | f :: t => if censusBefore e f then e :: f :: t else f :: insertCensus e t

/-- The close set of a census (R52). -/
def closeSet (minimum : Nat) (l : List (Nat × Nat)) : List (Nat × Nat) :=
  ((l.filter (fun e => decide (minimum ≤ e.2))).foldr insertCensus []).take Config.recordCap

/-- Two lists of pairs name the same identifiers. -/
def sameIds (a b : List (Nat × Nat)) : Bool :=
  a.all (fun e => b.any (fun f => decide (f.1 = e.1))) && b.all (fun e => a.any (fun f => decide (f.1 = e.1)))

/-- The close of a lane's census, compared with the record of its multiplex, or of LOCAL (R51, R52, R55). -/
def State.closeCensus (s : State) (lane x : Nat) : State :=
  let t := s.tracker lane
  let cs := closeSet s.settings.censusMin t.census
  let s1 := (s.putTracker lane { t with census := [], overflow := 0, windows := 0 }).putCensusRec x
    (some { pairs := cs, overflow := t.overflow })
  match s.censusRec x with
  | none => s1
  | some r => if sameIds r.pairs cs then s1 else s1.raiseOn x .censusChange

/-! ## Figures for the window report (R49) -/

/-- A copy is observable for the window: defined on the multiplex, with every used component bound whole-window and not
unobservable (R49). -/
def State.hasLine (s : State) (es : List TrackEntry) (i : Nat) : Bool :=
  (s.usedSources i).all (fun c => es.any (fun e => decide (e.ident = c.2) &&
    e.bindings.any (fun b => b.ofCopy i && decide (b.comp = c.1) && b.whole && !b.unobs)))

/-- The entry of an identifier. -/
def entryOf (es : List TrackEntry) (ident : Nat) : TrackEntry :=
  (es.find? (fun e => decide (e.ident = ident))).getD { ident := ident }

/-- The line of a copy (R49). -/
def State.lineOf (s : State) (es : List TrackEntry) (i : Nat) : CopyLine :=
  { svc := i / 4, slot := i % 4, counts := (s.usedSources i).map (fun c => (entryOf es c.2).pkts),
    breaks := ((s.usedSources i).map (fun c => (entryOf es c.2).breaks)).sum }

/-- The lines of a lane's window, ascending (service, slot) (R49). -/
def State.copyLines (s : State) (lane x : Nat) : List CopyLine :=
  ((s.copiesOn x).filter (s.hasLine (s.tracker lane).entries)).map (s.lineOf (s.tracker lane).entries)

/-- The signature packet total of a lane's window (R49). -/
def State.signatureTotal (s : State) (lane : Nat) : Nat :=
  (((s.tracker lane).entries.filter (·.sig)).map (·.pkts)).sum

/-- After the hand-over: window counts 0 and every binding whole-window; the census window count rises (R49, R50). -/
def Tracker.nextWindow (t : Tracker) : Tracker :=
  { t with entries := t.entries.map (fun e => { e with pkts := 0, breaks := 0, bindings := e.bindings.map (fun b => { b with whole := true }) }),
           windows := t.windows + 1 }

/-! ## Sorting packets (R47, R53, R54) -/

/-- A binding forwards while its copy is the selected copy or the target of its service (R53). -/
def State.forwards (s : State) (b : Binding) : Bool :=
  decide ((s.rank b.svc).selected = some b.slot) || decide ((s.rank b.svc).target = some b.slot)

/-- A lane offers packets: lane 16, or the lane of a LIVE tuner (R53). -/
def State.offersPackets (s : State) (lane : Nat) : Bool := decide (lane = insertionLane) || decide (s.role lane = .live)

/-- One offer per forwarding binding of an identifier's entry, in their order (R53, notes/assumptions/26). -/
def State.offerAll (s : State) (lane : Nat) (p : Packet) : State :=
  if s.offersPackets lane then
    ((((s.tracker lane).entries.filter (fun e => decide (e.ident = Packet.ident p))).flatMap (·.bindings)).filter s.forwards).foldl
      (fun s b => s.offer p b.svc b.slot b.comp) s
  else s

/-- A lane 16 packet under a command identifier, as the settings stand (R47, R54). -/
def State.isCommand (s : State) (lane : Nat) (p : Packet) : Bool :=
  decide (lane = insertionLane) &&
    (decide (Packet.ident p = s.settings.mgmtId) || decide (Packet.ident p = s.settings.instId))

/-- The authority of a command packet's identifier (R54). -/
def State.authority (s : State) (p : Packet) : Authority :=
  if Packet.ident p = s.settings.mgmtId then .property else .installer

/-- The MU takes a command packet: discarded as corrupt, queued, or dropped (R165). -/
def State.takeCommand (s : State) (p : Packet) : State :=
  if Packet.flagged p then s.raise .device 0 .commandCorrupt
  else if s.inbound.length < Config.inboundCap then s.setInbound (s.inbound ++ [{ auth := s.authority p, bytes := p }])
  else s.raise .device 0 .commandOverrun

/-- The entry of the packet's identifier counts it (R48). -/
def State.countPacket (s : State) (lane : Nat) (p : Packet) : State :=
  s.putEntries lane ((s.tracker lane).entries.map (fun e => if e.ident = Packet.ident p then e.count p else e))

/-- The first class of Table 27 that fits a delivered packet, and its handling (R47). -/
def State.sortPacket (s : State) (lane : Nat) (p : Packet) : State :=
  if s.isCommand lane p then s.takeCommand p
  else if Packet.ident p = nullId then s
  else if Packet.flagged p then s.offerAll lane p
  else if (s.tracker lane).entries.any (fun e => decide (e.ident = Packet.ident p)) then
    (s.countPacket lane p).offerAll lane p
  else s.putTracker lane ((s.tracker lane).recordUnknown (Packet.ident p))

end Sys2Proof.Machine
end

