-- ==== Sys2Proof/Machine/Buses.lean ====
section
/-! DEFINITION. The Tuner Bus Controller (Chapter 5): runs, bus queues, deferred requests, withdrawal, and the ends of
steps. -/

namespace Sys2Proof.Machine

/-! ## Run records (R76) -/

/-- The head of a run, read when it is created (Table 38). -/
def State.headFor (s : State) (t : Nat) (p : Purpose) (x : Nat) : Nat :=
  match p with
  | .tune => (s.mux x).head
  | .measure => (s.tunerRec t).measure
  | .release => (s.tunerRec t).release.getD 0

/-- A run as the tables stand (R76). -/
def State.newRun (s : State) (t : Nat) (p : Purpose) (x : Nat) : Run :=
  { tuner := t, purpose := p, mux := x, bus := (s.tunerRec t).bus, base := (s.tunerRec t).addr, head := s.headFor t p x }

/-- A run is of a tuner and purpose. -/
def Run.isOf (t : Nat) (p : Purpose) (r : Run) : Bool := decide (r.tuner = t) && decide (r.purpose = p)

/-- A deferred request is of a tuner and purpose. -/
def Deferred.isOf (t : Nat) (p : Purpose) (r : Deferred) : Bool := decide (r.tuner = t) && decide (r.purpose = p)

/-- The bus has a queued run of a tuner and purpose. -/
def Bus.queues (b : Bus) (t : Nat) (p : Purpose) : Bool := b.queue.any (Run.isOf t p)

/-- The bus's run is of a tuner and purpose. -/
def Bus.runs (b : Bus) (t : Nat) (p : Purpose) : Bool := b.run.any (Run.isOf t p)

/-- The bus holds a deferred request of a tuner and purpose. -/
def Bus.defers (b : Bus) (t : Nat) (p : Purpose) : Bool := b.deferred.any (Deferred.isOf t p)

/-- The bus with a property. -/
def State.findBus (s : State) (f : Bus → Bool) : Option Nat := (List.range 4).find? (fun b => f (s.bus b))

/-! ## Queues (R84, R85) -/

/-- Class 1 runs are TUNE and RELEASE runs (R84). -/
def Run.classOne (r : Run) : Bool := !decide (r.purpose = .measure)

/-- A run joins a queue: class 1 behind every class 1 run and ahead of every class 2 run, class 2 at the tail (R84). -/
def joinQueue (r : Run) (q : List Run) : List Run :=
  if r.classOne then q.filter Run.classOne ++ [r] ++ q.filter (fun x => !x.classOne) else q ++ [r]

/-- A run joins the queue of its bus (R84). -/
def State.enqueue (s : State) (r : Run) : State :=
  s.putBus r.bus { s.bus r.bus with queue := joinQueue r (s.bus r.bus).queue }

/-- A deferred request can be placed: room in the queue, and no run of its tuner and purpose queued or running (R85). -/
def State.placeable (s : State) (d : Deferred) : Bool :=
  decide ((s.bus (s.tunerRec d.tuner).bus).queue.length < Config.busQueueCap) &&
    (s.findBus (fun b => b.queues d.tuner d.purpose || b.runs d.tuner d.purpose)).isNone

/-- One deferred request of a bus: placed as a new run when it can be, kept otherwise (R85). -/
def State.placeOne (b : Nat) (s : State) (d : Deferred) : State :=
  if s.placeable d then s.enqueue (s.newRun d.tuner d.purpose d.mux)
  else s.putBus b { s.bus b with deferred := (s.bus b).deferred ++ [d] }

/-- The deferred requests of a bus from the oldest (R85). -/
def State.placeDeferred (s : State) (b : Nat) : State :=
  (s.bus b).deferred.foldl (State.placeOne b) (s.putBus b { s.bus b with deferred := [] })

/-! ## Steps (R77 to R82) -/

/-- The checks of R77 in their order, and the range check that a WRITE or READ step makes before any bus activity
(R79, R80); on success, the run with its new current step. -/
def State.enterStep (s : State) (r : Run) (idx : Nat) : Run × Option RunOutcome :=
  let st := s.step idx
  if Config.stepCap ≤ r.steps then (r, some .loopLimit)
  else if 511 < idx then (r, some .range)
  else if st.kind = .none then (r, some .range)
  else
    let cur : Current := { index := idx, step := st, phase := if st.kind = .wait then .pause else .transfer, since := s.now,
                           readSince := s.now, interval := s.settings.pollInterval, timedOut := false }
    let r1 := { r with steps := r.steps + 1, current := some cur }
    if (st.kind = .write ∨ st.kind = .read) ∧ 4095 < st.byteOff + st.count - 1 then (r1, some .range)
    else (r1, none)

/-- The address of a step's transfer (R78). -/
def transferAddr (r : Run) (st : Step) : Nat := (r.base + st.addrOff) % 128

/-- An IDLE bus with a run waiting starts it, reading its first step; a run whose checks fail there is left to end
(R77, R84, notes/assumptions/4). -/
def State.startNext (s : State) (b : Nat) : State :=
  let u := s.bus b
  if u.state = .idle ∧ u.finishing = false then
    match u.queue with
    | [] => s
    | r :: rest =>
      let e := s.enterStep { r with clock := s.settings.busClock } r.head
      let s1 := s.putBus b { u with state := .running, run := some { e.1 with failing := e.2 }, queue := rest }
      if e.2.isSome && !s.settled.contains (r.tuner, r.purpose) then
        (s1.setSettled ((r.tuner, r.purpose) :: s1.settled)).post (.checkEnd b)
      else s1
  else s

/-- Deferred requests are placed, IDLE buses start their next runs, and the room that leaves is filled (R84, R85,
notes/assumptions/11). -/
def State.kick (s : State) : State :=
  let s1 := (List.range 4).foldl State.placeDeferred s
  let s2 := (List.range 4).foldl State.startNext s1
  (List.range 4).foldl State.placeDeferred s2

/-- A run ends: its outcome goes to its requester, ABORTED when it was withdrawn; BUS_FAULT for ACK_FAIL and BUS_STALL;
the bus returns to IDLE, or enters RECOVERING after a stall (R76, R83, R84, R86, R87). The next queued run starts before the
requester acts on the outcome: DESIGN CHOICE (notes/assumptions/32). -/
def State.endRun (s : State) (b : Nat) (o : RunOutcome) : State :=
  match (s.bus b).run with
  | none => s
  | some r =>
    let out := if r.withdrawn then .aborted else o
    let s1 := s.putBus b { s.bus b with run := none, state := if o = .busStall then .recovering else .idle }
    let s2 := if o = .ackFail ∨ o = .busStall then s1.raise .tuner r.tuner .busFault else s1
    (s2.post (.runDone r.tuner r.purpose out (if out = .done then r.margin else none))).kick

/-- A run goes to a step, or ends by a check (R77). -/
def State.goTo (s : State) (b : Nat) (r : Run) (idx : Nat) : State :=
  let e := s.enterStep r idx
  let s1 := s.putBus b { s.bus b with run := some e.1 }
  match e.2 with
  | some o => s1.endRun b o
  | none => s1

/-- The current step of a bus completed without failure: ABORTED for a withdrawn run, otherwise the next step or DONE
(R77, R86). -/
def State.stepDone (s : State) (b : Nat) : State :=
  match (s.bus b).run with
  | none => s
  | some r =>
    if r.withdrawn then s.endRun b .aborted
    else match r.current with
      | none => s
      | some c =>
        match c.step.next with
        | none => s.endRun b .done
        | some i => s.goTo b r i

/-- The run on a bus whose checks failed at its start ends with that outcome (R77). -/
def State.endFailing (s : State) (b : Nat) : State :=
  match (s.bus b).run with
  | none => s
  | some r =>
    match r.failing with
    | none => s
    | some o => s.endRun b o

/-! ## Requests and withdrawal (R85, R86) -/

/-- A queued run takes the fields of a new request (R85). -/
def mergeRun (n r : Run) : Run :=
  if Run.isOf n.tuner n.purpose r then { r with mux := n.mux, bus := n.bus, base := n.base, head := n.head } else r

/-- A request becomes deferred on a bus, merged into a deferred request of its tuner and purpose (R85). -/
def State.defer (s : State) (b : Nat) (d : Deferred) : State :=
  match s.findBus (fun u => u.defers d.tuner d.purpose) with
  | some k =>
    s.putBus k { s.bus k with deferred := (s.bus k).deferred.map (fun e => if e.isOf d.tuner d.purpose then d else e) }
  | none => s.putBus b { s.bus b with deferred := (s.bus b).deferred ++ [d] }

/-- A request for a run (R85). -/
def State.requestRun (s : State) (t : Nat) (p : Purpose) (x : Nat) : State :=
  let n := s.newRun t p x
  match s.findBus (fun u => u.queues t p) with
  | some k => s.putBus k { s.bus k with queue := (s.bus k).queue.map (mergeRun n) }
  | none =>
    match s.findBus (fun u => u.runs t p) with
    | some k => s.defer k { tuner := t, purpose := p, mux := x }
    | none =>
      if (s.bus n.bus).queue.length < Config.busQueueCap then (s.enqueue n).kick
      else s.defer n.bus { tuner := t, purpose := p, mux := x }

/-- A withdrawal of the run of a tuner and purpose, as it stands (R86). -/
def State.withdrawRun (s : State) (t : Nat) (p : Purpose) : State :=
  match s.findBus (fun u => u.defers t p) with
  | some k =>
    (s.putBus k { s.bus k with deferred := (s.bus k).deferred.filter (fun e => !e.isOf t p) }).post
      (.runDone t p .aborted none)
  | none =>
    match s.findBus (fun u => u.queues t p) with
    | some k =>
      ((s.putBus k { s.bus k with queue := (s.bus k).queue.filter (fun r => !r.isOf t p) }).post
        (.runDone t p .aborted none)).kick
    | none =>
      match s.findBus (fun u => u.runs t p) with
      | some k => s.putBus k { s.bus k with run := (s.bus k).run.map (fun r => { r with withdrawn := true }) }
      | none => s

/-! ## Ends of steps, as their events bring them (R79 to R83) -/

/-- The executing step of a bus, when its kind and phase are as given. -/
def State.executing (s : State) (b : Nat) (k : StepKind) (ph : StepPhase) : Option (Run × Current) :=
  match (s.bus b).run with
  | none => none
  | some r =>
    match r.current with
    | none => none
    | some c =>
      if r.failing = none ∧ c.step.kind = k ∧ c.phase = ph ∧ (s.bus b).state = .running then some (r, c) else none

/-- The pool bytes a step names, ascending offsets (R79). -/
def State.poolBytes (s : State) (off count : Nat) : List Byte := (List.range count).map (fun i => s.poolByte (off + i))

/-- Bytes written into the pool from an offset on (R75, R80). -/
def State.storePool (s : State) (off : Nat) : List Byte → State
  | [] => s
  | x :: xs => (s.putPoolByte off x).storePool (off + 1) xs

/-- The two-wire lines carried a transfer. -/
def State.noteTransfer (s : State) (b : Nat) (t : Transfer) : State := s.putBus b { s.bus b with lastTransfer := some t }

/-- The bus with its current step replaced. -/
def State.putCurrent (s : State) (b : Nat) (r : Run) (c : Current) : State :=
  s.putBus b { s.bus b with run := some { r with current := some c } }

/-- The bytes of a WRITE step's transfer when `n` are on the lines: those already put there, and the next ones as the pool
now holds them (R75, R79). -/
def State.sentTo (s : State) (c : Current) (n : Nat) : List Byte :=
  c.bytes ++ s.poolBytes (c.step.byteOff + c.bytes.length) (n - c.bytes.length)

/-- A WRITE step's transfer goes on or ends (R78, R79, notes/assumptions/15, 16). -/
def State.endWrite (s : State) (b : Nat) (a : WriteAnswer) : State :=
  match s.executing b .write .transfer with
  | none => s
  | some (r, c) =>
    let sent := fun n => s.noteTransfer b { addr := transferAddr r c.step, read := false, bytes := s.sentTo c n }
    match a with
    | .bytesPut n =>
      if c.bytes.length + n ≤ c.step.count then s.putCurrent b r { c with bytes := s.sentTo c (c.bytes.length + n) } else s
    | .noAddress => if c.bytes = [] then (sent 0).endRun b .ackFail else s
    | .byteRefused i =>
      if c.bytes.length ≤ i + 1 ∧ i < c.step.count then (sent (i + 1)).endRun b .ackFail else s
    | .allAcked => (sent c.step.count).stepDone b

/-- The captured margin of a run after a READ step (R80). -/
def captured (r : Run) (st : Step) (bs : List Byte) : Option Nat :=
  if st.capture = .margin then bs.getLast?.map BitVec.toNat else r.margin

/-- Bytes of a READ step's transfer are stored as they are received, after those already received (R80). -/
def State.storeReceived (s : State) (c : Current) (bs : List Byte) : State :=
  s.storePool (c.step.byteOff + c.bytes.length) bs

/-- The bytes that a READ transfer ended by a soft reset had received, with the byte it completes, reach the pool
(R80, R89). -/
def State.endTail (s : State) (b : Nat) (bs : List Byte) : State :=
  match (s.bus b).tail with
  | none => s
  | some (off, left) =>
    if bs.length ≤ left then (s.putBus b { s.bus b with tail := none }).storePool off bs else s

/-- The bytes that an answer brings. -/
def receivedBytes : ReadAnswer → List Byte
  | .bytesIn bs => bs
  | .received bs => bs
  | .noAddress => []

/-- A READ step's transfer goes on or ends (R80, notes/assumptions/15, 16). -/
def State.endRead (s : State) (b : Nat) (a : ReadAnswer) : State :=
  match s.executing b .read .transfer with
  | none => s.endTail b (receivedBytes a)
  | some (r, c) =>
    let note := fun s bs => State.noteTransfer s b { addr := transferAddr r c.step, read := true, bytes := bs }
    match a with
    | .noAddress => if c.bytes = [] then (note s []).endRun b .ackFail else s
    | .bytesIn bs =>
      if c.bytes.length + bs.length ≤ c.step.count then
        (s.storeReceived c bs).putCurrent b r { c with bytes := c.bytes ++ bs }
      else s
    | .received bs =>
      if c.bytes.length + bs.length = c.step.count then
        let s1 := (note s (c.bytes ++ bs)).storeReceived c bs
        (s1.putBus b { s1.bus b with run := some { r with margin := captured r c.step (c.bytes ++ bs) } }).stepDone b
      else s

/-- A byte satisfies a POLL step (R81). -/
def satisfies (st : Step) (x : Byte) : Bool := decide (x &&& st.mask = st.want)

/-- One read of a POLL step ends (R81). -/
def State.endPollRead (s : State) (b : Nat) (a : Option Byte) : State :=
  match s.executing b .poll .transfer with
  | none => s
  | some (r, c) =>
    let s1 := s.noteTransfer b { addr := transferAddr r c.step, read := true, bytes := a.toList }
    match a with
    | none => s1.endRun b .ackFail
    | some x =>
      if satisfies c.step x then s1.stepDone b
      else if c.timedOut then s1.endRun b .pollTimeout
      else s1.putCurrent b r { c with phase := .pause }

/-- One poll interval after the last read began the next read begins, while the time value has not yet run out (R81). An
interval that passes while that read is in progress begins none, and the read begins at an expiry after it: DESIGN CHOICE
(notes/assumptions/39). -/
def State.nextPollRead (s : State) (b : Nat) : State :=
  match s.executing b .poll .pause with
  | none => s
  | some (r, c) =>
    let s1 := s.reach (c.readSince + c.interval)
    if s1.now < c.since + c.step.time then s1.putCurrent b r { c with phase := .transfer, readSince := s1.now } else s

/-- The time value of a POLL step runs out: a read in progress is still judged, otherwise the step fails (R81). -/
def State.endPollTime (s : State) (b : Nat) : State :=
  match s.executing b .poll .pause with
  | some (_, c) => (s.reach (c.since + c.step.time)).endRun b .pollTimeout
  | none =>
    match s.executing b .poll .transfer with
    | some (r, c) => (s.reach (c.since + c.step.time)).putCurrent b r { c with timedOut := true }
    | none => s

/-- The time value of a WAIT step elapses (R82). -/
def State.endWait (s : State) (b : Nat) : State :=
  match s.executing b .wait .pause with
  | none => s
  | some (_, c) => (s.reach (c.since + c.step.time)).stepDone b

/-- A transfer is under way on a bus. -/
def State.transferring (s : State) (b : Nat) : Bool :=
  (s.executing b .write .transfer).isSome || (s.executing b .read .transfer).isSome ||
    (s.executing b .poll .transfer).isSome

/-- A line held low for more than 25 ms (R83): the run ends BUS_STALL, after the bytes a READ step had received are in
the pool (R80); a stall while a soft reset finishes the bus raises nothing (R89). `received` are the bytes not yet shown. -/
def State.stall (s : State) (b : Nat) (received : List Byte) : State :=
  if s.transferring b then
    match s.executing b .read .transfer with
    | some (_, c) => (s.storeReceived c (received.take (c.step.count - c.bytes.length))).endRun b .busStall
    | none => s.endRun b .busStall
  else if (s.bus b).finishing && decide ((s.bus b).state = .idle) then
    let s1 := s.endTail b received
    s1.putBus b { s1.bus b with state := .recovering, tail := none }
  else s

/-- A bus leaves RECOVERING and may start its next run (R83). -/
def State.leaveRecovery (s : State) (b : Nat) : State :=
  if (s.bus b).state = .recovering then (s.putBus b { s.bus b with state := .idle, finishing := false, tail := none }).kick else s

/-- Where the bytes still to come of a READ transfer under way go: the offset of the next and how many (R80, R89). -/
def State.readTail (s : State) (b : Nat) : Option (Nat × Nat) :=
  (s.executing b .read .transfer).map (fun e => (e.2.step.byteOff + e.2.bytes.length, e.2.step.count - e.2.bytes.length))

/-- Soft reset of one bus (R89). -/
def State.resetBus (s : State) (b : Nat) : State :=
  let u := s.bus b
  s.putBus b { u with state := if u.state = .recovering then .recovering else .idle, run := none, queue := [],
                      deferred := [], finishing := u.finishing || s.transferring b || decide (u.state = .recovering),
                      tail := (s.readTail b).orElse (fun _ => u.tail) }

end Sys2Proof.Machine
end

