-- ==== Sys2Proof/Machine/Monitor.lean ====
section
/-! DEFINITION. The Quality Monitor (Chapter 4): window counters, expiry, margins, lane status, mismatch, the end of an
observation. -/

namespace Sys2Proof.Machine

/-- The multiplex of a lane's observation; LOCAL on lane 16 (Table 34). -/
def State.laneMux (s : State) (lane : Nat) : Nat :=
  if lane = insertionLane then localMux else (s.tuner lane).mux.getD 0

/-! ## Window counters (R61, R62, R71) -/

/-- The window of a lane counts, when it has one. -/
def QmLane.inWindow (q : QmLane) (f : QmLane → QmLane) : QmLane := if q.window.isSome then f q else q

/-- A delivery notice counted in the window (R61). -/
def QmLane.addPacket (flagged : Bool) (q : QmLane) : QmLane :=
  { q with p := satAdd Config.max24 q.p 1, sat := q.sat || decide (q.p = Config.max24),
           e := satAdd Config.max24 q.e (if flagged then 1 else 0) }

/-- A delivery notice (R61, R71). -/
def State.qmPacket (s : State) (lane : Nat) (flagged : Bool) : State :=
  let l := s.lifetime lane
  (s.putQmLane lane ((s.qmLane lane).inWindow (QmLane.addPacket flagged))).putLifetime lane
    { l with p := satAdd Config.max32 l.p 1, e := satAdd Config.max32 l.e (if flagged then 1 else 0) }

/-- A sync-error addition (R37, R62). -/
def State.qmSyncError (s : State) (lane n : Nat) : State :=
  let l := s.lifetime lane
  (s.putQmLane lane ((s.qmLane lane).inWindow (fun q => { q with y := satAdd Config.max24 q.y n }))).putLifetime lane
    { l with y := satAdd Config.max32 l.y n }

/-- A loss (R39, R62). -/
def State.qmLoss (s : State) (lane : Nat) : State :=
  let l := s.lifetime lane
  (s.putQmLane lane ((s.qmLane lane).inWindow (fun q => { q with s := satAdd Config.max16 q.s 1 }))).putLifetime lane
    { l with s := satAdd Config.max32 l.s 1 }

/-- A realignment (R31, R62). -/
def State.qmRealign (s : State) (lane : Nat) : State :=
  let l := s.lifetime lane
  (s.putQmLane lane ((s.qmLane lane).inWindow (fun q => { q with r := satAdd Config.max16 q.r 1 }))).putLifetime lane
    { l with r := satAdd Config.max32 l.r 1 }

/-- Locked time up to an instant (R62), in whole milliseconds (notes/assumptions/13). -/
def QmLane.lockedUntil (q : QmLane) (now : Nat) : Nat :=
  match q.lockSince with
  | some t => q.lockedMs + (now - t)
  | none => q.lockedMs

/-- The window state as it stands at an instant: its locked time includes the running spell, up to the window's length
(R62, R169, Table 32). -/
def QmLane.atInstant (q : QmLane) (now : Nat) : QmLane :=
  { q with lockedMs := min (q.lockedUntil now) ((q.window.map (·.2)).getD 0), lockSince := none }

/-- A change of the in-lock condition (R38, R62). -/
def State.qmLock (s : State) (lane : Nat) (inLock : Bool) : State :=
  s.putQmLane lane ((s.qmLane lane).inWindow (fun q =>
    if inLock then { q with lockSince := some (q.lockSince.getD s.now) }
    else { q with lockedMs := q.lockedUntil s.now, lockSince := none }))

/-- The first window of an observation starts at the first lock (R59). -/
def State.startWindow (s : State) (lane : Nat) : State :=
  s.putQmLane lane { s.qmLane lane with window := some (s.now, s.settings.winLen), seq := 0, p := 0, e := 0, y := 0, s := 0,
                                        r := 0, lockedMs := 0, lockSince := some s.now, sat := false }

/-! ## Completion of reports (R65, R66, R70) -/

/-- A completed report goes to the SCH while its tuner has role SCAN (R70). -/
def State.reportsToSch (s : State) (r : Report) : Bool := decide (r.lane ≠ insertionLane) && decide (s.role r.lane = .scan)

/-- A completed report goes to the RE, and to the SCH while its tuner has role SCAN (R70). -/
def State.completeReport (s : State) (r : Report) : State := s.post (.report r (s.reportsToSch r))

/-- The hold rule (R65): the margin and margin state of a report without a fresh margin. -/
def QmLane.heldMargin (q : QmLane) : Nat × MarginState :=
  match q.lastFresh with
  | some m => if q.hold ≤ 2 then (m, .held) else (0, .none)
  | none => (0, .none)

/-- The window state after a completion under the hold rule (R65). -/
def QmLane.afterHeld (q : QmLane) : QmLane := { q with pending := none, hold := min 255 (q.hold + 1) }

/-- A report completed under the hold rule (R65). -/
def QmLane.heldReport (q : QmLane) (r : Report) : Report :=
  { r with margin := q.heldMargin.1, marginState := q.heldMargin.2 }

/-- The pending report of a lane completes under the hold rule (R60, R65). -/
def State.completeHeld (s : State) (lane : Nat) : State :=
  let q := s.qmLane lane
  match q.pending with
  | none => s
  | some r => (s.putQmLane lane q.afterHeld).completeReport (q.heldReport r)

/-- The pending report of a lane completes with the margin that was read (R65). -/
def State.completeFresh (s : State) (lane m : Nat) : State :=
  let q := s.qmLane lane
  match q.pending with
  | none => s
  | some r =>
    (s.putQmLane lane { q with pending := none, lastFresh := some m, hold := 0 }).completeReport
      { r with margin := m, marginState := .fresh }

/-- The outcome of a MEASURE run reaches the QM (R60, R65). -/
def State.measureOutcome (s : State) (t : Nat) (o : RunOutcome) (margin : Option Nat) : State :=
  let q := s.qmLane t
  if q.awaited then s.putQmLane t { q with awaited := false }
  else
    let s1 := s.putQmLane t { q with outstanding := false }
    match o, margin with
    | .done, some m => s1.completeFresh t m
    | _, _ => s1.completeHeld t

/-! ## Expiry (R63, R64, R68, R69) -/

/-- Locked per-mille of a window (R62). -/
def lockedPerMille (lockedMs len : Nat) : Nat := min lockedMs len * 1000 / len

/-- The window is degraded (R68). -/
def degradedWindow (excess e y l : Nat) : Bool := decide (excess ≤ e + y) || decide (l < 950)

/-- The lane's status judged from an expired window (R68). -/
def State.judgeStatus (s : State) (lane : Nat) (bad : Bool) : State :=
  let q := s.qmLane lane
  if bad then
    let n := min 4 (q.degCount + 1)
    let s1 := s.putQmLane lane { q with degraded := true, degCount := n }
    let s2 := if q.degraded then s1 else s1.raise .lane lane .degraded true
    if n = 4 ∧ q.degCount ≠ 4 then s2.raise .lane lane .persistent true else s2
  else
    let s1 := s.putQmLane lane { q with degraded := false, degCount := 0 }
    let s2 := if q.degraded then s1.raise .lane lane .degraded false else s1
    if q.degCount = 4 then s2.raise .lane lane .persistent false else s2

/-- The mismatch flag of a window (R69). -/
def State.mismatchFlag (s : State) (lane x : Nat) : Bool :=
  !(s.signatures x).isEmpty && decide (s.signatureTotal lane = 0)

/-- The mismatch status of a multiplex judged at an expiry with P above 0 (R69). -/
def State.judgeMismatch (s : State) (x p : Nat) (flag : Bool) : State :=
  if x = localMux ∨ p = 0 ∨ s.mismatched x = flag then s
  else (s.putMismatched x flag).raise .multiplex x .mismatch flag

/-- The report of a lane's expired window, its margin still open (R63, R70). -/
def State.formReport (s : State) (lane : Nat) : Report :=
  let q := s.qmLane lane
  let x := s.laneMux lane
  let len := (q.window.map (·.2)).getD 0
  { lane := lane, mux := x, seq := q.seq, len := len, p := q.p, e := q.e, sat := q.sat, y := q.y, s := q.s, r := q.r,
    l := lockedPerMille (q.lockedUntil s.now) len, margin := 0, marginState := .none,
    mismatch := s.mismatchFlag lane x, lines := s.copyLines lane x }

/-- The lane's census closes by the census period: on lane 16, and on the lane of a LIVE tuner that is OBSERVING
(R51, R55). -/
def State.closesByPeriod (s : State) (lane : Nat) : Bool :=
  (decide (lane = insertionLane) || (decide (s.role lane = .live) && decide ((s.tuner lane).state = .observing))) &&
    decide (s.settings.censusPeriod ≤ (s.tracker lane).windows)

/-- The next window starts at the instant of the expiry (R59, R63). -/
def State.nextWindow (s : State) (lane : Nat) : State :=
  let q := s.qmLane lane
  s.putQmLane lane { q with window := some (s.now, s.settings.winLen), seq := (q.seq + 1) % 65536, p := 0, e := 0, y := 0,
                            s := 0, r := 0, lockedMs := 0, lockSince := q.lockSince.map (fun _ => s.now), sat := false }

/-- A lane's report becomes pending, and a MEASURE run is requested when none is outstanding (R64); on lane 16 it
completes at once with margin 200 (R67). -/
def State.fileReport (s : State) (lane : Nat) (r : Report) : State :=
  if lane = insertionLane then s.completeReport { r with margin := 200, marginState := .fresh }
  else
    let q := s.qmLane lane
    let s1 := s.putQmLane lane { q with pending := some r, outstanding := true }
    if q.outstanding then s1 else s1.requestRun lane .measure 0

/-- Steps 2 to 5 of a window expiry (R63). The census that closes by period (R51) closes after the status and the mismatch
are judged and before the next window starts: DESIGN CHOICE (notes/assumptions/31). -/
def State.closeWindow (s : State) (lane : Nat) : State :=
  let r := s.formReport lane
  let s1 := s.putTracker lane (s.tracker lane).nextWindow
  let s2 := s1.judgeStatus lane (degradedWindow s.settings.excess r.e r.y r.l)
  let s3 := s2.judgeMismatch r.mux r.p r.mismatch
  let s4 := if s3.closesByPeriod lane then s3.closeCensus lane r.mux else s3
  (s4.nextWindow lane).fileReport lane r

/-! ## End of an observation (R28, R40, R56, R60) -/

/-- The QM learns that a lane's observation has ended: a pending report completes under the hold rule, an outstanding
measure run is withdrawn, and the window state takes its no-observation values (R60). -/
def State.qmEnd (s : State) (lane : Nat) : State :=
  let s1 := s.completeHeld lane
  let q := s1.qmLane lane
  let s2 := s1.putQmLane lane { awaited := q.awaited || q.outstanding }
  if q.outstanding then s2.withdrawRun lane .measure else s2

/-- The TPM moves a lane 0–15 to IDLE: framer state dropped, observation ended, track list and census cleared
(R28, R40, R56, R60). -/
def State.laneIdle (s : State) (lane : Nat) : State :=
  ((s.putFramer lane {}).putTracker lane {}).qmEnd lane

/-- The TPM moves a lane to HUNT and its tracker builds its list: a new observation of a multiplex (R28, R44). -/
def State.laneHunt (s : State) (lane x : Nat) : State :=
  (s.putFramer lane Framer.hunting).buildTracker lane x

/-- Window state as a soft reset leaves it (R73). -/
def State.qmSoftReset (s : State) (lane : Nat) : State := s.putQmLane lane {}

end Sys2Proof.Machine
end

