-- ==== Sys2Proof/Machine/Pool.lean ====
section
/-! DEFINITION. The Tuner Pool Manager (Chapter 6): tune operations, release, relock, the host request queue, swaps and
role changes. -/

namespace Sys2Proof.Machine

/-! ## The host request queue (R99, R100) -/

/-- A LIVE tuner is TUNING or ACQUIRING for a multiplex with work HOST (Table 45). -/
def State.hostTuning (s : State) (x : Nat) : Bool :=
  (List.range 16).any (fun t => decide (s.role t = .live) && decide ((s.tuner t).mux = some x) &&
    decide ((s.tuner t).work = some .host) &&
    (decide ((s.tuner t).state = .tuning) || decide ((s.tuner t).state = .acquiring)))

/-- A multiplex is in the host request queue. -/
def State.queuedHost (s : State) (x : Nat) : Bool := s.hostQueue.any (fun r => decide (r.mux = x))

/-- The answer to a filing of a multiplex (Table 45). -/
def State.fileAnswer (s : State) (x : Nat) : FileAnswer :=
  if s.hosted x then .hosted
  else if s.hostTuning x then .inProgress
  else if s.queuedHost x then .queued
  else if !s.roleReaches .live x then .unreachable
  else if Config.hostQueueCap ≤ s.hostQueue.length then .full
  else .queued

/-- The effect of a filing (Table 45). -/
def State.fileHost (s : State) (x : Nat) : State :=
  match s.fileAnswer x with
  | .unreachable => s.raise .multiplex x .unreachable
  | .queued => if s.queuedHost x then s else (s.setHostQueue (s.hostQueue ++ [{ mux := x }])).post .serveTry
  | _ => s

/-- The queue without a multiplex. -/
def State.dropRequest (s : State) (x : Nat) : State :=
  s.setHostQueue (s.hostQueue.filter (fun r => !decide (r.mux = x)))

/-- The committed mark of a queued multiplex set or cleared (R103). -/
def State.markRequest (s : State) (x : Nat) (m : Bool) : State :=
  s.setHostQueue (s.hostQueue.map (fun r => if r.mux = x then { r with committed := m } else r))

/-- The TPM takes the fall of a claim count to 0: the filing of a multiplex that is not hosted is withdrawn (R100, R134),
and on a hosted one that has become idle-hosted serving is tried (R101). -/
def State.claimGone (s : State) (x : Nat) : State :=
  match s.hostOf x with
  | none => s.dropRequest x
  | some t => if s.idleHosted t then s.post .serveTry else s

/-- The claims of a service, held before a change, that have fallen to 0 are handed to the TPM (R134). -/
def State.settleClaims (before : List Nat) (s : State) : State :=
  before.foldl (fun s x => if s.claimCount x = 0 then s.claimGone x else s) s

/-! ## Tune operations (R92 to R94) -/

/-- A tune operation begins: TUNING, and a TUNE run is requested (R92). -/
def State.beginTune (s : State) (t x : Nat) (w : Work) : State :=
  (s.putTuner t { s.tuner t with state := .tuning, mux := some x, work := some w, acquire := none, relock := none }).requestRun
    t .tune x

/-- A tuner enters FREE, or OFF when its role is OFF; a committed LIVE tuner takes its request when it can (R95, R103),
and the neighbours are told (R91, R101). -/
def State.enterFree (s : State) (t : Nat) : State :=
  let r := s.tuner t
  match s.role t with
  | .off => s.putTuner t { r with state := .off, committed := none }
  | .scan => (s.putTuner t { r with state := .free, committed := none }).post (.scanFree t)
  | .live =>
    let s1 := s.putTuner t { r with state := .free, committed := none }
    match r.committed with
    | none => s1.post .serveTry
    | some x =>
      if s.queuedHost x && !s.occupied x then ((s1.dropRequest x).beginTune t x .host).post .serveTry
      else (s1.markRequest x false).post .serveTry

/-- The cause of a failed tune goes to its requester (R94, R98). -/
def State.tellFailure (s : State) (t x : Nat) (w : Option Work) (c : FailCause) : State :=
  match w with
  | some .visit => s.post (.visitFailed t x c)
  | some .host => s.post (.hostFailed x c)
  | some .retune => (s.raise .multiplex x .unhosted).post (.unhosted x)
  | none => s

/-- A tune fails: lane to IDLE, TUNE_FAILED, FREE without a release recipe, the cause told (R94, R98). -/
def State.failTune (s : State) (t : Nat) (c : FailCause) : State :=
  let r := s.tuner t
  let s1 := (s.laneIdle t).raise .tuner t .tuneFailed
  let s2 := s1.putTuner t { r with mux := none, work := none, acquire := none, relock := none }
  ((s2.tellFailure t (r.mux.getD 0) r.work c).enterFree t).post .serveTry

/-- A winding-down item of a tuner ends; with the last one the tuner enters FREE or OFF (R95). -/
def State.endWinding (s : State) (t : Nat) (p : Purpose) : State :=
  let r := s.tuner t
  let r1 := if p = .tune then { r with windTune := false } else { r with windRelease := false }
  let s1 := s.putTuner t r1
  if r1.windTune || r1.windRelease then s1 else s1.enterFree t

/-- The outcome of a TUNE or RELEASE run reaches the TPM (R93, R95). -/
def State.tunerOutcome (s : State) (t : Nat) (p : Purpose) (o : RunOutcome) : State :=
  let r := s.tuner t
  if r.state = TunerState.releasing ∧ ((p = .tune ∧ r.windTune = true) ∨ (p = .release ∧ r.windRelease = true)) then s.endWinding t p
  else if r.state = TunerState.tuning ∧ p = .tune then
    if o = .done then
      (s.putTuner t { r with state := .acquiring, acquire := some { start := s.now, limit := (s.tunerRec t).acquireLimit } }).laneHunt
        t (r.mux.getD 0)
    else s.failTune t (.run o)
  else s

/-- A hosting period begins on a tuner that is OBSERVING (R96, R97). -/
def State.beginHosting (s : State) (t : Nat) : State :=
  let lim := (s.tunerRec t).relockLimit
  s.putTuner t { s.tuner t with work := some .host, relockLimit := lim,
                                relock := if (s.framer t).inLock then none else some { start := s.now, limit := lim } }

/-- A tuner whose multiplex is idle-hosted as soon as it is OBSERVING is a serving trigger (R101). -/
def State.tryIfIdle (s : State) (t : Nat) : State := if s.idleHosted t then s.post .serveTry else s

/-- The first lock of an observation reaches the TPM: the tune has succeeded (R94). -/
def State.firstLock (s : State) (t : Nat) : State :=
  let r := s.tuner t
  if r.state = .acquiring then
    let s1 := s.putTuner t { r with state := .observing, acquire := none }
    match r.work with
    | some .visit => (s1.post (.observing t)).post .serveTry
    | some .host => ((s1.beginHosting t).post (.hosted (r.mux.getD 0))).tryIfIdle t
    | _ => (s1.putTuner t { r with state := .observing, acquire := none, work := some .host, relock := none }).tryIfIdle t
  else s

/-- The TPM takes a change of the in-lock condition: the relock timer of a hosting tuner (R97). -/
def State.tpmLock (s : State) (t : Nat) (inLock : Bool) : State :=
  let r := s.tuner t
  if r.state = TunerState.observing ∧ r.work = some .host then
    s.putTuner t { r with relock := if inLock then none else some { start := s.now, limit := r.relockLimit } }
  else s

/-- The acquire timer of a tuner expires (R94). -/
def State.acquireExpires (s : State) (t : Nat) : State :=
  match (s.tuner t).acquire with
  | some m => if (s.tuner t).state = .acquiring then (s.reach (m.start + m.limit)).failTune t .noLock else s
  | none => s

/-- The relock timer of a tuner expires: RETUNED, the observation ends, and a tune with work RETUNE begins (R97). -/
def State.relockExpires (s : State) (t : Nat) : State :=
  match (s.tuner t).relock, (s.tuner t).mux with
  | some m, some x =>
    if (s.tuner t).state = .observing ∧ (s.tuner t).work = some .host then
      (((s.reach (m.start + m.limit)).raise .tuner t .retuned).laneIdle t).beginTune t x .retune
    else s
  | _, _ => s

/-! ## Release (R95) -/

/-- A tuner stops occupying its multiplex and goes into its release: RELEASING with its winding-down items, or FREE or
OFF at once (R95). -/
def State.windDown (s : State) (t : Nat) (withdrawn : Bool) : State :=
  let rel := (s.tunerRec t).release.isSome
  let r := s.tuner t
  let r1 := { r with mux := none, work := none, acquire := none, relock := none, windTune := withdrawn, windRelease := rel }
  let s1 := s.putTuner t { r1 with state := if withdrawn || rel then .releasing else r.state }
  let s2 := if withdrawn then s1.withdrawRun t .tune else s1
  let s3 := if rel then s2.requestRun t .release 0 else s2
  if withdrawn || rel then s3 else s3.enterFree t

/-- A release of a tuner that is TUNING, ACQUIRING or OBSERVING: its lane goes to IDLE, its hosting ends, and it winds
down under the role it then has (R95, R102, R104). -/
def State.release (s : State) (t : Nat) (role : Role) : State :=
  let r : Tuner := s.tuner t
  let s1 := if r.state = TunerState.tuning then s else s.laneIdle t
  let s2 := match r.mux with
    | some x => if s.hosts t x then s1.post (.unhosted x) else s1
    | none => s1
  ((s2.putRole t role).windDown t (decide (r.state = TunerState.tuning))).post .serveTry

/-! ## Serving (R101 to R103) -/

/-- The LIVE tuner a request may take: FREE first, then idle-hosted, each by lowest index (R102, R103). -/
def State.serverAmong (s : State) (ok : Nat → Bool) : Option Nat :=
  match (List.range 16).find? (fun t => ok t && decide (s.role t = .live) && decide ((s.tuner t).state = .free)) with
  | some t => some t
  | none => (List.range 16).find? (fun t => ok t && s.idleHosted t)

/-- The SCAN tuner that is OBSERVING a multiplex with work VISIT. -/
def State.visitorOf (s : State) (x : Nat) : Option Nat :=
  (List.range 16).find? (fun t => decide (s.role t = .scan) && decide ((s.tuner t).state = .observing) &&
    decide ((s.tuner t).work = some .visit) && decide ((s.tuner t).mux = some x))

/-- What a try does with one request (Table 46). -/
inductive Serving where
  | unreachable
  | swap (scan live : Nat)
  | tune (live : Nat)
  | waits
  deriving DecidableEq, Repr

/-- The judgement of one request (Table 46). -/
def State.judgeRequest (s : State) (x : Nat) : Serving :=
  if !s.roleReaches .live x then .unreachable
  else match s.visitorOf x, s.serverAmong (fun _ => true) with
    | some a, some l => .swap a l
    | _, _ =>
      if s.occupied x then .waits
      else match s.serverAmong (fun t => s.reaches t (s.mux x).feed) with
        | some l => .tune l
        | none => .waits

/-- A visit ends: its outcome, its notice to the RE, its record absent (R121). -/
def State.endVisit (s : State) (t : Nat) (o : VisitOutcome) : State :=
  match s.visit t with
  | none => s
  | some v => ((s.putLastOutcome t (some o)).putVisit t none).post (.visitEnd t v.mux o)

/-- The TPM ends a visit by a swap or a role change: the SCH is told at once, and tries picks (R102, R104, R113, R120). -/
def State.visitStopped (s : State) (t : Nat) (o : VisitOutcome) : State := (s.endVisit t o).post .pickTry

/-- A swap serves a request: the visit ends, the visiting SCAN tuner becomes LIVE and hosts, the LIVE tuner becomes SCAN
(R102). -/
def State.swap (s : State) (x a l : Nat) : State :=
  let s1 := ((s.dropRequest x).visitStopped a .promoted).putRole a .live
  let s2 := (s1.beginHosting a).post (.hosted x)
  let s3 := if (s2.tuner l).state = .free then (s2.putRole l .scan).enterFree l else s2.release l .scan
  s3.post .roleChanged

/-- A tune serves a request with a FREE tuner, or with an idle-hosted one after its release (R103). -/
def State.serveByTune (s : State) (x l : Nat) : State :=
  if (s.tuner l).state = .free then (s.dropRequest x).beginTune l x .host
  else if (s.tunerRec l).release.isSome then
    let s1 := (s.markRequest x true).release l .live
    s1.putTuner l { s1.tuner l with committed := some x }
  else
    (s.putTuner l { s.tuner l with committed := some x }).release l .live

/-- The first request of the queue, without a committed mark, that a try does something with (R101). -/
def State.firstServed (s : State) : List HostReq → Option (Nat × Serving)
  | [] => none
  | r :: rest =>
    if r.committed then s.firstServed rest
    else match s.judgeRequest r.mux with
      | .waits => s.firstServed rest
      | a => some (r.mux, a)

/-- A serving of one request (Table 46). -/
def State.serveOne (s : State) (x : Nat) : Serving → State
  | .unreachable => ((s.dropRequest x).raise .multiplex x .unreachable).post (.hostFailed x .unreachable)
  | .swap a l => s.swap x a l
  | .tune l => s.serveByTune x l
  | .waits => s

/-- A try walks the queue, again from the head after each request served (R101). Each serving removes or commits one of
at most 16 requests. -/
def State.serve : Nat → State → State
  | 0, s => s
  | n + 1, s =>
    match s.firstServed s.hostQueue with
    | none => s
    | some (x, a) => State.serve n (s.serveOne x a)

/-! ## Visits asked for by the SCH (R92) -/

/-- The TPM's answer to a tune with work VISIT (R92). -/
inductive VisitAnswer where
  | taken | notFree | unreachable | occupied
  deriving DecidableEq, Repr

/-- The answer to a tune of a multiplex on a tuner with work VISIT (R92). The refusal of a multiplex that is not defined
carries the cause UNREACHABLE: DESIGN CHOICE (notes/assumptions/33). -/
def State.visitAnswer (s : State) (t x : Nat) : VisitAnswer :=
  if s.role t ≠ .scan ∨ (s.tuner t).state ≠ .free then .notFree
  else if (s.mux x).defined = false ∨ s.reaches t (s.mux x).feed = false then .unreachable
  else if s.occupied x then .occupied
  else .taken

/-! ## Role changes (R104, R105) -/

/-- A SET_ROLE is refused IN_USE (Table 47). -/
def State.roleLocked (s : State) (t : Nat) (new : Role) : Bool :=
  decide (s.role t ≠ new) && decide (s.role t = .live) &&
    (decide ((s.tuner t).state = .tuning) || decide ((s.tuner t).state = .acquiring) ||
      (decide ((s.tuner t).state = .observing) && !s.idleHosted t))

/-- A committed request is cleared, and its mark with it (R103, R104). -/
def State.clearCommitted (s : State) (t : Nat) : State :=
  match (s.tuner t).committed with
  | none => s
  | some x => (s.markRequest x false).putTuner t { s.tuner t with committed := none }

/-- The row of Table 47 for an accepted change to another role. -/
def State.changeRole (s : State) (t : Nat) (new : Role) : State :=
  match (s.tuner t).state with
  | .off => (s.putRole t new).enterFree t
  | .free => if new = .off then (s.putRole t new).windDown t false else (s.putRole t new).enterFree t
  | .releasing => (s.clearCommitted t).putRole t new
  | _ =>
    if s.role t = .scan then (s.visitStopped t .aborted).release t new else s.release t new

/-- An accepted SET_ROLE (R104, R105). -/
def State.setRole (s : State) (t : Nat) (new : Role) : State :=
  if s.role t = new then s else ((s.changeRole t new).post .roleChanged).post .serveTry

/-- Soft reset of one tuner (R106). -/
def State.tpmReset (s : State) (t : Nat) : State :=
  s.putTuner t { state := if s.role t = .off then .off else .free }

end Sys2Proof.Machine
end

