-- ==== Sys2Proof/Machine/Scan.lean ====
section
/-! DEFINITION. The Scan Scheduler (Chapter 7): the urgent list, the rings, picks, visits and their ends. -/

namespace Sys2Proof.Machine

/-! ## Picks (R108, R112 to R115) -/

/-- A multiplex is eligible for a scan tuner at a pick (R112). -/
def State.eligible (s : State) (t x : Nat) : Bool :=
  (s.mux x).defined && s.reaches t (s.mux x).feed && !s.occupied x

/-- A ring's pick: the first member from its pointer on, ascending and wrapping from 127 to 0, that `ok` admits (R108). -/
def State.ringPick (s : State) (ring : Ring) (ptr : Nat) (ok : Nat → Bool) : Option Nat :=
  ((List.range 128).map (fun k => (ptr + k) % 128)).find? (fun x => decide ((s.mux x).ring = ring) && ok x)

/-- The pick for a scan tuner, some multiplexes treated as not eligible (R114, R115). -/
def State.pick (s : State) (t : Nat) (excl : List Nat) : Option (Nat × PickSource) :=
  let ok := fun x => s.eligible t x && !excl.contains x
  let a := (s.ringPick .a s.sched.ptrA ok).map (fun x => (x, PickSource.ringA))
  let b := (s.ringPick .b s.sched.ptrB ok).map (fun x => (x, PickSource.ringB))
  let share := if s.sched.aRun < s.settings.aShare then a else none
  ((((s.sched.urgent.find? ok).map (fun x => (x, PickSource.urgent))).orElse (fun _ => share)).orElse (fun _ => b)).orElse
    (fun _ => a)

/-- What the take of a pick changes in the lists, pointers and count (R108, R114, R115). -/
def Sched.advance (c : Sched) (x : Nat) : PickSource → Sched
  | .urgent => { c with urgent := c.urgent.filter (fun y => !decide (y = x)) }
  | .ringA => { c with ptrA := (x + 1) % 128, aRun := satAdd 255 c.aRun 1 }
  | .ringB => { c with ptrB := (x + 1) % 128, aRun := 0 }

/-- A pick is taken: the tune begins, and the visit record is created (R92, R115). -/
def State.takePick (s : State) (t x : Nat) (src : PickSource) : State :=
  let s1 := s.beginTune t x .visit
  (((s1.setSched (s1.sched.advance x src)).putLastOutcome t none)).putVisit t
    (some { mux := x, source := src, phase := .tuning, dwell := (s.mux x).dwell })

/-- One pick for a scan tuner; a refused multiplex counts as not eligible for the rest of the try (R115). -/
def State.tryPick (t : Nat) : Nat → List Nat → State → State
  | 0, _, s => s
  | n + 1, excl, s =>
    match s.pick t excl with
    | none => s
    | some (x, src) =>
      match s.visitAnswer t x with
      | .taken => s.takePick t x src
      | .notFree => s
      | _ => State.tryPick t n (x :: excl) s

/-- A tuner is picked for: role SCAN, FREE, and without a visit record (R113). -/
def State.pickable (s : State) (t : Nat) : Bool :=
  decide (s.role t = .scan) && decide ((s.tuner t).state = .free) && (s.visit t).isNone

/-- A try of picks, in ascending tuner index (R113). -/
def State.tryPicks (s : State) : State :=
  (List.range 16).foldl (fun s t => if s.pickable t then State.tryPick t 129 [] s else s) s

/-! ## The urgent list (R109 to R111) -/

/-- The urgent list replaced. -/
def State.setUrgent (s : State) (l : List Nat) : State := s.setSched { s.sched with urgent := l }

/-- The reply to URGENT, and whether the multiplex joins the list (Table 52). -/
def State.urgentAnswer (s : State) (x : Nat) : ReplyOutcome × Bool :=
  if !(s.mux x).defined then (.unknown, false)
  else if s.hosted x then (.inUse, false)
  else if s.sched.urgent.contains x then (.done, false)
  else if !s.roleReaches .scan x then (.unreachable, false)
  else if Config.urgentCap ≤ s.sched.urgent.length then (.full, false)
  else (.done, true)

/-- One multiplex of a sweep request: the state after it, and whether it is placed (Table 53). -/
def State.placeUrgent (s : State) (x : Nat) : State × Bool :=
  if s.sched.urgent.contains x then (s, true)
  else if !s.roleReaches .scan x then (s.raise .multiplex x .unreachable, false)
  else if Config.urgentCap ≤ s.sched.urgent.length then (s.raise .device 0 .urgentFull, false)
  else (s.setUrgent (s.sched.urgent ++ [x]), true)

/-- A sweep request: the state after it, and the multiplexes it placed, in order; a pick is tried once when any entry
joined the list (R110). -/
def State.sweepRequest (s : State) (xs : List Nat) : State × List Nat :=
  let r := xs.foldl (fun (a : State × List Nat) x =>
    let p := a.1.placeUrgent x
    (p.1, if p.2 then a.2 ++ [x] else a.2)) (s, [])
  (if s.sched.urgent.length < r.1.sched.urgent.length then r.1.post .pickTry else r.1, r.2)

/-- A multiplex leaves the urgent list by hosting, pruning or undefining, with DROPPED to the RE (R111). -/
def State.dropUrgent (s : State) (x : Nat) : State :=
  if s.sched.urgent.contains x then
    (s.setUrgent (s.sched.urgent.filter (fun y => !decide (y = x)))).post (.dropped x)
  else s

/-- Pruning: every entry that no SCAN tuner reaches leaves the list with UNREACHABLE (R111), from the head of the list on:
DESIGN CHOICE (notes/assumptions/40). -/
def State.pruneUrgent (s : State) : State :=
  (s.sched.urgent.filter (fun x => !s.roleReaches .scan x)).foldl
    (fun s x => (s.dropUrgent x).raise .multiplex x .unreachable) s

/-! ## Visits (R116 to R121) -/

/-- A visit ends COMPLETE (R118). -/
def State.completeVisit (s : State) (t x : Nat) : State :=
  ((((s.closeCensus t x).release t (s.role t)).endVisit t .complete)).post .pickTry

/-- A window report reaches the SCH: counted toward the visit it belongs to, and the visit completed at 0 (R117). -/
def State.schReport (s : State) (r : Report) : State :=
  match s.visit r.lane with
  | none => s
  | some v =>
    if v.mux = r.mux then
      let s1 := s.putVisit r.lane (some { v with dwell := v.dwell - 1 })
      if v.dwell ≤ 1 then s1.completeVisit r.lane v.mux else s1
    else s

/-- OBSERVING is reached (R116). -/
def State.visitObserving (s : State) (t : Nat) : State :=
  match s.visit t with
  | some v => s.putVisit t (some { v with phase := .observing })
  | none => s

/-- Outcome of a visit whose tune failed (R119). -/
def failedOutcome : FailCause → VisitOutcome
  | .noLock => .noLock
  | .run _ => .recipeFail
  | .unreachable => .recipeFail

/-- A visit's tune failed: zero-window notice, visit-end notice, picks (R119). -/
def State.visitFails (s : State) (t x : Nat) (c : FailCause) : State :=
  ((s.post (.zeroWindow x (s.observableCopies x))).endVisit t (failedOutcome c)).post .pickTry

end Sys2Proof.Machine
end

