-- ==== Sys2Proof/Machine/Scores.lean ====
section
/-! DEFINITION. Reception scores (Chapter 8): the six stages, smoothing, bookkeeping, the checks of a line, classes. -/

namespace Sys2Proof.Machine

/-- Division of non-negative integers, rounded up. -/
def ceilDiv (a b : Nat) : Nat := (a + b - 1) / b

/-- The inputs of a window score (Table 57). -/
structure ScoreInput where
  m : Nat
  l : Nat
  p : Nat
  e : Nat
  s : Nat
  r : Nat
  mismatch : Bool
  counts : List Nat
  breaks : Nat
  required : List Bool
  g : Nat
  deriving DecidableEq, Repr

/-- Stage 1: base (Table 58). -/
def ScoreInput.base (i : ScoreInput) : Nat := 5 * min i.m 200
/-- Stage 2: lock. -/
def ScoreInput.v1 (i : ScoreInput) : Nat := i.base * i.l / 1000
/-- Stage 3: the error penalty, per mille. -/
def ScoreInput.pen (i : ScoreInput) : Nat := min 1000 (ceilDiv (i.e * 1000) i.p * i.g)
/-- Stage 3: errors, for P above 0. -/
def ScoreInput.v2 (i : ScoreInput) : Nat := i.v1 * (1000 - i.pen) / 1000
/-- Stage 4: continuity. -/
def ScoreInput.v3 (i : ScoreInput) : Nat := i.v2 - 25 * i.breaks
/-- Stage 5: losses. -/
def ScoreInput.v4 (i : ScoreInput) : Nat := i.v3 - (150 * i.s + 50 * i.r)

/-- A required component delivered no packet (R125). -/
def missingRequired (required : List Bool) (counts : List Nat) : Bool :=
  (required.zip counts).any (fun c => c.1 && decide (c.2 = 0))

/-- A veto of stage 6 holds (R125). -/
def ScoreInput.vetoed (i : ScoreInput) : Bool := i.mismatch || missingRequired i.required i.counts

/-- The window score W (R124). -/
def ScoreInput.score (i : ScoreInput) : Nat := if i.p = 0 then 0 else if i.vetoed then 0 else i.v4

/-- The new reception score (R126). -/
def smooth (n : Nat) (q : Option Nat) (w : Nat) : Nat :=
  match q with
  | none => w
  | some q => if q < w then q + ceilDiv (w - q) (2 ^ n) else q - ceilDiv (q - w) (2 ^ n)

/-- Live fields after an observation with window score `w` at a clock value (R126, R127, R131). -/
def Live.observe (n now w : Nat) (l : Live) : Live :=
  { l with q := some (smooth n l.q w), w := some w, zeros := if w = 0 then min 255 (l.zeros + 1) else 0,
           observedAt := some now, stale := false }

/-- The class of a copy by its live fields (Table 59). -/
def Live.cls (l : Live) : CopyClass :=
  match l.q with
  | none => .never
  | some _ => if l.stale then .stale else .fresh

/-- A copy is barred (R130). -/
def Live.barred (now : Nat) (l : Live) : Bool :=
  match l.barredUntil with
  | none => false
  | some t => decide (now < t)

/-- The stale mark judged at a second's expiry (R131). -/
def Live.judgeStale (now limit : Nat) (l : Live) : Live :=
  match l.q, l.observedAt with
  | some _, some t => { l with stale := decide (limit < now - t) }
  | _, _ => l

/-- The bar lifted at a second's expiry (R140). -/
def Live.liftBar (now : Nat) (l : Live) : Live :=
  match l.barredUntil with
  | none => l
  | some t => if t ≤ now then { l with barredUntil := none } else l

/-- The inputs of a copy line, from the report, and the tables in force at scoring (Table 57, R123). -/
def State.scoreInput (s : State) (r : Report) (c : CopyLine) : ScoreInput :=
  { m := r.margin, l := r.l, p := r.p, e := r.e, s := r.s, r := r.r, mismatch := r.mismatch, counts := c.counts,
    breaks := c.breaks, required := (s.service c.svc).required, g := s.settings.weight }

/-- A copy still stands as an observation of a multiplex assumes (R128, R129). -/
def State.stands (s : State) (i x : Nat) : Bool := (s.copy i).defined && decide ((s.copy i).mux = x)

/-- A line is scored, not discarded (R128). -/
def State.scorable (s : State) (r : Report) (c : CopyLine) : Bool :=
  s.stands (copyIndex c.svc c.slot) r.mux && decide (c.counts.length = (s.service c.svc).comps)

end Sys2Proof.Machine
end

