-- ==== Sys2Proof/Machine/Ranking.lean ====
section
/-! DEFINITION. The Ranking Engine (Chapter 9): the rank list, evaluations and decisions, targets and filings, the ends of
cuts, unhosting, loss alerts, pins, degradation and sweeps, and the observations that reach it. -/

namespace Sys2Proof.Machine

/-! ## The record and the rank list (R132 to R134) -/

/-- The state of a service (Table 66). -/
def State.svcState (s : State) (v : Nat) : SvcState :=
  if !(s.service v).enabled then .disabled
  else if (s.rank v).cutting then .cutting
  else if (s.rank v).target.isSome then .awaitHost
  else if (s.rank v).selected.isSome then .served
  else .unserved

/-- The live fields of the copy of a service in a slot. -/
def State.liveOf (s : State) (v slot : Nat) : Live := s.live (copyIndex v slot)

/-- Class order: fresh, stale, never observed (R133). -/
def CopyClass.order : CopyClass → Nat
  | .fresh => 0 | .stale => 1 | .never => 2

/-- Order of a rank list: class, then score, highest first, then slot (R133). -/
def State.ranksBefore (s : State) (v a b : Nat) : Bool :=
  let la := s.liveOf v a
  let lb := s.liveOf v b
  decide (la.cls.order < lb.cls.order) ||
    (decide (la.cls.order = lb.cls.order) &&
      (decide (lb.q.getD 0 < la.q.getD 0) || (decide (la.q.getD 0 = lb.q.getD 0) && decide (a < b))))

/-- A slot joins a rank list in its order. -/
def State.insertRanked (s : State) (v a : Nat) : List Nat → List Nat
  | [] => [a]
  | b :: t => if s.ranksBefore v a b then a :: b :: t else b :: s.insertRanked v a t

/-- Slots of the defined copies of a service, ascending. -/
def State.definedSlots (s : State) (v : Nat) : List Nat :=
  (List.range 4).filter (fun slot => (s.copy (copyIndex v slot)).defined)

/-- The rank list of a service: its defined copies in the order of R133; a disabled service has none. -/
def State.rankList (s : State) (v : Nat) : List Nat :=
  if (s.service v).enabled then (s.definedSlots v).foldr (s.insertRanked v) [] else []

/-- A copy is barred now (R130). -/
def State.barred (s : State) (v slot : Nat) : Bool := (s.liveOf v slot).barred s.clock.secs

/-- Fresh, not barred, and Q above 0 (R137, R143). -/
def State.choosable (s : State) (v slot : Nat) : Bool :=
  decide ((s.liveOf v slot).cls = .fresh) && !s.barred v slot && decide (0 < (s.liveOf v slot).q.getD 0)

/-- The services with a ranking record in use, ascending. -/
def State.rankedServices (s : State) : List Nat := s.ranks.map (·.1)

/-! ## Degradation and sweeps (R146, R147) -/

/-- Adds to a list what is not in it. -/
def addNew (l : List Nat) (x : Nat) : List Nat := if l.contains x then l else l ++ [x]

/-- The multiplexes a sweep of a service collects, in slot order, at most 3 (R110, R147). -/
def State.sweepMuxes (s : State) (v : Nat) : List Nat :=
  ((((s.definedSlots v).filter (fun slot => !decide ((s.rank v).selected = some slot))).map (s.copyMux v)).foldl
    (fun l x => if x = localMux ∨ s.hosted x = true ∨ s.occupied x = true then l else addNew l x) []).take 3

/-- A sweep starts; an empty one completes at once (R147). -/
def State.startSweep (s : State) (v : Nat) : State :=
  let r := s.sweepRequest (s.sweepMuxes v)
  let s1 := r.1.putRank v { r.1.rank v with sweep := r.2 }
  if r.2.isEmpty then s1.raise .service v .sweepComplete else s1

/-- A multiplex leaves one service's sweep set (R147). -/
def State.leaveSweep (s : State) (x v : Nat) : State :=
  let k := s.rank v
  if k.sweep.contains x then
    let rest := k.sweep.filter (fun y => !decide (y = x))
    let s1 := s.putRank v { k with sweep := rest }
    if rest.isEmpty then s1.raise .service v .sweepComplete else s1
  else s

/-- A multiplex leaves every sweep set that holds it (R147), in ascending order of service: DESIGN CHOICE
(notes/assumptions/34). -/
def State.leaveSweeps (s : State) (x : Nat) : State := s.rankedServices.foldl (fun s v => s.leaveSweep x v) s

/-- The selected copy's score is below the service floor in force (R10, R146); an absent score is not
(notes/assumptions/12). -/
def State.belowFloor (s : State) (v : Nat) : Bool :=
  match (s.rank v).selected with
  | none => false
  | some slot =>
    match (s.liveOf v slot).q with
    | none => false
    | some q => decide (q < s.floor v)

/-- The degraded condition of a service judged (R146). -/
def State.judgeDegraded (s : State) (v : Nat) : State :=
  if s.belowFloor v then
    if (s.rank v).degraded then s
    else
      let s1 := (s.putRank v { s.rank v with degraded := true }).raise .service v .liveDegraded
      if (s.service v).act && (s.rank v).sweep.isEmpty then s1.startSweep v else s1
  else s.putRank v { s.rank v with degraded := false }

/-! ## Observations (R126 to R129) -/

/-- One observation of a copy with a window score (R126, R127); the degraded condition of its service is judged when it
is the selected copy (R146). -/
def State.observe (s : State) (i w : Nat) : State :=
  let s1 := s.putLive i ((s.live i).observe s.settings.shift s.clock.secs w)
  if (s.rank (i / 4)).selected = some (i % 4) then s1.judgeDegraded (i / 4) else s1

/-! ## Targets (R138) -/

/-- A change of a ranking record whose fallen claims go to the TPM (R134). -/
def State.putClaims (s : State) (v : Nat) (k : Ranking) : State :=
  State.settleClaims (s.claims v) (s.putRank v k)

/-- The dropping steps: target and filing mark absent, claims counted, a filing withdrawn (R138). -/
def State.dropTarget (s : State) (v : Nat) : State :=
  match (s.rank v).target with
  | none => s
  | some _ => s.putClaims v { s.rank v with target := none, filing := none }

/-- The RE asks the OA for a cut to the target (R138). -/
def State.askCut (s : State) (v slot : Nat) : State :=
  (s.putRank v { s.rank v with cutting := true, filing := none }).createCut v (s.rank v).selected slot

/-- The filing of a target's multiplex, and the act on its answer (Table 67). -/
def State.fileTarget (fail : State → State) (s : State) (v slot : Nat) : State :=
  let x := s.copyMux v slot
  let a := s.fileAnswer x
  let s1 := s.fileHost x
  match a with
  | .hosted => s1.askCut v slot
  | .inProgress => s1.putRank v { s1.rank v with filing := some .filed }
  | .queued => s1.putRank v { s1.rank v with filing := some .filed }
  | .unreachable => fail s1
  | .full => s1.putRank v { s1.rank v with filing := some .unfiled }

/-- A copy is targeted (R138). `fail` is the host failure of R140 that follows an answer UNREACHABLE. -/
def State.targetCopy (fail : State → State) (s : State) (v slot : Nat) : State :=
  let s1 := s.dropTarget v
  let s2 := s1.putRank v { s1.rank v with target := some slot, filing := none }
  if s2.available (s2.copyMux v slot) then s2.askCut v slot else s2.fileTarget fail v slot

/-! ## Decisions (R136, R137) -/

/-- The first copy of the rank list, other than one slot, that is choosable (R137, case 3). -/
def State.failoverCopy (s : State) (v sel : Nat) : Option Nat :=
  (s.rankList v).find? (fun slot => !decide (slot = sel) && s.choosable v slot)

/-- The challenger an evaluation finds (R136). -/
def State.challengerOf (s : State) (v sel : Nat) : Option Nat :=
  match (s.rankList v).find? (fun slot => !s.barred v slot) with
  | none => none
  | some c =>
    let q := (s.liveOf v c).q.getD 0
    if c ≠ sel ∧ (s.liveOf v c).cls = .fresh ∧ (s.liveOf v sel).q.getD 0 + (s.service v).hyst ≤ q ∧ (s.service v).floor ≤ q
    then some c else none

/-- The evaluation was started by a report or zero-window notice that updated one of two slots (R136). -/
def Trigger.updated (a b : Nat) : Trigger → Bool
  | .observed l => l.contains a || l.contains b
  | .other => false

/-- The challenge count with a challenger found (R136). -/
def challengeCount (k : Ranking) (c sel : Nat) (g : Trigger) : Nat :=
  if k.challenger = some c then (if g.updated c sel then min 15 (k.challenges + 1) else k.challenges) else 1

/-- The challenge of an evaluation (R136). -/
def State.challenge (fail : State → State) (s : State) (v sel : Nat) (g : Trigger) : State :=
  let k := s.rank v
  match s.challengerOf v sel with
  | none => s.putRank v { k with challenger := none, challenges := 0 }
  | some c =>
    let n := challengeCount k c sel g
    if (s.service v).debounce ≤ n then
      (s.putRank v { k with challenger := none, challenges := 0 }).targetCopy fail v c
    else s.putRank v { k with challenger := some c, challenges := n }

/-- Case 1 of the decision: the service is pinned (R137). -/
def State.decidePinned (fail : State → State) (s : State) (v p : Nat) : State :=
  if (s.rank v).selected = some p then (if (s.rank v).target = some p then s else s.dropTarget v)
  else if s.barred v p then s.dropTarget v
  else if (s.rank v).target = some p then s
  else s.targetCopy fail v p

/-- Cases 3 to 5 of the decision, no target standing (R137). -/
def State.decideFree (fail : State → State) (s : State) (v : Nat) (g : Trigger) : State :=
  match (s.rank v).selected with
  | some sel =>
    if (s.service v).failCount ≤ (s.liveOf v sel).zeros then
      match s.failoverCopy v sel with
      | some slot => s.targetCopy fail v slot
      | none => s
    else s.challenge fail v sel g
  | none =>
    match (s.rankList v).find? (s.choosable v) with
    | some slot => s.targetCopy fail v slot
    | none => s

/-- The decision of an evaluation (R137). -/
def State.makeDecision (fail : State → State) (s : State) (v : Nat) (g : Trigger) : State :=
  match (s.rank v).pin with
  | some p => s.decidePinned fail v p
  | none =>
    match (s.rank v).target with
    | some t => if s.choosable v t then s else (s.dropTarget v).decideFree fail v g
    | none => s.decideFree fail v g

/-! ## Evaluations and host failures (R135, R140) -/

/-- Steps 1 to 3 of a host failure: the target is barred, observed as zero, and dropped (R140,
notes/assumptions/19). -/
def State.barTarget (s : State) (v : Nat) : State :=
  match (s.rank v).target with
  | none => s
  | some slot =>
    let i := copyIndex v slot
    (((s.putLive i { s.live i with barredUntil := some (s.clock.secs + s.settings.hostRetry) }).observe i 0)).dropTarget v

/-- An UNFILED service files its target's multiplex again (R135). -/
def State.refile (fail : State → State) (s : State) (v : Nat) : State :=
  match (s.rank v).filing, (s.rank v).target with
  | some .unfiled, some slot => s.fileTarget fail v slot
  | _, _ => s

/-- One evaluation of a service (R135); the service floor as stored comes into force with it (R10, notes/assumptions/35). A
host failure inside it evaluates the service again (R140); each bars one of the four copies, and a barred copy is not chosen,
so six levels are never used up. -/
def State.evaluateN : Nat → Nat → Trigger → State → State
  | 0, _, _, s => s
  | n + 1, v, g, s =>
    if !(s.service v).enabled || (s.rank v).cutting then s
    else
      let fail := fun s => State.evaluateN n v .other (s.barTarget v)
      let s1 := ((s.putFloor v (s.service v).floor).judgeDegraded v).refile fail v
      if (s1.rank v).cutting then s1 else s1.makeDecision fail v g

/-- An evaluation of a service (R135). -/
def State.evaluate (s : State) (v : Nat) (g : Trigger) : State := State.evaluateN 6 v g s

/-- The service is in AWAIT_HOST with a target on a multiplex (R139, R140). -/
def State.awaits (s : State) (x v : Nat) : Bool :=
  decide (s.svcState v = .awaitHost) && (s.rank v).target.any (fun slot => decide (s.copyMux v slot = x))

/-- The RE takes HOST_FAILED (X, cause) (R140). -/
def State.reHostFailed (s : State) (x : Nat) : State :=
  s.rankedServices.foldl (fun s v => if s.awaits x v then (s.barTarget v).evaluate v .other else s) s

/-- The RE takes HOSTED (X): cuts are asked for (R139), and X leaves the sweep sets (R147). -/
def State.reHosted (s : State) (x : Nat) : State :=
  (s.rankedServices.foldl (fun s v =>
    match (s.rank v).target with
    | some slot => if s.awaits x v then s.askCut v slot else s
    | none => s) s).leaveSweeps x

/-! ## The ends of cuts, unhosting, loss alerts (R141 to R143) -/

/-- An ending is taken for this service (R141). -/
def State.endingTaken (s : State) (v : Nat) : Bool := (s.service v).enabled && (s.rank v).cutting

/-- The RE takes a cut done (R141). -/
def State.reCutDone (s : State) (v slot : Nat) : State :=
  if s.endingTaken v then
    let k := { s.rank v with target := none, filing := none, cutting := false }
    if s.available (s.copyMux v slot) then
      (((s.putClaims v { k with selected := some slot }).raise .service v .switched).judgeDegraded v).evaluate v .other
    else
      ((s.putClaims v { k with selected := none, degraded := false }).raise .service v .unserved).evaluate v .other
  else s

/-- The RE takes a cut cancelled (R141). -/
def State.reCutCancelled (s : State) (v : Nat) : State :=
  if s.endingTaken v then
    (s.putClaims v { s.rank v with target := none, filing := none, cutting := false }).evaluate v .other
  else s

/-- A service's selected copy lies on a multiplex. -/
def State.selectedOn (s : State) (x v : Nat) : Bool :=
  (s.rank v).selected.any (fun slot => decide (s.copyMux v slot = x))

/-- A service loses its selected copy (R142). -/
def State.deselect (s : State) (v : Nat) : State :=
  (s.putClaims v { s.rank v with selected := none, degraded := false }).raise .service v .unserved

/-- The RE takes UNHOSTED (X) (R142). The services deselected are evaluated in ascending order: DESIGN CHOICE
(notes/assumptions/34). -/
def State.reUnhosted (s : State) (x : Nat) : State :=
  let vs := s.rankedServices.filter (s.selectedOn x)
  vs.foldl (fun s v => s.evaluate v .other) (vs.foldl State.deselect s)

/-- A loss alert concerns this service: fast failover on, selected copy carried by the lane, not CUTTING, no pin
(R143). -/
def State.alerted (s : State) (lane v : Nat) : Bool :=
  (s.service v).enabled && (s.service v).fastFailover && !(s.rank v).cutting && (s.rank v).pin.isNone &&
    (s.rank v).selected.any (fun slot => decide (s.carrier (s.copyMux v slot) = some lane))

/-- The copy a loss alert moves a service to (R143). -/
def State.alertCopy (s : State) (v : Nat) : Option Nat :=
  (s.rankList v).find? (fun slot =>
    !decide ((s.rank v).selected = some slot) && s.choosable v slot && s.available (s.copyMux v slot))

/-- The RE takes a loss alert of a lane (R143). -/
def State.lossAlert (s : State) (lane : Nat) : State :=
  s.rankedServices.foldl (fun s v =>
    if s.alerted lane v then
      match s.alertCopy v with
      | some slot => s.targetCopy id v slot
      | none => s
    else s) s

/-! ## Pins (R145) -/

/-- The reply to PIN or UNPIN: UNKNOWN for a disabled service, or for a copy that is not defined (R145). -/
def State.pinAnswer (s : State) (v : Nat) (slot : Option Nat) : ReplyOutcome :=
  if !(s.service v).enabled then .unknown
  else match slot with
    | some c => if (s.copy (copyIndex v c)).defined then .done else .unknown
    | none => .done

/-- An accepted PIN (R145). -/
def State.pinCopy (s : State) (v slot : Nat) : State :=
  (s.putRank v { s.rank v with pin := some slot }).evaluate v .other

/-- An accepted UNPIN (R145). -/
def State.unpinCopy (s : State) (v : Nat) : State :=
  match (s.rank v).pin with
  | none => s
  | some p =>
    let s1 := s.putRank v { s.rank v with pin := none }
    let s2 := if (s.rank v).target = some p ∧ (s.rank v).cutting = false then s1.dropTarget v else s1
    s2.evaluate v .other

/-! ## Reports, zero-window notices and seconds (R123, R129, R130) -/

/-- The services of a list of updated copies with their slots, in the order of the list. -/
def touched : List Nat → List (Nat × List Nat)
  | [] => []
  | i :: t =>
    let rest := touched t
    (i / 4, (i % 4) :: (rest.filter (fun e => decide (e.1 = i / 4))).flatMap (·.2)) ::
      rest.filter (fun e => !decide (e.1 = i / 4))

/-- The evaluations that follow updates of copies (R123, R129, R135, notes/assumptions/23). -/
def State.evaluateTouched (s : State) (is : List Nat) : State :=
  (touched is).foldl (fun s e => s.evaluate e.1 (.observed e.2)) s

/-- One line of a report: scored unless R128 discards it (R123). -/
def State.scoreLine (r : Report) (a : State × List Nat) (c : CopyLine) : State × List Nat :=
  if a.1.scorable r c then
    (a.1.observe (copyIndex c.svc c.slot) (a.1.scoreInput r c).score, a.2 ++ [copyIndex c.svc c.slot])
  else a

/-- The RE takes a completed window report (R123). -/
def State.reReport (s : State) (r : Report) : State :=
  let a := r.lines.foldl (State.scoreLine r) (s, [])
  a.1.evaluateTouched a.2

/-- A completed window report is taken by the RE, and by the SCH when it goes there (R70, R117, R123,
notes/assumptions/1). -/
def State.deliverReport (s : State) (r : Report) (toSch : Bool) : State :=
  if toSch then (s.reReport r).schReport r else s.reReport r

/-- The RE takes a zero-window notice (R129). -/
def State.reZeroWindow (s : State) (x : Nat) (is : List Nat) : State :=
  let a := is.foldl (fun (a : State × List Nat) i =>
    if a.1.stands i x then (a.1.observe i 0, a.2 ++ [i]) else a) (s, [])
  a.1.evaluateTouched a.2

/-- Classes judged and bars lifted at a second's expiry, for one copy: the state, and whether its class changed or it lost
its bar (R130, R131, R140). -/
def State.secondOne (a : State × List Nat) (i : Nat) : State × List Nat :=
  let s := a.1
  let l := s.live i
  let l1 := (l.judgeStale s.clock.secs (s.service (i / 4)).staleLimit).liftBar s.clock.secs
  (s.putLive i l1, if l1.stale = l.stale ∧ l1.barredUntil = l.barredUntil then a.2 else addNew a.2 (i / 4))

/-- The RE's part of a second's expiry, after the clock has risen (R130). The services whose copies changed class or lost
their bar are evaluated in ascending order (R130, R135, R140): DESIGN CHOICE (notes/assumptions/34). -/
def State.reSecond (s : State) : State :=
  let a := (s.lives.map (·.1)).foldl State.secondOne (s, [])
  a.2.foldl (fun s v => s.evaluate v .other) a.1

/-- The rank clock rises by 1 and holds at its maximum (R130). -/
def State.tickClock (s : State) : State :=
  let t := s.reach (s.clock.since + 1000)
  t.setClock { secs := satAdd Config.max32 s.clock.secs 1, since := t.now }

end Sys2Proof.Machine
end

