-- ==== Sys2Proof/Machine/Notices.lean ====
section
/-! DEFINITION. The hand-overs between the blocks: what each does to the block that takes it, and the taking of all that
a command or an event causes (notes/assumptions/1). -/

namespace Sys2Proof.Machine

/-- Tries of the serving walk (R101): each try removes or commits one of at most 16 requests. -/
def serveFuel : Nat := 40

/-- One hand-over is taken; the blocks that share it take it in the order of notes/assumptions/1 and 20. -/
def State.takeNotice (s : State) : Notice → State
  | .runDone t p o m => if p = .measure then s.measureOutcome t o m else s.tunerOutcome t p o
  | .checkEnd b => s.endFailing b
  | .hosted x => ((s.reHosted x).dropUrgent x).tryPicks
  | .hostFailed x _ => s.reHostFailed x
  | .unhosted x => ((s.oaUnhosted x).reUnhosted x).tryPicks
  | .observing t => s.visitObserving t
  | .visitFailed t x c => s.visitFails t x c
  | .scanFree _ => s.tryPicks
  | .roleChanged => s.pruneUrgent.tryPicks
  | .serveTry => State.serve serveFuel s
  | .pickTry => s.tryPicks
  | .report r toSch => s.deliverReport r toSch
  | .zeroWindow x is => s.reZeroWindow x is
  | .visitEnd _ x _ => s.leaveSweeps x
  | .dropped x => s.leaveSweeps x
  | .cutDone v slot => s.reCutDone v slot
  | .cutCancelled v => s.reCutCancelled v

/-- The hand-overs are taken in order until none is left (notes/assumptions/1, 5). -/
def State.drain : Nat → State → State
  | 0, s => s
  | n + 1, s =>
    match s.notices with
    | [] => s
    | a :: rest => State.drain n ((s.setNotices rest).takeNotice a)

/-- A bus holds a run whose checks failed at its start (notes/assumptions/4). -/
def State.failingRun (s : State) (b : Nat) : Option Run := (s.bus b).run.filter (fun r => r.failing.isSome)

/-- A run that an earlier command left failing at its start ends in this one (notes/assumptions/4). -/
def State.wakeBus (s : State) (b : Nat) : State :=
  match s.failingRun b with
  | some r => (s.setSettled ((r.tuner, r.purpose) :: s.settled)).post (.checkEnd b)
  | none => s

/-- The runs that earlier commands left failing at their start are handed on to end. -/
def State.wake (s : State) : State := (List.range 4).foldl State.wakeBus s

/-- All that one command or event does: its own effect, then the hand-overs it causes (notes/assumptions/1). -/
def State.act (f : State → State) (s : State) : State :=
  (State.drain Config.handOverFuel (f s.wake)).setSettled []

/-- A command or event runs to its next state. -/
def State.run (f : State → State) (s : State) : Host.Outcome State Fault Refusal := .next (s.act f)

/-- A command or event whose operand must lie below a bound of Table 4. -/
def State.runBelow (bound i : Nat) (f : State → State) (e : Fault) (s : State) : Host.Outcome State Fault Refusal :=
  if i < bound then s.run f else .fault e

/-- Nothing is commanded: one millisecond of the reference clock passes (notes/assumptions/2). -/
def State.idle (s : State) : State := s.act (fun s => s.setNow (s.now + 1))

end Sys2Proof.Machine
end

