-- ==== Sys2Proof/Machine/BusEvents.lean ====
section
/-! DEFINITION. The events of the tuner buses: the rows WRITE_STEP to RECOVERY_ABANDON (R79 to R83). -/

namespace Sys2Proof.Machine

/-- WRITE_STEP (R79). -/
def execWriteStep (bus : Nat) (a : WriteAnswer) (s : State) : Host.Outcome State Fault Refusal :=
  s.runBelow 4 bus (fun s => s.endWrite bus a) .noSuchBus

/-- READ_STEP (R80). -/
def execReadStep (bus : Nat) (a : ReadAnswer) (s : State) : Host.Outcome State Fault Refusal :=
  s.runBelow 4 bus (fun s => s.endRead bus a) .noSuchBus

/-- POLL_READ (R81). -/
def execPollRead (bus : Nat) (a : Option Byte) (s : State) : Host.Outcome State Fault Refusal :=
  s.runBelow 4 bus (fun s => s.endPollRead bus a) .noSuchBus

/-- POLL_INTERVAL_EXPIRY (R81). -/
def execPollIntervalExpiry (bus : Nat) (s : State) : Host.Outcome State Fault Refusal :=
  s.runBelow 4 bus (fun s => s.nextPollRead bus) .noSuchBus

/-- POLL_TIME_VALUE_EXPIRY (R81). -/
def execPollTimeValueExpiry (bus : Nat) (s : State) : Host.Outcome State Fault Refusal :=
  s.runBelow 4 bus (fun s => s.endPollTime bus) .noSuchBus

/-- WAIT_STEP_EXPIRY (R82). -/
def execWaitStepExpiry (bus : Nat) (s : State) : Host.Outcome State Fault Refusal :=
  s.runBelow 4 bus (fun s => s.endWait bus) .noSuchBus

/-- BUS_STALL (R83). -/
def execBusStall (bus : Nat) (received : List Byte) (s : State) : Host.Outcome State Fault Refusal :=
  s.runBelow 4 bus (fun s => s.stall bus received) .noSuchBus

/-- RECOVERY_END (R83). -/
def execRecoveryEnd (bus : Nat) (s : State) : Host.Outcome State Fault Refusal :=
  s.runBelow 4 bus (fun s => s.leaveRecovery bus) .noSuchBus

/-- RECOVERY_ABANDON (R83): the bus returns to IDLE, as after a complete sequence. -/
def execRecoveryAbandon (bus : Nat) (s : State) : Host.Outcome State Fault Refusal :=
  s.runBelow 4 bus (fun s => s.leaveRecovery bus) .noSuchBus

end Sys2Proof.Machine
end

