-- ==== Sys2Proof/Machine/Framer.lean ====
section
/-! DEFINITION. The Lane Framer (Chapter 2) as a function of its own state, the settings and the byte it takes. -/

namespace Sys2Proof.Machine

/-- How a search stands after the bytes it was given: it goes on, or it confirmed an alignment whose confirming byte has
the given position, with the bytes after it still to be taken. -/
inductive SearchEnd where
  | going (sr : Search)
  | found (at_ : Nat) (rest : List Byte)
  deriving DecidableEq, Repr

/-- What one examined byte does to a search (R29, R30, R35). -/
inductive Examined where
  | going (sr : Search)
  | found
  /-- the candidate is rejected: the search resumes at the byte after it, with these bytes to examine again -/
  | again (sr : Search) (bytes : List Byte)
  deriving DecidableEq, Repr

/-- A search examines the byte at its next position: a candidate is 0x47 at a phase other than `excl` (R29, R35); a
candidate is confirmed at every position 188 beyond, and rejected by any other value there (R30). -/
def Search.examine (excl : Option Nat) (lockCount : Nat) (sr : Search) (b : Byte) : Examined :=
  match sr.cand with
  | none =>
    if b = syncByte ∧ some (sr.next % packetLen) ≠ excl then
      .going { next := sr.next + 1, cand := some (sr.next, 1), buf := [b] }
    else .going { next := sr.next + 1, cand := none, buf := [] }
  | some (c, k) =>
    if sr.next = c + packetLen * k then
      if b = syncByte then
        if lockCount ≤ k + 1 then .found
        else .going { next := sr.next + 1, cand := some (c, k + 1), buf := sr.buf ++ [b] }
      else .again { next := c + 1, cand := none, buf := [] } (sr.buf.drop 1 ++ [b])
    else .going { next := sr.next + 1, cand := some (c, k), buf := sr.buf ++ [b] }

/-- A search over a run of bytes, retained bytes first after a rejection (R29, R35). -/
def Search.run (excl : Option Nat) (lockCount : Nat) : Nat → Search → List Byte → SearchEnd
  | _, sr, [] => .going sr
  | 0, sr, _ => .going sr
  | n + 1, sr, b :: bs =>
    match sr.examine excl lockCount b with
    | .going sr' => Search.run excl lockCount n sr' bs
    | .found => .found sr.next bs
    | .again sr' more => Search.run excl lockCount n sr' (more ++ bs)

/-- What a bad sync byte adds to the sync-error count (R37). -/
def syncErrorAmount (m : SyncMode) (b : Byte) : Nat :=
  match m with
  | .packet => 1
  | .bit => popCount (b ^^^ syncByte)

/-- Entry to LOCKED with the confirming byte at a position (R31). -/
def Framer.enterLocked (f : Framer) (at_ : Nat) : Framer × FramerEvent :=
  let ph := at_ % packetLen
  ({ f with state := .locked, pos := at_ + 1, lockPhase := some ph, miss := 0, prevPhase := some ph, search := {},
            pkt := [syncByte], last := [] },
   .lock f.prevPhase.isNone (decide (f.prevPhase ≠ none) && decide (f.prevPhase ≠ some ph)) (!f.inLock))

/-- What one byte does to a lane: its new state, what it hands on in order, and the bytes after a confirming byte that
the lane still has to take (none, unless the lock count was lowered during a search). -/
structure Taken where
  framer : Framer
  events : List FramerEvent := []
  left : List Byte := []
  deriving DecidableEq, Repr

/-- The search found an alignment (R31, R36). -/
def Framer.lockAt (f : Framer) (at_ : Nat) (rest : List Byte) : Taken :=
  { framer := (f.enterLocked at_).1, events := [(f.enterLocked at_).2], left := rest }

/-- A byte taken in LOCKED (R32, R33). The offline search starts at the byte after the sync byte of the last delivered
packet (R35); it cannot complete here, as those 188 bytes hold no position 188 beyond another. -/
def Framer.takeLocked (cfg : Settings) (f : Framer) (b : Byte) : Taken :=
  if f.pkt = [] then
    if b = syncByte then { framer := { f with pos := f.pos + 1, pkt := [b] } }
    else
      match Search.run f.lockPhase cfg.lockCount Config.searchFuel { next := f.pos - (packetLen - 1) }
          (f.last.drop 1 ++ [b]) with
      | .going sr =>
        { framer := { f with state := .flywheel, pos := f.pos + 1, miss := 1, search := sr },
          events := [.syncError (syncErrorAmount cfg.syncMode b)] }
      | .found at_ rest =>
        { f.lockAt at_ rest with
          events := [.syncError (syncErrorAmount cfg.syncMode b), (f.enterLocked at_).2] }
  else
    let p := f.pkt ++ [b]
    if p.length < packetLen then { framer := { f with pos := f.pos + 1, pkt := p } }
    else { framer := { f with pos := f.pos + 1, pkt := [], last := p }, events := [.packet p] }

/-- A byte taken in HUNT or VERIFY (R29, R30). -/
def Framer.takeSearching (cfg : Settings) (f : Framer) (b : Byte) : Taken :=
  match Search.run none cfg.lockCount Config.searchFuel f.search [b] with
  | .going sr =>
    { framer := { f with state := if sr.cand.isSome then .verify else .hunt, pos := f.pos + 1, search := sr } }
  | .found at_ rest => f.lockAt at_ rest

/-- The offline search of a lane in FLYWHEEL examines the byte (R35, R36). -/
def Framer.takeOffline (cfg : Settings) (f : Framer) (b : Byte) : Taken :=
  match Search.run f.lockPhase cfg.lockCount Config.searchFuel f.search [b] with
  | .going sr => { framer := { f with pos := f.pos + 1, search := sr } }
  | .found at_ rest => f.lockAt at_ rest

/-- A loss: HUNT from the next byte on, the previous lock phase kept (R34). -/
def Framer.lose (f : Framer) : Framer :=
  { f with state := .hunt, pos := f.pos + 1, lockPhase := none, miss := 0, search := { next := f.pos + 1 }, pkt := [],
           last := [] }

/-- A byte taken in FLYWHEEL (R34, R35). -/
def Framer.takeFlywheel (cfg : Settings) (f : Framer) (b : Byte) : Taken :=
  if some (f.pos % packetLen) = f.lockPhase then
    if b = syncByte then
      { framer := { f with state := .locked, pos := f.pos + 1, miss := 0, search := {}, pkt := [b] } }
    else
      let n := syncErrorAmount cfg.syncMode b
      if cfg.lossCount ≤ f.miss + 1 then { framer := f.lose, events := [.syncError n, .loss] }
      else
        let r := ({ f with miss := f.miss + 1 }).takeOffline cfg b
        { r with events := .syncError n :: r.events }
  else f.takeOffline cfg b

/-- One byte, by the framer state (Table 20). A lane in IDLE takes none (R28). -/
def Framer.takeOne (cfg : Settings) (f : Framer) (b : Byte) : Taken :=
  match f.state with
  | .idle => { framer := f }
  | .hunt => f.takeSearching cfg b
  | .verify => f.takeSearching cfg b
  | .locked => f.takeLocked cfg b
  | .flywheel => f.takeFlywheel cfg b

/-- A run of bytes taken in order, with what the lane hands on. -/
def Framer.takeMany (cfg : Settings) : Nat → Framer → List Byte → Framer × List FramerEvent
  | _, f, [] => (f, [])
  | 0, f, _ => (f, [])
  | n + 1, f, b :: bs =>
    let r := f.takeOne cfg b
    let r' := Framer.takeMany cfg n r.framer (r.left ++ bs)
    (r'.1, r.events ++ r'.2)

/-- A lane takes a byte (R26 to R37). -/
def Framer.take (cfg : Settings) (f : Framer) (b : Byte) : Framer × List FramerEvent :=
  Framer.takeMany cfg Config.searchFuel f [b]

/-- The framer state that READ_LANE returns: Table 18 without the retained bytes. -/
def Framer.view (f : Framer) : FramerView :=
  { state := f.state, lockPhase := f.lockPhase,
    candPhase := if f.state = .verify then f.search.cand.map (fun c => c.1 % packetLen) else none,
    confirmations := if f.state = .verify then (f.search.cand.map (·.2)).getD 0 else 0,
    miss := f.miss, prevPhase := f.prevPhase,
    offline := if f.state = .flywheel then
        some (f.search.cand.map (fun c => c.1 % packetLen), (f.search.cand.map (·.2)).getD 0) else none }

end Sys2Proof.Machine
end

