-- ==== Sys2Proof/Machine/TableWrites.lean ====
section
/-! DEFINITION. The taking of a command by the Management Unit (R166 to R171) and the eight WRITE_ENTRY rows (Chapter 1,
R74, R75): their checks in the order of Table 8, and their effects. -/

namespace Sys2Proof.Machine

/-! ## Taking a command (R166) -/

/-- One check of a command: whether it fails, and the reply's outcome and detail when it does. -/
structure Check where
  fails : Bool
  outcome : ReplyOutcome
  detail : Nat
  deriving DecidableEq, Repr

/-- The first check that fails (R4, R166). -/
def firstFailing (l : List Check) : Option Check := l.find? (·.fails)

/-- A failure RANGE. -/
def rangeCheck (fails : Bool) (detail : Nat) : Check := { fails := fails, outcome := .range, detail := detail }

/-- The MU takes the head of the inbound queue, when no command is executing and the packet is of this row (R166,
notes/assumptions/3). -/
def State.takeHead (isRow : Cmd → Bool) (f : Cmd → State → State) (s : State) : State :=
  match s.resetting, s.inbound with
  | none, c :: rest => if isRow c then f c (s.setInbound rest) else s
  | _, _ => s

/-- A command is refused by the first check that fails, and acts otherwise (R166). -/
def State.checked (s : State) (c : Cmd) (l : List Check) (act : State → State) : State :=
  match firstFailing l with
  | some k => s.answer c k.outcome k.detail (.bytes [])
  | none => act s

/-- A group is protected against an authority (R170). -/
def Protection.refuses (p : Protection) (group : Nat) (a : Authority) : Bool :=
  p.flags.getLsbD (group - 1) && (decide (p.level = .hard) || decide (a = .property))

/-- The check of step 5 for a group of Table 80 (R170). -/
def State.groupCheck (s : State) (group : Nat) (c : Cmd) : Check :=
  { fails := s.prot.refuses group c.auth, outcome := .prot, detail := group }

/-- The checks of length, index and protection of a WRITE_ENTRY (R166). -/
def State.entryChecks (s : State) (c : Cmd) (len bound group : Nat) : List Check :=
  [rangeCheck (!decide (c.len = len)) 0, rangeCheck (!decide (c.index < bound)) 0, s.groupCheck group c]

/-- A WRITE_ENTRY of a table (Table 7). -/
def isWrite (table : Nat) (c : Cmd) : Bool := decide (c.kind = 1) && decide (c.table = table)

/-- The reply of an accepted write: DONE, or DONE_CLAMPED, with the entry as stored (R4). -/
def State.answerStored (s : State) (c : Cmd) (clamped : Bool) (entry : List Byte) : State :=
  s.answer c (if clamped then .doneClamped else .done) 0 (.bytes entry)

/-- The detail of a conflict: table and index (R167). -/
def conflictWith (table idx : Nat) : Nat := table * 4096 + idx % 4096

/-- The detail of a conflict with the Settings record (R167). -/
def conflictSettings : Nat := 0x6FFF

/-- A conflict with the entry that a search found, if any (R4). -/
def conflictCheck (table : Nat) (found : Option Nat) : Check :=
  { fails := found.isSome, outcome := .conflict, detail := conflictWith table (found.getD 0) }

/-- A conflict with the Settings record (R8, R12). -/
def settingsConflict (fails : Bool) : Check := { fails := fails, outcome := .conflict, detail := conflictSettings }

/-- A field whose change is locked (R4). -/
def inUseCheck (locked changed : Bool) (pos : Nat) : Check := { fails := locked && changed, outcome := .inUse, detail := pos }

/-! ## Binding counts (R12) -/

/-- The copies that hold bindings to an identifier on a multiplex, one entry for each binding, ascending (R12). -/
def State.holders (s : State) (x ident : Nat) : List Nat :=
  (s.copiesOn x).flatMap (fun i => ((s.usedSources i).filter (fun c => decide (c.2 = ident))).map (fun _ => i))

/-- An identifier of a copy to which there would be a fifth binding (R12). When several would get one, the identifier of the
lowest component position decides which copy CONFLICT names: DESIGN CHOICE (notes/assumptions/28). -/
def State.overfullIdent (s : State) (i : Nat) : Option Nat :=
  ((s.usedSources i).find? (fun c => decide (4 < (s.holders (s.copy i).mux c.2).length))).map (·.2)

/-! ## SERVICE (R7 to R10, R144) -/

/-- Output identifiers in use by a service record. -/
def Service.usedIds (r : Service) : List Nat := r.outIds.take r.comps

/-- The field checks of a SERVICE write (R7), in the order of Table 9. -/
def serviceFields (bs : List Byte) : List Check :=
  [rangeCheck (!decide (fieldAt bs 0 ≤ 1)) 1, rangeCheck (!decide (fieldAt bs 1 ≤ 3)) 2,
   rangeCheck (!(decide (1 ≤ fieldAt bs 2) && decide (fieldAt bs 2 ≤ 8))) 3,
   rangeCheck (!(fieldsAt bs 3 8).all (fun x => decide (0x0010 ≤ x) && decide (x ≤ 0x1FFE))) 4,
   rangeCheck (!(fieldsAt bs 11 8).all (fun x => decide (x ≤ 1))) 5,
   rangeCheck (!decide (fieldAt bs 19 < fieldAt bs 2)) 6,
   rangeCheck (!decide (fieldAt bs 25 ≤ 1)) 12, rangeCheck (!decide (fieldAt bs 26 ≤ 1)) 13]

/-- The in-use checks of a SERVICE write (R9). -/
def serviceLocks (old new : Service) : List Check :=
  let locked := old.enabled && new.enabled
  [inUseCheck locked (!decide (new.output = old.output)) 2, inUseCheck locked (!decide (new.comps = old.comps)) 3,
   inUseCheck locked (!decide (new.usedIds = old.usedIds)) 4]

/-- The lowest other enabled service on the same output that shares a used identifier (R8). -/
def State.clashingService (s : State) (v : Nat) (new : Service) : Option Nat :=
  (List.range 256).find? (fun u =>
    !decide (u = v) && (s.service u).enabled && decide ((s.service u).output = new.output) &&
      (s.service u).usedIds.any (fun x => new.usedIds.contains x))

/-- Some entry of a list stands in it again. -/
def repeats : List Nat → Bool
  | [] => false
  | x :: t => t.contains x || repeats t

/-- A defined copy of a service that a raised component count takes past the binding limit; a lowered count never fails (R7).
Of several such copies CONFLICT names the one in the lowest slot: DESIGN CHOICE (notes/assumptions/37). -/
def State.overfullCopy (s : State) (v : Nat) (new : Service) : Option Nat :=
  if new.comps ≤ (s.service v).comps then none
  else (s.copiesOf v).find? (fun i => ((s.putService v new).overfullIdent i).isSome)

/-- The conflict checks of a SERVICE write (R7, R8, notes/assumptions/9). -/
def State.serviceConflicts (s : State) (v : Nat) (new : Service) : List Check :=
  [conflictCheck 2 (s.overfullCopy v new),
   conflictCheck 1 (if new.enabled && repeats new.usedIds then some v else none),
   conflictCheck 1 (if new.enabled then s.clashingService v new else none),
   settingsConflict (new.enabled && decide (new.output = 0) && new.usedIds.contains s.settings.replyId)]

/-- Some tuning field of a SERVICE write was clamped (R7). -/
def serviceClamped (bs : List Byte) : Bool :=
  let r := readService bs
  !decide (fieldsAt bs 20 5 = [r.hyst, r.debounce, r.failCount, r.floor, r.staleLimit])

/-- The tracker of the lane that observes a copy's multiplex removes the old bindings of a copy and merges it as stored
(R14, R46); a local copy rebuilds lane 16 (R55, notes/assumptions/10). -/
def State.retrack (s : State) (old new : CopyRec) (i : Nat) : State :=
  let s1 := if old.defined && !decide (old.mux = localMux) then s.removeOn old.mux i else s
  let s2 := if new.defined && !decide (new.mux = localMux) then s1.mergeOn new.mux i else s1
  if (old.defined && decide (old.mux = localMux)) || (new.defined && decide (new.mux = localMux)) then s2.rebuildLocal
  else s2

/-- The track lists follow a changed component count: each defined copy of the service (R46, R55), in slot order: DESIGN
CHOICE (notes/assumptions/38). -/
def State.retrackService (s : State) (v : Nat) : State :=
  (s.copiesOf v).foldl (fun s i => s.retrack (s.copy i) (s.copy i) i) s

/-- A service is disabled: the OA and the RE take it out of service, its claims settled (R144, R160). -/
def State.disableService (s : State) (v : Nat) (claimed : List Nat) : State :=
  State.settleClaims claimed ((s.oaDisable v).putRank v {})

/-- An accepted SERVICE write is stored, and a changed record touches the service (R10, R144, notes/assumptions/24). A changed
component count changes the track lists, with their TRACK_OVERFLOW (R46), before the service is disabled (CUT_CANCELLED of R160,
withdrawals) or evaluated: DESIGN CHOICE (notes/assumptions/44). -/
def State.storeService (s : State) (v : Nat) (new : Service) : State :=
  let old := s.service v
  if new = old then s
  else
    let s1 := s.putService v new
    let s2 := if new.comps = old.comps then s1 else s1.retrackService v
    if old.enabled && !new.enabled then s2.disableService v (s.claims v)
    else if !old.enabled && new.enabled then (s2.putRank v {}).evaluate v .other
    else s2.evaluate v .other

/-- The command of a SERVICE write (R7). -/
def State.writeService (c : Cmd) (s : State) : State :=
  let new := readService c.operands
  s.checked c (s.entryChecks c 54 256 3 ++ serviceFields c.operands ++ serviceLocks (s.service c.index) new ++
      s.serviceConflicts c.index new)
    (fun s => (s.storeService c.index new).answerStored c (serviceClamped c.operands) (serviceBytes new))

/-! ## COPY (R12 to R14) -/

/-- The field checks of a COPY write, in the order of Table 10; those after the first only when defined is yes (R12). -/
def State.copyFields (s : State) (bs : List Byte) : List Check :=
  let d := decide (fieldAt bs 0 = 0)
  let x := fieldAt bs 1
  [rangeCheck (!decide (fieldAt bs 0 ≤ 1)) 1, rangeCheck (d && !(decide (x < 128) || decide (x = localMux))) 2,
   { fails := d && !decide (x = localMux) && !(s.mux x).defined, outcome := .unknown, detail := 2 },
   rangeCheck (d && !(fieldsAt bs 2 8).all (fun y => decide (y ≤ 0x1FFE))) 3]

/-- A copy is locked: it is the selected, target or pinned copy of an enabled service (R13). -/
def State.copyLocked (s : State) (i : Nat) : Bool :=
  let k := s.rank (i / 4)
  (s.service (i / 4)).enabled &&
    (decide (k.selected = some (i % 4)) || decide (k.target = some (i % 4)) || decide (k.pin = some (i % 4)))

/-- The in-use checks of a COPY write (R13). Of several locked changes IN_USE names the first in the order of Table 11: DESIGN
CHOICE (notes/assumptions/36). -/
def State.copyLocks (s : State) (i : Nat) (new : CopyRec) : List Check :=
  let old := s.copy i
  let locked := s.copyLocked i
  [inUseCheck locked (!decide (new.defined = old.defined)) 1, inUseCheck locked (!decide (new.mux = old.mux)) 2,
   inUseCheck locked (!decide (new.src = old.src)) 3]

/-- Another defined copy of the service on the written multiplex (R12). -/
def State.siblingOn (s : State) (i x : Nat) : Option Nat :=
  (s.copiesOf (i / 4)).find? (fun j => !decide (j = i) && decide ((s.copy j).mux = x))

/-- The copy that a fifth binding names: the lowest other holder, or the written copy (R12). -/
def State.overfullHolder (s : State) (i : Nat) (new : CopyRec) : Option Nat :=
  let t := s.putCopy i new
  (t.overfullIdent i).map (fun ident => ((t.holders new.mux ident).find? (fun j => !decide (j = i))).getD i)

/-- A used source identifier of a local copy is a command identifier (R12). -/
def State.usesCommandIdent (s : State) (i : Nat) : Bool :=
  decide ((s.copy i).mux = localMux) &&
    (s.usedSources i).any (fun c => decide (c.2 = s.settings.mgmtId) || decide (c.2 = s.settings.instId))

/-- The conflict checks of a COPY write with defined = yes (R12), in the order R12 lists them: DESIGN CHOICE
(notes/assumptions/9). -/
def State.copyConflicts (s : State) (i : Nat) (new : CopyRec) : List Check :=
  if new.defined then
    [conflictCheck 2 (s.siblingOn i new.mux), conflictCheck 2 (s.overfullHolder i new),
     settingsConflict ((s.putCopy i new).usesCommandIdent i)]
  else []

/-- Used source identifiers of a record under a component count. -/
def CopyRec.usedSrc (k : Nat) (r : CopyRec) : List Nat := r.src.take k

/-- A COPY write resets the live fields (R14). -/
def resetsLive (k : Nat) (old new : CopyRec) : Bool :=
  !decide (new.defined = old.defined) || !decide (new.mux = old.mux) || !decide (new.usedSrc k = old.usedSrc k)

/-- An accepted COPY write is stored, and a changed record touches the service (R14). The track lists change, with their
TRACK_OVERFLOW (R46), before the service is evaluated (R135): DESIGN CHOICE (notes/assumptions/44). -/
def State.storeCopy (s : State) (i : Nat) (new : CopyRec) : State :=
  let old := s.copy i
  if new = old then s
  else
    let s1 := s.putCopy i new
    let s2 := if resetsLive (s.service (i / 4)).comps old new then s1.putLive i {} else s1
    (s2.retrack old new i).evaluate (i / 4) .other

/-- The command of a COPY write (R12). -/
def State.writeCopy (c : Cmd) (s : State) : State :=
  let new := readCopy c.operands
  s.checked c (s.entryChecks c 20 1024 3 ++ s.copyFields c.operands ++ s.copyLocks c.index new ++
      s.copyConflicts c.index new)
    (fun s => (s.storeCopy c.index new).answerStored c false (copyBytes new))

/-! ## MULTIPLEX (R16, R17) -/

/-- The length of a MULTIPLEX entry follows from its count (Table 75). -/
def muxLength (bs : List Byte) : Nat := 12 + 2 * sigCount bs

/-- The length, index and protection checks of a MULTIPLEX write (R166). -/
def State.muxEntryChecks (s : State) (c : Cmd) : List Check :=
  rangeCheck (decide (177 < c.len)) 0 :: s.entryChecks c (muxLength c.operands) 128 2

/-- The field checks of a MULTIPLEX write, in the order of Table 12 (R16). -/
def muxFields (bs : List Byte) : List Check :=
  let sigs := fieldsAt bs 6 (sigCount bs)
  [rangeCheck (!decide (fieldAt bs 0 ≤ 1)) 1, rangeCheck (!decide (fieldAt bs 1 ≤ 7)) 2,
   rangeCheck (!decide (fieldAt bs 2 ≤ 511)) 3, rangeCheck (!decide (fieldAt bs 4 ≤ 2)) 5,
   rangeCheck (!decide (sigCount bs ≤ 4)) 6, rangeCheck (!sigs.all (fun x => decide (x ≤ 0x1FFE))) 6,
   rangeCheck (repeats sigs) 6]

/-- The in-use checks of a MULTIPLEX write (R17). Of several locked changes IN_USE names the first in the order of Table 12:
DESIGN CHOICE (notes/assumptions/36). -/
def State.muxLocks (s : State) (x : Nat) (new : MuxRec) : List Check :=
  let old := s.mux x
  let locked := s.occupied x
  [inUseCheck locked (!decide (new.defined = old.defined)) 1, inUseCheck locked (!decide (new.feed = old.feed)) 2,
   inUseCheck locked (!decide (new.head = old.head)) 3]

/-- The conflict check of a MULTIPLEX write that undefines the multiplex (R16). -/
def State.muxConflicts (s : State) (x : Nat) (new : MuxRec) : List Check :=
  [conflictCheck 2 (if (s.mux x).defined && !new.defined then (s.copiesOn x).head? else none)]

/-- What the undefining of a multiplex clears (R52, R69, R111). -/
def State.undefineMux (s : State) (x : Nat) : State := ((s.putMismatched x false).putCensusRec x none).dropUrgent x

/-- A MULTIPLEX write that makes the SCH try picks (R113). -/
def wakesPicks (old new : MuxRec) : Bool :=
  !decide (new.defined = old.defined) || !decide (new.feed = old.feed) || !decide (new.ring = old.ring)

/-- An accepted MULTIPLEX write is stored (R17, R46, R52, R69, R111, R113). -/
def State.storeMux (s : State) (x : Nat) (new : MuxRec) : State :=
  let old := s.mux x
  let s1 := s.putMux x new
  let s2 := if old.defined && !new.defined then s1.undefineMux x else s1
  let s3 := if new.sigs = old.sigs then s2 else s2.followSignatures x old.sigs
  if wakesPicks old new then s3.post .pickTry else s3

/-- The command of a MULTIPLEX write (R16). -/
def State.writeMux (c : Cmd) (s : State) : State :=
  let new := readMux c.operands
  s.checked c (s.muxEntryChecks c ++ muxFields c.operands ++ s.muxLocks c.index new ++ s.muxConflicts c.index new)
    (fun s => (s.storeMux c.index new).answerStored c (!decide (fieldAt c.operands 3 = new.dwell)) (muxBytes new))

/-! ## TUNER (R18, R19) -/

/-- The field checks of a TUNER write, in the order of Table 13 (R19). -/
def tunerFields (bs : List Byte) : List Check :=
  [rangeCheck (!decide (fieldAt bs 1 ≤ 3)) 2, rangeCheck (!(decide (0x08 ≤ fieldAt bs 2) && decide (fieldAt bs 2 ≤ 0x77))) 3,
   rangeCheck (!decide (fieldAt bs 4 ≤ 511)) 5,
   rangeCheck (!(decide (fieldAt bs 5 ≤ 511) || decide (fieldAt bs 5 = absentCode))) 6]

/-- A TUNER entry is locked: its tuner is neither FREE nor OFF (R19). -/
def State.tunerLocked (s : State) (t : Nat) : Bool :=
  !(decide ((s.tuner t).state = .free) || decide ((s.tuner t).state = .off))

/-- The in-use checks of a TUNER write (R19). Of several changes IN_USE names the first in the order of Table 13: DESIGN CHOICE
(notes/assumptions/36). -/
def State.tunerLocks (s : State) (t : Nat) (new : TunerRec) : List Check :=
  let old := s.tunerRec t
  let locked := s.tunerLocked t
  [inUseCheck locked (!decide (new.bus = old.bus)) 2, inUseCheck locked (!decide (new.addr = old.addr)) 3,
   inUseCheck locked (!decide (new.reach = old.reach)) 4, inUseCheck locked (!decide (new.measure = old.measure)) 5,
   inUseCheck locked (!decide (new.release = old.release)) 6,
   inUseCheck locked (!decide (new.acquireLimit = old.acquireLimit)) 7,
   inUseCheck locked (!decide (new.relockLimit = old.relockLimit)) 8]

/-- Some limit of a TUNER write was clamped (R19). -/
def tunerClamped (bs : List Byte) : Bool :=
  let r := readTuner bs
  !decide (fieldsAt bs 6 2 = [r.acquireLimit, r.relockLimit])

/-- The command of a TUNER write (R19); the role stands (R18). -/
def State.writeTuner (c : Cmd) (s : State) : State :=
  let new := readTuner c.operands
  s.checked c (s.entryChecks c 16 16 1 ++ tunerFields c.operands ++ s.tunerLocks c.index new)
    (fun s => (s.putTunerRec c.index new).answerStored c (tunerClamped c.operands) (tunerBytes (s.role c.index) new))

/-! ## OUTPUT (R20) -/

/-- An OUTPUT write is stored; a disable flushes the queue (R20, R155). -/
def State.storeOutput (s : State) (o : Nat) (new : OutputRec) : State :=
  let s1 := s.putOutputRec o new
  if (s.outputRec o).enabled && !new.enabled then s1.disableOutput o else s1

/-- The command of an OUTPUT write (R20). -/
def State.writeOutput (c : Cmd) (s : State) : State :=
  let new := readOutput c.operands
  s.checked c (s.entryChecks c 6 4 4 ++ [rangeCheck (!decide (fieldAt c.operands 0 ≤ 1)) 1])
    (fun s => (s.storeOutput c.index new).answerStored c (!decide (valueOf ((c.operands.drop 2).take 4) = new.rate))
      (outputBytes new))

/-! ## SETTINGS (R21, R22) -/

/-- The field checks of a SETTINGS write: codes and ranges in the order of Table 15, then distinctness (R21, R22). -/
def settingsFields (bs : List Byte) : List Check :=
  [rangeCheck (!decide (fieldAt bs 3 ≤ 1)) 4, rangeCheck (!decide (fieldAt bs 12 ≤ 1)) 13,
   rangeCheck (!decide (fieldAt bs 14 ≤ 0x1FFE)) 15, rangeCheck (!decide (fieldAt bs 15 ≤ 0x1FFE)) 16,
   rangeCheck (!decide (fieldAt bs 16 ≤ 0x1FFE)) 17, rangeCheck (decide (fieldAt bs 15 = fieldAt bs 14)) 16,
   rangeCheck (decide (fieldAt bs 16 = fieldAt bs 14) || decide (fieldAt bs 16 = fieldAt bs 15)) 17]

/-- The lowest enabled service on output 0 that uses an identifier (R22). -/
def State.outputUser (s : State) (ident : Nat) : Option Nat :=
  (List.range 256).find? (fun v =>
    (s.service v).enabled && decide ((s.service v).output = 0) && (s.service v).usedIds.contains ident)

/-- The lowest local copy that uses a command identifier of the settings (R22). -/
def State.commandUser (s : State) : Option Nat := (s.copiesOn localMux).find? s.usesCommandIdent

/-- The settings replaced. -/
def State.putSettings (s : State) (new : Settings) : State := s.setTables { s.tables with settings := new }

/-- The conflict checks of a SETTINGS write (R22). -/
def State.settingsConflicts (s : State) (new : Settings) : List Check :=
  [conflictCheck 1 (s.outputUser new.replyId), conflictCheck 2 ((s.putSettings new).commandUser)]

/-- Some tuning field of a SETTINGS write was clamped (R21). -/
def settingsClamped (bs : List Byte) : Bool :=
  let r := readSettings 0 bs
  !decide ([fieldAt bs 0, fieldAt bs 1, fieldAt bs 2, fieldAt bs 4, fieldAt bs 5, fieldAt bs 6, fieldAt bs 7, fieldAt bs 8,
      fieldAt bs 9, fieldAt bs 10, fieldAt bs 11, fieldAt bs 13] =
    [r.winLen, r.lockCount, r.lossCount, r.excess, r.weight, r.shift, r.aShare, r.censusMin, r.censusPeriod, r.cutLimit,
      r.hostRetry, r.pollInterval])

/-- The command of a SETTINGS write (R21, R22); its reply carries the old reply identifier (R23). -/
def State.writeSettings (c : Cmd) (s : State) : State :=
  let new := readSettings s.settings.mask c.operands
  s.checked c (s.entryChecks c 38 1 5 ++ settingsFields c.operands ++ s.settingsConflicts new)
    (fun s => (s.putSettings new).buildReply s.settings.replyId
      { tag := c.tag, kind := c.kind, outcome := if settingsClamped c.operands then .doneClamped else .done, detail := 0,
        data := .bytes (settingsBytes new) })

/-! ## STEP and POOL (R74, R75) -/

/-- Some field of a STEP write was clamped, or a code stored as NONE (R74). -/
def stepClamped (bs : List Byte) : Bool :=
  let r := readStep bs
  decide (4 < fieldAt bs 0) || decide (1 < fieldAt bs 7) ||
    !decide ([fieldAt bs 1, fieldAt bs 2, fieldAt bs 3, fieldAt bs 6] = [r.addrOff, r.byteOff, r.count, r.time])

/-- The command of a STEP write (R74). -/
def State.writeStep (c : Cmd) (s : State) : State :=
  let new := readStep c.operands
  s.checked c (s.entryChecks c 18 512 1)
    (fun s => (s.putStep c.index new).answerStored c (stepClamped c.operands) (stepBytes new))

/-- The command of a POOL write (R75). -/
def State.writePool (c : Cmd) (s : State) : State :=
  s.checked c (s.entryChecks c 16 256 1)
    (fun s => (s.storePool (16 * c.index) c.operands).answerStored c false c.operands)

/-! ## The rows -/

/-- WRITE_ENTRY_SERVICE (R7). -/
def execWriteEntryService (s : State) : Host.Outcome State Fault Refusal :=
  s.run (State.takeHead (isWrite 1) State.writeService)

/-- WRITE_ENTRY_COPY (R12). -/
def execWriteEntryCopy (s : State) : Host.Outcome State Fault Refusal :=
  s.run (State.takeHead (isWrite 2) State.writeCopy)

/-- WRITE_ENTRY_MULTIPLEX (R16). -/
def execWriteEntryMultiplex (s : State) : Host.Outcome State Fault Refusal :=
  s.run (State.takeHead (isWrite 3) State.writeMux)

/-- WRITE_ENTRY_TUNER (R19). -/
def execWriteEntryTuner (s : State) : Host.Outcome State Fault Refusal :=
  s.run (State.takeHead (isWrite 4) State.writeTuner)

/-- WRITE_ENTRY_OUTPUT (R20). -/
def execWriteEntryOutput (s : State) : Host.Outcome State Fault Refusal :=
  s.run (State.takeHead (isWrite 5) State.writeOutput)

/-- WRITE_ENTRY_SETTINGS (R22). -/
def execWriteEntrySettings (s : State) : Host.Outcome State Fault Refusal :=
  s.run (State.takeHead (isWrite 6) State.writeSettings)

/-- WRITE_ENTRY_STEP (R74). -/
def execWriteEntryStep (s : State) : Host.Outcome State Fault Refusal :=
  s.run (State.takeHead (isWrite 7) State.writeStep)

/-- WRITE_ENTRY_POOL (R75). -/
def execWriteEntryPool (s : State) : Host.Outcome State Fault Refusal :=
  s.run (State.takeHead (isWrite 8) State.writePool)

/-- A WRITE_ENTRY whose table code names no table (R3, R166). -/
def isUnknownTable (c : Cmd) : Bool := decide (c.kind = 1) && (decide (c.table = 0) || decide (8 < c.table))

/-- WRITE_ENTRY_UNKNOWN_TABLE (R3). -/
def execWriteEntryUnknownTable (s : State) : Host.Outcome State Fault Refusal :=
  s.run (State.takeHead isUnknownTable (fun c s => s.answer c .unknown 0 (.bytes [])))

end Sys2Proof.Machine
end

