-- ==== Sys2Proof/Machine/Commands.lean ====
section
/-! DEFINITION. The other commands of the Management Unit (Table 79): the reading commands, SET_ROLE to SET_PROTECTION,
and a command that is not recognised. -/

namespace Sys2Proof.Machine

/-- The packet is a command of a kind, numbered in the order of Table 79. -/
def isKind (k : Nat) (c : Cmd) : Bool := decide (c.kind = k)

/-- The length check of a command (R166). -/
def lenCheck (c : Cmd) (n : Nat) : Check := rangeCheck (!decide (c.len = n)) 0

/-- The check of an index or code below a bound (R166). -/
def belowCheck (x bound : Nat) : Check := rangeCheck (!decide (x < bound)) 0

/-! ## Reading commands (R2, R169) -/

/-- The 16 bytes of a pool chunk (R75). -/
def State.chunk (s : State) (i : Nat) : List Byte := s.poolBytes (16 * i) 16

/-- The data of READ_ENTRY, by table (Table 79). -/
def State.entryBytes (s : State) (table i : Nat) : List Byte :=
  match table with
  | 1 => serviceBytes (s.service i)
  | 2 => copyBytes (s.copy i) ++ liveBytes (s.live i)
  | 3 => muxBytes (s.mux i)
  | 4 => tunerBytes (s.role i) (s.tunerRec i)
  | 5 => outputBytes (s.outputRec i) ++ field (s.out i).queue.length ++ field (s.out i).drops ++ field (s.out i).lastDrops
  | 6 => settingsBytes s.settings
  | 7 => stepBytes (s.step i)
  | _ => s.chunk i

/-- The command READ_ENTRY (R2). -/
def State.readEntry (c : Cmd) (s : State) : State :=
  s.checked c
    [{ fails := decide (c.table = 0) || decide (8 < c.table), outcome := .unknown, detail := 0 }, lenCheck c 0,
     belowCheck c.index (tableRange c.table)]
    (fun s => s.answer c .done 0 (.bytes (s.entryBytes c.table c.index)))

/-- What READ_RANK returns (R169). -/
def State.rankData (s : State) (v : Nat) : RankData :=
  { state := s.svcState v, record := s.rank v,
    list := (s.rankList v).map (fun slot => { slot := slot, cls := (s.liveOf v slot).cls, live := s.liveOf v slot }),
    claims := (((s.definedSlots v).map (s.copyMux v)).filter (fun x => !decide (x = localMux))).map
      (fun x => (x, s.claimCount x)) }

/-- The command READ_RANK (R169). -/
def State.readRank (c : Cmd) (s : State) : State :=
  s.checked c [lenCheck c 0, belowCheck c.index 256] (fun s => s.answer c .done 0 (.read (.rank (s.rankData c.index))))

/-- Part 0 of READ_LANE (R169). -/
def State.laneData (s : State) (lane : Nat) : LaneData :=
  { framer := (s.framer lane).view, window := (s.qmLane lane).atInstant s.now, lifetime := s.lifetime lane,
    censusWindows := (s.tracker lane).windows, censusOverflow := (s.tracker lane).overflow,
    entryCount := (s.tracker lane).entries.length, urgent := s.sched.urgent, ptrA := s.sched.ptrA, ptrB := s.sched.ptrB,
    aRun := s.sched.aRun, tuner := if lane = insertionLane then none else some (s.role lane, s.tuner lane),
    visit := s.visit lane, lastOutcome := s.lastOutcome lane }

/-- One part of READ_LANE (R169). -/
def State.lanePart (s : State) (lane part : Nat) : ReadData :=
  if part = 0 then .lane (s.laneData lane) else .tracks (((s.tracker lane).entries.drop (8 * (part - 1))).take 8)

/-- The command READ_LANE (R169). -/
def State.readLane (c : Cmd) (s : State) : State :=
  s.checked c [lenCheck c 1, belowCheck c.index 17, belowCheck (c.operand 0) 13]
    (fun s => s.answer c .done 0 (.read (s.lanePart c.index (c.operand 0))))

/-- The command READ_CENSUS (R169). -/
def State.readCensus (c : Cmd) (s : State) : State :=
  s.checked c [lenCheck c 0, rangeCheck (!(decide (c.index < 128) || decide (c.index = localMux))) 0]
    (fun s => s.answer c .done 0 (.read (.census (s.censusRec c.index))))

/-- Indication codes 1 to 21 (Table 81). -/
def kindCodes : List Nat := (List.range 21).map (· + 1)

/-- Key of the indication of a source, by source code, index and kind code. -/
def codeKey (k idx kind : Nat) : Nat := (k * 65536 + idx) * 32 + kind

/-- The flags of a table for one source as a mask: kind `k` at bit `k` − 1 (Table 75). -/
def maskOf (t : Tab Bool) (k idx : Nat) : BitVec 24 :=
  BitVec.ofNat 24 ((kindCodes.filter (fun n => Tab.get false t (codeKey k idx n))).map (fun n => 2 ^ (n - 1))).sum

/-- What READ_INDICATIONS returns for a source kind with `n` sources, from an index on (R169). -/
def State.indData (s : State) (k n first : Nat) : IndData :=
  { flags := (List.range (min 16 (n - first))).map (fun i =>
      (maskOf s.inds.latched k (first + i), maskOf s.inds.status k (first + i))),
    summary := (List.range 6).map (fun i => s.inds.latched.any (fun e => e.2 && decide (e.1 / 32 / 65536 = i + 1))),
    lost := s.mgmt.lost }

/-- Sources of a source kind by its code; none for a code outside 1–6 (Table 75). -/
def sourceRange (k : Nat) : Nat := ((SourceKind.ofCode k).map SourceKind.range).getD 0

/-- The command READ_INDICATIONS (R169). -/
def State.readIndications (c : Cmd) (s : State) : State :=
  s.checked c [lenCheck c 1, belowCheck c.index (sourceRange (c.operand 0))]
    (fun s => s.answer c .done 0 (.read (.indications (s.indData (c.operand 0) (sourceRange (c.operand 0)) c.index))))

/-! ## SET_ROLE, URGENT, PIN, UNPIN (R104, R109, R145) -/

/-- The command SET_ROLE (R104). -/
def State.commandRole (c : Cmd) (s : State) : State :=
  s.checked c
    [lenCheck c 1, belowCheck c.index 16, belowCheck (c.operand 0) 3, s.groupCheck 1 c,
     { fails := s.roleLocked c.index (Role.ofCode (c.operand 0)), outcome := .inUse, detail := 0 }]
    (fun s => (s.setRole c.index (Role.ofCode (c.operand 0))).answer c .done 0 (.bytes []))

/-- The effect of URGENT on the urgent list (Table 52). -/
def State.joinUrgent (s : State) (x : Nat) : State :=
  if (s.urgentAnswer x).2 then (s.setUrgent (s.sched.urgent ++ [x])).post .pickTry else s

/-- The command URGENT (R109). -/
def State.commandUrgent (c : Cmd) (s : State) : State :=
  s.checked c [lenCheck c 0, belowCheck c.index 128, s.groupCheck 2 c]
    (fun s => (s.joinUrgent c.index).answer c (s.urgentAnswer c.index).1 0 (.bytes []))

/-- The command PIN (R145). -/
def State.commandPin (c : Cmd) (s : State) : State :=
  s.checked c
    [lenCheck c 1, belowCheck c.index 256, belowCheck (c.operand 0) 4, s.groupCheck 3 c,
     { fails := !decide (s.pinAnswer c.index (some (c.operand 0)) = .done), outcome := .unknown, detail := 0 }]
    (fun s => (s.pinCopy c.index (c.operand 0)).answer c .done 0 (.bytes []))

/-- The command UNPIN (R145). -/
def State.commandUnpin (c : Cmd) (s : State) : State :=
  s.checked c
    [lenCheck c 0, belowCheck c.index 256, s.groupCheck 3 c,
     { fails := !decide (s.pinAnswer c.index none = .done), outcome := .unknown, detail := 0 }]
    (fun s => (s.unpinCopy c.index).answer c .done 0 (.bytes []))

/-! ## Indications, enables, counters, protection (R71, R171, R173, R174) -/

/-- A 24-bit mask in three operand bytes (Table 75). -/
def maskAt (bs : List Byte) (i : Nat) : BitVec 24 := BitVec.ofNat 24 (valueOf ((bs.drop i).take 3))

/-- A table of latched flags with the named kinds of a source clear. -/
def clearedFlags (k idx : Nat) (kinds : BitVec 24) (t : Tab Bool) : Tab Bool :=
  (kindCodes.filter (fun n => kinds.getLsbD (n - 1))).foldl (fun t n => Tab.set false t (codeKey k idx n) false) t

/-- The latched flags of the named kinds of a source are cleared (R173). -/
def State.clearFlags (s : State) (k idx : Nat) (kinds : BitVec 24) : State :=
  s.setInds { s.inds with latched := clearedFlags k idx kinds s.inds.latched }

/-- The command CLEAR_INDICATION (R173). -/
def State.commandClear (c : Cmd) (s : State) : State :=
  s.checked c [lenCheck c 4, belowCheck c.index (sourceRange (c.operand 0))]
    (fun s => (s.clearFlags (c.operand 0) c.index (maskAt c.operands 1)).answer c .done 0 (.bytes []))

/-- The enables that SET_ENABLES stores: those of kinds 1–21 (R174). -/
def storedMask (m : BitVec 24) : BitVec 24 := m &&& 0x1FFFFF#24

/-- The command SET_ENABLES (R174). -/
def State.commandEnables (c : Cmd) (s : State) : State :=
  let m := storedMask (maskAt c.operands 0)
  s.checked c [lenCheck c 3, s.groupCheck 5 c]
    (fun s => (s.putSettings { s.settings with mask := m }).answer c .done 0 (.bytes (bytesOf 3 m.toNat)))

/-- The lifetime counters of the lanes of a mask become 0 (R71). -/
def State.clearCounters (s : State) (m : BitVec 24) : State :=
  ((List.range 17).filter (fun n => m.getLsbD n)).foldl (fun s n => s.putLifetime n {}) s

/-- The command CLEAR_COUNTERS (R71). -/
def State.commandCounters (c : Cmd) (s : State) : State :=
  s.checked c [lenCheck c 3] (fun s => (s.clearCounters (maskAt c.operands 0)).answer c .done 0 (.bytes []))

/-- The protection that SET_PROTECTION carries (Table 75). -/
def readProtection (bs : List Byte) : Protection :=
  { flags := BitVec.ofNat 5 (bs.getD 0 0).toNat, level := if (bs.getD 1 0).toNat = 1 then .hard else .soft }

/-- Protection in bytes (Table 75). -/
def protectionBytes (p : Protection) : List Byte :=
  bytesOf 1 p.flags.toNat ++ bytesOf 1 (if p.level = .hard then 1 else 0)

/-- SET_PROTECTION is refused (R171). -/
def Protection.locked (p : Protection) (a : Authority) : Bool := decide (p.level = .hard) || decide (a = .property)

/-- The command SET_PROTECTION (R171). -/
def State.commandProtection (c : Cmd) (s : State) : State :=
  s.checked c
    [lenCheck c 2, belowCheck (c.operand 1) 2, { fails := s.prot.locked c.auth, outcome := .prot, detail := 0 }]
    (fun s => (s.setProt (readProtection c.operands)).answer c .done 0
      (.bytes (protectionBytes (readProtection c.operands))))

/-! ## The rows -/

/-- READ_ENTRY (R2). -/
def execReadEntry (s : State) : Host.Outcome State Fault Refusal := s.run (State.takeHead (isKind 2) State.readEntry)

/-- READ_RANK (R169). -/
def execReadRank (s : State) : Host.Outcome State Fault Refusal := s.run (State.takeHead (isKind 3) State.readRank)

/-- READ_LANE (R169). -/
def execReadLane (s : State) : Host.Outcome State Fault Refusal := s.run (State.takeHead (isKind 4) State.readLane)

/-- READ_CENSUS (R169). -/
def execReadCensus (s : State) : Host.Outcome State Fault Refusal := s.run (State.takeHead (isKind 5) State.readCensus)

/-- READ_INDICATIONS (R169). -/
def execReadIndications (s : State) : Host.Outcome State Fault Refusal :=
  s.run (State.takeHead (isKind 6) State.readIndications)

/-- SET_ROLE (R104). -/
def execSetRole (s : State) : Host.Outcome State Fault Refusal := s.run (State.takeHead (isKind 7) State.commandRole)

/-- URGENT (R109). -/
def execUrgent (s : State) : Host.Outcome State Fault Refusal := s.run (State.takeHead (isKind 8) State.commandUrgent)

/-- PIN (R145). -/
def execPin (s : State) : Host.Outcome State Fault Refusal := s.run (State.takeHead (isKind 9) State.commandPin)

/-- UNPIN (R145). -/
def execUnpin (s : State) : Host.Outcome State Fault Refusal := s.run (State.takeHead (isKind 10) State.commandUnpin)

/-- CLEAR_INDICATION (R173). -/
def execClearIndication (s : State) : Host.Outcome State Fault Refusal :=
  s.run (State.takeHead (isKind 11) State.commandClear)

/-- SET_ENABLES (R174). -/
def execSetEnables (s : State) : Host.Outcome State Fault Refusal := s.run (State.takeHead (isKind 12) State.commandEnables)

/-- CLEAR_COUNTERS (R71). -/
def execClearCounters (s : State) : Host.Outcome State Fault Refusal :=
  s.run (State.takeHead (isKind 13) State.commandCounters)

/-- SET_PROTECTION (R171). -/
def execSetProtection (s : State) : Host.Outcome State Fault Refusal :=
  s.run (State.takeHead (isKind 14) State.commandProtection)

/-- A command of kind outside 1–15 (R166). -/
def isUnrecognised (c : Cmd) : Bool := decide (c.kind = 0) || decide (15 < c.kind)

/-- UNRECOGNISED_COMMAND (R166): UNKNOWN, with reply kind 0. -/
def execUnrecognisedCommand (s : State) : Host.Outcome State Fault Refusal :=
  s.run (State.takeHead isUnrecognised (fun c s => s.buildReply s.settings.replyId
    { tag := c.tag, kind := 0, outcome := .unknown, detail := 0, data := .bytes [] }))

end Sys2Proof.Machine
end

