-- ==== Sys2Proof/Machine/Events.lean ====
section
/-! DEFINITION. The events of the lanes, windows, outputs, clocks and timers: the rows LANE_BYTE, WINDOW_EXPIRY,
EMISSION_SLOT, OVERFLOW_PERIOD_END, RANK_CLOCK_SECOND and the tuner and cut timers. -/

namespace Sys2Proof.Machine

/-- A first lock starts the windows of a lane 0–15 (R59); lane 16 has its windows from power-on (R72). -/
def State.firstWindow (s : State) (lane : Nat) (first : Bool) : State :=
  if first && decide (lane ≠ insertionLane) then s.startWindow lane else s

/-- A lock event and what goes with it (R31, R38). -/
def State.takeLock (s : State) (lane : Nat) (first realign wasOut : Bool) : State :=
  let s1 := s.firstWindow lane first
  let s2 := if wasOut then s1.qmLock lane true else s1
  let s3 := if realign then s2.qmRealign lane else s2
  let s4 := if wasOut then s3.tpmLock lane true else s3
  if first then s4.firstLock lane else s4

/-- A loss goes to the QM, the TPM, the RE and the OA (R39). -/
def State.takeLoss (s : State) (lane : Nat) : State :=
  ((((s.qmLoss lane).qmLock lane false).tpmLock lane false).lossAlert lane).oaLoss lane

/-- One hand-over of a Lane Framer (Table 22). -/
def State.takeFramerEvent (lane : Nat) (s : State) : FramerEvent → State
  | .lock first realign wasOut => s.takeLock lane first realign wasOut
  | .packet p => (s.qmPacket lane (Packet.flagged p)).sortPacket lane p
  | .syncError n => s.qmSyncError lane n
  | .loss => s.takeLoss lane

/-- A lane takes a byte (R26 to R39). -/
def State.laneByte (lane : Nat) (b : Byte) (s : State) : State :=
  let r := (s.framer lane).take s.settings b
  r.2.foldl (State.takeFramerEvent lane) (s.putFramer lane r.1)

/-- LANE_BYTE (R26). -/
def execLaneByte (lane : Nat) (b : Byte) (s : State) : Host.Outcome State Fault Refusal :=
  s.runBelow 17 lane (State.laneByte lane b) .noSuchLane

/-- Step 1 of a window expiry: an older pending report completes under the hold rule and is handed on, and the RE and the
SCH take it before anything else is done (R63, R66, R117). -/
def State.deliverHeld (s : State) (lane : Nat) : State :=
  let q := s.qmLane lane
  match q.pending with
  | none => s
  | some r => (s.putQmLane lane q.afterHeld).deliverReport (q.heldReport r) (s.reportsToSch r)

/-- The running window of a lane expires (R63). Where the older report ends the visit of the lane, the release has discarded
the window (R60, R118). -/
def State.expireWindow (s : State) (lane : Nat) : State :=
  match (s.qmLane lane).window with
  | none => s
  | some w =>
    let s1 := (s.reach (w.1 + w.2)).deliverHeld lane
    if (s1.qmLane lane).window = some w then s1.closeWindow lane else s1

/-- WINDOW_EXPIRY (R63). -/
def execWindowExpiry (lane : Nat) (s : State) : Host.Outcome State Fault Refusal :=
  s.runBelow 17 lane (fun s => s.expireWindow lane) .noSuchLane

/-- EMISSION_SLOT (R150). -/
def execEmissionSlot (output : Nat) (s : State) : Host.Outcome State Fault Refusal :=
  s.runBelow 4 output (fun s => s.emit output) .noSuchOutput

/-- OVERFLOW_PERIOD_END (R154). -/
def execOverflowPeriodEnd (output : Nat) (s : State) : Host.Outcome State Fault Refusal :=
  s.runBelow 4 output (fun s => s.endPeriod output) .noSuchOutput

/-- RANK_CLOCK_SECOND (R130). -/
def execRankClockSecond (s : State) : Host.Outcome State Fault Refusal := s.run (fun s => s.tickClock.reSecond)

/-- ACQUIRE_TIMER_EXPIRY (R94). -/
def execAcquireTimerExpiry (tuner : Nat) (s : State) : Host.Outcome State Fault Refusal :=
  s.runBelow 16 tuner (fun s => s.acquireExpires tuner) .noSuchTuner

/-- RELOCK_TIMER_EXPIRY (R97). -/
def execRelockTimerExpiry (tuner : Nat) (s : State) : Host.Outcome State Fault Refusal :=
  s.runBelow 16 tuner (fun s => s.relockExpires tuner) .noSuchTuner

/-- The first expiry of a cut record's timer: the forced flag becomes yes (R158). -/
def State.forceCut (s : State) (v : Nat) : State :=
  match s.cut v with
  | some c =>
    if c.expiries = 0 then (s.reach (c.start + c.limit)).putCut v (some { c with expiries := 1, forced := true }) else s
  | none => s

/-- The second expiry of a cut record's timer: the cut is abandoned (R158). -/
def State.abandonCut (s : State) (v : Nat) : State :=
  match s.cut v with
  | some c => if c.expiries = 1 then (s.reach (c.start + 2 * c.limit)).cancelCut v true else s
  | none => s

/-- CUT_FORCE_EXPIRY (R158). -/
def execCutForceExpiry (service : Nat) (s : State) : Host.Outcome State Fault Refusal :=
  s.runBelow 256 service (fun s => s.forceCut service) .noSuchService

/-- CUT_ABANDON_EXPIRY (R158). -/
def execCutAbandonExpiry (service : Nat) (s : State) : Host.Outcome State Fault Refusal :=
  s.runBelow 256 service (fun s => s.abandonCut service) .noSuchService

end Sys2Proof.Machine
end

