-- ==== Sys2Proof/Machine/Resets.lean ====
section
/-! DEFINITION. The two resets: POWER_ON_RESET, SOFT_RESET and SOFT_RESET_COMPLETE (R2, R42, R43, R57, R72, R73, R89, R106,
R122, R130, R148, R163, R178, R179). -/

namespace Sys2Proof.Machine

/-- POWER_ON_RESET (R42, R179): everything takes its power-on value; commands waiting outside the part keep waiting. -/
def execPowerOnReset (s : State) : Host.Outcome State Fault Refusal := .next { State.reset with pending := s.pending }

/-- One lane 0–15 in a soft reset: framer, tracker, window state and tuner (R43, R57, R73, R106). -/
def State.resetLane (s : State) (n : Nat) : State :=
  (((s.putFramer n {}).putTracker n {}).qmSoftReset n).tpmReset n

/-- Lane 16's track list built afresh with every binding whole-window, its census emptied (R57). -/
def State.resetLocalTracker (s : State) : State := s.putTracker insertionLane { entries := s.buildEntries localMux }

/-- Soft reset of one output (R163). -/
def State.resetOutput (s : State) (o : Nat) : State := s.putOut o { port := (s.out o).port, periodStart := s.now }

/-- Status values that a soft reset keeps: DEGRADED and PERSISTENT of lane 16 (R178). -/
def State.keptStatus (s : State) : Tab Bool :=
  s.inds.status.filter (fun e => decide (e.1 = indKey .lane insertionLane .degraded) ||
    decide (e.1 = indKey .lane insertionLane .persistent))

/-- The MU's own part of a soft reset (R178). -/
def State.resetMgmt (s : State) : State :=
  (s.setInds { latched := [], status := s.keptStatus }).setMgmt { list := s.mgmt.list.filter MgmtPacket.isReply }

/-- The soft reset of every block (R178). -/
def State.resetBlocks (s : State) : State :=
  let s1 := (List.range 4).foldl State.resetBus s
  let s2 := ((List.range 16).foldl State.resetLane s1).resetLocalTracker
  let s3 := (((s2.setMismatch []).setHostQueue []).setSched {}).setClock { secs := 0, since := s2.now }
  let s4 := (((s3.setLives []).setRanks []).setGates []).setCuts []
  (((List.range 4).foldl State.resetOutput s4).resetMgmt).setNotices []

/-- The command SOFT_RESET (R178): its reply is built when every block has completed. -/
def State.commandReset (c : Cmd) (s : State) : State :=
  s.checked c [lenCheck c 0] (fun s => s.resetBlocks.setResetting (some c))

/-- SOFT_RESET (R178). -/
def execSoftReset (s : State) : Host.Outcome State Fault Refusal := s.run (State.takeHead (isKind 15) State.commandReset)

/-- No bus is still finishing a recovery that the soft reset found (R89, notes/assumptions/14). -/
def State.busesSettled (s : State) : Bool :=
  (List.range 4).all (fun b => !((s.bus b).finishing && decide ((s.bus b).state = .recovering)))

/-- The bus activity that a soft reset found has ended (R89). -/
def State.busFinished (s : State) (b : Nat) : State := s.putBus b { s.bus b with finishing := false, tail := none }

/-- Every block has completed its soft reset: the reply is built, runs may start, and the SCH tries picks (R122, R178). -/
def State.completeReset (s : State) : State :=
  match s.resetting with
  | none => s
  | some c =>
    if s.busesSettled then
      ((((List.range 4).foldl State.busFinished s).setResetting none).kick.answer c .done 0 (.bytes [])).post .pickTry
    else s

/-- SOFT_RESET_COMPLETE (R178). -/
def execSoftResetComplete (s : State) : Host.Outcome State Fault Refusal := s.run State.completeReset

end Sys2Proof.Machine
end

