-- ==== Sys2Proof/Machine/Dispatch.lean ====
section
/-! DEFINITION. One arm per command: a direct call of its meaning. -/

namespace Sys2Proof.Machine

def exec (i : Instr) (s : State) : Host.Outcome State Fault Refusal :=
  match i with
  | .powerOnReset => Sys2Proof.Machine.execPowerOnReset s
  | .laneByte lane byte => Sys2Proof.Machine.execLaneByte lane byte s
  | .windowExpiry lane => Sys2Proof.Machine.execWindowExpiry lane s
  | .emissionSlot output => Sys2Proof.Machine.execEmissionSlot output s
  | .overflowPeriodEnd output => Sys2Proof.Machine.execOverflowPeriodEnd output s
  | .rankClockSecond => Sys2Proof.Machine.execRankClockSecond s
  | .acquireTimerExpiry tuner => Sys2Proof.Machine.execAcquireTimerExpiry tuner s
  | .relockTimerExpiry tuner => Sys2Proof.Machine.execRelockTimerExpiry tuner s
  | .cutForceExpiry service => Sys2Proof.Machine.execCutForceExpiry service s
  | .cutAbandonExpiry service => Sys2Proof.Machine.execCutAbandonExpiry service s
  | .writeStep bus answer => Sys2Proof.Machine.execWriteStep bus answer s
  | .readStep bus answer => Sys2Proof.Machine.execReadStep bus answer s
  | .pollRead bus answer => Sys2Proof.Machine.execPollRead bus answer s
  | .pollIntervalExpiry bus => Sys2Proof.Machine.execPollIntervalExpiry bus s
  | .pollTimeValueExpiry bus => Sys2Proof.Machine.execPollTimeValueExpiry bus s
  | .waitStepExpiry bus => Sys2Proof.Machine.execWaitStepExpiry bus s
  | .busStall bus received => Sys2Proof.Machine.execBusStall bus received s
  | .recoveryEnd bus => Sys2Proof.Machine.execRecoveryEnd bus s
  | .recoveryAbandon bus => Sys2Proof.Machine.execRecoveryAbandon bus s
  | .writeEntryService => Sys2Proof.Machine.execWriteEntryService s
  | .writeEntryCopy => Sys2Proof.Machine.execWriteEntryCopy s
  | .writeEntryMultiplex => Sys2Proof.Machine.execWriteEntryMultiplex s
  | .writeEntryTuner => Sys2Proof.Machine.execWriteEntryTuner s
  | .writeEntryOutput => Sys2Proof.Machine.execWriteEntryOutput s
  | .writeEntrySettings => Sys2Proof.Machine.execWriteEntrySettings s
  | .writeEntryStep => Sys2Proof.Machine.execWriteEntryStep s
  | .writeEntryPool => Sys2Proof.Machine.execWriteEntryPool s
  | .readEntry => Sys2Proof.Machine.execReadEntry s
  | .readRank => Sys2Proof.Machine.execReadRank s
  | .readLane => Sys2Proof.Machine.execReadLane s
  | .readCensus => Sys2Proof.Machine.execReadCensus s
  | .readIndications => Sys2Proof.Machine.execReadIndications s
  | .setRole => Sys2Proof.Machine.execSetRole s
  | .urgent => Sys2Proof.Machine.execUrgent s
  | .pin => Sys2Proof.Machine.execPin s
  | .unpin => Sys2Proof.Machine.execUnpin s
  | .clearIndication => Sys2Proof.Machine.execClearIndication s
  | .setEnables => Sys2Proof.Machine.execSetEnables s
  | .clearCounters => Sys2Proof.Machine.execClearCounters s
  | .setProtection => Sys2Proof.Machine.execSetProtection s
  | .softReset => Sys2Proof.Machine.execSoftReset s
  | .softResetComplete => Sys2Proof.Machine.execSoftResetComplete s
  | .unrecognisedCommand => Sys2Proof.Machine.execUnrecognisedCommand s
  | .writeEntryUnknownTable => Sys2Proof.Machine.execWriteEntryUnknownTable s

end Sys2Proof.Machine
end

