-- ==== Sys2Proof/Safety.lean ====
section
/-! DEFINITION. What counts as a safe run, and the invariants that claims are stated in: the capacities and ranges the
manual gives its collections and counters, the canonical form of the tables, and one occupant per multiplex. -/

namespace Sys2Proof.Machine

/-- Every entry of a table has a property. -/
def Tab.all {α : Type} (P : α → Prop) (t : Tab α) : Prop := ∀ e ∈ t, P e.2

/-- Replies waiting for output 0, oldest first (R167). -/
def Mgmt.replies (m : Mgmt) : List MgmtPacket := m.list.filter MgmtPacket.isReply

/-- A report packet carries 1 to 6 records (R176). -/
def MgmtPacket.ok : MgmtPacket → Prop
  | .reply _ _ => True
  | .report _ r => 1 ≤ r.records.length ∧ r.records.length ≤ 6

/-- At most 16 replies and one report packet wait, at most 32 records are queued, and a report packet carries 1 to 6 of them
(R167, R175, R176). -/
def Mgmt.ok (m : Mgmt) : Prop :=
  m.replies.length ≤ 16 ∧ (m.list.filter (fun p => !p.isReply)).length ≤ 1 ∧ m.queue.length ≤ 32 ∧ ∀ p ∈ m.list, p.ok

/-- At most 16 multiplexes in the host request queue, none twice (R99). -/
def hostQueueOk (l : List HostReq) : Prop := l.length ≤ 16 ∧ (l.map HostReq.mux).Nodup

/-- At most 16 reports of a visit are still to be counted (Table 51). -/
def visitOk (v : Option Visit) : Prop := ∀ r, v = some r → r.dwell ≤ 16

/-- At most 8 multiplexes on the urgent list, none twice; pointers, count and dwells in range (Tables 50 and 51). -/
def Sched.ok (c : Sched) : Prop :=
  c.urgent.length ≤ 8 ∧ c.urgent.Nodup ∧ c.ptrA < 128 ∧ c.ptrB < 128 ∧ c.aRun ≤ 255 ∧ Tab.all visitOk c.visits

/-- At most 256 packets in an output queue; continuity counters, reserve count and drop counts in range (Table 69). -/
def OutState.ok (q : OutState) : Prop :=
  q.queue.length ≤ 256 ∧ q.reserve ≤ 31 ∧ q.drops ≤ 65535 ∧ q.lastDrops ≤ 65535 ∧ Tab.all (· ≤ 15) q.counters

/-- Scores in 0–1000, zero count in 0–255 (Table 11). -/
def Live.ok (l : Live) : Prop := (∀ q, l.q = some q → q ≤ 1000) ∧ (∀ w, l.w = some w → w ≤ 1000) ∧ l.zeros ≤ 255

/-- A run has executed at most 64 steps (R77). -/
def Run.ok (r : Run) : Prop := r.steps ≤ 64

/-- At most 12 runs in a bus queue, each within the step limit (R77, R84). -/
def Bus.ok (u : Bus) : Prop := u.queue.length ≤ 12 ∧ (∀ r ∈ u.queue, r.ok) ∧ (∀ r, u.run = some r → r.ok)

/-- The locked per-mille of a report lies in 0–1000 (Table 34). -/
def Report.ok (r : Report) : Prop := r.l ≤ 1000

/-- The report a hand-over carries, if any, has a locked per-mille in 0–1000. -/
def Notice.ok (n : Notice) : Prop := ∀ r b, n = .report r b → r.ok

/-- Window counters within their ranges, E not above P (R61, R62, Table 32). -/
def QmLane.ok (q : QmLane) : Prop :=
  q.p ≤ 16777215 ∧ q.e ≤ q.p ∧ q.y ≤ 16777215 ∧ q.s ≤ 65535 ∧ q.r ≤ 65535 ∧ q.hold ≤ 255 ∧ q.degCount ≤ 4 ∧
    q.seq ≤ 65535 ∧ ∀ r, q.pending = some r → r.ok

/-- The counts and the last continuity count of a track-list entry are in range (Table 26). -/
def TrackEntry.ok (e : TrackEntry) : Prop := e.pkts ≤ 16777215 ∧ e.breaks ≤ 65535 ∧ ∀ c, e.lastCc = some c → c ≤ 15

/-- Every (identifier, count) pair has a count of at most 65,535 (R50). -/
def countsOk (l : List (Nat × Nat)) : Prop := ∀ e ∈ l, e.2 ≤ 65535

/-- At most 96 track-list entries, each with its counts in range (R44, Table 26). -/
def entriesOk (l : List TrackEntry) : Prop := l.length ≤ 96 ∧ ∀ e ∈ l, e.ok

/-- The track list is within its limits, and at most 32 census entries stand, their counts in range (R44, R50). -/
def Tracker.ok (t : Tracker) : Prop :=
  entriesOk t.entries ∧ t.census.length ≤ 32 ∧ countsOk t.census ∧ t.overflow ≤ 65535

/-- A census record that is present holds at most 16 pairs, its counts in range (R52). -/
def censusRecordOk (r : Option CensusRecord) : Prop :=
  ∀ x, r = some x → x.pairs.length ≤ 16 ∧ countsOk x.pairs ∧ x.overflow ≤ 65535

/-- Challenge count 0–15, and a sweep set of at most 3 multiplexes, none twice (Table 65). -/
def Ranking.ok (k : Ranking) : Prop := k.challenges ≤ 15 ∧ k.sweep.length ≤ 3 ∧ k.sweep.Nodup

/-- Lifetime counters within 32 bits (R71). -/
def Lifetime.ok (l : Lifetime) : Prop :=
  l.p ≤ 4294967295 ∧ l.e ≤ 4294967295 ∧ l.y ≤ 4294967295 ∧ l.s ≤ 4294967295 ∧ l.r ≤ 4294967295

/-- Every queue and list is within its capacity, and every counter and score within its range: those of the Management Unit,
the outputs, the trackers and censuses, the windows, the buses, the request queue, the scheduler, the copies and the ranking
records. It says nothing of a Lane Framer's counts and retained bytes (Table 18), of the bindings of a track-list entry, or of
indices such as copy slots. -/
structure State.WithinLimits (s : State) : Prop where
  mgmt : s.mgmt.ok
  hostQueue : hostQueueOk s.hostQueue
  sched : s.sched.ok
  outs : Tab.all OutState.ok s.outs
  lives : Tab.all Live.ok s.lives
  ranks : Tab.all Ranking.ok s.ranks
  buses : Tab.all Bus.ok s.buses
  lanes : Tab.all QmLane.ok s.qmLanes
  trackers : Tab.all Tracker.ok s.trackers
  censusRecs : Tab.all censusRecordOk s.censusRecs
  dwells : Tab.all (fun r : MuxRec => r.dwell ≤ 16) s.tables.muxes
  lifetimes : Tab.all Lifetime.ok s.lifetimes
  inbound : s.inbound.length ≤ 8
  notices : ∀ n ∈ s.notices, n.ok
  clock : s.clock.secs ≤ 4294967295

/-- The loaded tables are in canonical form. -/
def Tables.canonical (t : Tables) : Prop :=
  Tab.wf ({} : Service) t.services = true ∧ Tab.wf ({} : CopyRec) t.copies = true ∧ Tab.wf ({} : MuxRec) t.muxes = true ∧
    Tab.wf ({} : TunerRec) t.tuners = true ∧ Tab.wf ({} : OutputRec) t.outputs = true ∧
    Tab.wf ({} : Step) t.steps = true ∧ Tab.wf (0 : Byte) t.pool = true

/-- Every sparse table of the state, the continuity counters of each output among them, is in canonical form, so that equal
contents are equal data. The form is the model's own representation. -/
structure State.Canonical (s : State) : Prop where
  tables : s.tables.canonical
  roles : Tab.wf Role.off s.roles = true
  framers : Tab.wf ({} : Framer) s.framers = true
  trackers : Tab.wf ({} : Tracker) s.trackers = true
  censusRecs : Tab.wf none s.censusRecs = true
  qmLanes : Tab.wf ({} : QmLane) s.qmLanes = true
  mismatch : Tab.wf false s.mismatch = true
  lifetimes : Tab.wf ({} : Lifetime) s.lifetimes = true
  buses : Tab.wf ({} : Bus) s.buses = true
  tuners : Tab.wf ({} : Tuner) s.tuners = true
  visits : Tab.wf none s.sched.visits = true
  lastOutcome : Tab.wf none s.sched.lastOutcome = true
  lives : Tab.wf ({} : Live) s.lives = true
  ranks : Tab.wf ({} : Ranking) s.ranks = true
  floors : Tab.wf 150 s.floors = true
  outs : Tab.wf ({} : OutState) s.outs = true
  counters : Tab.all (fun q : OutState => Tab.wf 0 q.counters = true) s.outs
  gates : Tab.wf none s.gates = true
  cuts : Tab.wf none s.cuts = true
  latched : Tab.wf false s.inds.latched = true
  status : Tab.wf false s.inds.status = true

/-- Each multiplex is occupied by at most one tuner (R92). -/
def State.OneOccupant (s : State) : Prop :=
  ∀ x t u, t < 16 → u < 16 → s.occupies t x = true → s.occupies u x = true → t = u

/-- The whole-machine rule of R142: the selected copy of an enabled service is local or its multiplex is hosted, unless the
UNHOSTED that ends it still waits to be taken. -/
def State.SelectedHosted (s : State) : Prop :=
  ∀ v slot, slot < 4 → (s.service v).enabled = true → (s.rank v).selected = some slot →
    s.available (s.copyMux v slot) = true ∨ .unhosted (s.copyMux v slot) ∈ s.notices

/-- No hand-over waits, and no run that failed at its start waits to end: the command at hand is all that acts. -/
def State.Quiet (s : State) : Prop := s.notices = [] ∧ s.settled = [] ∧ ∀ b, b < 4 → s.failingRun b = none

/-- The Management Unit is to take the command packet `c`, alone: nothing else acts, no command is executing, `c` heads the
inbound queue with `rest` behind it as a whole packet, and fewer than 16 replies wait (R27, R165 to R167). -/
structure State.Ready (s : State) (c : Cmd) (rest : List Cmd) : Prop where
  quiet : s.Quiet
  idle : s.resetting = none
  head : s.inbound = c :: rest
  whole : c.bytes.length = 188
  room : s.mgmt.replies.length < 16

/-- A reply packet built under the reply identifier in force joins the list for output 0 (R167). -/
def State.withReply (s : State) (r : Reply) : State :=
  s.setMgmt { s.mgmt with list := s.mgmt.list ++ [.reply s.settings.replyId r] }

/-- The reply DONE to a command, with its data (Table 76). -/
def doneReply (c : Cmd) (d : ReplyData) : Reply := { tag := c.tag, kind := c.kind, outcome := .done, detail := 0, data := d }

/-- The reply to an accepted write: DONE, or DONE_CLAMPED, with the entry as stored (R4). -/
def storedReply (c : Cmd) (clamped : Bool) (entry : List Byte) : Reply :=
  { tag := c.tag, kind := c.kind, outcome := if clamped then .doneClamped else .done, detail := 0, data := .bytes entry }

/-- The reply of a refusal (R167). -/
def refusalReply (c : Cmd) (k : Check) : Reply :=
  { tag := c.tag, kind := c.kind, outcome := k.outcome, detail := k.detail, data := .bytes [] }

/-- The framer after the byte that completes a packet (R32). -/
def Framer.delivered (f : Framer) (b : Byte) : Framer := { f with pos := f.pos + 1, pkt := [], last := f.pkt ++ [b] }

/-- A search that has examined bytes from a position on, too few to confirm a candidate or with none among them: its candidate
is the first 0x47 at a phase other than `excl` (R29, R35). -/
def searchOver (excl : Option Nat) (base : Nat) (bytes : List Byte) : Search :=
  let hit := (List.range bytes.length).find?
    (fun j => decide (bytes.getD j 0 = 0x47 ∧ some ((base + j) % 188) ≠ excl))
  { next := base + bytes.length, cand := hit.map (fun j => (base + j, 1)), buf := (hit.map (fun j => bytes.drop j)).getD [] }

/-- The sync error that a bad sync byte counts: 1, or the bits in which it differs from 0x47 (R37). -/
def syncErrorOf (cfg : Settings) (b : Byte) : FramerEvent :=
  .syncError (if cfg.syncMode = .packet then 1 else popCount (b ^^^ 0x47))

/-- The byte completes a packet on a lane, and the packet is counted; nothing has sorted it yet (R32, R61). -/
def State.delivers (s : State) (n : Nat) (b : Byte) : State :=
  (s.putFramer n ((s.framer n).delivered b)).qmPacket n (Packet.flagged ((s.framer n).pkt ++ [b]))

/-- The bindings of a packet's entry on a lane that forward it (R53). -/
def State.forwarding (s : State) (n : Nat) (p : Packet) : List Binding :=
  (((s.tracker n).entries.filter (fun e => decide (e.ident = Packet.ident p))).flatMap (·.bindings)).filter s.forwards

/-- `t` is `s` with service `v`'s record `k` given the copy in a slot as its target, and the cut to it asked for
(R138, R156). -/
def State.CutAsked (s t : State) (v slot : Nat) (k : Ranking) : Prop :=
  t.rank v = { k with target := some slot, filing := none, cutting := true, degraded := false } ∧
    t.cut v = some { old := k.selected, new := slot, limit := s.settings.cutLimit, start := s.now,
                     down := s.sourceDown v k.selected } ∧
    (∀ u, u ≠ v → t.rank u = s.rank u ∧ t.cut u = s.cut u) ∧
    t = { s with ranks := t.ranks, cuts := t.cuts, floors := t.floors }

/-- `t` is `s` with service `v`'s record `k`, no cut asked for. -/
def State.RankOnly (s t : State) (v : Nat) (k : Ranking) : Prop :=
  t.rank v = { k with degraded := false } ∧ (∀ u, u ≠ v → t.rank u = s.rank u) ∧
    t = { s with ranks := t.ranks, floors := t.floors }

/-- Nothing waits on any bus. -/
def State.QuietBuses (s : State) : Prop := ∀ k, k < 4 → (s.bus k).queue = [] ∧ (s.bus k).deferred = []

/-- A bus is IDLE, ready to start a run. -/
def State.busReady (s : State) (b : Nat) : Prop := (s.bus b).state = .idle ∧ (s.bus b).finishing = false

/-- No scan tuner waits for a pick (R113). -/
def State.NoPicks (s : State) : Prop := ∀ t, t < 16 → s.pickable t = false

/-- A run with a step entered as its current step (R77, R81). -/
def State.entered (s : State) (r : Run) (i : Nat) : Run :=
  let cur : Current :=
    { index := i, step := s.step i, phase := if (s.step i).kind = .wait then .pause else .transfer, since := s.now,
      readSince := s.now, interval := s.settings.pollInterval, timedOut := false }
  { r with steps := r.steps + 1, current := some cur }

/-- A run with another captured margin (R80). -/
def Run.withMargin (r : Run) (m : Option Nat) : Run := { r with margin := m }

/-- A step that passes the checks made at its start (R77, R79, R80). -/
def State.enterable (s : State) (r : Run) (i : Nat) : Prop :=
  r.steps < 64 ∧ i ≤ 511 ∧ (s.step i).kind ≠ .none ∧
    ((s.step i).kind = .write ∨ (s.step i).kind = .read → (s.step i).byteOff + (s.step i).count - 1 ≤ 4095)

/-- The packets that each row of the management channel takes (Table 79); none for a row that is no command packet. -/
def rowTakes : Instr → Cmd → Bool
  | .writeEntryService => isWrite 1
  | .writeEntryCopy => isWrite 2
  | .writeEntryMultiplex => isWrite 3
  | .writeEntryTuner => isWrite 4
  | .writeEntryOutput => isWrite 5
  | .writeEntrySettings => isWrite 6
  | .writeEntryStep => isWrite 7
  | .writeEntryPool => isWrite 8
  | .readEntry => isKind 2
  | .readRank => isKind 3
  | .readLane => isKind 4
  | .readCensus => isKind 5
  | .readIndications => isKind 6
  | .setRole => isKind 7
  | .urgent => isKind 8
  | .pin => isKind 9
  | .unpin => isKind 10
  | .clearIndication => isKind 11
  | .setEnables => isKind 12
  | .clearCounters => isKind 13
  | .setProtection => isKind 14
  | .softReset => isKind 15
  | _ => fun _ => false

/-- The checks of each row of the management channel before it acts, in their order: table, length, indices and codes,
protection, and the command's own rule where that refuses (R4, R166, Table 79). -/
def State.checksOf (s : State) (c : Cmd) : Instr → List Check
  | .writeEntryService => s.entryChecks c 54 256 3 ++ serviceFields c.operands ++
      serviceLocks (s.service c.index) (readService c.operands) ++ s.serviceConflicts c.index (readService c.operands)
  | .writeEntryCopy => s.entryChecks c 20 1024 3 ++ s.copyFields c.operands ++ s.copyLocks c.index (readCopy c.operands) ++
      s.copyConflicts c.index (readCopy c.operands)
  | .writeEntryMultiplex => s.muxEntryChecks c ++ muxFields c.operands ++ s.muxLocks c.index (readMux c.operands) ++
      s.muxConflicts c.index (readMux c.operands)
  | .writeEntryTuner => s.entryChecks c 16 16 1 ++ tunerFields c.operands ++ s.tunerLocks c.index (readTuner c.operands)
  | .writeEntryOutput => s.entryChecks c 6 4 4 ++ [rangeCheck (!decide (fieldAt c.operands 0 ≤ 1)) 1]
  | .writeEntrySettings => s.entryChecks c 38 1 5 ++ settingsFields c.operands ++
      s.settingsConflicts (readSettings s.settings.mask c.operands)
  | .writeEntryStep => s.entryChecks c 18 512 1
  | .writeEntryPool => s.entryChecks c 16 256 1
  | .readEntry => [{ fails := decide (c.table = 0) || decide (8 < c.table), outcome := .unknown, detail := 0 }, lenCheck c 0,
      belowCheck c.index (tableRange c.table)]
  | .readRank => [lenCheck c 0, belowCheck c.index 256]
  | .readLane => [lenCheck c 1, belowCheck c.index 17, belowCheck (c.operand 0) 13]
  | .readCensus => [lenCheck c 0, rangeCheck (!(decide (c.index < 128) || decide (c.index = localMux))) 0]
  | .readIndications => [lenCheck c 1, belowCheck c.index (sourceRange (c.operand 0))]
  | .setRole => [lenCheck c 1, belowCheck c.index 16, belowCheck (c.operand 0) 3, s.groupCheck 1 c,
      { fails := s.roleLocked c.index (Role.ofCode (c.operand 0)), outcome := .inUse, detail := 0 }]
  | .urgent => [lenCheck c 0, belowCheck c.index 128, s.groupCheck 2 c]
  | .pin => [lenCheck c 1, belowCheck c.index 256, belowCheck (c.operand 0) 4, s.groupCheck 3 c,
      { fails := !((s.service c.index).enabled && (s.copy (copyIndex c.index (c.operand 0))).defined), outcome := .unknown,
        detail := 0 }]
  | .unpin => [lenCheck c 0, belowCheck c.index 256, s.groupCheck 3 c,
      { fails := !(s.service c.index).enabled, outcome := .unknown, detail := 0 }]
  | .clearIndication => [lenCheck c 4, belowCheck c.index (sourceRange (c.operand 0))]
  | .setEnables => [lenCheck c 3, s.groupCheck 5 c]
  | .clearCounters => [lenCheck c 3]
  | .setProtection => [lenCheck c 2, belowCheck (c.operand 1) 2,
      { fails := decide (s.prot.level = .hard) || decide (c.auth = .property), outcome := .prot, detail := 0 }]
  | .softReset => [lenCheck c 0]
  | _ => []

/-- The packet is one of a row's, and passes every check of that row. -/
def State.accepts (s : State) (c : Cmd) (i : Instr) : Prop := rowTakes i c = true ∧ firstFailing (s.checksOf c i) = none

/-- What a command changes by hand-overs alone it leaves as it was: the waiting commands, the clocks, the lifetime counters,
the protection. -/
def State.CommandFrame (s t : State) : Prop :=
  t.pending = s.pending ∧ t.now = s.now ∧ t.clock = s.clock ∧ t.lifetimes = s.lifetimes ∧ t.prot = s.prot ∧
    t.resetting = s.resetting

/-! ## Entries whose fields lie in their ranges -/

/-- Every field of a service record is in its range (Table 9). -/
def Service.inRange (r : Service) : Prop :=
  r.output ≤ 3 ∧ 1 ≤ r.comps ∧ r.comps ≤ 8 ∧ r.outIds.length = 8 ∧ (∀ x ∈ r.outIds, 0x0010 ≤ x ∧ x ≤ 0x1FFE) ∧
    r.required.length = 8 ∧ r.cutKey < r.comps ∧ r.hyst ≤ 300 ∧ 1 ≤ r.debounce ∧ r.debounce ≤ 15 ∧ 1 ≤ r.failCount ∧
    r.failCount ≤ 8 ∧ r.floor ≤ 1000 ∧ 10 ≤ r.staleLimit ∧ r.staleLimit ≤ 7200

/-- Every field of a copy record is in its range (Table 10). -/
def CopyRec.inRange (r : CopyRec) : Prop :=
  (r.mux < 128 ∨ r.mux = localMux) ∧ r.src.length = 8 ∧ ∀ x ∈ r.src, x ≤ 0x1FFE

/-- Every field of a multiplex record is in its range (Table 12). -/
def MuxRec.inRange (r : MuxRec) : Prop :=
  r.feed ≤ 7 ∧ r.head ≤ 511 ∧ 1 ≤ r.dwell ∧ r.dwell ≤ 16 ∧ r.sigs.length ≤ 4 ∧ ∀ x ∈ r.sigs, x ≤ 0x1FFE

/-- Every field of a tuner record is in its range (Table 13). -/
def TunerRec.inRange (r : TunerRec) : Prop :=
  r.bus ≤ 3 ∧ 0x08 ≤ r.addr ∧ r.addr ≤ 0x77 ∧ r.measure ≤ 511 ∧ (∀ x, r.release = some x → x ≤ 511) ∧
    200 ≤ r.acquireLimit ∧ r.acquireLimit ≤ 8000 ∧ 1000 ≤ r.relockLimit ∧ r.relockLimit ≤ 30000

/-- Every field of an output record is in its range (Table 14). -/
def OutputRec.inRange (r : OutputRec) : Prop := 1000 ≤ r.rate ∧ r.rate ≤ 90000

/-- Every numeric and identifier field of the Settings record is in its range (Table 15). -/
def Settings.inRange (r : Settings) : Prop :=
  (500 ≤ r.winLen ∧ r.winLen ≤ 4000 ∧ r.winLen % 100 = 0) ∧ (2 ≤ r.lockCount ∧ r.lockCount ≤ 8) ∧
    (2 ≤ r.lossCount ∧ r.lossCount ≤ 6) ∧ (1 ≤ r.excess ∧ r.excess ≤ 65535) ∧ (1 ≤ r.weight ∧ r.weight ≤ 32) ∧
    r.shift ≤ 4 ∧ (1 ≤ r.aShare ∧ r.aShare ≤ 8) ∧ (1 ≤ r.censusMin ∧ r.censusMin ≤ 255) ∧
    (8 ≤ r.censusPeriod ∧ r.censusPeriod ≤ 255) ∧ (200 ≤ r.cutLimit ∧ r.cutLimit ≤ 5000) ∧
    (2 ≤ r.hostRetry ∧ r.hostRetry ≤ 600) ∧ (2 ≤ r.pollInterval ∧ r.pollInterval ≤ 50) ∧ r.mgmtId ≤ 0x1FFE ∧
    r.replyId ≤ 0x1FFE ∧ r.instId ≤ 0x1FFE

/-- Every field of a recipe step is in its range (Table 37, R74). -/
def Step.inRange (r : Step) : Prop :=
  r.addrOff ≤ 7 ∧ r.byteOff ≤ 4095 ∧ 1 ≤ r.count ∧ r.count ≤ 32 ∧ stepTime r.kind r.time = r.time ∧ r.time ≤ 65535 ∧
    ∀ x, r.next = some x → x < 65535

/-- A step neither faults nor refuses. -/
def State.stepsOn (s : State) : Bool :=
  match Sys2Proof.Machine.step s with
  | .next _ => true
  | _ => false

end Sys2Proof.Machine
end

