-- ==== Sys2Proof/Certificates/Slice0/Obligations.lean ====
section
/-! DEFINITION. The statements for the provers. Each docstring names the rules of spec/ the statement rests on, and the log
entry where it rests on a choice of the model. -/

open Sys2Proof Sys2Proof.Machine

/-! ## Steps, resets, invariants -/

/-- A step runs the command at the front of the queue on the state with the rest of the queue; on an empty queue, when
nothing is left to be taken, one millisecond passes and nothing else changes, which is the model's choice
(notes/assumptions/2). -/
def Obligations.StepRunsFrontCommand : Prop :=
  (∀ (s : State) (c : Instr) (rest : List Instr), s.pending = c :: rest → step s = exec c (s.setPending rest)) ∧
  ∀ s : State, s.Quiet → s.pending = [] → step s = .next (s.setNow (s.now + 1))

/-- POWER_ON_RESET leaves one state, whatever the state before, but for the commands that wait outside the part, which go on
waiting (notes/assumptions/21). In it the Management Unit and the tables are as R179 says; lane 16 hunts and its first window
runs, every other lane is in IDLE without one; the buses, tuners, queues, visits, copies, ranking records, outputs, gates and
cuts hold nothing; and the rank clock reads 0. The instants and values no rule gives (the clock and the periods at 0, lane 16's
window starting at 0, no last transfer, nothing on a port) are the model's choice (notes/assumptions/17). -/
def Obligations.PowerOnResetState : Prop :=
  ∀ s : State, ∃ t, exec .powerOnReset s = .next t ∧ t = { State.reset with pending := s.pending } ∧ t.inbound = [] ∧
    t.resetting = none ∧ t.mgmt.list = [] ∧ t.mgmt.queue = [] ∧ t.mgmt.lost = false ∧ t.inds.latched = [] ∧
    t.inds.status = [] ∧ (∀ k i kd, t.latched k i kd = false ∧ t.statusValue k i kd = false) ∧ t.alert = false ∧
    t.prot.flags = 0 ∧ t.prot.level = .soft ∧ t.tables = {} ∧ t.roles = [] ∧ t.settings.mask = 0 ∧
    t.settings.mgmtId = 0x1FF0 ∧ t.settings.replyId = 0x1FF1 ∧ t.settings.instId = 0x1FF2 ∧
    (t.framer 16).state = .hunt ∧ (t.qmLane 16).window = some (0, 1000) ∧
    (∀ n, n ≠ 16 → t.framer n = {} ∧ t.qmLane n = {}) ∧
    (∀ n, t.tracker n = {} ∧ t.censusRec n = none ∧ t.lifetime n = {} ∧ t.mismatched n = false) ∧
    (∀ b, t.bus b = {}) ∧ (∀ n, t.tuner n = {} ∧ t.role n = .off) ∧ t.hostQueue = [] ∧ t.sched = {} ∧ t.clock.secs = 0 ∧
    (∀ i, t.live i = {} ∧ t.rank i = {} ∧ t.gate i = none ∧ t.cut i = none) ∧ ∀ o, t.out o = {}

/-- The state after reset meets every invariant stated below, and nothing is left to be taken. -/
def Obligations.ResetMeetsInvariants : Prop :=
  State.reset.Canonical ∧ State.reset.WithinLimits ∧ State.reset.OneOccupant ∧ State.reset.SelectedHosted ∧
    State.reset.Quiet

/-- Every step keeps the tables of the state, the continuity counters of each output among them, in canonical form: at most
one entry for each index, in ascending order, and none for an index that holds its reset value. The form is the model's own
representation of what the rules hold by index, and rests on no rule. -/
def Obligations.CanonicalKept : Prop := ∀ s t : State, s.Canonical → step s = .next t → t.Canonical

/-- Every step keeps the capacities and ranges that State.WithinLimits lists: the inbound queue, the replies, the report queue
and the records of a report packet; the host request queue; the urgent list, the pointers, the A-run count and the dwells; the
output queues, reserve and drop counts and continuity counters; scores and zero counts; challenge counts and sweep sets; the
bus queues and run lengths; the window counters and locked per-mille; track lists, censuses and census records with their
counts; the lifetime counters and the rank clock (R44, R50, R52, R61, R62, R71, R77, R84, R99, R107, R126, R149, R165, R167,
R175, R176; Tables 26, 50, 51, 65, 69). -/
def Obligations.LimitsKept : Prop := ∀ s t : State, s.WithinLimits → step s = .next t → t.WithinLimits

/-- Every step keeps each multiplex occupied by at most one tuner (R92). -/
def Obligations.OneOccupantKept : Prop :=
  ∀ s t : State, s.Canonical → s.OneOccupant → step s = .next t → t.OneOccupant

/-- Every step keeps the rule that the selected copy of an enabled service is local or its multiplex is hosted (R142); in a
state with hand-overs still waiting, the UNHOSTED that ends it may be one of them. -/
def Obligations.SelectedCopyHostedKept : Prop :=
  ∀ s t : State, s.Canonical → s.SelectedHosted → step s = .next t → t.SelectedHosted

/-- While the protection level is HARD no step but a power-on reset changes the level or the flags (R171). -/
def Obligations.HardProtectionStays : Prop :=
  ∀ s t : State, s.prot.level = .hard → s.pending.head? ≠ some .powerOnReset → step s = .next t → t.prot = s.prot

/-- An operand outside its range of R1 Table 4 names nothing that exists, and the command stops with a fault that says so
(notes/assumptions/22). -/
def Obligations.OutOfRangeOperandsFault : Prop :=
  ∀ s : State,
    (∀ n, 17 ≤ n → (∀ b, exec (.laneByte n b) s = .fault .noSuchLane) ∧ exec (.windowExpiry n) s = .fault .noSuchLane) ∧
    (∀ o, 4 ≤ o → exec (.emissionSlot o) s = .fault .noSuchOutput ∧
      exec (.overflowPeriodEnd o) s = .fault .noSuchOutput) ∧
    (∀ t, 16 ≤ t → exec (.acquireTimerExpiry t) s = .fault .noSuchTuner ∧
      exec (.relockTimerExpiry t) s = .fault .noSuchTuner) ∧
    (∀ v, 256 ≤ v → exec (.cutForceExpiry v) s = .fault .noSuchService ∧
      exec (.cutAbandonExpiry v) s = .fault .noSuchService) ∧
    ∀ b, 4 ≤ b → (∀ a, exec (.writeStep b a) s = .fault .noSuchBus) ∧ (∀ a, exec (.readStep b a) s = .fault .noSuchBus) ∧
      (∀ a, exec (.pollRead b a) s = .fault .noSuchBus) ∧ exec (.pollIntervalExpiry b) s = .fault .noSuchBus ∧
      exec (.pollTimeValueExpiry b) s = .fault .noSuchBus ∧ exec (.waitStepExpiry b) s = .fault .noSuchBus ∧
      (∀ r, exec (.busStall b r) s = .fault .noSuchBus) ∧ exec (.recoveryEnd b) s = .fault .noSuchBus ∧
      exec (.recoveryAbandon b) s = .fault .noSuchBus

/-! ## The management channel -/

/-- The first check that fails ends a command of any row: its reply carries that check's outcome and detail, and nothing
else of the part changes (R4, R166, R167). The checks and their order are State.checksOf; where two conflicts of one write
could be named, which comes first is the model's choice (notes/assumptions/9), as are the pair and the copy of a fifth binding
(notes/assumptions/28, 37) and which of several locked fields IN_USE names (notes/assumptions/36). Stated while fewer than 16 replies wait; ReplyOverrunDropsOldest says what the sixteenth leads to. -/
def Obligations.RefusedCommandOnlyReplies : Prop :=
  ∀ (s : State) (i : Instr) (c : Cmd) (rest : List Cmd) (k : Check), s.Ready c rest → rowTakes i c = true →
    firstFailing (s.checksOf c i) = some k → exec i s = .next ((s.setInbound rest).withReply (refusalReply c k))

/-- READ_ENTRY, READ_RANK, READ_LANE, READ_CENSUS and READ_INDICATIONS, once accepted, reply with their data and change
nothing but the two queues (R2, R169). -/
def Obligations.ReadingCommandsReply : Prop :=
  ∀ (s : State) (c : Cmd) (rest : List Cmd), s.Ready c rest →
    (s.accepts c .readEntry → exec .readEntry s =
      .next ((s.setInbound rest).withReply (doneReply c (.bytes (s.entryBytes c.table c.index))))) ∧
    (s.accepts c .readRank → exec .readRank s =
      .next ((s.setInbound rest).withReply (doneReply c (.read (.rank (s.rankData c.index)))))) ∧
    (s.accepts c .readLane → exec .readLane s =
      .next ((s.setInbound rest).withReply (doneReply c (.read (s.lanePart c.index (c.operand 0)))))) ∧
    (s.accepts c .readCensus → exec .readCensus s =
      .next ((s.setInbound rest).withReply (doneReply c (.read (.census (s.censusRec c.index)))))) ∧
    (s.accepts c .readIndications → exec .readIndications s =
      .next ((s.setInbound rest).withReply (doneReply c
        (.read (.indications (s.indData (c.operand 0) (sourceRange (c.operand 0)) c.index))))))

/-- An accepted write of a TUNER, OUTPUT or STEP entry stores the entry with its clamps and replies with it as stored; the
role of a tuner stands, and a disabled output loses its queue and its reserve count (R4, R18, R19, R20, R74, R155). -/
def Obligations.PlainWritesStore : Prop :=
  ∀ (s : State) (c : Cmd) (rest : List Cmd), s.Ready c rest →
    (s.accepts c .writeEntryTuner → exec .writeEntryTuner s =
      .next (((s.setInbound rest).putTunerRec c.index (readTuner c.operands)).withReply
        (storedReply c (tunerClamped c.operands) (tunerBytes (s.role c.index) (readTuner c.operands))))) ∧
    (s.accepts c .writeEntryOutput → (s.outputRec c.index).enabled = false ∨ (readOutput c.operands).enabled = true →
      exec .writeEntryOutput s = .next (((s.setInbound rest).putOutputRec c.index (readOutput c.operands)).withReply
        (storedReply c (!decide (valueOf ((c.operands.drop 2).take 4) = (readOutput c.operands).rate))
          (outputBytes (readOutput c.operands))))) ∧
    (s.accepts c .writeEntryOutput → (s.outputRec c.index).enabled = true ∧ (readOutput c.operands).enabled = false →
      exec .writeEntryOutput s = .next ((((s.setInbound rest).putOutputRec c.index (readOutput c.operands)).putOut c.index
        { s.out c.index with queue := [], reserve := 0 }).withReply
        (storedReply c (!decide (valueOf ((c.operands.drop 2).take 4) = (readOutput c.operands).rate))
          (outputBytes (readOutput c.operands))))) ∧
    (s.accepts c .writeEntryStep → exec .writeEntryStep s =
      .next (((s.setInbound rest).putStep c.index (readStep c.operands)).withReply
        (storedReply c (stepClamped c.operands) (stepBytes (readStep c.operands)))))

/-- An accepted SETTINGS write stores every field but the report enable mask, which stands whatever the entry carries, and
its reply goes out under the reply identifier that stood before (R21, R22, R23). -/
def Obligations.SettingsWriteKeepsMask : Prop :=
  ∀ (s : State) (c : Cmd) (rest : List Cmd), s.Ready c rest → s.accepts c .writeEntrySettings →
    ∃ t, exec .writeEntrySettings s = .next t ∧ t.settings = readSettings s.settings.mask c.operands ∧
      t.settings.mask = s.settings.mask ∧
      t.mgmt.list = s.mgmt.list ++ [.reply s.settings.replyId
        (storedReply c (settingsClamped c.operands) (settingsBytes t.settings))] ∧
      t = { s with inbound := rest, tables := { s.tables with settings := t.settings },
                   mgmt := { s.mgmt with list := t.mgmt.list } }

/-- An accepted POOL write stores its 16 bytes at the chunk's offsets and leaves every other byte of the pool, and all else
but the reply, as it was (R3, R75). -/
def Obligations.PoolWriteStoresChunk : Prop :=
  ∀ (s : State) (c : Cmd) (rest : List Cmd), s.Canonical → s.Ready c rest → s.accepts c .writeEntryPool →
    ∃ t, exec .writeEntryPool s = .next t ∧ (∀ k, k < 16 → t.poolByte (16 * c.index + k) = c.operands.getD k 0) ∧
      (∀ j, (j < 16 * c.index ∨ 16 * c.index + 16 ≤ j) → t.poolByte j = s.poolByte j) ∧
      t = (((s.setInbound rest).setTables { s.tables with pool := t.tables.pool }).withReply
        (storedReply c false c.operands))

/-- An accepted SERVICE write stores the whole entry with its clamps: that record and no other entry of any table changes,
and the reply carries the entry as stored. Disabling clears the ranking record, closes the gate, removes a cut record with
CUT_CANCELLED, and leaves the service no claim; enabling starts from an empty record: nothing selected, no pin, no challenge,
no sweep, and an empty record still when no copy can be chosen (R2, R4, R7, R144, R160). -/
def Obligations.ServiceWriteStoresEntry : Prop :=
  ∀ (s : State) (c : Cmd) (rest : List Cmd), s.Canonical → s.Ready c rest → s.accepts c .writeEntryService →
    ∃ t, exec .writeEntryService s = .next t ∧
      (∀ v, t.service v = if v = c.index then readService c.operands else s.service v) ∧
      t.tables = { s.tables with services := t.tables.services } ∧
      t.mgmt.replies = s.mgmt.replies ++ [.reply s.settings.replyId
        (storedReply c (serviceClamped c.operands) (serviceBytes (readService c.operands)))] ∧
      t.inbound = rest ∧ s.CommandFrame t ∧
      ((s.service c.index).enabled = true → (readService c.operands).enabled = false →
        t.rank c.index = {} ∧ t.gate c.index = none ∧ t.cut c.index = none ∧ t.claims c.index = [] ∧
          (s.cut c.index ≠ none → t.latched .service c.index .cutCancelled = true)) ∧
      ((s.service c.index).enabled = false → (readService c.operands).enabled = true →
        (t.rank c.index).selected = none ∧ (t.rank c.index).pin = none ∧ (t.rank c.index).challenger = none ∧
          (t.rank c.index).challenges = 0 ∧ (t.rank c.index).sweep = [] ∧
          ((∀ slot, s.choosable c.index slot = false) → t.rank c.index = {}))

/-- An accepted COPY write stores the whole entry: that record and no other entry of any table changes, and the reply
carries the entry as stored. In a disabled service a write that changes the copy's reception resets the copy's live fields,
and any other write leaves them (R2, R12, R14). -/
def Obligations.CopyWriteStoresEntry : Prop :=
  ∀ (s : State) (c : Cmd) (rest : List Cmd), s.Canonical → s.Ready c rest → s.accepts c .writeEntryCopy →
    ∃ t, exec .writeEntryCopy s = .next t ∧
      (∀ i, t.copy i = if i = c.index then readCopy c.operands else s.copy i) ∧
      t.tables = { s.tables with copies := t.tables.copies } ∧
      t.mgmt.replies = s.mgmt.replies ++ [.reply s.settings.replyId
        (storedReply c false (copyBytes (readCopy c.operands)))] ∧
      t.inbound = rest ∧ s.CommandFrame t ∧
      ((s.service (c.index / 4)).enabled = false → ∀ i, t.live i =
        if i = c.index ∧ resetsLive (s.service (c.index / 4)).comps (s.copy c.index) (readCopy c.operands) = true then {}
        else s.live i)

/-- An accepted MULTIPLEX write stores the whole entry: that record and no other entry of any table changes, and the reply
carries the entry as stored; undefining the multiplex clears its census record and its mismatch status when no tuner waits
for a pick (R2, R16, R17, R52, R69). -/
def Obligations.MultiplexWriteStoresEntry : Prop :=
  ∀ (s : State) (c : Cmd) (rest : List Cmd), s.Canonical → s.Ready c rest → s.accepts c .writeEntryMultiplex →
    ∃ t, exec .writeEntryMultiplex s = .next t ∧
      (∀ x, t.mux x = if x = c.index then readMux c.operands else s.mux x) ∧
      t.tables = { s.tables with muxes := t.tables.muxes } ∧
      t.mgmt.replies = s.mgmt.replies ++ [.reply s.settings.replyId
        (storedReply c (!decide (fieldAt c.operands 3 = (readMux c.operands).dwell)) (muxBytes (readMux c.operands)))] ∧
      t.inbound = rest ∧ s.CommandFrame t ∧
      (s.NoPicks → (s.mux c.index).defined = true → (readMux c.operands).defined = false →
        t.censusRec c.index = none ∧ t.mismatched c.index = false)

/-- An accepted SET_ROLE replies DONE, and touches no table and no counter. To the role the tuner has, it does nothing else.
By the rows of Table 47: an OFF tuner becomes LIVE and FREE; a FREE tuner becomes SCAN and FREE, or OFF; a RELEASING tuner goes
on releasing under its new role; a tuner that is set OFF from any other state stops occupying its multiplex, its lane goes to
IDLE, and it is OFF or winds down, and a visit it was making ends ABORTED. The rows to LIVE and SCAN are stated with no host
request waiting and nothing for the SCH to prune or pick (R95, R104, R105, R120). -/
def Obligations.SetRoleChangesRole : Prop :=
  ∀ (s : State) (c : Cmd) (rest : List Cmd), s.Canonical → s.Ready c rest → s.accepts c .setRole →
    (∃ t, exec .setRole s = .next t ∧ t.inbound = rest ∧ t.tables = s.tables ∧ s.CommandFrame t ∧
      t.mgmt.replies = s.mgmt.replies ++ [.reply s.settings.replyId (doneReply c (.bytes []))] ∧
      (c.operand 0 = 0 → s.role c.index ≠ .off → (s.tuner c.index).state ≠ .off → t.role c.index = .off ∧
        ((t.tuner c.index).state = .off ∨ (t.tuner c.index).state = .releasing) ∧
        ((s.tuner c.index).state = .releasing → (t.tuner c.index).committed = none) ∧
        ((s.tuner c.index).state ≠ .releasing → (t.tuner c.index).mux = none ∧ (t.tuner c.index).work = none ∧
          (t.tuner c.index).acquire = none ∧ (t.tuner c.index).relock = none) ∧
        ((s.tuner c.index).state = .acquiring ∨ (s.tuner c.index).state = .observing → t.framer c.index = {}) ∧
        (s.role c.index = .scan → s.visit c.index ≠ none → (s.tuner c.index).state ≠ .releasing →
          (s.tuner c.index).state ≠ .free → t.visit c.index = none ∧ t.lastOutcome c.index = some .aborted))) ∧
    (s.role c.index = Role.ofCode (c.operand 0) →
      exec .setRole s = .next ((s.setInbound rest).withReply (doneReply c (.bytes [])))) ∧
    (s.hostQueue = [] → s.sched.urgent = [] → s.NoPicks → (s.tuner c.index).committed = none →
      (c.operand 0 = 1 → s.role c.index = .off → (s.tuner c.index).state = .off →
        exec .setRole s = .next ((((s.setInbound rest).putRole c.index .live).putTuner c.index
          { s.tuner c.index with state := .free }).withReply (doneReply c (.bytes [])))) ∧
      (c.operand 0 = 2 → s.role c.index = .live → (s.tuner c.index).state = .free →
        (∀ x, (s.mux x).defined = true → s.reaches c.index (s.mux x).feed = false) →
        exec .setRole s = .next (((s.setInbound rest).putRole c.index .scan).withReply (doneReply c (.bytes [])))) ∧
      (s.role c.index ≠ Role.ofCode (c.operand 0) → (s.tuner c.index).state = .releasing →
        exec .setRole s = .next (((s.setInbound rest).putRole c.index (Role.ofCode (c.operand 0))).withReply
          (doneReply c (.bytes [])))))

/-- URGENT answers with the first case of Table 52 that applies. UNKNOWN for a multiplex that is not defined, IN_USE for a hosted
one, DONE for one already listed, UNREACHABLE for one that no scan tuner reaches, FULL while the list holds 8: with these nothing
but the reply changes, the list among the rest. Otherwise DONE, and the multiplex joins the tail of the list; that case is stated
while no scan tuner waits for a pick (R109). -/
def Obligations.UrgentJoinsList : Prop :=
  ∀ (s : State) (c : Cmd) (rest : List Cmd), s.Ready c rest → s.accepts c .urgent →
    (∀ o : ReplyOutcome,
      ((s.mux c.index).defined = false ∧ o = .unknown ∨
        (s.mux c.index).defined = true ∧ s.hosted c.index = true ∧ o = .inUse ∨
        (s.mux c.index).defined = true ∧ s.hosted c.index = false ∧
          (c.index ∈ s.sched.urgent ∧ o = .done ∨
            c.index ∉ s.sched.urgent ∧ (s.roleReaches .scan c.index = false ∧ o = .unreachable ∨
              s.roleReaches .scan c.index = true ∧ 8 ≤ s.sched.urgent.length ∧ o = .full))) →
      exec .urgent s = .next ((s.setInbound rest).withReply
        { tag := c.tag, kind := c.kind, outcome := o, detail := 0, data := .bytes [] })) ∧
    ((s.mux c.index).defined = true → s.hosted c.index = false → c.index ∉ s.sched.urgent →
      s.roleReaches .scan c.index = true → s.sched.urgent.length < 8 → s.NoPicks →
      exec .urgent s = .next (((s.setInbound rest).setUrgent (s.sched.urgent ++ [c.index])).withReply
        (doneReply c (.bytes []))))

/-- PIN and UNPIN set and clear the pin of a service. While the service is CUTTING nothing is evaluated, so nothing else of
it changes. Otherwise each evaluates the service at once; UNPIN first drops a target that is the pinned copy, its filing mark
and the host request that no claim holds any more. Both are stated where the evaluation asks for a cut or changes the ranking
record alone (EvaluationDecides says where it does, and what it leaves). A pin on the copy that is selected, with no target, not
degraded and its score not below the service floor, changes nothing else; the evaluation brings the stored floor into force.
UNPIN of a service without a pin changes nothing (R10, R134, R135, R137, R138, R145, R146; that the floor in force is a value of
its own and that an absent Q is not below it are the model's readings, notes/assumptions/35 and 12). -/
def Obligations.PinAndUnpin : Prop :=
  ∀ (s : State) (c : Cmd) (rest : List Cmd), s.Canonical → s.Ready c rest →
    (s.accepts c .pin → (s.rank c.index).cutting = true →
      exec .pin s = .next (((s.setInbound rest).putRank c.index
        { s.rank c.index with pin := some (c.operand 0) }).withReply (doneReply c (.bytes [])))) ∧
    (s.accepts c .pin → (s.rank c.index).cutting = false → (s.rank c.index).selected = some (c.operand 0) →
      (s.rank c.index).target = none → (s.rank c.index).degraded = false →
      (∀ q, (s.liveOf c.index (c.operand 0)).q = some q → (s.service c.index).floor ≤ q) →
      exec .pin s = .next ((((s.setInbound rest).putRank c.index
        { s.rank c.index with pin := some (c.operand 0) }).putFloor c.index (s.service c.index).floor).withReply
        (doneReply c (.bytes [])))) ∧
    (∀ s1 t : State, s.accepts c .pin → (s.rank c.index).cutting = false →
      s1 = (s.setInbound rest).putRank c.index { s.rank c.index with pin := some (c.operand 0) } →
      t = s1.evaluate c.index .other → (∃ k, s1.RankOnly t c.index k ∨ ∃ y, s1.CutAsked t c.index y k) →
      exec .pin s = .next (t.withReply (doneReply c (.bytes [])))) ∧
    (s.accepts c .unpin → (s.rank c.index).pin = none →
      exec .unpin s = .next ((s.setInbound rest).withReply (doneReply c (.bytes [])))) ∧
    (s.accepts c .unpin → (s.rank c.index).cutting = true → (s.rank c.index).pin ≠ none →
      exec .unpin s = .next (((s.setInbound rest).putRank c.index
        { s.rank c.index with pin := none }).withReply (doneReply c (.bytes [])))) ∧
    ∀ (p x : Nat) (s1 t : State), s.accepts c .unpin → (s.rank c.index).cutting = false →
      (s.rank c.index).pin = some p → x = s.copyMux c.index p →
      ((s.rank c.index).target ≠ some p ∧
          s1 = (s.setInbound rest).putRank c.index { s.rank c.index with pin := none } ∨
        (s.rank c.index).target = some p ∧ x ≠ localMux ∧ s.hosted x = false ∧
          (∀ sel, (s.rank c.index).selected = some sel → s.copyMux c.index sel ≠ x) ∧ (∀ u, u ≠ c.index → x ∉ s.claims u) ∧
          s1 = ((s.setInbound rest).putRank c.index
            { s.rank c.index with pin := none, target := none, filing := none }).setHostQueue
              (s.hostQueue.filter (fun r => !decide (r.mux = x)))) →
      t = s1.evaluate c.index .other → (∃ k, s1.RankOnly t c.index k ∨ ∃ y, s1.CutAsked t c.index y k) →
      exec .unpin s = .next (t.withReply (doneReply c (.bytes [])))

/-- CLEAR_INDICATION clears the latched flag of each named kind of the named source and nothing else: status values, the
report queue and every other flag stand (R173). CLEAR_COUNTERS sets the lifetime counters of the lanes it names to 0 and
touches nothing else (R71). -/
def Obligations.ClearingCommands : Prop :=
  ∀ (s : State) (c : Cmd) (rest : List Cmd), s.Canonical → s.Ready c rest →
    (s.accepts c .clearIndication → ∃ t, exec .clearIndication s = .next t ∧
      (∀ k i kd, i < 65536 → t.latched k i kd = (s.latched k i kd &&
        !(decide (k.code = c.operand 0) && decide (i = c.index) && (maskAt c.operands 1).getLsbD (kd.code - 1)))) ∧
      t = ((s.setInbound rest).setInds { s.inds with latched := t.inds.latched }).withReply (doneReply c (.bytes []))) ∧
    (s.accepts c .clearCounters → ∃ t, exec .clearCounters s = .next t ∧
      (∀ n, t.lifetime n = if n < 17 ∧ (maskAt c.operands 0).getLsbD n = true then {} else s.lifetime n) ∧
      t = ((s.setInbound rest).setLifetimes t.lifetimes).withReply (doneReply c (.bytes [])))

/-- SET_ENABLES stores the mask with the bits of codes above 21 as 0 and replies DONE; from then on the mask decides which
latched flags drive ALERT and which raises offer records, and storing it queues no record (R174). -/
def Obligations.SetEnablesStoresMask : Prop :=
  ∀ (s : State) (c : Cmd) (rest : List Cmd), s.Ready c rest → s.accepts c .setEnables →
    ∃ t m, exec .setEnables s = .next t ∧
      (∀ j, j < 24 → m.getLsbD j = (decide (j < 21) && (maskAt c.operands 0).getLsbD j)) ∧
      t = (((s.setInbound rest).setTables { s.tables with settings := { s.settings with mask := m } }).withReply
        (doneReply c (.bytes (bytesOf 3 m.toNat)))) ∧
      t.mgmt.queue = s.mgmt.queue ∧
      (t.alert = true ↔ ∃ e ∈ s.inds.latched, e.2 = true ∧ m.getLsbD (e.1 % 32 - 1) = true) ∧
      (∀ r, (m.getLsbD (r.kind.code - 1) = false → t.offerRecord r = t) ∧
        (m.getLsbD (r.kind.code - 1) = true → t.mgmt.queue.length < 32 →
          t.offerRecord r = (t.setMgmt { t.mgmt with queue := t.mgmt.queue ++ [r] }).buildReport))

/-- SET_PROTECTION is accepted at level SOFT from the installer, and stores the flags and the level it carries; at level
HARD, or from the property, it is refused PROTECTED and the protection stands (R171). That the flag byte's bits above the
fifth are neither stored nor replied is the model's choice (notes/assumptions/8). -/
def Obligations.SetProtectionDecision : Prop :=
  ∀ (s : State) (c : Cmd) (rest : List Cmd), s.Ready c rest → c.kind = 14 → c.len = 2 → c.operand 1 < 2 →
    (s.prot.level = .soft → c.auth = .installer → exec .setProtection s =
      .next (((s.setInbound rest).setProt
        { flags := BitVec.ofNat 5 (c.operand 0), level := if c.operand 1 = 1 then .hard else .soft }).withReply
        (doneReply c (.bytes [BitVec.ofNat 8 (c.operand 0 % 32), BitVec.ofNat 8 (c.operand 1)])))) ∧
    (s.prot.level = .hard ∨ c.auth = .property → exec .setProtection s =
      .next ((s.setInbound rest).withReply
        { tag := c.tag, kind := c.kind, outcome := .prot, detail := 0, data := .bytes [] }))

/-- SOFT_RESET puts every block into its reset state at once, keeps the loaded tables, the roles, the protection, the waiting
replies and the inbound queue, keeps lane 16's framer, windows and status, and leaves the command executing
(R2, R43, R57, R73, R89, R106, R122, R130, R148, R163, R178). -/
def Obligations.SoftResetClearsTheBlocks : Prop :=
  ∀ (s : State) (c : Cmd) (rest : List Cmd), s.Canonical → s.Ready c rest → s.accepts c .softReset →
    ∃ t, exec .softReset s = .next t ∧ t.tables = s.tables ∧ t.roles = s.roles ∧ t.inbound = rest ∧ t.prot = s.prot ∧
      t.mgmt = { list := s.mgmt.replies } ∧ t.inds.latched = [] ∧ t.alert = false ∧
      (∀ k i kd, t.statusValue k i kd = true → k = .lane ∧ i = 16 ∧ (kd = .degraded ∨ kd = .persistent) ∨ 65536 ≤ i) ∧
      t.statusValue .lane 16 .degraded = s.statusValue .lane 16 .degraded ∧
      t.statusValue .lane 16 .persistent = s.statusValue .lane 16 .persistent ∧
      t.hostQueue = [] ∧ t.sched = {} ∧ t.clock = { secs := 0, since := s.now } ∧ t.lives = [] ∧ t.ranks = [] ∧
      t.gates = [] ∧ t.cuts = [] ∧ t.mismatch = [] ∧ t.censusRecs = s.censusRecs ∧ t.lifetimes = s.lifetimes ∧
      (∀ n, n < 16 → t.framer n = {} ∧ t.tracker n = {} ∧ t.qmLane n = {} ∧
        t.tuner n = { state := if s.role n = .off then .off else .free }) ∧
      t.framer 16 = s.framer 16 ∧ t.qmLane 16 = s.qmLane 16 ∧ t.tracker 16 = { entries := s.buildEntries localMux } ∧
      (∀ o, o < 4 → t.out o = { port := (s.out o).port, periodStart := s.now }) ∧
      (∀ b, b < 4 → (t.bus b).run = none ∧ (t.bus b).queue = [] ∧ (t.bus b).deferred = []) ∧
      t.resetting = some c ∧ t.now = s.now ∧ t.pending = s.pending

/-- A completion of the soft reset while a bus is still finishing the recovery the reset found does nothing. Once none is, the
reply DONE is built, the command ends and the buses may start runs; nothing else changes when no run waits and no scan tuner
waits for a pick (R89, R178). That it does nothing while a finishing bus is RECOVERING, and that with a finishing transfer still
under way it completes at once and drops the rest of that transfer, is the model's reading (DEDUCED, notes/assumptions/14). -/
def Obligations.SoftResetCompletes : Prop :=
  ∀ (s : State) (c : Cmd), s.Quiet → s.Canonical → s.resetting = some c →
    ((∃ b, b < 4 ∧ (s.bus b).finishing = true ∧ (s.bus b).state = .recovering) → exec .softResetComplete s = .next s) ∧
    ((∀ b, b < 4 → (s.bus b).finishing = false ∨ (s.bus b).state ≠ .recovering) → s.QuietBuses →
      s.mgmt.replies.length < 16 → s.NoPicks → ∃ t, exec .softResetComplete s = .next t ∧
        (∀ b, b < 4 → t.bus b = { s.bus b with finishing := false, tail := none }) ∧ (∀ b, 4 ≤ b → t.bus b = s.bus b) ∧
        t = ((s.setResetting none).setBuses t.buses).withReply (doneReply c (.bytes [])))

/-- A command of a kind outside 1–15 is refused UNKNOWN with reply kind 0, and a WRITE_ENTRY whose table code lies outside
1–8 is refused UNKNOWN; nothing else changes (R3, R166). -/
def Obligations.UnknownCommandsRefused : Prop :=
  ∀ (s : State) (c : Cmd) (rest : List Cmd), s.Ready c rest →
    (c.kind = 0 ∨ 15 < c.kind → exec .unrecognisedCommand s =
      .next ((s.setInbound rest).withReply { tag := c.tag, kind := 0, outcome := .unknown, detail := 0, data := .bytes [] })) ∧
    (c.kind = 1 → c.table = 0 ∨ 8 < c.table → exec .writeEntryUnknownTable s =
      .next ((s.setInbound rest).withReply { tag := c.tag, kind := 1, outcome := .unknown, detail := 0, data := .bytes [] }))

/-- A reply built while 16 replies wait discards the oldest of them, and REPLY_OVERRUN is latched; no report packet that
waits is discarded (R167). -/
def Obligations.ReplyOverrunDropsOldest : Prop :=
  ∀ (s : State) (i : Nat) (r : Reply), 16 ≤ s.mgmt.replies.length →
    (s.buildReply i r).mgmt.replies = s.mgmt.replies.drop 1 ++ [.reply i r] ∧
      (s.buildReply i r).latched .device 0 .replyOverrun = true ∧
      ∀ p ∈ s.mgmt.list, p.isReply = false → p ∈ (s.buildReply i r).mgmt.list

/-- What the Management Unit does with a packet under a command identifier: a flagged one is discarded with
COMMAND_CORRUPT, another joins the tail of the inbound queue with its authority while fewer than 8 wait, and is dropped with
COMMAND_OVERRUN otherwise; a packet that does not join gets no reply (R54, R165). -/
def Obligations.CommandPacketTaken : Prop :=
  ∀ (s : State) (p : Packet),
    (Packet.flagged p = true → (s.takeCommand p).inbound = s.inbound ∧
      (s.takeCommand p).latched .device 0 .commandCorrupt = true ∧ (s.takeCommand p).mgmt.replies = s.mgmt.replies) ∧
    (Packet.flagged p = false → s.inbound.length < 8 → s.takeCommand p = s.setInbound (s.inbound ++
      [Cmd.mk (if Packet.ident p = s.settings.mgmtId then .property else .installer) p])) ∧
    (Packet.flagged p = false → 8 ≤ s.inbound.length → (s.takeCommand p).inbound = s.inbound ∧
      (s.takeCommand p).latched .device 0 .commandOverrun = true ∧ (s.takeCommand p).mgmt.replies = s.mgmt.replies)

/-- A raise stores its status value and latches its flag; only a raise that latches the flag from clear, of an enabled kind,
offers a record. The record is queued while fewer than 32 wait, or sets the lost flag; and when no report packet waits, a
report packet takes the oldest 6 records and the lost flag (R172, R175, R176). -/
def Obligations.RaiseLatchesAndReports : Prop :=
  ∀ (s : State) (k : SourceKind) (i : Nat) (kd : Kind) (v : Bool), s.Canonical →
    (s.raise k i kd v).statusValue k i kd = v ∧ (s.raise k i kd v).latched k i kd = true ∧
    (s.latched k i kd = true ∨ s.settings.mask.getLsbD (kd.code - 1) = false → (s.raise k i kd v).mgmt = s.mgmt) ∧
    (s.latched k i kd = false → s.settings.mask.getLsbD (kd.code - 1) = true → 32 ≤ s.mgmt.queue.length →
      (s.raise k i kd v).mgmt = { s.mgmt with lost := true }) ∧
    (s.latched k i kd = false → s.settings.mask.getLsbD (kd.code - 1) = true → s.mgmt.queue.length < 32 →
      (s.mgmt.reportWaits = true → (s.raise k i kd v).mgmt = { s.mgmt with queue := s.mgmt.queue ++
        [EventRecord.mk k i kd v s.clock.secs] }) ∧
      (s.mgmt.reportWaits = false → (s.raise k i kd v).mgmt.list = s.mgmt.list ++ [.report s.settings.replyId
          { lost := s.mgmt.lost, records := (s.mgmt.queue ++
            [EventRecord.mk k i kd v s.clock.secs]).take 6 }] ∧
        (s.raise k i kd v).mgmt.queue = (s.mgmt.queue ++
          [EventRecord.mk k i kd v s.clock.secs]).drop 6 ∧
        (s.raise k i kd v).mgmt.lost = false))

/-- A stored entry read back is the entry: for every record whose fields lie in their ranges, reading the bytes that
READ_ENTRY returns and WRITE_ENTRY carries gives the record (R4, R5, Table 75). The report enable mask of the settings is
handed to the reading, not read back: a SETTINGS write does not carry it in. The encodings of LOCAL and of yes and no are the
model's reading of Table 75 (notes/assumptions/7, 27). -/
def Obligations.EntryCodecsAgree : Prop :=
  (∀ r : Service, r.inRange → readService (serviceBytes r) = r) ∧ (∀ r : CopyRec, r.inRange → readCopy (copyBytes r) = r) ∧
  (∀ r : MuxRec, r.inRange → readMux (muxBytes r) = r) ∧
  (∀ (k : Role) (r : TunerRec), r.inRange → readTuner (tunerBytes k r) = r) ∧
  (∀ r : OutputRec, r.inRange → readOutput (outputBytes r) = r) ∧
  (∀ r : Settings, r.inRange → readSettings r.mask (settingsBytes r) = r) ∧
  (∀ r : Step, r.inRange → readStep (stepBytes r) = r)

/-- Whatever bytes a write carries, every numeric tuning field is stored within its bounds, and the window length as a whole
number of 100 ms (R5, R7, R16, R19, R20, R21, R74). -/
def Obligations.ClampedFieldsInRange : Prop :=
  ∀ bs : List Byte,
    ((readService bs).hyst ≤ 300 ∧ 1 ≤ (readService bs).debounce ∧ (readService bs).debounce ≤ 15 ∧
      1 ≤ (readService bs).failCount ∧ (readService bs).failCount ≤ 8 ∧ (readService bs).floor ≤ 1000 ∧
      10 ≤ (readService bs).staleLimit ∧ (readService bs).staleLimit ≤ 7200) ∧
    (1 ≤ (readMux bs).dwell ∧ (readMux bs).dwell ≤ 16) ∧
    (200 ≤ (readTuner bs).acquireLimit ∧ (readTuner bs).acquireLimit ≤ 8000 ∧ 1000 ≤ (readTuner bs).relockLimit ∧
      (readTuner bs).relockLimit ≤ 30000) ∧
    (1000 ≤ (readOutput bs).rate ∧ (readOutput bs).rate ≤ 90000) ∧
    ((readStep bs).addrOff ≤ 7 ∧ (readStep bs).byteOff ≤ 4095 ∧ 1 ≤ (readStep bs).count ∧ (readStep bs).count ≤ 32 ∧
      ((readStep bs).kind = .wait → 1 ≤ (readStep bs).time ∧ (readStep bs).time ≤ 1000) ∧
      ((readStep bs).kind = .poll → 10 ≤ (readStep bs).time ∧ (readStep bs).time ≤ 8000)) ∧
    ∀ m, (500 ≤ (readSettings m bs).winLen ∧ (readSettings m bs).winLen ≤ 4000 ∧ (readSettings m bs).winLen % 100 = 0) ∧
      (2 ≤ (readSettings m bs).lockCount ∧ (readSettings m bs).lockCount ≤ 8) ∧
      (2 ≤ (readSettings m bs).lossCount ∧ (readSettings m bs).lossCount ≤ 6) ∧
      (1 ≤ (readSettings m bs).excess ∧ (readSettings m bs).excess ≤ 65535) ∧
      (1 ≤ (readSettings m bs).weight ∧ (readSettings m bs).weight ≤ 32) ∧ (readSettings m bs).shift ≤ 4 ∧
      (1 ≤ (readSettings m bs).aShare ∧ (readSettings m bs).aShare ≤ 8) ∧
      (1 ≤ (readSettings m bs).censusMin ∧ (readSettings m bs).censusMin ≤ 255) ∧
      (8 ≤ (readSettings m bs).censusPeriod ∧ (readSettings m bs).censusPeriod ≤ 255) ∧
      (200 ≤ (readSettings m bs).cutLimit ∧ (readSettings m bs).cutLimit ≤ 5000) ∧
      (2 ≤ (readSettings m bs).hostRetry ∧ (readSettings m bs).hostRetry ≤ 600) ∧
      (2 ≤ (readSettings m bs).pollInterval ∧ (readSettings m bs).pollInterval ≤ 50)

/-! ## Lanes, windows, the rank clock -/

/-- Bytes of a lane in LOCKED. Inside a packet a byte joins it. The 188th byte delivers the packet, which is counted, and
sorted by Table 27: an unflagged command packet on lane 16 joins the inbound queue while fewer than 8 wait, a flagged one is
discarded with COMMAND_CORRUPT; a null packet goes no further, and adds 1 to P of the running window and of the lane, and its
flag 1 to E; a flagged packet is not counted by its entry; a tracked one is, once, by its entry, and where the lane offers
packets and one binding forwards, it is offered, and admitted when that copy is emitted and no cut stands; an unknown packet
goes to the lane census. Nothing else changes (R26, R32, R47, R48, R50, R53, R54, R61, R71, R152, R165). -/
def Obligations.LockedLaneTakesBytes : Prop :=
  ∀ (s : State) (n : Nat) (b : Byte) (p : Packet), n < 17 → s.Quiet → s.Canonical → (s.framer n).state = .locked →
    p = (s.framer n).pkt ++ [b] →
    ((s.framer n).pkt ≠ [] → (s.framer n).pkt.length < 187 → exec (.laneByte n b) s = .next (s.putFramer n
      { s.framer n with pos := (s.framer n).pos + 1, pkt := p })) ∧
    ((s.framer n).pkt.length = 187 →
      (n ≠ 16 → Packet.ident p = nullId → (s.qmLane n).window ≠ none → (s.qmLane n).p < 16777215 →
        (s.qmLane n).e < 16777215 → (s.lifetime n).p < 4294967295 → (s.lifetime n).e < 4294967295 →
        ∃ t, exec (.laneByte n b) s = .next t ∧
          t.framer n = { s.framer n with pos := (s.framer n).pos + 1, pkt := [], last := p } ∧
          t.qmLane n = { s.qmLane n with
            p := (s.qmLane n).p + 1, e := (s.qmLane n).e + if Packet.flagged p then 1 else 0 } ∧
          t.lifetime n = { s.lifetime n with
            p := (s.lifetime n).p + 1, e := (s.lifetime n).e + if Packet.flagged p then 1 else 0 } ∧
          (∀ m, m ≠ n → t.framer m = s.framer m ∧ t.qmLane m = s.qmLane m ∧ t.lifetime m = s.lifetime m) ∧
          t = { s with framers := t.framers, qmLanes := t.qmLanes, lifetimes := t.lifetimes }) ∧
      (n = 16 → Packet.ident p = s.settings.mgmtId ∨ Packet.ident p = s.settings.instId →
        (Packet.flagged p = false → s.inbound.length < 8 → exec (.laneByte n b) s = .next ((s.delivers n b).setInbound
          (s.inbound ++ [Cmd.mk (if Packet.ident p = s.settings.mgmtId then .property else .installer) p]))) ∧
        (Packet.flagged p = true →
          exec (.laneByte n b) s = .next ((s.delivers n b).raise .device 0 .commandCorrupt))) ∧
      (n ≠ 16 ∨ (Packet.ident p ≠ s.settings.mgmtId ∧ Packet.ident p ≠ s.settings.instId) → Packet.ident p ≠ nullId →
        (Packet.flagged p = true → (s.offersPackets n = false ∨ s.forwarding n p = []) →
          exec (.laneByte n b) s = .next (s.delivers n b)) ∧
        (Packet.flagged p = false → (∃ e ∈ (s.tracker n).entries, e.ident = Packet.ident p) →
          ((s.offersPackets n = false ∨ s.forwarding n p = []) →
            exec (.laneByte n b) s = .next ((s.delivers n b).countPacket n p)) ∧
          ∀ d : Binding, s.offersPackets n = true → s.forwarding n p = [d] → (s.service d.svc).enabled = true →
            s.cut d.svc = none → s.gate d.svc = some d.slot →
            exec (.laneByte n b) s = .next (((s.delivers n b).countPacket n p).admitPacket d.svc d.comp p)) ∧
        (Packet.flagged p = false → (∀ e ∈ (s.tracker n).entries, e.ident ≠ Packet.ident p) →
          exec (.laneByte n b) s =
            .next ((s.delivers n b).putTracker n ((s.tracker n).recordUnknown (Packet.ident p))))))

/-- Sync bytes judged. LOCKED: a good one opens the next packet; a bad one takes the lane to FLYWHEEL with miss count 1, the lock
phase kept and its sync error, and the offline search examines the last delivered packet from the byte after its sync byte on.
FLYWHEEL at a lock-phase position: a good one returns the lane to LOCKED with no lock event; a bad one below the loss count adds a
miss and its sync error, and the offline search goes on; one that takes the miss count to the loss count adds its sync error and is
a loss, after which the lane hunts from the next byte with the previous lock phase kept. HUNT: 0x47 becomes the candidate and the
lane is in VERIFY; any other byte leaves it hunting. VERIFY: a byte that is not the candidate's next only is retained; 0x47 at it
adds a confirmation, and the one that reaches the lock count enters LOCKED at the phase of the confirming byte, with a lock event
that carries the first-lock mark when the observation had no lock phase before, and a realignment when the phase differs from the
previous one; any other byte there rejects the candidate, and the search resumes at the byte after it (stated for a first
confirmation, or with no other 0x47 retained) (R29, R30, R31, R33, R34, R35, R37). -/
def Obligations.SyncBytesJudged : Prop :=
  ∀ (cfg : Settings) (f : Framer),
    (∀ b : Byte, f.state = .locked → f.pkt = [] →
      (b = 0x47 → f.take cfg b = ({ f with pos := f.pos + 1, pkt := [b] }, [])) ∧
      (b ≠ 0x47 → f.last.length = 188 → 187 ≤ f.pos → f.take cfg b =
        ({ f with state := .flywheel, pos := f.pos + 1, miss := 1,
                  search := searchOver f.lockPhase (f.pos - 187) (f.last.drop 1 ++ [b]) }, [syncErrorOf cfg b]))) ∧
    (∀ b : Byte, f.state = .flywheel → some (f.pos % 188) = f.lockPhase →
      (b = 0x47 → f.take cfg b =
        ({ f with state := .locked, pos := f.pos + 1, miss := 0, search := {}, pkt := [b] }, [])) ∧
      (b ≠ 0x47 → f.miss + 1 < cfg.lossCount → f.search.next = f.pos →
        (∀ c k, f.search.cand = some (c, k) → some (c % 188) ≠ f.lockPhase) → f.take cfg b =
        ({ f with pos := f.pos + 1, miss := f.miss + 1,
                  search := { f.search with next := f.pos + 1,
                                            buf := if f.search.cand.isSome then f.search.buf ++ [b] else [] } },
          [syncErrorOf cfg b])) ∧
      (b ≠ 0x47 → cfg.lossCount ≤ f.miss + 1 → f.take cfg b =
        ({ f with state := .hunt, pos := f.pos + 1, lockPhase := none, miss := 0, search := { next := f.pos + 1 },
                  pkt := [], last := [] }, [syncErrorOf cfg b, .loss]))) ∧
    (∀ b : Byte, f.state = .hunt → f.search.cand = none →
      (b = 0x47 → f.take cfg b =
        ({ f with state := .verify, pos := f.pos + 1,
                  search := { next := f.search.next + 1, cand := some (f.search.next, 1), buf := [b] } }, [])) ∧
      (b ≠ 0x47 → f.take cfg b = ({ f with pos := f.pos + 1, search := { next := f.search.next + 1 } }, []))) ∧
    ∀ c k, f.state = .verify → f.search.cand = some (c, k) →
      (∀ b : Byte, f.search.next ≠ c + 188 * k → f.take cfg b =
        ({ f with pos := f.pos + 1,
                  search := { f.search with next := f.search.next + 1, buf := f.search.buf ++ [b] } }, [])) ∧
      (f.search.next = c + 188 * k →
        (k + 1 < cfg.lockCount → f.take cfg 0x47 =
          ({ f with pos := f.pos + 1,
                    search := { next := f.search.next + 1, cand := some (c, k + 1), buf := f.search.buf ++ [0x47] } }, [])) ∧
        (∀ (b : Byte) (sr : Search), b ≠ 0x47 → k ≤ 8 → f.search.buf.length = 188 * k →
          (k = 1 ∨ ∀ x ∈ f.search.buf.drop 1, x ≠ 0x47) → sr = searchOver none (c + 1) (f.search.buf.drop 1 ++ [b]) →
          f.take cfg b =
            ({ f with state := if sr.cand.isSome then .verify else .hunt, pos := f.pos + 1, search := sr }, [])) ∧
        (cfg.lockCount = k + 1 → f.take cfg 0x47 =
          ({ f with state := .locked, pos := f.search.next + 1, lockPhase := some (f.search.next % 188), miss := 0,
                    prevPhase := some (f.search.next % 188), search := {}, pkt := [0x47], last := [] },
            [.lock f.prevPhase.isNone
              (decide (f.prevPhase ≠ none) && decide (f.prevPhase ≠ some (f.search.next % 188))) true])))

/-- A lock and a loss as the blocks take them. The first lock of a lane whose LIVE tuner acquires for a host request: the
first window starts, the tuner is OBSERVING and hosts the multiplex, its acquire timer stopped, with nothing else to do when
no request waits, no service is ranked and the SCH has nothing to drop or pick. A loss on the lane of a hosting tuner: the
window and the lane count it with its sync error, the locked spell ends, the relock timer starts, and the lane hunts
(R34, R37, R39, R59, R62, R71, R91, R94, R96, R97; milliseconds of lock: notes/assumptions/13). -/
def Obligations.LockAndLossReachBlocks : Prop :=
  ∀ (s : State) (n x : Nat), n < 16 → s.Quiet → s.Canonical → s.ranks = [] → (s.tuner n).mux = some x →
    (s.tuner n).work = some .host →
    (∀ c k, (s.framer n).state = .verify → (s.framer n).search.cand = some (c, k) →
      (s.framer n).search.next = c + 188 * k → s.settings.lockCount = k + 1 → (s.framer n).prevPhase = none →
      (s.tuner n).state = .acquiring → s.role n = .live → s.hostQueue = [] → s.sched.urgent = [] → s.NoPicks →
      ∃ t, exec (.laneByte n 0x47) s = .next t ∧ (t.framer n).state = .locked ∧
        (t.framer n).lockPhase = some ((s.framer n).search.next % 188) ∧
        t.qmLane n = { s.qmLane n with window := some (s.now, s.settings.winLen), seq := 0, p := 0, e := 0, y := 0, s := 0,
                                       r := 0, lockedMs := 0, lockSince := some s.now, sat := false } ∧
        t.tuner n = { s.tuner n with state := .observing, acquire := none, relock := none,
                                     relockLimit := (s.tunerRec n).relockLimit } ∧ t.hosted x = true ∧
        (∀ m, m ≠ n → t.framer m = s.framer m ∧ t.qmLane m = s.qmLane m ∧ t.tuner m = s.tuner m) ∧
        t = { s with framers := t.framers, qmLanes := t.qmLanes, tuners := t.tuners }) ∧
    (∀ b : Byte, (s.framer n).state = .flywheel → some ((s.framer n).pos % 188) = (s.framer n).lockPhase → b ≠ 0x47 →
      s.settings.lossCount ≤ (s.framer n).miss + 1 → (s.tuner n).state = .observing → s.cuts = [] →
      (s.qmLane n).window ≠ none →
      ∃ t y, exec (.laneByte n b) s = .next t ∧
        y = (if s.settings.syncMode = .packet then 1 else popCount (b ^^^ 0x47)) ∧ (t.framer n).state = .hunt ∧
        t.qmLane n = { s.qmLane n with
          y := min 16777215 ((s.qmLane n).y + y), s := min 65535 ((s.qmLane n).s + 1), lockSince := none,
          lockedMs := match (s.qmLane n).lockSince with
            | some a => (s.qmLane n).lockedMs + (s.now - a)
            | none => (s.qmLane n).lockedMs } ∧
        t.lifetime n = { s.lifetime n with
          y := min 4294967295 ((s.lifetime n).y + y), s := min 4294967295 ((s.lifetime n).s + 1) } ∧
        t.tuner n = { s.tuner n with relock := some { start := s.now, limit := (s.tuner n).relockLimit } } ∧
        (∀ m, m ≠ n → t.framer m = s.framer m ∧ t.qmLane m = s.qmLane m ∧ t.tuner m = s.tuner m ∧
          t.lifetime m = s.lifetime m) ∧
        t = { s with framers := t.framers, qmLanes := t.qmLanes, tuners := t.tuners, lifetimes := t.lifetimes })

/-- The continuity judgement of Table 28, its counts, and the entry's packet count (R48). -/
def Obligations.ContinuityJudged : Prop :=
  ∀ (e : TrackEntry) (p : Packet), e.pkts < 16777215 → e.breaks < 65535 →
    (e.lastCc = none → e.count p = { e with pkts := e.pkts + 1, lastCc := some (Packet.cc p), repeated := false }) ∧
    ∀ c, c < 16 → e.lastCc = some c →
      (Packet.payload p = true → Packet.cc p = (c + 1) % 16 →
        e.count p = { e with pkts := e.pkts + 1, lastCc := some ((c + 1) % 16), repeated := false }) ∧
      (Packet.payload p = true → Packet.cc p = c → e.repeated = false →
        e.count p = { e with pkts := e.pkts + 1, repeated := true }) ∧
      (Packet.payload p = true → Packet.cc p = c → e.repeated = true →
        e.count p = { e with pkts := e.pkts + 1, breaks := e.breaks + 1 }) ∧
      (Packet.payload p = true → Packet.cc p ≠ (c + 1) % 16 → Packet.cc p ≠ c →
        e.count p = { e with pkts := e.pkts + 1, breaks := e.breaks + 1, lastCc := some (Packet.cc p), repeated := false }) ∧
      (Packet.payload p = false → Packet.cc p = c → e.count p = { e with pkts := e.pkts + 1 }) ∧
      (Packet.payload p = false → Packet.cc p ≠ c →
        e.count p = { e with pkts := e.pkts + 1, breaks := e.breaks + 1, lastCc := some (Packet.cc p), repeated := false })

/-- The lane census and the census records. An unknown identifier with an entry adds 1 to it; without one it gets an entry of
1 while fewer than 32 stand, and adds 1 to the overflow count otherwise. The close set holds the entries that reach the
minimum, in descending count and between equal counts ascending identifier, at most 16, an entry left out coming after every
one kept. A close stores the set with the overflow count as the multiplex's record, empties the census and its counts, keeps
the track list, and raises CENSUS_CHANGE exactly when a record stood that names other identifiers (R50, R51, R52). -/
def Obligations.CensusRecordsAndCloses : Prop :=
  (∀ (k : Tracker) (x : Nat), (k.census.map (·.1)).Nodup →
    (∀ m, (x, m) ∈ k.census → (k.recordUnknown x).census.map (·.1) = k.census.map (·.1) ∧
      (x, min 65535 (m + 1)) ∈ (k.recordUnknown x).census ∧
      (∀ y c, y ≠ x → ((y, c) ∈ (k.recordUnknown x).census ↔ (y, c) ∈ k.census)) ∧
      (k.recordUnknown x).overflow = k.overflow) ∧
    (x ∉ k.census.map (·.1) → k.census.length < 32 → k.recordUnknown x = { k with census := k.census ++ [(x, 1)] }) ∧
    (x ∉ k.census.map (·.1) → 32 ≤ k.census.length →
      k.recordUnknown x = { k with overflow := min 65535 (k.overflow + 1) })) ∧
  (∀ (m : Nat) (l : List (Nat × Nat)), (l.map (·.1)).Nodup → (closeSet m l).length ≤ 16 ∧
    (∀ e ∈ closeSet m l, e ∈ l ∧ m ≤ e.2) ∧
    (closeSet m l).Pairwise (fun a b => b.2 < a.2 ∨ (b.2 = a.2 ∧ a.1 < b.1)) ∧
    ∀ e ∈ l, m ≤ e.2 → e ∉ closeSet m l → (closeSet m l).length = 16 ∧
      ∀ f ∈ closeSet m l, e.2 < f.2 ∨ (e.2 = f.2 ∧ f.1 < e.1)) ∧
  ∀ (s t : State) (n x : Nat) (cs : List (Nat × Nat)), s.Canonical → t = s.closeCensus n x →
    cs = closeSet s.settings.censusMin (s.tracker n).census →
    t.tracker n = { entries := (s.tracker n).entries } ∧
    t.censusRec x = some { pairs := cs, overflow := (s.tracker n).overflow } ∧
    (∀ m, m ≠ n → t.tracker m = s.tracker m) ∧ (∀ y, y ≠ x → t.censusRec y = s.censusRec y) ∧
    (∀ r, s.censusRec x = some r → (∃ i, (i ∈ r.pairs.map (·.1)) ≠ (i ∈ cs.map (·.1))) →
      if x = localMux then t.latched .lane 16 .censusChange = true else t.latched .multiplex x .censusChange = true) ∧
    ((∀ r, s.censusRec x = some r → ∀ i, i ∈ r.pairs.map (·.1) ↔ i ∈ cs.map (·.1)) →
      t = { s with trackers := t.trackers, censusRecs := t.censusRecs })

/-- The expiry of lane 16's window, when no local copy is defined: the next window starts with the next sequence number and
every counter 0; the lane's status is judged, DEGRADED raised when it changes and PERSISTENT when the count of degraded
windows comes to 4 or falls from it; the tracker's window counts return to 0 and its bindings become whole-window; the census
closes when its period has passed, and goes on otherwise; nothing outside the monitor, the tracker and the indications
changes (R49, R51, R59, R63, R67, R68). The clock and the next window's start at the instant of the expiry, or at the clock
where that is later, are the model's choice (notes/assumptions/2), as are whole milliseconds of lock (13). -/
def Obligations.WindowExpiryOnLane16 : Prop :=
  ∀ (s : State) (a len : Nat) (bad : Bool), s.Quiet → s.Canonical → (s.qmLane 16).window = some (a, len) →
    (s.qmLane 16).pending = none → s.copiesOn localMux = [] →
    bad = degradedWindow s.settings.excess (s.qmLane 16).e (s.qmLane 16).y ((s.reach (a + len)).formReport 16).l →
    ∃ t, exec (.windowExpiry 16) s = .next t ∧
      t.qmLane 16 = { s.qmLane 16 with
        window := some (max s.now (a + len), s.settings.winLen), seq := ((s.qmLane 16).seq + 1) % 65536, p := 0, e := 0,
        y := 0, s := 0, r := 0, lockedMs := 0, sat := false,
        lockSince := (s.qmLane 16).lockSince.map (fun _ => max s.now (a + len)), degraded := bad,
        degCount := if bad then min 4 ((s.qmLane 16).degCount + 1) else 0 } ∧
      (bad ≠ (s.qmLane 16).degraded → t.latched .lane 16 .degraded = true ∧ t.statusValue .lane 16 .degraded = bad) ∧
      ((bad = true ∧ (s.qmLane 16).degCount = 3) ∨ (bad = false ∧ (s.qmLane 16).degCount = 4) →
        t.latched .lane 16 .persistent = true ∧ t.statusValue .lane 16 .persistent = bad) ∧
      (t.tracker 16).entries = (s.tracker 16).entries.map (fun e =>
        { e with pkts := 0, breaks := 0, bindings := e.bindings.map (fun b => { b with whole := true }) }) ∧
      (s.settings.censusPeriod ≤ (s.tracker 16).windows + 1 →
        (t.tracker 16).census = [] ∧ (t.tracker 16).overflow = 0 ∧ (t.tracker 16).windows = 0 ∧
          t.censusRec localMux = some { pairs := closeSet s.settings.censusMin (s.tracker 16).census,
                                        overflow := (s.tracker 16).overflow }) ∧
      ((s.tracker 16).windows + 1 < s.settings.censusPeriod →
        (t.tracker 16).census = (s.tracker 16).census ∧ (t.tracker 16).overflow = (s.tracker 16).overflow ∧
          (t.tracker 16).windows = (s.tracker 16).windows + 1 ∧ t.censusRecs = s.censusRecs) ∧
      (∀ n, n ≠ 16 → t.qmLane n = s.qmLane n ∧ t.tracker n = s.tracker n) ∧
      t = { s with now := max s.now (a + len), trackers := t.trackers, censusRecs := t.censusRecs, qmLanes := t.qmLanes,
                   inds := t.inds, mgmt := t.mgmt }

/-- The expiry of a tuner lane's window files its report with its figures as pending, and starts the next window. With no run
outstanding a MEASURE run is requested: on an IDLE bus it starts, on a busy one it joins the queue. With an older report still
pending, its run outstanding, that report completes under the hold rule first and no second run is requested; stated for an
older report without lines, of a tuner that is not SCAN (R59, R63, R64, R65, R66, R84). The clock and the next window's start
are the model's choice (notes/assumptions/2). -/
def Obligations.WindowExpiryFilesReport : Prop :=
  ∀ (s : State) (n a len : Nat), n < 16 → s.Quiet → s.Canonical → (s.qmLane n).window = some (a, len) → s.QuietBuses →
    ∀ (hold : Nat) (run : Bool),
      ((s.qmLane n).pending = none ∧ (s.qmLane n).outstanding = false ∧ hold = (s.qmLane n).hold ∧ run = true) ∨
      ((∃ r, (s.qmLane n).pending = some r ∧ r.lines = [] ∧ s.role r.lane ≠ .scan) ∧ (s.qmLane n).outstanding = true ∧
        hold = min 255 ((s.qmLane n).hold + 1) ∧ run = false) →
      (run = true → (∀ k, k < 4 → (s.bus k).runs n .measure = false) ∧
        ((s.bus (s.tunerRec n).bus).state ≠ .idle ∨
          (s.busReady (s.tunerRec n).bus ∧ s.enterable (s.newRun n .measure 0) (s.tunerRec n).measure)) ∧
        (s.tunerRec n).bus < 4) →
      ∃ t, exec (.windowExpiry n) s = .next t ∧
        (t.qmLane n).pending = some ((s.reach (a + len)).formReport n) ∧ (t.qmLane n).outstanding = true ∧
        (t.qmLane n).hold = hold ∧ (t.qmLane n).lastFresh = (s.qmLane n).lastFresh ∧
        (t.qmLane n).window = some (max s.now (a + len), s.settings.winLen) ∧
        (t.qmLane n).seq = ((s.qmLane n).seq + 1) % 65536 ∧ (t.qmLane n).p = 0 ∧ (t.qmLane n).e = 0 ∧
        (t.qmLane n).y = 0 ∧ (t.qmLane n).s = 0 ∧ (t.qmLane n).r = 0 ∧
        (∀ m, m ≠ n → t.qmLane m = s.qmLane m ∧ t.tracker m = s.tracker m) ∧
        (run = false → t.buses = s.buses) ∧
        (run = true → (∀ k, k ≠ (s.tunerRec n).bus → t.bus k = s.bus k) ∧
          ((s.bus (s.tunerRec n).bus).state ≠ .idle → t.bus (s.tunerRec n).bus =
            { s.bus (s.tunerRec n).bus with queue := [s.newRun n .measure 0] }) ∧
          (s.busReady (s.tunerRec n).bus → t.bus (s.tunerRec n).bus = { s.bus (s.tunerRec n).bus with
            state := .running,
            run := some ((s.reach (a + len)).entered { s.newRun n .measure 0 with clock := s.settings.busClock }
              (s.tunerRec n).measure) })) ∧
        t = { s with now := max s.now (a + len), trackers := t.trackers, censusRecs := t.censusRecs, qmLanes := t.qmLanes,
                     buses := t.buses, mismatch := t.mismatch, inds := t.inds, mgmt := t.mgmt }

/-- At each second the rank clock rises by 1 and holds at its maximum. Each copy's bar is lifted when its time has come, and
the stale mark of each observed copy is judged against its service's stale limit: while no service is enabled that is all;
where no copy's bar or mark changes, nothing else happens in any service; and an enabled service with nothing selected, whose
one copy is local and loses its bar while fresh and above 0, is evaluated and asks for the cut to it (R130, R131, R135, R137,
R138, R140). The instant of the second is the model's choice (notes/assumptions/2). -/
def Obligations.RankClockSecondPasses : Prop :=
  ∀ s : State, ∃ t, exec .rankClockSecond s = .next t ∧
    t.clock = { secs := min 4294967295 (s.clock.secs + 1), since := max s.now (s.clock.since + 1000) } ∧
    t.tables = s.tables ∧ t.inbound = s.inbound ∧ t.prot = s.prot ∧ t.lifetimes = s.lifetimes ∧
    (s.Quiet → s.Canonical → (∀ v, (s.service v).enabled = false) → ∀ i, t.live i = { s.live i with
      barredUntil := match (s.live i).barredUntil with
        | some u => if u ≤ t.clock.secs then none else some u
        | none => none,
      stale := match (s.live i).q, (s.live i).observedAt with
        | some _, some o => decide ((s.service (i / 4)).staleLimit < t.clock.secs - o)
        | _, _ => (s.live i).stale }) ∧
    (s.Quiet → s.Canonical →
      (∀ i, (∀ u, (s.live i).barredUntil = some u → t.clock.secs < u) ∧
        (∀ q o, (s.live i).q = some q → (s.live i).observedAt = some o →
          (s.live i).stale = decide ((s.service (i / 4)).staleLimit < t.clock.secs - o))) →
      t = { s with now := t.clock.since, clock := t.clock }) ∧
    ∀ v slot q o u, s.Quiet → s.Canonical → (∀ w, (s.service w).enabled = true ↔ w = v) → s.definedSlots v = [slot] →
      s.copyMux v slot = localMux → s.liveOf v slot = { s.liveOf v slot with
        q := some q, observedAt := some o, barredUntil := some u } → 0 < q → u ≤ t.clock.secs →
      t.clock.secs - o ≤ (s.service v).staleLimit → (s.rank v).selected = none → (s.rank v).target = none →
      (s.rank v).filing = none → (s.rank v).cutting = false → (s.rank v).pin = none →
      t.rank v = { s.rank v with target := some slot, cutting := true, degraded := false } ∧
        t.cut v = some { old := none, new := slot, limit := s.settings.cutLimit, start := t.clock.since, down := true } ∧
        t.liveOf v slot = { s.liveOf v slot with barredUntil := none, stale := false }

/-! ## Tuners and buses -/

/-- The acquire timer of a LIVE tuner with a host tune expires with no lock: the lane goes to IDLE, the tuner to FREE, and
TUNE_FAILED is latched (R94, R95), when no request waits and no service is ranked. That the clock then reads the timer's
deadline, or what it read where that is later, is the model's choice (notes/assumptions/2). -/
def Obligations.AcquireTimerFailsHostTune : Prop :=
  ∀ (s : State) (n x : Nat) (m : Timer), n < 16 → s.Quiet → s.Canonical → s.role n = .live →
    (s.tuner n).state = .acquiring → (s.tuner n).acquire = some m → (s.tuner n).work = some .host →
    (s.tuner n).mux = some x → (s.tuner n).committed = none → s.qmLane n = {} → s.hostQueue = [] → s.ranks = [] →
    ∃ t, exec (.acquireTimerExpiry n) s = .next t ∧
      t.tuner n = { s.tuner n with state := .free, mux := none, work := none, acquire := none, relock := none } ∧
      t.framer n = {} ∧ t.tracker n = {} ∧ t.latched .tuner n .tuneFailed = true ∧
      (∀ k, t.qmLane k = s.qmLane k) ∧
      (∀ k, k ≠ n → t.tuner k = s.tuner k ∧ t.framer k = s.framer k ∧ t.tracker k = s.tracker k) ∧
      t = { s with now := max s.now (m.start + m.limit), framers := t.framers, trackers := t.trackers,
                   qmLanes := t.qmLanes, tuners := t.tuners, inds := t.inds, mgmt := t.mgmt }

/-- The relock timer of a hosting tuner expires: RETUNED is latched, the lane goes to IDLE, and the tuner tunes the same
multiplex again with work RETUNE, its TUNE run starting at once on an IDLE bus; stated with nothing waiting on any bus and no
report pending (R77, R92, R97). That the clock then reads the timer's deadline, or what it read where that is later, is the
model's choice (notes/assumptions/2). -/
def Obligations.RelockTimerRetunes : Prop :=
  ∀ (s : State) (n x : Nat) (m : Timer), n < 16 → s.Quiet → s.Canonical → (s.tuner n).state = .observing →
    (s.tuner n).work = some .host → (s.tuner n).mux = some x → (s.tuner n).relock = some m →
    (s.qmLane n).pending = none → (s.qmLane n).outstanding = false → (s.tunerRec n).bus < 4 → s.QuietBuses →
    (∀ k, k < 4 → (s.bus k).runs n .tune = false) → s.busReady (s.tunerRec n).bus →
    s.enterable (s.newRun n .tune x) (s.mux x).head →
    ∃ t, exec (.relockTimerExpiry n) s = .next t ∧
      t.tuner n = { s.tuner n with state := .tuning, mux := some x, work := some .retune, acquire := none, relock := none } ∧
      t.framer n = {} ∧ t.tracker n = {} ∧ t.qmLane n = { awaited := (s.qmLane n).awaited } ∧
      t.latched .tuner n .retuned = true ∧
      t.bus (s.tunerRec n).bus = { s.bus (s.tunerRec n).bus with
        state := .running,
        run := some ((s.reach (m.start + m.limit)).entered
          { s.newRun n .tune x with clock := s.settings.busClock } (s.mux x).head) } ∧
      (∀ k, k ≠ (s.tunerRec n).bus → t.bus k = s.bus k) ∧
      (∀ k, k ≠ n → t.tuner k = s.tuner k ∧ t.framer k = s.framer k ∧ t.tracker k = s.tracker k ∧
        t.qmLane k = s.qmLane k) ∧
      t = { s with now := max s.now (m.start + m.limit), framers := t.framers, trackers := t.trackers,
                   qmLanes := t.qmLanes, buses := t.buses, tuners := t.tuners, inds := t.inds, mgmt := t.mgmt }

/-- A WRITE step whose transfer is acknowledged, a POLL step whose read satisfies it, and a WAIT step whose time has elapsed
go on to the next step of the run (R77, R79, R81, R82). A WRITE step puts on the lines the bytes already there and then those
the pool holds; that an event may say how many bytes have gone so far, which fixes them, is the model's choice
(notes/assumptions/15, 16), and so is the clock at the end of a WAIT step (notes/assumptions/2). -/
def Obligations.StepsMoveOn : Prop :=
  ∀ (s : State) (b i : Nat) (r : Run) (c : Current), b < 4 → s.Quiet → r.withdrawn = false → c.step.next = some i →
    s.enterable r i →
    (s.executing b .write .transfer = some (r, c) →
      (∀ n, c.bytes.length + n ≤ c.step.count → ∃ t, exec (.writeStep b (.bytesPut n)) s = .next t ∧
        t.bus b = { s.bus b with run := some { r with current := some { c with
          bytes := c.bytes ++ s.poolBytes (c.step.byteOff + c.bytes.length) n } } } ∧
        (∀ k, k ≠ b → t.bus k = s.bus k) ∧ t = { s with buses := t.buses }) ∧
      ∃ t, exec (.writeStep b .allAcked) s = .next t ∧
        t.bus b = { s.bus b with
          run := some (s.entered r i),
          lastTransfer := some { addr := (r.base + c.step.addrOff) % 128, read := false,
                                 bytes := c.bytes ++ s.poolBytes (c.step.byteOff + c.bytes.length)
                                   (c.step.count - c.bytes.length) } } ∧
        (∀ k, k ≠ b → t.bus k = s.bus k) ∧ t = { s with buses := t.buses }) ∧
    (∀ x, s.executing b .poll .transfer = some (r, c) → x &&& c.step.mask = c.step.want →
      ∃ t, exec (.pollRead b (some x)) s = .next t ∧
        t.bus b = { s.bus b with
          run := some (s.entered r i),
          lastTransfer := some { addr := (r.base + c.step.addrOff) % 128, read := true, bytes := [x] } } ∧
        (∀ k, k ≠ b → t.bus k = s.bus k) ∧ t = { s with buses := t.buses }) ∧
    (s.executing b .wait .pause = some (r, c) → ∃ t, exec (.waitStepExpiry b) s = .next t ∧
      t.bus b = { s.bus b with run := some ((s.reach (c.since + c.step.time)).entered r i) } ∧
      (∀ k, k ≠ b → t.bus k = s.bus k) ∧ t = { s with now := max s.now (c.since + c.step.time), buses := t.buses })

/-- A READ step stores its bytes in the pool as they are received, at ascending offsets after those it already has; when all
have come it keeps the last of them as the margin when it captures it, and goes on to the next step (R77, R80). That an event
may bring some of the bytes before the end is the model's choice (notes/assumptions/15, 16). -/
def Obligations.ReadStepStoresBytes : Prop :=
  ∀ (s : State) (b i : Nat) (r : Run) (c : Current) (bs : List Byte), b < 4 → s.Quiet → s.Canonical →
    s.executing b .read .transfer = some (r, c) → 1 ≤ c.step.count → r.withdrawn = false →
    c.step.next = some i → s.enterable r i →
    (c.bytes.length + bs.length ≤ c.step.count → ∃ t, exec (.readStep b (.bytesIn bs)) s = .next t ∧
      (∀ k, k < bs.length → t.poolByte (c.step.byteOff + c.bytes.length + k) = bs.getD k 0) ∧
      (∀ j, j < c.step.byteOff + c.bytes.length ∨ c.step.byteOff + c.bytes.length + bs.length ≤ j →
        t.poolByte j = s.poolByte j) ∧
      t.bus b = { s.bus b with run := some { r with current := some { c with bytes := c.bytes ++ bs } } } ∧
      (∀ k, k ≠ b → t.bus k = s.bus k) ∧
      t = { s with buses := t.buses, tables := { s.tables with pool := t.tables.pool } }) ∧
    (c.bytes.length + bs.length = c.step.count → ∃ t, exec (.readStep b (.received bs)) s = .next t ∧
      (∀ k, k < bs.length → t.poolByte (c.step.byteOff + c.bytes.length + k) = bs.getD k 0) ∧
      (∀ j, j < c.step.byteOff + c.bytes.length ∨ c.step.byteOff + c.bytes.length + bs.length ≤ j →
        t.poolByte j = s.poolByte j) ∧
      t.bus b = { s.bus b with
        run := some (s.entered (Run.withMargin r
          (if c.step.capture = .margin then some ((c.bytes ++ bs).getD (c.step.count - 1) 0).toNat else r.margin)) i),
        lastTransfer := some { addr := (r.base + c.step.addrOff) % 128, read := true, bytes := c.bytes ++ bs } } ∧
      (∀ k, k ≠ b → t.bus k = s.bus k) ∧
      t = { s with buses := t.buses, tables := { s.tables with pool := t.tables.pool } })

/-- A POLL step whose read does not satisfy it pauses; one poll interval after that read began the next read begins while the
time value has not yet run out, and none begins after; a time value that runs out during a read lets that read end, and if it
does not satisfy the step, the run ends POLL_TIMEOUT (R81). The clock at both expiries is the model's choice
(notes/assumptions/2), and so is the read that begins late because the read before it outlasted the interval (39). -/
def Obligations.PollPausesAndRepeats : Prop :=
  ∀ (s : State) (b : Nat) (r : Run) (c : Current), b < 4 → s.Quiet →
    (∀ x, s.executing b .poll .transfer = some (r, c) → x &&& c.step.mask ≠ c.step.want →
      (c.timedOut = false → ∃ t, exec (.pollRead b (some x)) s = .next t ∧
        t.bus b = { s.bus b with
          run := some { r with current := some { c with phase := .pause } },
          lastTransfer := some { addr := (r.base + c.step.addrOff) % 128, read := true, bytes := [x] } } ∧
        (∀ k, k ≠ b → t.bus k = s.bus k) ∧ t = { s with buses := t.buses }) ∧
      (c.timedOut = true → exec (.pollRead b (some x)) s =
        .next ((s.noteTransfer b { addr := (r.base + c.step.addrOff) % 128, read := true, bytes := [x] }).act
          (fun u => u.endRun b .pollTimeout)))) ∧
    (s.executing b .poll .pause = some (r, c) →
      (max s.now (c.readSince + c.interval) < c.since + c.step.time → ∃ t, exec (.pollIntervalExpiry b) s = .next t ∧
        t.bus b = { s.bus b with
          run := some { r with
            current := some { c with phase := .transfer, readSince := max s.now (c.readSince + c.interval) } } } ∧
        (∀ k, k ≠ b → t.bus k = s.bus k) ∧ t = { s with now := max s.now (c.readSince + c.interval), buses := t.buses }) ∧
      (c.since + c.step.time ≤ max s.now (c.readSince + c.interval) → exec (.pollIntervalExpiry b) s = .next s)) ∧
    (s.executing b .poll .transfer = some (r, c) → ∃ t, exec (.pollTimeValueExpiry b) s = .next t ∧
      t.bus b = { s.bus b with run := some { r with current := some { c with timedOut := true } } } ∧
      (∀ k, k ≠ b → t.bus k = s.bus k) ∧ t = { s with now := max s.now (c.since + c.step.time), buses := t.buses })

/-- What ends a run, stated on a MEASURE run whose requester has withdrawn it and only waits for its end (ABORTED), with
nothing waiting on any bus: a stall puts the bus into RECOVERING; an unacknowledged WRITE, a time value run out between two
reads, a step past the 64th, and a next step that is no step, leave the bus in IDLE; a stall and a missing acknowledge latch
BUS_FAULT on the tuner, the others do not; and the wait for the run is over (R77, R79, R81, R83, R86, R87). The clock at the
expiry is the model's choice (notes/assumptions/2). RunOutcomesReachRequesters says what a requester does that still waits. -/
def Obligations.FailedStepsEndTheRun : Prop :=
  ∀ (s : State) (b : Nat) (r : Run) (c : Current), b < 4 → s.Quiet → s.Canonical → r.purpose = .measure →
    (s.qmLane r.tuner).awaited = true → s.QuietBuses →
    (s.executing b .write .transfer = some (r, c) → ∃ t, exec (.busStall b []) s = .next t ∧
      t.bus b = { s.bus b with state := .recovering, run := none } ∧ t.latched .tuner r.tuner .busFault = true ∧
      (t.qmLane r.tuner).awaited = false ∧ (∀ k, k ≠ b → t.bus k = s.bus k) ∧
      t = { s with buses := t.buses, qmLanes := t.qmLanes, inds := t.inds, mgmt := t.mgmt }) ∧
    (s.executing b .write .transfer = some (r, c) → c.bytes = [] → ∃ t, exec (.writeStep b .noAddress) s = .next t ∧
      t.bus b = { s.bus b with
        state := .idle, run := none,
        lastTransfer := some { addr := (r.base + c.step.addrOff) % 128, read := false, bytes := [] } } ∧
      t.latched .tuner r.tuner .busFault = true ∧ (t.qmLane r.tuner).awaited = false ∧ (∀ k, k ≠ b → t.bus k = s.bus k) ∧
      t = { s with buses := t.buses, qmLanes := t.qmLanes, inds := t.inds, mgmt := t.mgmt }) ∧
    (s.executing b .poll .pause = some (r, c) → ∃ t, exec (.pollTimeValueExpiry b) s = .next t ∧
      t.bus b = { s.bus b with state := .idle, run := none } ∧ (t.qmLane r.tuner).awaited = false ∧
      (∀ k, k ≠ b → t.bus k = s.bus k) ∧
      t = { s with now := max s.now (c.since + c.step.time), buses := t.buses, qmLanes := t.qmLanes }) ∧
    (∀ i, s.executing b .wait .pause = some (r, c) → c.step.next = some i →
      64 ≤ r.steps ∨ 511 < i ∨ (s.step i).kind = .none → ∃ t, exec (.waitStepExpiry b) s = .next t ∧
      t.bus b = { s.bus b with state := .idle, run := none } ∧ (t.qmLane r.tuner).awaited = false ∧
      (∀ k, k ≠ b → t.bus k = s.bus k) ∧
      t = { s with now := max s.now (c.since + c.step.time), buses := t.buses, qmLanes := t.qmLanes })

/-- What the end of a run does to a requester that waits for it, with nothing else waiting on any bus. TUNE DONE: the tuner
ACQUIRES, its acquire timer running, its lane in HUNT with the track list built. TUNE failed, for a host request: TUNE_FAILED
and FREE. MEASURE DONE with a margin: the pending report completes FRESH and the margin is kept; MEASURE failed: it completes
under the hold rule, stated for a report without lines of a tuner that is not SCAN. RELEASE DONE, the last item of the release:
OFF for an OFF tuner, FREE for a LIVE one with no request waiting (R65, R76, R80, R87, R93, R94, R95). -/
def Obligations.RunOutcomesReachRequesters : Prop :=
  ∀ (s : State) (b n : Nat) (r : Run) (c : Current), b < 4 → s.Quiet → s.Canonical → s.QuietBuses → r.tuner = n →
    r.withdrawn = false → c.step.next = none →
    (s.executing b .write .transfer = some (r, c) → r.purpose = .tune → (s.tuner n).state = .tuning →
      (∃ t, exec (.writeStep b .allAcked) s = .next t ∧ (t.bus b).state = .idle ∧ (t.bus b).run = none ∧
        t.tuner n = { s.tuner n with
          state := .acquiring, acquire := some { start := s.now, limit := (s.tunerRec n).acquireLimit } } ∧
        t.framer n = Framer.hunting ∧ t.tracker n = { entries := s.buildEntries ((s.tuner n).mux.getD 0) } ∧
        (∀ k, k ≠ n → t.tuner k = s.tuner k ∧ t.framer k = s.framer k ∧ t.tracker k = s.tracker k) ∧
        (∀ k, k ≠ b → t.bus k = s.bus k) ∧
        t = { s with buses := t.buses, tuners := t.tuners, framers := t.framers, trackers := t.trackers, inds := t.inds,
                     mgmt := t.mgmt }) ∧
      ((s.tuner n).work = some .host → s.role n = .live → (s.tuner n).committed = none → s.qmLane n = {} →
        s.hostQueue = [] → s.ranks = [] → c.bytes = [] →
        ∃ t, exec (.writeStep b .noAddress) s = .next t ∧ (t.bus b).state = .idle ∧ (t.bus b).run = none ∧
          t.tuner n = { s.tuner n with state := .free, mux := none, work := none, acquire := none, relock := none } ∧
          t.latched .tuner n .tuneFailed = true ∧ t.latched .tuner n .busFault = true ∧ t.framer n = {} ∧
          t.tracker n = {} ∧
          (∀ k, k ≠ n → t.tuner k = s.tuner k ∧ t.framer k = s.framer k ∧ t.tracker k = s.tracker k) ∧
          t = { s with buses := t.buses, tuners := t.tuners, framers := t.framers, trackers := t.trackers,
                       qmLanes := t.qmLanes, inds := t.inds, mgmt := t.mgmt })) ∧
    (∀ (d : Report) (x : Byte), r.purpose = .measure → (s.qmLane n).awaited = false → (s.qmLane n).pending = some d →
      d.lines = [] → s.role d.lane ≠ .scan →
      (s.executing b .read .transfer = some (r, c) → c.step.count = 1 → c.bytes = [] → c.step.capture = .margin →
        ∃ t, exec (.readStep b (.received [x])) s = .next t ∧ (t.bus b).state = .idle ∧ (t.bus b).run = none ∧
          t.qmLane n = { s.qmLane n with pending := none, outstanding := false, lastFresh := some x.toNat, hold := 0 } ∧
          t.poolByte c.step.byteOff = x ∧ (∀ k, k ≠ n → t.qmLane k = s.qmLane k) ∧
          t = { s with buses := t.buses, qmLanes := t.qmLanes, tables := { s.tables with pool := t.tables.pool } }) ∧
      (s.executing b .write .transfer = some (r, c) → c.bytes = [] →
        ∃ t, exec (.writeStep b .noAddress) s = .next t ∧
          t.qmLane n = { s.qmLane n with pending := none, outstanding := false, hold := min 255 ((s.qmLane n).hold + 1) } ∧
          t.latched .tuner n .busFault = true ∧ (∀ k, k ≠ n → t.qmLane k = s.qmLane k) ∧
          t = { s with buses := t.buses, qmLanes := t.qmLanes, inds := t.inds, mgmt := t.mgmt })) ∧
    (s.executing b .write .transfer = some (r, c) → r.purpose = .release → (s.tuner n).state = .releasing →
      (s.tuner n).windRelease = true → (s.tuner n).windTune = false → (s.tuner n).committed = none →
      s.role n = .off ∨ (s.role n = .live ∧ s.hostQueue = []) →
      ∃ t, exec (.writeStep b .allAcked) s = .next t ∧ (t.bus b).state = .idle ∧ (t.bus b).run = none ∧
        t.tuner n = { s.tuner n with windRelease := false, state := if s.role n = .off then .off else .free } ∧
        (∀ k, k ≠ n → t.tuner k = s.tuner k) ∧ (∀ k, k ≠ b → t.bus k = s.bus k) ∧
        t = { s with buses := t.buses, tuners := t.tuners })

/-- A recovering bus returns to IDLE at the end of its recovery sequence, and likewise when the sequence is abandoned; with
nothing queued, nothing else changes (R83). A run joins its bus's queue by its class: a TUNE or RELEASE run behind every run of
its class and ahead of every MEASURE run, a MEASURE run at the tail (R84). -/
def Obligations.BusesRecoverAndQueue : Prop :=
  (∀ (s : State) (b : Nat), b < 4 → s.Quiet → s.Canonical → (s.bus b).state = .recovering → s.QuietBuses →
    ∀ i, i = .recoveryEnd b ∨ i = .recoveryAbandon b → ∃ t, exec i s = .next t ∧
      t.bus b = { s.bus b with state := .idle, finishing := false, tail := none } ∧ (∀ k, k ≠ b → t.bus k = s.bus k) ∧
      t = { s with buses := t.buses }) ∧
  ∀ (r : Run) (q1 q2 : List Run), (∀ x ∈ q1, x.purpose ≠ .measure) → (∀ x ∈ q2, x.purpose = .measure) →
    (r.purpose ≠ .measure → joinQueue r (q1 ++ q2) = q1 ++ [r] ++ q2) ∧
    (r.purpose = .measure → joinQueue r (q1 ++ q2) = q1 ++ q2 ++ [r])

/-- The answers to a filing, in their order, and their effects on the request queue (R99, Table 45). -/
def Obligations.FilingAnswers : Prop :=
  ∀ (s : State) (x : Nat),
    (s.hosted x = true → s.fileAnswer x = .hosted ∧ s.fileHost x = s) ∧
    (s.hosted x = false → s.hostTuning x = true → s.fileAnswer x = .inProgress ∧ s.fileHost x = s) ∧
    (s.hosted x = false → s.hostTuning x = false →
      (x ∈ s.hostQueue.map HostReq.mux → s.fileAnswer x = .queued ∧ s.fileHost x = s) ∧
      (x ∉ s.hostQueue.map HostReq.mux →
        (s.roleReaches .live x = false → s.fileAnswer x = .unreachable ∧ (s.fileHost x).hostQueue = s.hostQueue ∧
          (s.fileHost x).latched .multiplex x .unreachable = true) ∧
        (s.roleReaches .live x = true → 16 ≤ s.hostQueue.length → s.fileAnswer x = .full ∧ s.fileHost x = s) ∧
        (s.roleReaches .live x = true → s.hostQueue.length < 16 → s.fileAnswer x = .queued ∧
          (s.fileHost x).hostQueue = s.hostQueue ++ [{ mux := x }] ∧ (s.fileHost x).notices = s.notices ++ [.serveTry])))

/-- How a request is served. Judged by Table 46: UNREACHABLE when no LIVE tuner reaches it; a swap when a SCAN tuner visits it
in OBSERVING and a LIVE tuner can serve; left to wait while occupied; tuned by a LIVE tuner that reaches it; left to wait. The
tuner that serves is the lowest FREE one, else the lowest idle-hosted one. A try serves the first request, not committed, that
does not wait. A swap with a FREE tuner ends the visit PROMOTED, exchanges the roles, and the visiting tuner hosts. A tune by a
FREE tuner takes the request off the queue; by an idle-hosted one with a release recipe it is committed until the release ends;
without one it follows the release at once (R101, R102, R103, R120). -/
def Obligations.RequestsServed : Prop :=
  (∀ (s : State) (x : Nat),
    (s.roleReaches .live x = false → s.judgeRequest x = .unreachable) ∧
    (s.roleReaches .live x = true →
      (∀ a l, s.visitorOf x = some a → s.serverAmong (fun _ => true) = some l → s.judgeRequest x = .swap a l) ∧
      (s.visitorOf x = none ∨ s.serverAmong (fun _ => true) = none →
        (s.occupied x = true → s.judgeRequest x = .waits) ∧
        (s.occupied x = false →
          (∀ l, s.serverAmong (fun t => s.reaches t (s.mux x).feed) = some l → s.judgeRequest x = .tune l) ∧
          (s.serverAmong (fun t => s.reaches t (s.mux x).feed) = none → s.judgeRequest x = .waits))))) ∧
  (∀ (s : State) (ok : Nat → Bool) (l : Nat), s.serverAmong ok = some l → l < 16 ∧ ok l = true ∧
    ((s.role l = .live ∧ (s.tuner l).state = .free ∧
        ∀ j, j < l → ok j = true → s.role j = .live → (s.tuner j).state ≠ .free) ∨
      (s.idleHosted l = true ∧ (∀ j, j < 16 → ok j = true → s.role j = .live → (s.tuner j).state ≠ .free) ∧
        ∀ j, j < l → ok j = true → s.idleHosted j = false))) ∧
  (∀ (s : State) (q : List HostReq),
    (∀ x a, s.firstServed q = some (x, a) → a ≠ .waits ∧ s.judgeRequest x = a ∧ ∃ q1 r q2, q = q1 ++ r :: q2 ∧ r.mux = x ∧
      r.committed = false ∧ ∀ e ∈ q1, e.committed = true ∨ s.judgeRequest e.mux = .waits) ∧
    (s.firstServed q = none ↔ ∀ e ∈ q, e.committed = true ∨ s.judgeRequest e.mux = .waits)) ∧
  ∀ (s t : State) (x l : Nat), s.Canonical →
    (∀ a v, a ≠ l → s.visit a = some v → (s.tuner l).state = .free → t = s.swap x a l →
      t.role a = .live ∧ t.role l = .scan ∧ (t.tuner a).work = some .host ∧ (t.tuner a).mux = (s.tuner a).mux ∧
        (t.tuner a).state = (s.tuner a).state ∧ t.visit a = none ∧ t.lastOutcome a = some .promoted ∧
        t.tuner l = { s.tuner l with committed := none } ∧
        t.hostQueue = s.hostQueue.filter (fun r => !decide (r.mux = x)) ∧
        t.notices = s.notices ++ [.visitEnd a v.mux .promoted, .pickTry, .hosted x, .scanFree l, .roleChanged]) ∧
    (t = s.serveByTune x l →
      ((s.tuner l).state = .free → (t.tuner l).state = .tuning ∧ (t.tuner l).mux = some x ∧
        (t.tuner l).work = some .host ∧ t.hostQueue = s.hostQueue.filter (fun r => !decide (r.mux = x))) ∧
      ((s.tuner l).state = .observing → (s.tunerRec l).release ≠ none → (t.tuner l).state = .releasing ∧
        (t.tuner l).mux = none ∧ (t.tuner l).committed = some x ∧
        t.hostQueue = s.hostQueue.map (fun r => if r.mux = x then { r with committed := true } else r)) ∧
      ((s.tuner l).state = .observing → (s.tunerRec l).release = none → s.queuedHost x = true → s.occupied x = false →
        (t.tuner l).state = .tuning ∧ (t.tuner l).mux = some x ∧ (t.tuner l).work = some .host ∧
          t.hostQueue = s.hostQueue.filter (fun r => !decide (r.mux = x))))

/-! ## Scanning, scores, ranking -/

/-- Picks. A ring is searched from its pointer in ascending order, wrapping from 127 to 0, and its first eligible member is its
pick. A scan tuner picks the first eligible multiplex of the urgent list; else of ring A while the run of A picks is below the
A share; else of ring B; else of ring A. A taken pick begins the tune and the visit with the multiplex's dwell, and moves the
list, pointer or count it came from and no other (R92, R108, R112, R114, R115). -/
def Obligations.PicksChooseAndAdvance : Prop :=
  (∀ (s : State) (g : Ring) (ptr : Nat) (ok : Nat → Bool), ptr < 128 →
    (∀ x, s.ringPick g ptr ok = some x → x < 128 ∧ (s.mux x).ring = g ∧ ok x = true ∧
      ∀ y, y < 128 → (s.mux y).ring = g → ok y = true → (x + 128 - ptr) % 128 ≤ (y + 128 - ptr) % 128) ∧
    (s.ringPick g ptr ok = none ↔ ∀ y, y < 128 → (s.mux y).ring = g → ok y = false)) ∧
  (∀ (s : State) (n : Nat) (ok : Nat → Bool), (∀ x, ok x = s.eligible n x) →
    (∀ x, s.sched.urgent.find? ok = some x → s.pick n [] = some (x, .urgent)) ∧
    (s.sched.urgent.find? ok = none →
      (∀ x, s.sched.aRun < s.settings.aShare → s.ringPick .a s.sched.ptrA ok = some x → s.pick n [] = some (x, .ringA)) ∧
      (s.settings.aShare ≤ s.sched.aRun ∨ s.ringPick .a s.sched.ptrA ok = none →
        (∀ x, s.ringPick .b s.sched.ptrB ok = some x → s.pick n [] = some (x, .ringB)) ∧
        (s.ringPick .b s.sched.ptrB ok = none →
          s.pick n [] = (s.ringPick .a s.sched.ptrA ok).map (fun x => (x, .ringA)))))) ∧
  ∀ (s t : State) (n x : Nat) (p : PickSource), s.Canonical → t = s.takePick n x p →
    t.visit n = some { mux := x, source := p, phase := .tuning, dwell := (s.mux x).dwell } ∧ t.lastOutcome n = none ∧
    (t.tuner n).state = .tuning ∧ (t.tuner n).mux = some x ∧ (t.tuner n).work = some .visit ∧
    (∀ m, m ≠ n → t.visit m = s.visit m ∧ t.tuner m = s.tuner m) ∧
    (p = .urgent → t.sched.urgent = s.sched.urgent.filter (fun y => !decide (y = x)) ∧ t.sched.ptrA = s.sched.ptrA ∧
      t.sched.ptrB = s.sched.ptrB ∧ t.sched.aRun = s.sched.aRun) ∧
    (p = .ringA → t.sched.urgent = s.sched.urgent ∧ t.sched.ptrA = (x + 1) % 128 ∧ t.sched.ptrB = s.sched.ptrB ∧
      t.sched.aRun = min 255 (s.sched.aRun + 1)) ∧
    (p = .ringB → t.sched.urgent = s.sched.urgent ∧ t.sched.ptrA = s.sched.ptrA ∧ t.sched.ptrB = (x + 1) % 128 ∧
      t.sched.aRun = 0)

/-- How visits go and end. A report of the visit's tuner and multiplex takes one off the dwell; any other changes nothing. The
last one ends the visit COMPLETE: the census closes into the multiplex's record, the tuner is released, and the window that
began is discarded; so when an older report completed by a window's expiry is the last, the window that expired is not
reported. A failed tune ends the visit NO_LOCK, or RECIPE_FAIL for any other cause, with a zero-window notice for the copies a
track list would have observed. At a visit's end the multiplex leaves the sweep sets, and a set left empty raises
SWEEP_COMPLETE (R51, R60, R66, R117, R118, R119, R121, R147). -/
def Obligations.VisitsCountAndEnd : Prop :=
  ∀ (s t : State), s.Canonical →
    (∀ r : Report, (∀ v, s.visit r.lane = some v → v.mux ≠ r.mux) → s.schReport r = s) ∧
    (∀ (r : Report) (v : Visit), s.visit r.lane = some v → v.mux = r.mux →
      (2 ≤ v.dwell → s.schReport r = s.putVisit r.lane (some { v with dwell := v.dwell - 1 })) ∧
      (v.dwell ≤ 1 → t = s.schReport r → (s.tuner r.lane).state = .observing → s.role r.lane = .scan →
        t.visit r.lane = none ∧ t.lastOutcome r.lane = some .complete ∧ (t.tuner r.lane).mux = none ∧
          t.framer r.lane = {} ∧ (t.qmLane r.lane).window = none ∧ (t.qmLane r.lane).pending = none ∧
          t.censusRec v.mux = some { pairs := closeSet s.settings.censusMin (s.tracker r.lane).census,
                                     overflow := (s.tracker r.lane).overflow } ∧
          .visitEnd r.lane v.mux .complete ∈ t.notices)) ∧
    (∀ (n x : Nat) (f : FailCause) (v : Visit), s.visit n = some v → t = s.visitFails n x f →
      t.visit n = none ∧ t.lastOutcome n = some (if f = .noLock then .noLock else .recipeFail) ∧ t.tuners = s.tuners ∧
        t.notices = s.notices ++ [.zeroWindow x (s.observableCopies x),
          .visitEnd n v.mux (if f = .noLock then .noLock else .recipeFail), .pickTry]) ∧
    (∀ (n x v : Nat) (o : VisitOutcome), t = s.takeNotice (.visitEnd n x o) →
      t.rank v = { s.rank v with sweep := (s.rank v).sweep.filter (fun y => !decide (y = x)) } ∧
        (x ∈ (s.rank v).sweep → (∀ y ∈ (s.rank v).sweep, y = x) → t.latched .service v .sweepComplete = true)) ∧
    ∀ (n : Nat) (w : Nat × Nat) (r : Report) (v : Visit), n < 16 → s.Quiet → (s.qmLane n).window = some w →
      (s.qmLane n).pending = some r → r.lane = n → s.role n = .scan → (s.tuner n).state = .observing →
      s.visit n = some v → v.mux = r.mux → v.dwell ≤ 1 →
      ∃ u, exec (.windowExpiry n) s = .next u ∧ (u.qmLane n).window = none ∧ (u.qmLane n).pending = none ∧
        u.framer n = {}

/-- The reception score after an observation: the first observation sets it to the window score, later ones move it by the
difference over 2 to the shift, rounded away from zero, so it never passes the window score, keeps 0 to 1000, and reaches the
window score exactly in finitely many observations; the window score is kept as the copy's last, and every window score of a
report whose locked per-mille is at most 1000 lies in 0 to 1000 (R126). -/
def Obligations.SmoothingMovesTowardScore : Prop :=
  (∀ i : ScoreInput, i.l ≤ 1000 → i.score ≤ 1000) ∧ ∀ (n w : Nat), n ≤ 4 → w ≤ 1000 →
    (∀ (l : Live) (now : Nat), (l.observe n now w).q = some (smooth n l.q w) ∧ (l.observe n now w).w = some w) ∧
    smooth n none w = w ∧
    ∀ q, q ≤ 1000 →
      (w = q → smooth n (some q) w = q) ∧ (q < w → smooth n (some q) w = q + ((w - q) + 2 ^ n - 1) / 2 ^ n) ∧
      (w < q → smooth n (some q) w = q - ((q - w) + 2 ^ n - 1) / 2 ^ n) ∧
      (q < w → q < smooth n (some q) w ∧ smooth n (some q) w ≤ w) ∧
      (w < q → w ≤ smooth n (some q) w ∧ smooth n (some q) w < q) ∧ smooth n (some q) w ≤ 1000 ∧
      ∃ k, Nat.rec q (fun _ x => smooth n (some x) w) k = w

/-- The window score by its stages and the two vetoes (R124, R125). -/
def Obligations.WindowScoreStages : Prop :=
  ∀ i : ScoreInput,
    (i.p = 0 → i.score = 0) ∧ (i.mismatch = true → i.score = 0) ∧
    ((∃ j, i.required.getD j false = true ∧ j < i.counts.length ∧ i.counts.getD j 0 = 0) → i.score = 0) ∧
    (0 < i.p → i.mismatch = false → (∀ j, j < i.counts.length → i.required.getD j false = true → i.counts.getD j 0 ≠ 0) →
      i.score = 5 * min i.m 200 * i.l / 1000 * (1000 - min 1000 ((i.e * 1000 + i.p - 1) / i.p * i.g)) / 1000 -
        25 * i.breaks - (150 * i.s + 50 * i.r))

/-- The rank list of an enabled service holds each of its defined copies exactly once and nothing else, fresh before stale
before never observed, within a class by score, highest first, and between equal scores and among never-observed copies by
slot (R133). -/
def Obligations.RankListOrder : Prop :=
  ∀ (s : State) (v : Nat), (s.service v).enabled = true →
    (s.rankList v).Nodup ∧ (∀ slot, slot ∈ s.rankList v ↔ slot < 4 ∧ (s.copy (4 * v + slot)).defined = true) ∧
    (s.rankList v).Pairwise (fun a b =>
      (s.liveOf v a).cls.order < (s.liveOf v b).cls.order ∨
        ((s.liveOf v a).cls = (s.liveOf v b).cls ∧ (s.liveOf v b).q.getD 0 < (s.liveOf v a).q.getD 0) ∨
        ((s.liveOf v a).cls = (s.liveOf v b).cls ∧ (s.liveOf v a).q.getD 0 = (s.liveOf v b).q.getD 0 ∧ a < b))

/-- The decision of an evaluation of an enabled service that is not CUTTING, whose selected copy is not below its floor and
whose target has no filing to repeat. A pin moves it to the pinned copy, unless barred. A target that can still be chosen
stands. With the zero count of the selected copy at the failover count, it moves to the first other copy in rank order that can
be chosen; below it, the best unbarred copy challenges when it leads by the hysteresis and reaches the floor, its count rises
only by observations of the two, and at the debounce count the service moves to it; with nothing selected it moves to the first
copy that can be chosen. Moving to a copy that is local or hosted asks for the cut; to another, files its multiplex (R135, R136,
R137, R138). The floor in force is a reading of the model (notes/assumptions/35), and so is that a selected copy with an absent Q
is judged not degraded (notes/assumptions/12). -/
def Obligations.EvaluationDecides : Prop :=
  ∀ (s : State) (v : Nat) (g : Trigger),
    ((s.service v).enabled = false ∨ (s.rank v).cutting = true → s.evaluate v g = s) ∧
    (s.Canonical → (s.service v).enabled = true → (s.rank v).cutting = false → (s.rank v).filing ≠ some .unfiled →
      (∀ sel q, (s.rank v).selected = some sel → (s.liveOf v sel).q = some q → (s.service v).floor ≤ q) →
      (∀ p, (s.rank v).pin = some p → (s.rank v).selected ≠ some p → (s.rank v).target = none → s.barred v p = false →
        s.available (s.copyMux v p) = true → s.CutAsked (s.evaluate v g) v p (s.rank v)) ∧
      ((s.rank v).pin = none →
        (∀ x, (s.rank v).target = some x → s.choosable v x = true → s.RankOnly (s.evaluate v g) v (s.rank v)) ∧
        ((s.rank v).target = none →
          (∀ sel, (s.rank v).selected = some sel →
            ((s.service v).failCount ≤ (s.liveOf v sel).zeros →
              (∀ x, (s.rankList v).find? (fun y => !decide (y = sel) && s.choosable v y) = some x →
                s.available (s.copyMux v x) = true → s.CutAsked (s.evaluate v g) v x (s.rank v)) ∧
              ((∀ y, y ≠ sel → s.choosable v y = false) → s.RankOnly (s.evaluate v g) v (s.rank v))) ∧
            ((s.liveOf v sel).zeros < (s.service v).failCount →
              ((∀ x, (s.rankList v).find? (fun y => !s.barred v y) = some x → x = sel ∨ (s.liveOf v x).cls ≠ .fresh ∨
                  (s.liveOf v x).q.getD 0 < (s.liveOf v sel).q.getD 0 + (s.service v).hyst ∨
                  (s.liveOf v x).q.getD 0 < (s.service v).floor) →
                s.RankOnly (s.evaluate v g) v { s.rank v with challenger := none, challenges := 0 }) ∧
              (∀ x k, (s.rankList v).find? (fun y => !s.barred v y) = some x → x ≠ sel → (s.liveOf v x).cls = .fresh →
                (s.liveOf v sel).q.getD 0 + (s.service v).hyst ≤ (s.liveOf v x).q.getD 0 →
                (s.service v).floor ≤ (s.liveOf v x).q.getD 0 →
                k = (if (s.rank v).challenger = some x then
                  (if g.updated x sel then min 15 ((s.rank v).challenges + 1) else (s.rank v).challenges) else 1) →
                (k < (s.service v).debounce →
                  s.RankOnly (s.evaluate v g) v { s.rank v with challenger := some x, challenges := k }) ∧
                ((s.service v).debounce ≤ k → s.available (s.copyMux v x) = true →
                  s.CutAsked (s.evaluate v g) v x { s.rank v with challenger := none, challenges := 0 })))) ∧
          ((s.rank v).selected = none →
            ((∀ x, s.choosable v x = false) → s.RankOnly (s.evaluate v g) v (s.rank v)) ∧
            (∀ x, (s.rankList v).find? (s.choosable v) = some x →
              (s.available (s.copyMux v x) = true → s.CutAsked (s.evaluate v g) v x (s.rank v)) ∧
              (s.available (s.copyMux v x) = false →
                ((s.fileAnswer (s.copyMux v x) = .queued ∨ s.fileAnswer (s.copyMux v x) = .inProgress →
                  ((s.evaluate v g).rank v = { s.rank v with
                    target := some x, filing := some .filed, degraded := false } ∧
                    (s.evaluate v g).hostQueue = (s.fileHost (s.copyMux v x)).hostQueue ∧
                    (s.evaluate v g).cuts = s.cuts)) ∧
                (s.fileAnswer (s.copyMux v x) = .full → (s.evaluate v g).rank v =
                  { s.rank v with target := some x, filing := some .unfiled, degraded := false } ∧
                  (s.evaluate v g).hostQueue = s.hostQueue ∧ (s.evaluate v g).cuts = s.cuts))))))))

/-- What the RE does with the TPM's and the OA's answers, and with a loss. HOSTED: every service that awaits the multiplex asks
for its cut, and the multiplex leaves the sweep sets. HOST_FAILED: each such service bars its target for the host retry hold
and observes it as zero, and no longer targets it. UNHOSTED: every service whose selected copy lies on the multiplex loses it,
with UNSERVED, and no other does. Cut done: the new copy is selected, with SWITCHED, when it is still local or hosted; otherwise
nothing is, with UNSERVED. Cut cancelled: the selected copy stands. A loss alert moves each service it concerns to the copy it
finds (R139, R140, R141, R142, R143). -/
def Obligations.AnswersMoveServices : Prop :=
  ∀ s t : State, s.Canonical →
    (∀ x v, t = s.reHosted x →
      (∀ slot, s.awaits x v = true → (s.rank v).target = some slot →
        t.rank v = { s.rank v with
          cutting := true, filing := none, sweep := (s.rank v).sweep.filter (fun y => !decide (y = x)) } ∧
        t.cut v = some { old := (s.rank v).selected, new := slot, limit := s.settings.cutLimit, start := s.now,
                         down := s.sourceDown v (s.rank v).selected }) ∧
      (s.awaits x v = false → t.cut v = s.cut v ∧
        t.rank v = { s.rank v with sweep := (s.rank v).sweep.filter (fun y => !decide (y = x)) })) ∧
    (∀ x v slot, t = s.reHostFailed x → s.awaits x v = true → (s.rank v).target = some slot →
      0 < s.settings.hostRetry → (∀ u y, (s.rank u).target = some y ∨ (s.rank u).pin = some y → y < 4) →
      (t.rank v).target ≠ some slot ∧
      t.liveOf v slot = { s.liveOf v slot with
        q := some (smooth s.settings.shift (s.liveOf v slot).q 0), w := some 0,
        zeros := min 255 ((s.liveOf v slot).zeros + 1), observedAt := some s.clock.secs, stale := false,
        barredUntil := some (s.clock.secs + s.settings.hostRetry) }) ∧
    (∀ x v, t = s.reUnhosted x →
      (s.selectedOn x v = true → (t.rank v).selected = none ∧ t.latched .service v .unserved = true) ∧
      (s.selectedOn x v = false → (t.rank v).selected = (s.rank v).selected)) ∧
    (∀ v slot, t = s.reCutDone v slot →
      ((s.service v).enabled = false ∨ (s.rank v).cutting = false → t = s) ∧
      ((s.service v).enabled = true → (s.rank v).cutting = true →
        (s.available (s.copyMux v slot) = true →
          (t.rank v).selected = some slot ∧ t.latched .service v .switched = true) ∧
        (s.available (s.copyMux v slot) = false →
          (t.rank v).selected = none ∧ t.latched .service v .unserved = true))) ∧
    (∀ v, t = s.reCutCancelled v → (t.rank v).selected = (s.rank v).selected) ∧
    (∀ n v slot, t = s.lossAlert n → s.alerted n v = true → s.alertCopy v = some slot →
      (t.rank v).target = some slot ∧ (t.rank v).cutting = true ∧ (t.rank v).selected = (s.rank v).selected ∧
      t.cut v = some { old := (s.rank v).selected, new := slot, limit := s.settings.cutLimit, start := s.now,
                       down := s.sourceDown v (s.rank v).selected })

/-! ## Outputs -/

/-- The offers of a service, decided by the first row of Table 70 that applies (R152). The cutting packet of a new copy makes that
copy the emitting one, removes the record, is itself admitted, and hands the cut done over; a cut that is neither clean nor made
with its old source down raises CUT_FORCED besides, which is then latched (R157; where the raise stands among the steps is the
model's choice, notes/assumptions/41). -/
def Obligations.OffersDecided : Prop :=
  ∀ (s : State) (p : Packet) (v slot comp : Nat),
    ((s.service v).enabled = false → s.offer p v slot comp = s) ∧
    ((s.service v).enabled = true →
      (∀ c, s.cut v = some c → c.new = slot → cleanCut (s.service v) comp p = false → c.down = false → c.forced = false →
        s.offer p v slot comp = s) ∧
      (∀ c, s.cut v = some c → c.new = slot → (cleanCut (s.service v) comp p = true ∨ c.down = true ∨ c.forced = true) →
        (s.offer p v slot comp).gates = (s.putGate v (some slot)).gates ∧
          (s.offer p v slot comp).cuts = (s.putCut v none).cuts ∧
          (s.offer p v slot comp).notices = s.notices ++ [.cutDone v slot] ∧
          ∀ t, t = (((s.putGate v (some slot)).putCut v none).admitPacket v comp p).post (.cutDone v slot) →
            (cleanCut (s.service v) comp p = true ∨ c.down = true → s.offer p v slot comp = t) ∧
            (cleanCut (s.service v) comp p = false → c.down = false →
              s.offer p v slot comp = t.raise .service v .cutForced ∧
                (s.Canonical → (s.offer p v slot comp).latched .service v .cutForced = true))) ∧
      (∀ c, s.cut v = some c → c.new ≠ slot → c.old = some slot → s.offer p v slot comp = s.admitPacket v comp p) ∧
      (∀ c, s.cut v = some c → c.new ≠ slot → c.old ≠ some slot → s.offer p v slot comp = s) ∧
      (s.cut v = none → s.gate v = some slot → s.offer p v slot comp = s.admitPacket v comp p) ∧
      (s.cut v = none → s.gate v ≠ some slot → s.offer p v slot comp = s))

/-- An admitted packet keeps its payload and flags and takes the output identifier of its component and the output's
continuity count for it, which rises first when the packet has payload; with the queue full it is dropped, the count does not
advance, and the first drop of a period latches OVERFLOW (R153, R154). -/
def Obligations.AdmissionRewritesPacket : Prop :=
  ∀ (s : State) (v comp : Nat) (p : Packet) (o ident : Nat), (s.service v).output = o →
    (s.service v).outIds.getD comp 0 = ident → ident < 8192 → p.length = 188 → (s.outputRec o).enabled = true →
    s.Canonical → (∀ i, Tab.get 0 (s.out o).counters i < 16) →
    ((s.out o).queue.length < 256 → ∃ r : Packet,
      ((s.admitPacket v comp p).out o).queue = (s.out o).queue ++ [r] ∧ r.length = 188 ∧ r.drop 4 = p.drop 4 ∧
      byteAt r 0 = byteAt p 0 ∧ Packet.flagged r = Packet.flagged p ∧ Packet.unitStart r = Packet.unitStart p ∧ Packet.payload r = Packet.payload p ∧
      Packet.ident r = ident ∧
      Packet.cc r = (if Packet.payload p then (Tab.get 0 (s.out o).counters ident + 1) % 16 else Tab.get 0 (s.out o).counters ident) ∧
      (∀ i, Tab.get 0 ((s.admitPacket v comp p).out o).counters i =
        if i = ident then Packet.cc r else Tab.get 0 (s.out o).counters i)) ∧
    (256 ≤ (s.out o).queue.length → ((s.admitPacket v comp p).out o).queue = (s.out o).queue ∧
      ((s.admitPacket v comp p).out o).counters = (s.out o).counters ∧
      ((s.admitPacket v comp p).out o).drops = min 65535 ((s.out o).drops + 1) ∧
      ((s.out o).overflowRaised = false → (s.admitPacket v comp p).latched .output o .overflow = true) ∧
      ((s.admitPacket v comp p).out o).overflowRaised = true)

/-- What an output sends. A slot of an enabled output that sends no management packet sends the head of its queue, or a null
packet when the queue is empty; the reserve count of output 0 rises while a management packet waits and is 0 otherwise. A slot
of output 0 sends the oldest management packet when the queue is empty or the reserve count stands at 31: the packet leaves the
list, takes the next continuity count of its identifier, and the reserve count becomes 0 (R150, R151, R153). At the end of an
output's 1000 ms period its drop count becomes the last period's, the current count returns to 0 and overflow raised becomes
no (R154); that the clock and the next period's start are then 1000 ms after the period's start, or the clock where that is
later, is the model's choice (notes/assumptions/2). -/
def Obligations.OutputsEmitAndCount : Prop :=
  ∀ (s : State), s.Quiet →
    (∀ o, o < 4 → (s.outputRec o).enabled = true →
      (o = 0 → s.mgmt.list ≠ [] → (s.out o).queue ≠ [] ∧ (s.out o).reserve ≠ 31) →
      exec (.emissionSlot o) s = .next (s.putOut o { s.out o with
        queue := (s.out o).queue.drop 1,
        reserve := if o = 0 then (if s.mgmt.list = [] then 0 else (s.out o).reserve + 1) else (s.out o).reserve,
        port := some (match (s.out o).queue with
          | p :: _ => .packet p
          | [] => .null) })) ∧
    (∀ (m : MgmtPacket) (rest : List MgmtPacket), (s.outputRec 0).enabled = true → s.mgmt.list = m :: rest →
      s.mgmt.queue = [] → ((s.out 0).queue = [] ∨ (s.out 0).reserve = 31) →
      exec (.emissionSlot 0) s = .next ((s.setMgmt { s.mgmt with list := rest }).putOut 0 { s.out 0 with
        reserve := 0,
        counters := Tab.set 0 (s.out 0).counters m.ident ((Tab.get 0 (s.out 0).counters m.ident + 1) % 16),
        port := some (.mgmt m ((Tab.get 0 (s.out 0).counters m.ident + 1) % 16)) })) ∧
    (∀ o, o < 4 → (s.outputRec o).enabled = false → exec (.emissionSlot o) s = .next s) ∧
    ∀ o, o < 4 →
      exec (.overflowPeriodEnd o) s = .next ((s.setNow (max s.now ((s.out o).periodStart + 1000))).putOut o { s.out o with
        lastDrops := (s.out o).drops, drops := 0, overflowRaised := false,
        periodStart := max s.now ((s.out o).periodStart + 1000) })

/-- The timer of a cut record. Its first expiry sets the forced flag and changes nothing else of the service or the outputs.
Its second removes the record and latches CUT_CANCELLED; the emitting copy and the selected copy stand, and the service leaves
CUTTING with no target. Stated for a service without a pin and no other fresh copy that it could move to, with its old copy
selected and above its floor, or with none selected and no copy it could choose (R141, R158, R161). The clock at each expiry
is the model's choice (notes/assumptions/2); the floor in force, and that a selected copy with an absent Q is judged not
degraded, are readings of it (notes/assumptions/35 and 12). -/
def Obligations.CutTimerExpiries : Prop :=
  ∀ (s : State) (v : Nat) (c : Cut), v < 256 → s.Quiet → s.cut v = some c →
    (c.expiries = 0 → exec (.cutForceExpiry v) s = .next ((s.setNow (max s.now (c.start + c.limit))).putCut v
      (some { c with expiries := 1, forced := true }))) ∧
    (∀ k : Ranking, c.expiries = 1 → s.Canonical → (s.service v).enabled = true → (s.rank v).cutting = true →
      (s.rank v).pin = none → s.hostQueue = [] →
      ((s.rank v).selected = none ∧ (∀ slot, s.choosable v slot = false) ∧ k = s.rank v) ∨
        (∃ sel, (s.rank v).selected = some sel ∧ (∀ slot, slot ≠ sel → (s.liveOf v slot).cls ≠ .fresh) ∧
          (∀ q, (s.liveOf v sel).q = some q → (s.service v).floor ≤ q) ∧
          (s.liveOf v sel).zeros < (s.service v).failCount ∧ k = { s.rank v with challenger := none, challenges := 0 }) →
      ∃ t, exec (.cutAbandonExpiry v) s = .next t ∧ t.cut v = none ∧ t.gate v = s.gate v ∧
        t.latched .service v .cutCancelled = true ∧
        t.rank v = { k with target := none, filing := none, cutting := false, degraded := false } ∧
        t.floor v = (s.service v).floor ∧ (∀ u, u ≠ v → t.cut u = s.cut u ∧ t.rank u = s.rank u) ∧
        t = { s with now := max s.now (c.start + 2 * c.limit), cuts := t.cuts, ranks := t.ranks, floors := t.floors,
                     inds := t.inds, mgmt := t.mgmt })
end

