-- ==== Sys2Proof/Laws/State.lean ====
section
/-! SUPPORT. One lemma per field per update of State, each true by rfl, so that no proof unfolds a record update. -/

namespace Sys2Proof.Machine

set_option Elab.async false

@[simp] theorem State.setPending_pending (s : State) (x) : (s.setPending x).pending = x := rfl
@[simp] theorem State.setPending_notices (s : State) (x) : (s.setPending x).notices = s.notices := rfl
@[simp] theorem State.setPending_settled (s : State) (x) : (s.setPending x).settled = s.settled := rfl
@[simp] theorem State.setPending_now (s : State) (x) : (s.setPending x).now = s.now := rfl
@[simp] theorem State.setPending_tables (s : State) (x) : (s.setPending x).tables = s.tables := rfl
@[simp] theorem State.setPending_roles (s : State) (x) : (s.setPending x).roles = s.roles := rfl
@[simp] theorem State.setPending_framers (s : State) (x) : (s.setPending x).framers = s.framers := rfl
@[simp] theorem State.setPending_trackers (s : State) (x) : (s.setPending x).trackers = s.trackers := rfl
@[simp] theorem State.setPending_censusRecs (s : State) (x) : (s.setPending x).censusRecs = s.censusRecs := rfl
@[simp] theorem State.setPending_qmLanes (s : State) (x) : (s.setPending x).qmLanes = s.qmLanes := rfl
@[simp] theorem State.setPending_mismatch (s : State) (x) : (s.setPending x).mismatch = s.mismatch := rfl
@[simp] theorem State.setPending_lifetimes (s : State) (x) : (s.setPending x).lifetimes = s.lifetimes := rfl
@[simp] theorem State.setPending_buses (s : State) (x) : (s.setPending x).buses = s.buses := rfl
@[simp] theorem State.setPending_tuners (s : State) (x) : (s.setPending x).tuners = s.tuners := rfl
@[simp] theorem State.setPending_hostQueue (s : State) (x) : (s.setPending x).hostQueue = s.hostQueue := rfl
@[simp] theorem State.setPending_sched (s : State) (x) : (s.setPending x).sched = s.sched := rfl
@[simp] theorem State.setPending_clock (s : State) (x) : (s.setPending x).clock = s.clock := rfl
@[simp] theorem State.setPending_lives (s : State) (x) : (s.setPending x).lives = s.lives := rfl
@[simp] theorem State.setPending_ranks (s : State) (x) : (s.setPending x).ranks = s.ranks := rfl
@[simp] theorem State.setPending_floors (s : State) (x) : (s.setPending x).floors = s.floors := rfl
@[simp] theorem State.setPending_outs (s : State) (x) : (s.setPending x).outs = s.outs := rfl
@[simp] theorem State.setPending_gates (s : State) (x) : (s.setPending x).gates = s.gates := rfl
@[simp] theorem State.setPending_cuts (s : State) (x) : (s.setPending x).cuts = s.cuts := rfl
@[simp] theorem State.setPending_inbound (s : State) (x) : (s.setPending x).inbound = s.inbound := rfl
@[simp] theorem State.setPending_mgmt (s : State) (x) : (s.setPending x).mgmt = s.mgmt := rfl
@[simp] theorem State.setPending_inds (s : State) (x) : (s.setPending x).inds = s.inds := rfl
@[simp] theorem State.setPending_prot (s : State) (x) : (s.setPending x).prot = s.prot := rfl
@[simp] theorem State.setPending_resetting (s : State) (x) : (s.setPending x).resetting = s.resetting := rfl
@[simp] theorem State.setNotices_pending (s : State) (x) : (s.setNotices x).pending = s.pending := rfl
@[simp] theorem State.setNotices_notices (s : State) (x) : (s.setNotices x).notices = x := rfl
@[simp] theorem State.setNotices_settled (s : State) (x) : (s.setNotices x).settled = s.settled := rfl
@[simp] theorem State.setNotices_now (s : State) (x) : (s.setNotices x).now = s.now := rfl
@[simp] theorem State.setNotices_tables (s : State) (x) : (s.setNotices x).tables = s.tables := rfl
@[simp] theorem State.setNotices_roles (s : State) (x) : (s.setNotices x).roles = s.roles := rfl
@[simp] theorem State.setNotices_framers (s : State) (x) : (s.setNotices x).framers = s.framers := rfl
@[simp] theorem State.setNotices_trackers (s : State) (x) : (s.setNotices x).trackers = s.trackers := rfl
@[simp] theorem State.setNotices_censusRecs (s : State) (x) : (s.setNotices x).censusRecs = s.censusRecs := rfl
@[simp] theorem State.setNotices_qmLanes (s : State) (x) : (s.setNotices x).qmLanes = s.qmLanes := rfl
@[simp] theorem State.setNotices_mismatch (s : State) (x) : (s.setNotices x).mismatch = s.mismatch := rfl
@[simp] theorem State.setNotices_lifetimes (s : State) (x) : (s.setNotices x).lifetimes = s.lifetimes := rfl
@[simp] theorem State.setNotices_buses (s : State) (x) : (s.setNotices x).buses = s.buses := rfl
@[simp] theorem State.setNotices_tuners (s : State) (x) : (s.setNotices x).tuners = s.tuners := rfl
@[simp] theorem State.setNotices_hostQueue (s : State) (x) : (s.setNotices x).hostQueue = s.hostQueue := rfl
@[simp] theorem State.setNotices_sched (s : State) (x) : (s.setNotices x).sched = s.sched := rfl
@[simp] theorem State.setNotices_clock (s : State) (x) : (s.setNotices x).clock = s.clock := rfl
@[simp] theorem State.setNotices_lives (s : State) (x) : (s.setNotices x).lives = s.lives := rfl
@[simp] theorem State.setNotices_ranks (s : State) (x) : (s.setNotices x).ranks = s.ranks := rfl
@[simp] theorem State.setNotices_floors (s : State) (x) : (s.setNotices x).floors = s.floors := rfl
@[simp] theorem State.setNotices_outs (s : State) (x) : (s.setNotices x).outs = s.outs := rfl
@[simp] theorem State.setNotices_gates (s : State) (x) : (s.setNotices x).gates = s.gates := rfl
@[simp] theorem State.setNotices_cuts (s : State) (x) : (s.setNotices x).cuts = s.cuts := rfl
@[simp] theorem State.setNotices_inbound (s : State) (x) : (s.setNotices x).inbound = s.inbound := rfl
@[simp] theorem State.setNotices_mgmt (s : State) (x) : (s.setNotices x).mgmt = s.mgmt := rfl
@[simp] theorem State.setNotices_inds (s : State) (x) : (s.setNotices x).inds = s.inds := rfl
@[simp] theorem State.setNotices_prot (s : State) (x) : (s.setNotices x).prot = s.prot := rfl
@[simp] theorem State.setNotices_resetting (s : State) (x) : (s.setNotices x).resetting = s.resetting := rfl
@[simp] theorem State.setSettled_pending (s : State) (x) : (s.setSettled x).pending = s.pending := rfl
@[simp] theorem State.setSettled_notices (s : State) (x) : (s.setSettled x).notices = s.notices := rfl
@[simp] theorem State.setSettled_settled (s : State) (x) : (s.setSettled x).settled = x := rfl
@[simp] theorem State.setSettled_now (s : State) (x) : (s.setSettled x).now = s.now := rfl
@[simp] theorem State.setSettled_tables (s : State) (x) : (s.setSettled x).tables = s.tables := rfl
@[simp] theorem State.setSettled_roles (s : State) (x) : (s.setSettled x).roles = s.roles := rfl
@[simp] theorem State.setSettled_framers (s : State) (x) : (s.setSettled x).framers = s.framers := rfl
@[simp] theorem State.setSettled_trackers (s : State) (x) : (s.setSettled x).trackers = s.trackers := rfl
@[simp] theorem State.setSettled_censusRecs (s : State) (x) : (s.setSettled x).censusRecs = s.censusRecs := rfl
@[simp] theorem State.setSettled_qmLanes (s : State) (x) : (s.setSettled x).qmLanes = s.qmLanes := rfl
@[simp] theorem State.setSettled_mismatch (s : State) (x) : (s.setSettled x).mismatch = s.mismatch := rfl
@[simp] theorem State.setSettled_lifetimes (s : State) (x) : (s.setSettled x).lifetimes = s.lifetimes := rfl
@[simp] theorem State.setSettled_buses (s : State) (x) : (s.setSettled x).buses = s.buses := rfl
@[simp] theorem State.setSettled_tuners (s : State) (x) : (s.setSettled x).tuners = s.tuners := rfl
@[simp] theorem State.setSettled_hostQueue (s : State) (x) : (s.setSettled x).hostQueue = s.hostQueue := rfl
@[simp] theorem State.setSettled_sched (s : State) (x) : (s.setSettled x).sched = s.sched := rfl
@[simp] theorem State.setSettled_clock (s : State) (x) : (s.setSettled x).clock = s.clock := rfl
@[simp] theorem State.setSettled_lives (s : State) (x) : (s.setSettled x).lives = s.lives := rfl
@[simp] theorem State.setSettled_ranks (s : State) (x) : (s.setSettled x).ranks = s.ranks := rfl
@[simp] theorem State.setSettled_floors (s : State) (x) : (s.setSettled x).floors = s.floors := rfl
@[simp] theorem State.setSettled_outs (s : State) (x) : (s.setSettled x).outs = s.outs := rfl
@[simp] theorem State.setSettled_gates (s : State) (x) : (s.setSettled x).gates = s.gates := rfl
@[simp] theorem State.setSettled_cuts (s : State) (x) : (s.setSettled x).cuts = s.cuts := rfl
@[simp] theorem State.setSettled_inbound (s : State) (x) : (s.setSettled x).inbound = s.inbound := rfl
@[simp] theorem State.setSettled_mgmt (s : State) (x) : (s.setSettled x).mgmt = s.mgmt := rfl
@[simp] theorem State.setSettled_inds (s : State) (x) : (s.setSettled x).inds = s.inds := rfl
@[simp] theorem State.setSettled_prot (s : State) (x) : (s.setSettled x).prot = s.prot := rfl
@[simp] theorem State.setSettled_resetting (s : State) (x) : (s.setSettled x).resetting = s.resetting := rfl
@[simp] theorem State.setNow_pending (s : State) (x) : (s.setNow x).pending = s.pending := rfl
@[simp] theorem State.setNow_notices (s : State) (x) : (s.setNow x).notices = s.notices := rfl
@[simp] theorem State.setNow_settled (s : State) (x) : (s.setNow x).settled = s.settled := rfl
@[simp] theorem State.setNow_now (s : State) (x) : (s.setNow x).now = x := rfl
@[simp] theorem State.setNow_tables (s : State) (x) : (s.setNow x).tables = s.tables := rfl
@[simp] theorem State.setNow_roles (s : State) (x) : (s.setNow x).roles = s.roles := rfl
@[simp] theorem State.setNow_framers (s : State) (x) : (s.setNow x).framers = s.framers := rfl
@[simp] theorem State.setNow_trackers (s : State) (x) : (s.setNow x).trackers = s.trackers := rfl
@[simp] theorem State.setNow_censusRecs (s : State) (x) : (s.setNow x).censusRecs = s.censusRecs := rfl
@[simp] theorem State.setNow_qmLanes (s : State) (x) : (s.setNow x).qmLanes = s.qmLanes := rfl
@[simp] theorem State.setNow_mismatch (s : State) (x) : (s.setNow x).mismatch = s.mismatch := rfl
@[simp] theorem State.setNow_lifetimes (s : State) (x) : (s.setNow x).lifetimes = s.lifetimes := rfl
@[simp] theorem State.setNow_buses (s : State) (x) : (s.setNow x).buses = s.buses := rfl
@[simp] theorem State.setNow_tuners (s : State) (x) : (s.setNow x).tuners = s.tuners := rfl
@[simp] theorem State.setNow_hostQueue (s : State) (x) : (s.setNow x).hostQueue = s.hostQueue := rfl
@[simp] theorem State.setNow_sched (s : State) (x) : (s.setNow x).sched = s.sched := rfl
@[simp] theorem State.setNow_clock (s : State) (x) : (s.setNow x).clock = s.clock := rfl
@[simp] theorem State.setNow_lives (s : State) (x) : (s.setNow x).lives = s.lives := rfl
@[simp] theorem State.setNow_ranks (s : State) (x) : (s.setNow x).ranks = s.ranks := rfl
@[simp] theorem State.setNow_floors (s : State) (x) : (s.setNow x).floors = s.floors := rfl
@[simp] theorem State.setNow_outs (s : State) (x) : (s.setNow x).outs = s.outs := rfl
@[simp] theorem State.setNow_gates (s : State) (x) : (s.setNow x).gates = s.gates := rfl
@[simp] theorem State.setNow_cuts (s : State) (x) : (s.setNow x).cuts = s.cuts := rfl
@[simp] theorem State.setNow_inbound (s : State) (x) : (s.setNow x).inbound = s.inbound := rfl
@[simp] theorem State.setNow_mgmt (s : State) (x) : (s.setNow x).mgmt = s.mgmt := rfl
@[simp] theorem State.setNow_inds (s : State) (x) : (s.setNow x).inds = s.inds := rfl
@[simp] theorem State.setNow_prot (s : State) (x) : (s.setNow x).prot = s.prot := rfl
@[simp] theorem State.setNow_resetting (s : State) (x) : (s.setNow x).resetting = s.resetting := rfl
@[simp] theorem State.setTables_pending (s : State) (x) : (s.setTables x).pending = s.pending := rfl
@[simp] theorem State.setTables_notices (s : State) (x) : (s.setTables x).notices = s.notices := rfl
@[simp] theorem State.setTables_settled (s : State) (x) : (s.setTables x).settled = s.settled := rfl
@[simp] theorem State.setTables_now (s : State) (x) : (s.setTables x).now = s.now := rfl
@[simp] theorem State.setTables_tables (s : State) (x) : (s.setTables x).tables = x := rfl
@[simp] theorem State.setTables_roles (s : State) (x) : (s.setTables x).roles = s.roles := rfl
@[simp] theorem State.setTables_framers (s : State) (x) : (s.setTables x).framers = s.framers := rfl
@[simp] theorem State.setTables_trackers (s : State) (x) : (s.setTables x).trackers = s.trackers := rfl
@[simp] theorem State.setTables_censusRecs (s : State) (x) : (s.setTables x).censusRecs = s.censusRecs := rfl
@[simp] theorem State.setTables_qmLanes (s : State) (x) : (s.setTables x).qmLanes = s.qmLanes := rfl
@[simp] theorem State.setTables_mismatch (s : State) (x) : (s.setTables x).mismatch = s.mismatch := rfl
@[simp] theorem State.setTables_lifetimes (s : State) (x) : (s.setTables x).lifetimes = s.lifetimes := rfl
@[simp] theorem State.setTables_buses (s : State) (x) : (s.setTables x).buses = s.buses := rfl
@[simp] theorem State.setTables_tuners (s : State) (x) : (s.setTables x).tuners = s.tuners := rfl
@[simp] theorem State.setTables_hostQueue (s : State) (x) : (s.setTables x).hostQueue = s.hostQueue := rfl
@[simp] theorem State.setTables_sched (s : State) (x) : (s.setTables x).sched = s.sched := rfl
@[simp] theorem State.setTables_clock (s : State) (x) : (s.setTables x).clock = s.clock := rfl
@[simp] theorem State.setTables_lives (s : State) (x) : (s.setTables x).lives = s.lives := rfl
@[simp] theorem State.setTables_ranks (s : State) (x) : (s.setTables x).ranks = s.ranks := rfl
@[simp] theorem State.setTables_floors (s : State) (x) : (s.setTables x).floors = s.floors := rfl
@[simp] theorem State.setTables_outs (s : State) (x) : (s.setTables x).outs = s.outs := rfl
@[simp] theorem State.setTables_gates (s : State) (x) : (s.setTables x).gates = s.gates := rfl
@[simp] theorem State.setTables_cuts (s : State) (x) : (s.setTables x).cuts = s.cuts := rfl
@[simp] theorem State.setTables_inbound (s : State) (x) : (s.setTables x).inbound = s.inbound := rfl
@[simp] theorem State.setTables_mgmt (s : State) (x) : (s.setTables x).mgmt = s.mgmt := rfl
@[simp] theorem State.setTables_inds (s : State) (x) : (s.setTables x).inds = s.inds := rfl
@[simp] theorem State.setTables_prot (s : State) (x) : (s.setTables x).prot = s.prot := rfl
@[simp] theorem State.setTables_resetting (s : State) (x) : (s.setTables x).resetting = s.resetting := rfl
@[simp] theorem State.setRoles_pending (s : State) (x) : (s.setRoles x).pending = s.pending := rfl
@[simp] theorem State.setRoles_notices (s : State) (x) : (s.setRoles x).notices = s.notices := rfl
@[simp] theorem State.setRoles_settled (s : State) (x) : (s.setRoles x).settled = s.settled := rfl
@[simp] theorem State.setRoles_now (s : State) (x) : (s.setRoles x).now = s.now := rfl
@[simp] theorem State.setRoles_tables (s : State) (x) : (s.setRoles x).tables = s.tables := rfl
@[simp] theorem State.setRoles_roles (s : State) (x) : (s.setRoles x).roles = x := rfl
@[simp] theorem State.setRoles_framers (s : State) (x) : (s.setRoles x).framers = s.framers := rfl
@[simp] theorem State.setRoles_trackers (s : State) (x) : (s.setRoles x).trackers = s.trackers := rfl
@[simp] theorem State.setRoles_censusRecs (s : State) (x) : (s.setRoles x).censusRecs = s.censusRecs := rfl
@[simp] theorem State.setRoles_qmLanes (s : State) (x) : (s.setRoles x).qmLanes = s.qmLanes := rfl
@[simp] theorem State.setRoles_mismatch (s : State) (x) : (s.setRoles x).mismatch = s.mismatch := rfl
@[simp] theorem State.setRoles_lifetimes (s : State) (x) : (s.setRoles x).lifetimes = s.lifetimes := rfl
@[simp] theorem State.setRoles_buses (s : State) (x) : (s.setRoles x).buses = s.buses := rfl
@[simp] theorem State.setRoles_tuners (s : State) (x) : (s.setRoles x).tuners = s.tuners := rfl
@[simp] theorem State.setRoles_hostQueue (s : State) (x) : (s.setRoles x).hostQueue = s.hostQueue := rfl
@[simp] theorem State.setRoles_sched (s : State) (x) : (s.setRoles x).sched = s.sched := rfl
@[simp] theorem State.setRoles_clock (s : State) (x) : (s.setRoles x).clock = s.clock := rfl
@[simp] theorem State.setRoles_lives (s : State) (x) : (s.setRoles x).lives = s.lives := rfl
@[simp] theorem State.setRoles_ranks (s : State) (x) : (s.setRoles x).ranks = s.ranks := rfl
@[simp] theorem State.setRoles_floors (s : State) (x) : (s.setRoles x).floors = s.floors := rfl
@[simp] theorem State.setRoles_outs (s : State) (x) : (s.setRoles x).outs = s.outs := rfl
@[simp] theorem State.setRoles_gates (s : State) (x) : (s.setRoles x).gates = s.gates := rfl
@[simp] theorem State.setRoles_cuts (s : State) (x) : (s.setRoles x).cuts = s.cuts := rfl
@[simp] theorem State.setRoles_inbound (s : State) (x) : (s.setRoles x).inbound = s.inbound := rfl
@[simp] theorem State.setRoles_mgmt (s : State) (x) : (s.setRoles x).mgmt = s.mgmt := rfl
@[simp] theorem State.setRoles_inds (s : State) (x) : (s.setRoles x).inds = s.inds := rfl
@[simp] theorem State.setRoles_prot (s : State) (x) : (s.setRoles x).prot = s.prot := rfl
@[simp] theorem State.setRoles_resetting (s : State) (x) : (s.setRoles x).resetting = s.resetting := rfl
@[simp] theorem State.setFramers_pending (s : State) (x) : (s.setFramers x).pending = s.pending := rfl
@[simp] theorem State.setFramers_notices (s : State) (x) : (s.setFramers x).notices = s.notices := rfl
@[simp] theorem State.setFramers_settled (s : State) (x) : (s.setFramers x).settled = s.settled := rfl
@[simp] theorem State.setFramers_now (s : State) (x) : (s.setFramers x).now = s.now := rfl
@[simp] theorem State.setFramers_tables (s : State) (x) : (s.setFramers x).tables = s.tables := rfl
@[simp] theorem State.setFramers_roles (s : State) (x) : (s.setFramers x).roles = s.roles := rfl
@[simp] theorem State.setFramers_framers (s : State) (x) : (s.setFramers x).framers = x := rfl
@[simp] theorem State.setFramers_trackers (s : State) (x) : (s.setFramers x).trackers = s.trackers := rfl
@[simp] theorem State.setFramers_censusRecs (s : State) (x) : (s.setFramers x).censusRecs = s.censusRecs := rfl
@[simp] theorem State.setFramers_qmLanes (s : State) (x) : (s.setFramers x).qmLanes = s.qmLanes := rfl
@[simp] theorem State.setFramers_mismatch (s : State) (x) : (s.setFramers x).mismatch = s.mismatch := rfl
@[simp] theorem State.setFramers_lifetimes (s : State) (x) : (s.setFramers x).lifetimes = s.lifetimes := rfl
@[simp] theorem State.setFramers_buses (s : State) (x) : (s.setFramers x).buses = s.buses := rfl
@[simp] theorem State.setFramers_tuners (s : State) (x) : (s.setFramers x).tuners = s.tuners := rfl
@[simp] theorem State.setFramers_hostQueue (s : State) (x) : (s.setFramers x).hostQueue = s.hostQueue := rfl
@[simp] theorem State.setFramers_sched (s : State) (x) : (s.setFramers x).sched = s.sched := rfl
@[simp] theorem State.setFramers_clock (s : State) (x) : (s.setFramers x).clock = s.clock := rfl
@[simp] theorem State.setFramers_lives (s : State) (x) : (s.setFramers x).lives = s.lives := rfl
@[simp] theorem State.setFramers_ranks (s : State) (x) : (s.setFramers x).ranks = s.ranks := rfl
@[simp] theorem State.setFramers_floors (s : State) (x) : (s.setFramers x).floors = s.floors := rfl
@[simp] theorem State.setFramers_outs (s : State) (x) : (s.setFramers x).outs = s.outs := rfl
@[simp] theorem State.setFramers_gates (s : State) (x) : (s.setFramers x).gates = s.gates := rfl
@[simp] theorem State.setFramers_cuts (s : State) (x) : (s.setFramers x).cuts = s.cuts := rfl
@[simp] theorem State.setFramers_inbound (s : State) (x) : (s.setFramers x).inbound = s.inbound := rfl
@[simp] theorem State.setFramers_mgmt (s : State) (x) : (s.setFramers x).mgmt = s.mgmt := rfl
@[simp] theorem State.setFramers_inds (s : State) (x) : (s.setFramers x).inds = s.inds := rfl
@[simp] theorem State.setFramers_prot (s : State) (x) : (s.setFramers x).prot = s.prot := rfl
@[simp] theorem State.setFramers_resetting (s : State) (x) : (s.setFramers x).resetting = s.resetting := rfl
@[simp] theorem State.setTrackers_pending (s : State) (x) : (s.setTrackers x).pending = s.pending := rfl
@[simp] theorem State.setTrackers_notices (s : State) (x) : (s.setTrackers x).notices = s.notices := rfl
@[simp] theorem State.setTrackers_settled (s : State) (x) : (s.setTrackers x).settled = s.settled := rfl
@[simp] theorem State.setTrackers_now (s : State) (x) : (s.setTrackers x).now = s.now := rfl
@[simp] theorem State.setTrackers_tables (s : State) (x) : (s.setTrackers x).tables = s.tables := rfl
@[simp] theorem State.setTrackers_roles (s : State) (x) : (s.setTrackers x).roles = s.roles := rfl
@[simp] theorem State.setTrackers_framers (s : State) (x) : (s.setTrackers x).framers = s.framers := rfl
@[simp] theorem State.setTrackers_trackers (s : State) (x) : (s.setTrackers x).trackers = x := rfl
@[simp] theorem State.setTrackers_censusRecs (s : State) (x) : (s.setTrackers x).censusRecs = s.censusRecs := rfl
@[simp] theorem State.setTrackers_qmLanes (s : State) (x) : (s.setTrackers x).qmLanes = s.qmLanes := rfl
@[simp] theorem State.setTrackers_mismatch (s : State) (x) : (s.setTrackers x).mismatch = s.mismatch := rfl
@[simp] theorem State.setTrackers_lifetimes (s : State) (x) : (s.setTrackers x).lifetimes = s.lifetimes := rfl
@[simp] theorem State.setTrackers_buses (s : State) (x) : (s.setTrackers x).buses = s.buses := rfl
@[simp] theorem State.setTrackers_tuners (s : State) (x) : (s.setTrackers x).tuners = s.tuners := rfl
@[simp] theorem State.setTrackers_hostQueue (s : State) (x) : (s.setTrackers x).hostQueue = s.hostQueue := rfl
@[simp] theorem State.setTrackers_sched (s : State) (x) : (s.setTrackers x).sched = s.sched := rfl
@[simp] theorem State.setTrackers_clock (s : State) (x) : (s.setTrackers x).clock = s.clock := rfl
@[simp] theorem State.setTrackers_lives (s : State) (x) : (s.setTrackers x).lives = s.lives := rfl
@[simp] theorem State.setTrackers_ranks (s : State) (x) : (s.setTrackers x).ranks = s.ranks := rfl
@[simp] theorem State.setTrackers_floors (s : State) (x) : (s.setTrackers x).floors = s.floors := rfl
@[simp] theorem State.setTrackers_outs (s : State) (x) : (s.setTrackers x).outs = s.outs := rfl
@[simp] theorem State.setTrackers_gates (s : State) (x) : (s.setTrackers x).gates = s.gates := rfl
@[simp] theorem State.setTrackers_cuts (s : State) (x) : (s.setTrackers x).cuts = s.cuts := rfl
@[simp] theorem State.setTrackers_inbound (s : State) (x) : (s.setTrackers x).inbound = s.inbound := rfl
@[simp] theorem State.setTrackers_mgmt (s : State) (x) : (s.setTrackers x).mgmt = s.mgmt := rfl
@[simp] theorem State.setTrackers_inds (s : State) (x) : (s.setTrackers x).inds = s.inds := rfl
@[simp] theorem State.setTrackers_prot (s : State) (x) : (s.setTrackers x).prot = s.prot := rfl
@[simp] theorem State.setTrackers_resetting (s : State) (x) : (s.setTrackers x).resetting = s.resetting := rfl
@[simp] theorem State.setCensusRecs_pending (s : State) (x) : (s.setCensusRecs x).pending = s.pending := rfl
@[simp] theorem State.setCensusRecs_notices (s : State) (x) : (s.setCensusRecs x).notices = s.notices := rfl
@[simp] theorem State.setCensusRecs_settled (s : State) (x) : (s.setCensusRecs x).settled = s.settled := rfl
@[simp] theorem State.setCensusRecs_now (s : State) (x) : (s.setCensusRecs x).now = s.now := rfl
@[simp] theorem State.setCensusRecs_tables (s : State) (x) : (s.setCensusRecs x).tables = s.tables := rfl
@[simp] theorem State.setCensusRecs_roles (s : State) (x) : (s.setCensusRecs x).roles = s.roles := rfl
@[simp] theorem State.setCensusRecs_framers (s : State) (x) : (s.setCensusRecs x).framers = s.framers := rfl
@[simp] theorem State.setCensusRecs_trackers (s : State) (x) : (s.setCensusRecs x).trackers = s.trackers := rfl
@[simp] theorem State.setCensusRecs_censusRecs (s : State) (x) : (s.setCensusRecs x).censusRecs = x := rfl
@[simp] theorem State.setCensusRecs_qmLanes (s : State) (x) : (s.setCensusRecs x).qmLanes = s.qmLanes := rfl
@[simp] theorem State.setCensusRecs_mismatch (s : State) (x) : (s.setCensusRecs x).mismatch = s.mismatch := rfl
@[simp] theorem State.setCensusRecs_lifetimes (s : State) (x) : (s.setCensusRecs x).lifetimes = s.lifetimes := rfl
@[simp] theorem State.setCensusRecs_buses (s : State) (x) : (s.setCensusRecs x).buses = s.buses := rfl
@[simp] theorem State.setCensusRecs_tuners (s : State) (x) : (s.setCensusRecs x).tuners = s.tuners := rfl
@[simp] theorem State.setCensusRecs_hostQueue (s : State) (x) : (s.setCensusRecs x).hostQueue = s.hostQueue := rfl
@[simp] theorem State.setCensusRecs_sched (s : State) (x) : (s.setCensusRecs x).sched = s.sched := rfl
@[simp] theorem State.setCensusRecs_clock (s : State) (x) : (s.setCensusRecs x).clock = s.clock := rfl
@[simp] theorem State.setCensusRecs_lives (s : State) (x) : (s.setCensusRecs x).lives = s.lives := rfl
@[simp] theorem State.setCensusRecs_ranks (s : State) (x) : (s.setCensusRecs x).ranks = s.ranks := rfl
@[simp] theorem State.setCensusRecs_floors (s : State) (x) : (s.setCensusRecs x).floors = s.floors := rfl
@[simp] theorem State.setCensusRecs_outs (s : State) (x) : (s.setCensusRecs x).outs = s.outs := rfl
@[simp] theorem State.setCensusRecs_gates (s : State) (x) : (s.setCensusRecs x).gates = s.gates := rfl
@[simp] theorem State.setCensusRecs_cuts (s : State) (x) : (s.setCensusRecs x).cuts = s.cuts := rfl
@[simp] theorem State.setCensusRecs_inbound (s : State) (x) : (s.setCensusRecs x).inbound = s.inbound := rfl
@[simp] theorem State.setCensusRecs_mgmt (s : State) (x) : (s.setCensusRecs x).mgmt = s.mgmt := rfl
@[simp] theorem State.setCensusRecs_inds (s : State) (x) : (s.setCensusRecs x).inds = s.inds := rfl
@[simp] theorem State.setCensusRecs_prot (s : State) (x) : (s.setCensusRecs x).prot = s.prot := rfl
@[simp] theorem State.setCensusRecs_resetting (s : State) (x) : (s.setCensusRecs x).resetting = s.resetting := rfl
@[simp] theorem State.setQmLanes_pending (s : State) (x) : (s.setQmLanes x).pending = s.pending := rfl
@[simp] theorem State.setQmLanes_notices (s : State) (x) : (s.setQmLanes x).notices = s.notices := rfl
@[simp] theorem State.setQmLanes_settled (s : State) (x) : (s.setQmLanes x).settled = s.settled := rfl
@[simp] theorem State.setQmLanes_now (s : State) (x) : (s.setQmLanes x).now = s.now := rfl
@[simp] theorem State.setQmLanes_tables (s : State) (x) : (s.setQmLanes x).tables = s.tables := rfl
@[simp] theorem State.setQmLanes_roles (s : State) (x) : (s.setQmLanes x).roles = s.roles := rfl
@[simp] theorem State.setQmLanes_framers (s : State) (x) : (s.setQmLanes x).framers = s.framers := rfl
@[simp] theorem State.setQmLanes_trackers (s : State) (x) : (s.setQmLanes x).trackers = s.trackers := rfl
@[simp] theorem State.setQmLanes_censusRecs (s : State) (x) : (s.setQmLanes x).censusRecs = s.censusRecs := rfl
@[simp] theorem State.setQmLanes_qmLanes (s : State) (x) : (s.setQmLanes x).qmLanes = x := rfl
@[simp] theorem State.setQmLanes_mismatch (s : State) (x) : (s.setQmLanes x).mismatch = s.mismatch := rfl
@[simp] theorem State.setQmLanes_lifetimes (s : State) (x) : (s.setQmLanes x).lifetimes = s.lifetimes := rfl
@[simp] theorem State.setQmLanes_buses (s : State) (x) : (s.setQmLanes x).buses = s.buses := rfl
@[simp] theorem State.setQmLanes_tuners (s : State) (x) : (s.setQmLanes x).tuners = s.tuners := rfl
@[simp] theorem State.setQmLanes_hostQueue (s : State) (x) : (s.setQmLanes x).hostQueue = s.hostQueue := rfl
@[simp] theorem State.setQmLanes_sched (s : State) (x) : (s.setQmLanes x).sched = s.sched := rfl
@[simp] theorem State.setQmLanes_clock (s : State) (x) : (s.setQmLanes x).clock = s.clock := rfl
@[simp] theorem State.setQmLanes_lives (s : State) (x) : (s.setQmLanes x).lives = s.lives := rfl
@[simp] theorem State.setQmLanes_ranks (s : State) (x) : (s.setQmLanes x).ranks = s.ranks := rfl
@[simp] theorem State.setQmLanes_floors (s : State) (x) : (s.setQmLanes x).floors = s.floors := rfl
@[simp] theorem State.setQmLanes_outs (s : State) (x) : (s.setQmLanes x).outs = s.outs := rfl
@[simp] theorem State.setQmLanes_gates (s : State) (x) : (s.setQmLanes x).gates = s.gates := rfl
@[simp] theorem State.setQmLanes_cuts (s : State) (x) : (s.setQmLanes x).cuts = s.cuts := rfl
@[simp] theorem State.setQmLanes_inbound (s : State) (x) : (s.setQmLanes x).inbound = s.inbound := rfl
@[simp] theorem State.setQmLanes_mgmt (s : State) (x) : (s.setQmLanes x).mgmt = s.mgmt := rfl
@[simp] theorem State.setQmLanes_inds (s : State) (x) : (s.setQmLanes x).inds = s.inds := rfl
@[simp] theorem State.setQmLanes_prot (s : State) (x) : (s.setQmLanes x).prot = s.prot := rfl
@[simp] theorem State.setQmLanes_resetting (s : State) (x) : (s.setQmLanes x).resetting = s.resetting := rfl
@[simp] theorem State.setMismatch_pending (s : State) (x) : (s.setMismatch x).pending = s.pending := rfl
@[simp] theorem State.setMismatch_notices (s : State) (x) : (s.setMismatch x).notices = s.notices := rfl
@[simp] theorem State.setMismatch_settled (s : State) (x) : (s.setMismatch x).settled = s.settled := rfl
@[simp] theorem State.setMismatch_now (s : State) (x) : (s.setMismatch x).now = s.now := rfl
@[simp] theorem State.setMismatch_tables (s : State) (x) : (s.setMismatch x).tables = s.tables := rfl
@[simp] theorem State.setMismatch_roles (s : State) (x) : (s.setMismatch x).roles = s.roles := rfl
@[simp] theorem State.setMismatch_framers (s : State) (x) : (s.setMismatch x).framers = s.framers := rfl
@[simp] theorem State.setMismatch_trackers (s : State) (x) : (s.setMismatch x).trackers = s.trackers := rfl
@[simp] theorem State.setMismatch_censusRecs (s : State) (x) : (s.setMismatch x).censusRecs = s.censusRecs := rfl
@[simp] theorem State.setMismatch_qmLanes (s : State) (x) : (s.setMismatch x).qmLanes = s.qmLanes := rfl
@[simp] theorem State.setMismatch_mismatch (s : State) (x) : (s.setMismatch x).mismatch = x := rfl
@[simp] theorem State.setMismatch_lifetimes (s : State) (x) : (s.setMismatch x).lifetimes = s.lifetimes := rfl
@[simp] theorem State.setMismatch_buses (s : State) (x) : (s.setMismatch x).buses = s.buses := rfl
@[simp] theorem State.setMismatch_tuners (s : State) (x) : (s.setMismatch x).tuners = s.tuners := rfl
@[simp] theorem State.setMismatch_hostQueue (s : State) (x) : (s.setMismatch x).hostQueue = s.hostQueue := rfl
@[simp] theorem State.setMismatch_sched (s : State) (x) : (s.setMismatch x).sched = s.sched := rfl
@[simp] theorem State.setMismatch_clock (s : State) (x) : (s.setMismatch x).clock = s.clock := rfl
@[simp] theorem State.setMismatch_lives (s : State) (x) : (s.setMismatch x).lives = s.lives := rfl
@[simp] theorem State.setMismatch_ranks (s : State) (x) : (s.setMismatch x).ranks = s.ranks := rfl
@[simp] theorem State.setMismatch_floors (s : State) (x) : (s.setMismatch x).floors = s.floors := rfl
@[simp] theorem State.setMismatch_outs (s : State) (x) : (s.setMismatch x).outs = s.outs := rfl
@[simp] theorem State.setMismatch_gates (s : State) (x) : (s.setMismatch x).gates = s.gates := rfl
@[simp] theorem State.setMismatch_cuts (s : State) (x) : (s.setMismatch x).cuts = s.cuts := rfl
@[simp] theorem State.setMismatch_inbound (s : State) (x) : (s.setMismatch x).inbound = s.inbound := rfl
@[simp] theorem State.setMismatch_mgmt (s : State) (x) : (s.setMismatch x).mgmt = s.mgmt := rfl
@[simp] theorem State.setMismatch_inds (s : State) (x) : (s.setMismatch x).inds = s.inds := rfl
@[simp] theorem State.setMismatch_prot (s : State) (x) : (s.setMismatch x).prot = s.prot := rfl
@[simp] theorem State.setMismatch_resetting (s : State) (x) : (s.setMismatch x).resetting = s.resetting := rfl
@[simp] theorem State.setLifetimes_pending (s : State) (x) : (s.setLifetimes x).pending = s.pending := rfl
@[simp] theorem State.setLifetimes_notices (s : State) (x) : (s.setLifetimes x).notices = s.notices := rfl
@[simp] theorem State.setLifetimes_settled (s : State) (x) : (s.setLifetimes x).settled = s.settled := rfl
@[simp] theorem State.setLifetimes_now (s : State) (x) : (s.setLifetimes x).now = s.now := rfl
@[simp] theorem State.setLifetimes_tables (s : State) (x) : (s.setLifetimes x).tables = s.tables := rfl
@[simp] theorem State.setLifetimes_roles (s : State) (x) : (s.setLifetimes x).roles = s.roles := rfl
@[simp] theorem State.setLifetimes_framers (s : State) (x) : (s.setLifetimes x).framers = s.framers := rfl
@[simp] theorem State.setLifetimes_trackers (s : State) (x) : (s.setLifetimes x).trackers = s.trackers := rfl
@[simp] theorem State.setLifetimes_censusRecs (s : State) (x) : (s.setLifetimes x).censusRecs = s.censusRecs := rfl
@[simp] theorem State.setLifetimes_qmLanes (s : State) (x) : (s.setLifetimes x).qmLanes = s.qmLanes := rfl
@[simp] theorem State.setLifetimes_mismatch (s : State) (x) : (s.setLifetimes x).mismatch = s.mismatch := rfl
@[simp] theorem State.setLifetimes_lifetimes (s : State) (x) : (s.setLifetimes x).lifetimes = x := rfl
@[simp] theorem State.setLifetimes_buses (s : State) (x) : (s.setLifetimes x).buses = s.buses := rfl
@[simp] theorem State.setLifetimes_tuners (s : State) (x) : (s.setLifetimes x).tuners = s.tuners := rfl
@[simp] theorem State.setLifetimes_hostQueue (s : State) (x) : (s.setLifetimes x).hostQueue = s.hostQueue := rfl
@[simp] theorem State.setLifetimes_sched (s : State) (x) : (s.setLifetimes x).sched = s.sched := rfl
@[simp] theorem State.setLifetimes_clock (s : State) (x) : (s.setLifetimes x).clock = s.clock := rfl
@[simp] theorem State.setLifetimes_lives (s : State) (x) : (s.setLifetimes x).lives = s.lives := rfl
@[simp] theorem State.setLifetimes_ranks (s : State) (x) : (s.setLifetimes x).ranks = s.ranks := rfl
@[simp] theorem State.setLifetimes_floors (s : State) (x) : (s.setLifetimes x).floors = s.floors := rfl
@[simp] theorem State.setLifetimes_outs (s : State) (x) : (s.setLifetimes x).outs = s.outs := rfl
@[simp] theorem State.setLifetimes_gates (s : State) (x) : (s.setLifetimes x).gates = s.gates := rfl
@[simp] theorem State.setLifetimes_cuts (s : State) (x) : (s.setLifetimes x).cuts = s.cuts := rfl
@[simp] theorem State.setLifetimes_inbound (s : State) (x) : (s.setLifetimes x).inbound = s.inbound := rfl
@[simp] theorem State.setLifetimes_mgmt (s : State) (x) : (s.setLifetimes x).mgmt = s.mgmt := rfl
@[simp] theorem State.setLifetimes_inds (s : State) (x) : (s.setLifetimes x).inds = s.inds := rfl
@[simp] theorem State.setLifetimes_prot (s : State) (x) : (s.setLifetimes x).prot = s.prot := rfl
@[simp] theorem State.setLifetimes_resetting (s : State) (x) : (s.setLifetimes x).resetting = s.resetting := rfl
@[simp] theorem State.setBuses_pending (s : State) (x) : (s.setBuses x).pending = s.pending := rfl
@[simp] theorem State.setBuses_notices (s : State) (x) : (s.setBuses x).notices = s.notices := rfl
@[simp] theorem State.setBuses_settled (s : State) (x) : (s.setBuses x).settled = s.settled := rfl
@[simp] theorem State.setBuses_now (s : State) (x) : (s.setBuses x).now = s.now := rfl
@[simp] theorem State.setBuses_tables (s : State) (x) : (s.setBuses x).tables = s.tables := rfl
@[simp] theorem State.setBuses_roles (s : State) (x) : (s.setBuses x).roles = s.roles := rfl
@[simp] theorem State.setBuses_framers (s : State) (x) : (s.setBuses x).framers = s.framers := rfl
@[simp] theorem State.setBuses_trackers (s : State) (x) : (s.setBuses x).trackers = s.trackers := rfl
@[simp] theorem State.setBuses_censusRecs (s : State) (x) : (s.setBuses x).censusRecs = s.censusRecs := rfl
@[simp] theorem State.setBuses_qmLanes (s : State) (x) : (s.setBuses x).qmLanes = s.qmLanes := rfl
@[simp] theorem State.setBuses_mismatch (s : State) (x) : (s.setBuses x).mismatch = s.mismatch := rfl
@[simp] theorem State.setBuses_lifetimes (s : State) (x) : (s.setBuses x).lifetimes = s.lifetimes := rfl
@[simp] theorem State.setBuses_buses (s : State) (x) : (s.setBuses x).buses = x := rfl
@[simp] theorem State.setBuses_tuners (s : State) (x) : (s.setBuses x).tuners = s.tuners := rfl
@[simp] theorem State.setBuses_hostQueue (s : State) (x) : (s.setBuses x).hostQueue = s.hostQueue := rfl
@[simp] theorem State.setBuses_sched (s : State) (x) : (s.setBuses x).sched = s.sched := rfl
@[simp] theorem State.setBuses_clock (s : State) (x) : (s.setBuses x).clock = s.clock := rfl
@[simp] theorem State.setBuses_lives (s : State) (x) : (s.setBuses x).lives = s.lives := rfl
@[simp] theorem State.setBuses_ranks (s : State) (x) : (s.setBuses x).ranks = s.ranks := rfl
@[simp] theorem State.setBuses_floors (s : State) (x) : (s.setBuses x).floors = s.floors := rfl
@[simp] theorem State.setBuses_outs (s : State) (x) : (s.setBuses x).outs = s.outs := rfl
@[simp] theorem State.setBuses_gates (s : State) (x) : (s.setBuses x).gates = s.gates := rfl
@[simp] theorem State.setBuses_cuts (s : State) (x) : (s.setBuses x).cuts = s.cuts := rfl
@[simp] theorem State.setBuses_inbound (s : State) (x) : (s.setBuses x).inbound = s.inbound := rfl
@[simp] theorem State.setBuses_mgmt (s : State) (x) : (s.setBuses x).mgmt = s.mgmt := rfl
@[simp] theorem State.setBuses_inds (s : State) (x) : (s.setBuses x).inds = s.inds := rfl
@[simp] theorem State.setBuses_prot (s : State) (x) : (s.setBuses x).prot = s.prot := rfl
@[simp] theorem State.setBuses_resetting (s : State) (x) : (s.setBuses x).resetting = s.resetting := rfl
@[simp] theorem State.setTuners_pending (s : State) (x) : (s.setTuners x).pending = s.pending := rfl
@[simp] theorem State.setTuners_notices (s : State) (x) : (s.setTuners x).notices = s.notices := rfl
@[simp] theorem State.setTuners_settled (s : State) (x) : (s.setTuners x).settled = s.settled := rfl
@[simp] theorem State.setTuners_now (s : State) (x) : (s.setTuners x).now = s.now := rfl
@[simp] theorem State.setTuners_tables (s : State) (x) : (s.setTuners x).tables = s.tables := rfl
@[simp] theorem State.setTuners_roles (s : State) (x) : (s.setTuners x).roles = s.roles := rfl
@[simp] theorem State.setTuners_framers (s : State) (x) : (s.setTuners x).framers = s.framers := rfl
@[simp] theorem State.setTuners_trackers (s : State) (x) : (s.setTuners x).trackers = s.trackers := rfl
@[simp] theorem State.setTuners_censusRecs (s : State) (x) : (s.setTuners x).censusRecs = s.censusRecs := rfl
@[simp] theorem State.setTuners_qmLanes (s : State) (x) : (s.setTuners x).qmLanes = s.qmLanes := rfl
@[simp] theorem State.setTuners_mismatch (s : State) (x) : (s.setTuners x).mismatch = s.mismatch := rfl
@[simp] theorem State.setTuners_lifetimes (s : State) (x) : (s.setTuners x).lifetimes = s.lifetimes := rfl
@[simp] theorem State.setTuners_buses (s : State) (x) : (s.setTuners x).buses = s.buses := rfl
@[simp] theorem State.setTuners_tuners (s : State) (x) : (s.setTuners x).tuners = x := rfl
@[simp] theorem State.setTuners_hostQueue (s : State) (x) : (s.setTuners x).hostQueue = s.hostQueue := rfl
@[simp] theorem State.setTuners_sched (s : State) (x) : (s.setTuners x).sched = s.sched := rfl
@[simp] theorem State.setTuners_clock (s : State) (x) : (s.setTuners x).clock = s.clock := rfl
@[simp] theorem State.setTuners_lives (s : State) (x) : (s.setTuners x).lives = s.lives := rfl
@[simp] theorem State.setTuners_ranks (s : State) (x) : (s.setTuners x).ranks = s.ranks := rfl
@[simp] theorem State.setTuners_floors (s : State) (x) : (s.setTuners x).floors = s.floors := rfl
@[simp] theorem State.setTuners_outs (s : State) (x) : (s.setTuners x).outs = s.outs := rfl
@[simp] theorem State.setTuners_gates (s : State) (x) : (s.setTuners x).gates = s.gates := rfl
@[simp] theorem State.setTuners_cuts (s : State) (x) : (s.setTuners x).cuts = s.cuts := rfl
@[simp] theorem State.setTuners_inbound (s : State) (x) : (s.setTuners x).inbound = s.inbound := rfl
@[simp] theorem State.setTuners_mgmt (s : State) (x) : (s.setTuners x).mgmt = s.mgmt := rfl
@[simp] theorem State.setTuners_inds (s : State) (x) : (s.setTuners x).inds = s.inds := rfl
@[simp] theorem State.setTuners_prot (s : State) (x) : (s.setTuners x).prot = s.prot := rfl
@[simp] theorem State.setTuners_resetting (s : State) (x) : (s.setTuners x).resetting = s.resetting := rfl
@[simp] theorem State.setHostQueue_pending (s : State) (x) : (s.setHostQueue x).pending = s.pending := rfl
@[simp] theorem State.setHostQueue_notices (s : State) (x) : (s.setHostQueue x).notices = s.notices := rfl
@[simp] theorem State.setHostQueue_settled (s : State) (x) : (s.setHostQueue x).settled = s.settled := rfl
@[simp] theorem State.setHostQueue_now (s : State) (x) : (s.setHostQueue x).now = s.now := rfl
@[simp] theorem State.setHostQueue_tables (s : State) (x) : (s.setHostQueue x).tables = s.tables := rfl
@[simp] theorem State.setHostQueue_roles (s : State) (x) : (s.setHostQueue x).roles = s.roles := rfl
@[simp] theorem State.setHostQueue_framers (s : State) (x) : (s.setHostQueue x).framers = s.framers := rfl
@[simp] theorem State.setHostQueue_trackers (s : State) (x) : (s.setHostQueue x).trackers = s.trackers := rfl
@[simp] theorem State.setHostQueue_censusRecs (s : State) (x) : (s.setHostQueue x).censusRecs = s.censusRecs := rfl
@[simp] theorem State.setHostQueue_qmLanes (s : State) (x) : (s.setHostQueue x).qmLanes = s.qmLanes := rfl
@[simp] theorem State.setHostQueue_mismatch (s : State) (x) : (s.setHostQueue x).mismatch = s.mismatch := rfl
@[simp] theorem State.setHostQueue_lifetimes (s : State) (x) : (s.setHostQueue x).lifetimes = s.lifetimes := rfl
@[simp] theorem State.setHostQueue_buses (s : State) (x) : (s.setHostQueue x).buses = s.buses := rfl
@[simp] theorem State.setHostQueue_tuners (s : State) (x) : (s.setHostQueue x).tuners = s.tuners := rfl
@[simp] theorem State.setHostQueue_hostQueue (s : State) (x) : (s.setHostQueue x).hostQueue = x := rfl
@[simp] theorem State.setHostQueue_sched (s : State) (x) : (s.setHostQueue x).sched = s.sched := rfl
@[simp] theorem State.setHostQueue_clock (s : State) (x) : (s.setHostQueue x).clock = s.clock := rfl
@[simp] theorem State.setHostQueue_lives (s : State) (x) : (s.setHostQueue x).lives = s.lives := rfl
@[simp] theorem State.setHostQueue_ranks (s : State) (x) : (s.setHostQueue x).ranks = s.ranks := rfl
@[simp] theorem State.setHostQueue_floors (s : State) (x) : (s.setHostQueue x).floors = s.floors := rfl
@[simp] theorem State.setHostQueue_outs (s : State) (x) : (s.setHostQueue x).outs = s.outs := rfl
@[simp] theorem State.setHostQueue_gates (s : State) (x) : (s.setHostQueue x).gates = s.gates := rfl
@[simp] theorem State.setHostQueue_cuts (s : State) (x) : (s.setHostQueue x).cuts = s.cuts := rfl
@[simp] theorem State.setHostQueue_inbound (s : State) (x) : (s.setHostQueue x).inbound = s.inbound := rfl
@[simp] theorem State.setHostQueue_mgmt (s : State) (x) : (s.setHostQueue x).mgmt = s.mgmt := rfl
@[simp] theorem State.setHostQueue_inds (s : State) (x) : (s.setHostQueue x).inds = s.inds := rfl
@[simp] theorem State.setHostQueue_prot (s : State) (x) : (s.setHostQueue x).prot = s.prot := rfl
@[simp] theorem State.setHostQueue_resetting (s : State) (x) : (s.setHostQueue x).resetting = s.resetting := rfl
@[simp] theorem State.setSched_pending (s : State) (x) : (s.setSched x).pending = s.pending := rfl
@[simp] theorem State.setSched_notices (s : State) (x) : (s.setSched x).notices = s.notices := rfl
@[simp] theorem State.setSched_settled (s : State) (x) : (s.setSched x).settled = s.settled := rfl
@[simp] theorem State.setSched_now (s : State) (x) : (s.setSched x).now = s.now := rfl
@[simp] theorem State.setSched_tables (s : State) (x) : (s.setSched x).tables = s.tables := rfl
@[simp] theorem State.setSched_roles (s : State) (x) : (s.setSched x).roles = s.roles := rfl
@[simp] theorem State.setSched_framers (s : State) (x) : (s.setSched x).framers = s.framers := rfl
@[simp] theorem State.setSched_trackers (s : State) (x) : (s.setSched x).trackers = s.trackers := rfl
@[simp] theorem State.setSched_censusRecs (s : State) (x) : (s.setSched x).censusRecs = s.censusRecs := rfl
@[simp] theorem State.setSched_qmLanes (s : State) (x) : (s.setSched x).qmLanes = s.qmLanes := rfl
@[simp] theorem State.setSched_mismatch (s : State) (x) : (s.setSched x).mismatch = s.mismatch := rfl
@[simp] theorem State.setSched_lifetimes (s : State) (x) : (s.setSched x).lifetimes = s.lifetimes := rfl
@[simp] theorem State.setSched_buses (s : State) (x) : (s.setSched x).buses = s.buses := rfl
@[simp] theorem State.setSched_tuners (s : State) (x) : (s.setSched x).tuners = s.tuners := rfl
@[simp] theorem State.setSched_hostQueue (s : State) (x) : (s.setSched x).hostQueue = s.hostQueue := rfl
@[simp] theorem State.setSched_sched (s : State) (x) : (s.setSched x).sched = x := rfl
@[simp] theorem State.setSched_clock (s : State) (x) : (s.setSched x).clock = s.clock := rfl
@[simp] theorem State.setSched_lives (s : State) (x) : (s.setSched x).lives = s.lives := rfl
@[simp] theorem State.setSched_ranks (s : State) (x) : (s.setSched x).ranks = s.ranks := rfl
@[simp] theorem State.setSched_floors (s : State) (x) : (s.setSched x).floors = s.floors := rfl
@[simp] theorem State.setSched_outs (s : State) (x) : (s.setSched x).outs = s.outs := rfl
@[simp] theorem State.setSched_gates (s : State) (x) : (s.setSched x).gates = s.gates := rfl
@[simp] theorem State.setSched_cuts (s : State) (x) : (s.setSched x).cuts = s.cuts := rfl
@[simp] theorem State.setSched_inbound (s : State) (x) : (s.setSched x).inbound = s.inbound := rfl
@[simp] theorem State.setSched_mgmt (s : State) (x) : (s.setSched x).mgmt = s.mgmt := rfl
@[simp] theorem State.setSched_inds (s : State) (x) : (s.setSched x).inds = s.inds := rfl
@[simp] theorem State.setSched_prot (s : State) (x) : (s.setSched x).prot = s.prot := rfl
@[simp] theorem State.setSched_resetting (s : State) (x) : (s.setSched x).resetting = s.resetting := rfl
@[simp] theorem State.setClock_pending (s : State) (x) : (s.setClock x).pending = s.pending := rfl
@[simp] theorem State.setClock_notices (s : State) (x) : (s.setClock x).notices = s.notices := rfl
@[simp] theorem State.setClock_settled (s : State) (x) : (s.setClock x).settled = s.settled := rfl
@[simp] theorem State.setClock_now (s : State) (x) : (s.setClock x).now = s.now := rfl
@[simp] theorem State.setClock_tables (s : State) (x) : (s.setClock x).tables = s.tables := rfl
@[simp] theorem State.setClock_roles (s : State) (x) : (s.setClock x).roles = s.roles := rfl
@[simp] theorem State.setClock_framers (s : State) (x) : (s.setClock x).framers = s.framers := rfl
@[simp] theorem State.setClock_trackers (s : State) (x) : (s.setClock x).trackers = s.trackers := rfl
@[simp] theorem State.setClock_censusRecs (s : State) (x) : (s.setClock x).censusRecs = s.censusRecs := rfl
@[simp] theorem State.setClock_qmLanes (s : State) (x) : (s.setClock x).qmLanes = s.qmLanes := rfl
@[simp] theorem State.setClock_mismatch (s : State) (x) : (s.setClock x).mismatch = s.mismatch := rfl
@[simp] theorem State.setClock_lifetimes (s : State) (x) : (s.setClock x).lifetimes = s.lifetimes := rfl
@[simp] theorem State.setClock_buses (s : State) (x) : (s.setClock x).buses = s.buses := rfl
@[simp] theorem State.setClock_tuners (s : State) (x) : (s.setClock x).tuners = s.tuners := rfl
@[simp] theorem State.setClock_hostQueue (s : State) (x) : (s.setClock x).hostQueue = s.hostQueue := rfl
@[simp] theorem State.setClock_sched (s : State) (x) : (s.setClock x).sched = s.sched := rfl
@[simp] theorem State.setClock_clock (s : State) (x) : (s.setClock x).clock = x := rfl
@[simp] theorem State.setClock_lives (s : State) (x) : (s.setClock x).lives = s.lives := rfl
@[simp] theorem State.setClock_ranks (s : State) (x) : (s.setClock x).ranks = s.ranks := rfl
@[simp] theorem State.setClock_floors (s : State) (x) : (s.setClock x).floors = s.floors := rfl
@[simp] theorem State.setClock_outs (s : State) (x) : (s.setClock x).outs = s.outs := rfl
@[simp] theorem State.setClock_gates (s : State) (x) : (s.setClock x).gates = s.gates := rfl
@[simp] theorem State.setClock_cuts (s : State) (x) : (s.setClock x).cuts = s.cuts := rfl
@[simp] theorem State.setClock_inbound (s : State) (x) : (s.setClock x).inbound = s.inbound := rfl
@[simp] theorem State.setClock_mgmt (s : State) (x) : (s.setClock x).mgmt = s.mgmt := rfl
@[simp] theorem State.setClock_inds (s : State) (x) : (s.setClock x).inds = s.inds := rfl
@[simp] theorem State.setClock_prot (s : State) (x) : (s.setClock x).prot = s.prot := rfl
@[simp] theorem State.setClock_resetting (s : State) (x) : (s.setClock x).resetting = s.resetting := rfl
@[simp] theorem State.setLives_pending (s : State) (x) : (s.setLives x).pending = s.pending := rfl
@[simp] theorem State.setLives_notices (s : State) (x) : (s.setLives x).notices = s.notices := rfl
@[simp] theorem State.setLives_settled (s : State) (x) : (s.setLives x).settled = s.settled := rfl
@[simp] theorem State.setLives_now (s : State) (x) : (s.setLives x).now = s.now := rfl
@[simp] theorem State.setLives_tables (s : State) (x) : (s.setLives x).tables = s.tables := rfl
@[simp] theorem State.setLives_roles (s : State) (x) : (s.setLives x).roles = s.roles := rfl
@[simp] theorem State.setLives_framers (s : State) (x) : (s.setLives x).framers = s.framers := rfl
@[simp] theorem State.setLives_trackers (s : State) (x) : (s.setLives x).trackers = s.trackers := rfl
@[simp] theorem State.setLives_censusRecs (s : State) (x) : (s.setLives x).censusRecs = s.censusRecs := rfl
@[simp] theorem State.setLives_qmLanes (s : State) (x) : (s.setLives x).qmLanes = s.qmLanes := rfl
@[simp] theorem State.setLives_mismatch (s : State) (x) : (s.setLives x).mismatch = s.mismatch := rfl
@[simp] theorem State.setLives_lifetimes (s : State) (x) : (s.setLives x).lifetimes = s.lifetimes := rfl
@[simp] theorem State.setLives_buses (s : State) (x) : (s.setLives x).buses = s.buses := rfl
@[simp] theorem State.setLives_tuners (s : State) (x) : (s.setLives x).tuners = s.tuners := rfl
@[simp] theorem State.setLives_hostQueue (s : State) (x) : (s.setLives x).hostQueue = s.hostQueue := rfl
@[simp] theorem State.setLives_sched (s : State) (x) : (s.setLives x).sched = s.sched := rfl
@[simp] theorem State.setLives_clock (s : State) (x) : (s.setLives x).clock = s.clock := rfl
@[simp] theorem State.setLives_lives (s : State) (x) : (s.setLives x).lives = x := rfl
@[simp] theorem State.setLives_ranks (s : State) (x) : (s.setLives x).ranks = s.ranks := rfl
@[simp] theorem State.setLives_floors (s : State) (x) : (s.setLives x).floors = s.floors := rfl
@[simp] theorem State.setLives_outs (s : State) (x) : (s.setLives x).outs = s.outs := rfl
@[simp] theorem State.setLives_gates (s : State) (x) : (s.setLives x).gates = s.gates := rfl
@[simp] theorem State.setLives_cuts (s : State) (x) : (s.setLives x).cuts = s.cuts := rfl
@[simp] theorem State.setLives_inbound (s : State) (x) : (s.setLives x).inbound = s.inbound := rfl
@[simp] theorem State.setLives_mgmt (s : State) (x) : (s.setLives x).mgmt = s.mgmt := rfl
@[simp] theorem State.setLives_inds (s : State) (x) : (s.setLives x).inds = s.inds := rfl
@[simp] theorem State.setLives_prot (s : State) (x) : (s.setLives x).prot = s.prot := rfl
@[simp] theorem State.setLives_resetting (s : State) (x) : (s.setLives x).resetting = s.resetting := rfl
@[simp] theorem State.setRanks_pending (s : State) (x) : (s.setRanks x).pending = s.pending := rfl
@[simp] theorem State.setRanks_notices (s : State) (x) : (s.setRanks x).notices = s.notices := rfl
@[simp] theorem State.setRanks_settled (s : State) (x) : (s.setRanks x).settled = s.settled := rfl
@[simp] theorem State.setRanks_now (s : State) (x) : (s.setRanks x).now = s.now := rfl
@[simp] theorem State.setRanks_tables (s : State) (x) : (s.setRanks x).tables = s.tables := rfl
@[simp] theorem State.setRanks_roles (s : State) (x) : (s.setRanks x).roles = s.roles := rfl
@[simp] theorem State.setRanks_framers (s : State) (x) : (s.setRanks x).framers = s.framers := rfl
@[simp] theorem State.setRanks_trackers (s : State) (x) : (s.setRanks x).trackers = s.trackers := rfl
@[simp] theorem State.setRanks_censusRecs (s : State) (x) : (s.setRanks x).censusRecs = s.censusRecs := rfl
@[simp] theorem State.setRanks_qmLanes (s : State) (x) : (s.setRanks x).qmLanes = s.qmLanes := rfl
@[simp] theorem State.setRanks_mismatch (s : State) (x) : (s.setRanks x).mismatch = s.mismatch := rfl
@[simp] theorem State.setRanks_lifetimes (s : State) (x) : (s.setRanks x).lifetimes = s.lifetimes := rfl
@[simp] theorem State.setRanks_buses (s : State) (x) : (s.setRanks x).buses = s.buses := rfl
@[simp] theorem State.setRanks_tuners (s : State) (x) : (s.setRanks x).tuners = s.tuners := rfl
@[simp] theorem State.setRanks_hostQueue (s : State) (x) : (s.setRanks x).hostQueue = s.hostQueue := rfl
@[simp] theorem State.setRanks_sched (s : State) (x) : (s.setRanks x).sched = s.sched := rfl
@[simp] theorem State.setRanks_clock (s : State) (x) : (s.setRanks x).clock = s.clock := rfl
@[simp] theorem State.setRanks_lives (s : State) (x) : (s.setRanks x).lives = s.lives := rfl
@[simp] theorem State.setRanks_ranks (s : State) (x) : (s.setRanks x).ranks = x := rfl
@[simp] theorem State.setRanks_floors (s : State) (x) : (s.setRanks x).floors = s.floors := rfl
@[simp] theorem State.setRanks_outs (s : State) (x) : (s.setRanks x).outs = s.outs := rfl
@[simp] theorem State.setRanks_gates (s : State) (x) : (s.setRanks x).gates = s.gates := rfl
@[simp] theorem State.setRanks_cuts (s : State) (x) : (s.setRanks x).cuts = s.cuts := rfl
@[simp] theorem State.setRanks_inbound (s : State) (x) : (s.setRanks x).inbound = s.inbound := rfl
@[simp] theorem State.setRanks_mgmt (s : State) (x) : (s.setRanks x).mgmt = s.mgmt := rfl
@[simp] theorem State.setRanks_inds (s : State) (x) : (s.setRanks x).inds = s.inds := rfl
@[simp] theorem State.setRanks_prot (s : State) (x) : (s.setRanks x).prot = s.prot := rfl
@[simp] theorem State.setRanks_resetting (s : State) (x) : (s.setRanks x).resetting = s.resetting := rfl
@[simp] theorem State.setFloors_pending (s : State) (x) : (s.setFloors x).pending = s.pending := rfl
@[simp] theorem State.setFloors_notices (s : State) (x) : (s.setFloors x).notices = s.notices := rfl
@[simp] theorem State.setFloors_settled (s : State) (x) : (s.setFloors x).settled = s.settled := rfl
@[simp] theorem State.setFloors_now (s : State) (x) : (s.setFloors x).now = s.now := rfl
@[simp] theorem State.setFloors_tables (s : State) (x) : (s.setFloors x).tables = s.tables := rfl
@[simp] theorem State.setFloors_roles (s : State) (x) : (s.setFloors x).roles = s.roles := rfl
@[simp] theorem State.setFloors_framers (s : State) (x) : (s.setFloors x).framers = s.framers := rfl
@[simp] theorem State.setFloors_trackers (s : State) (x) : (s.setFloors x).trackers = s.trackers := rfl
@[simp] theorem State.setFloors_censusRecs (s : State) (x) : (s.setFloors x).censusRecs = s.censusRecs := rfl
@[simp] theorem State.setFloors_qmLanes (s : State) (x) : (s.setFloors x).qmLanes = s.qmLanes := rfl
@[simp] theorem State.setFloors_mismatch (s : State) (x) : (s.setFloors x).mismatch = s.mismatch := rfl
@[simp] theorem State.setFloors_lifetimes (s : State) (x) : (s.setFloors x).lifetimes = s.lifetimes := rfl
@[simp] theorem State.setFloors_buses (s : State) (x) : (s.setFloors x).buses = s.buses := rfl
@[simp] theorem State.setFloors_tuners (s : State) (x) : (s.setFloors x).tuners = s.tuners := rfl
@[simp] theorem State.setFloors_hostQueue (s : State) (x) : (s.setFloors x).hostQueue = s.hostQueue := rfl
@[simp] theorem State.setFloors_sched (s : State) (x) : (s.setFloors x).sched = s.sched := rfl
@[simp] theorem State.setFloors_clock (s : State) (x) : (s.setFloors x).clock = s.clock := rfl
@[simp] theorem State.setFloors_lives (s : State) (x) : (s.setFloors x).lives = s.lives := rfl
@[simp] theorem State.setFloors_ranks (s : State) (x) : (s.setFloors x).ranks = s.ranks := rfl
@[simp] theorem State.setFloors_floors (s : State) (x) : (s.setFloors x).floors = x := rfl
@[simp] theorem State.setFloors_outs (s : State) (x) : (s.setFloors x).outs = s.outs := rfl
@[simp] theorem State.setFloors_gates (s : State) (x) : (s.setFloors x).gates = s.gates := rfl
@[simp] theorem State.setFloors_cuts (s : State) (x) : (s.setFloors x).cuts = s.cuts := rfl
@[simp] theorem State.setFloors_inbound (s : State) (x) : (s.setFloors x).inbound = s.inbound := rfl
@[simp] theorem State.setFloors_mgmt (s : State) (x) : (s.setFloors x).mgmt = s.mgmt := rfl
@[simp] theorem State.setFloors_inds (s : State) (x) : (s.setFloors x).inds = s.inds := rfl
@[simp] theorem State.setFloors_prot (s : State) (x) : (s.setFloors x).prot = s.prot := rfl
@[simp] theorem State.setFloors_resetting (s : State) (x) : (s.setFloors x).resetting = s.resetting := rfl
@[simp] theorem State.setOuts_pending (s : State) (x) : (s.setOuts x).pending = s.pending := rfl
@[simp] theorem State.setOuts_notices (s : State) (x) : (s.setOuts x).notices = s.notices := rfl
@[simp] theorem State.setOuts_settled (s : State) (x) : (s.setOuts x).settled = s.settled := rfl
@[simp] theorem State.setOuts_now (s : State) (x) : (s.setOuts x).now = s.now := rfl
@[simp] theorem State.setOuts_tables (s : State) (x) : (s.setOuts x).tables = s.tables := rfl
@[simp] theorem State.setOuts_roles (s : State) (x) : (s.setOuts x).roles = s.roles := rfl
@[simp] theorem State.setOuts_framers (s : State) (x) : (s.setOuts x).framers = s.framers := rfl
@[simp] theorem State.setOuts_trackers (s : State) (x) : (s.setOuts x).trackers = s.trackers := rfl
@[simp] theorem State.setOuts_censusRecs (s : State) (x) : (s.setOuts x).censusRecs = s.censusRecs := rfl
@[simp] theorem State.setOuts_qmLanes (s : State) (x) : (s.setOuts x).qmLanes = s.qmLanes := rfl
@[simp] theorem State.setOuts_mismatch (s : State) (x) : (s.setOuts x).mismatch = s.mismatch := rfl
@[simp] theorem State.setOuts_lifetimes (s : State) (x) : (s.setOuts x).lifetimes = s.lifetimes := rfl
@[simp] theorem State.setOuts_buses (s : State) (x) : (s.setOuts x).buses = s.buses := rfl
@[simp] theorem State.setOuts_tuners (s : State) (x) : (s.setOuts x).tuners = s.tuners := rfl
@[simp] theorem State.setOuts_hostQueue (s : State) (x) : (s.setOuts x).hostQueue = s.hostQueue := rfl
@[simp] theorem State.setOuts_sched (s : State) (x) : (s.setOuts x).sched = s.sched := rfl
@[simp] theorem State.setOuts_clock (s : State) (x) : (s.setOuts x).clock = s.clock := rfl
@[simp] theorem State.setOuts_lives (s : State) (x) : (s.setOuts x).lives = s.lives := rfl
@[simp] theorem State.setOuts_ranks (s : State) (x) : (s.setOuts x).ranks = s.ranks := rfl
@[simp] theorem State.setOuts_floors (s : State) (x) : (s.setOuts x).floors = s.floors := rfl
@[simp] theorem State.setOuts_outs (s : State) (x) : (s.setOuts x).outs = x := rfl
@[simp] theorem State.setOuts_gates (s : State) (x) : (s.setOuts x).gates = s.gates := rfl
@[simp] theorem State.setOuts_cuts (s : State) (x) : (s.setOuts x).cuts = s.cuts := rfl
@[simp] theorem State.setOuts_inbound (s : State) (x) : (s.setOuts x).inbound = s.inbound := rfl
@[simp] theorem State.setOuts_mgmt (s : State) (x) : (s.setOuts x).mgmt = s.mgmt := rfl
@[simp] theorem State.setOuts_inds (s : State) (x) : (s.setOuts x).inds = s.inds := rfl
@[simp] theorem State.setOuts_prot (s : State) (x) : (s.setOuts x).prot = s.prot := rfl
@[simp] theorem State.setOuts_resetting (s : State) (x) : (s.setOuts x).resetting = s.resetting := rfl
@[simp] theorem State.setGates_pending (s : State) (x) : (s.setGates x).pending = s.pending := rfl
@[simp] theorem State.setGates_notices (s : State) (x) : (s.setGates x).notices = s.notices := rfl
@[simp] theorem State.setGates_settled (s : State) (x) : (s.setGates x).settled = s.settled := rfl
@[simp] theorem State.setGates_now (s : State) (x) : (s.setGates x).now = s.now := rfl
@[simp] theorem State.setGates_tables (s : State) (x) : (s.setGates x).tables = s.tables := rfl
@[simp] theorem State.setGates_roles (s : State) (x) : (s.setGates x).roles = s.roles := rfl
@[simp] theorem State.setGates_framers (s : State) (x) : (s.setGates x).framers = s.framers := rfl
@[simp] theorem State.setGates_trackers (s : State) (x) : (s.setGates x).trackers = s.trackers := rfl
@[simp] theorem State.setGates_censusRecs (s : State) (x) : (s.setGates x).censusRecs = s.censusRecs := rfl
@[simp] theorem State.setGates_qmLanes (s : State) (x) : (s.setGates x).qmLanes = s.qmLanes := rfl
@[simp] theorem State.setGates_mismatch (s : State) (x) : (s.setGates x).mismatch = s.mismatch := rfl
@[simp] theorem State.setGates_lifetimes (s : State) (x) : (s.setGates x).lifetimes = s.lifetimes := rfl
@[simp] theorem State.setGates_buses (s : State) (x) : (s.setGates x).buses = s.buses := rfl
@[simp] theorem State.setGates_tuners (s : State) (x) : (s.setGates x).tuners = s.tuners := rfl
@[simp] theorem State.setGates_hostQueue (s : State) (x) : (s.setGates x).hostQueue = s.hostQueue := rfl
@[simp] theorem State.setGates_sched (s : State) (x) : (s.setGates x).sched = s.sched := rfl
@[simp] theorem State.setGates_clock (s : State) (x) : (s.setGates x).clock = s.clock := rfl
@[simp] theorem State.setGates_lives (s : State) (x) : (s.setGates x).lives = s.lives := rfl
@[simp] theorem State.setGates_ranks (s : State) (x) : (s.setGates x).ranks = s.ranks := rfl
@[simp] theorem State.setGates_floors (s : State) (x) : (s.setGates x).floors = s.floors := rfl
@[simp] theorem State.setGates_outs (s : State) (x) : (s.setGates x).outs = s.outs := rfl
@[simp] theorem State.setGates_gates (s : State) (x) : (s.setGates x).gates = x := rfl
@[simp] theorem State.setGates_cuts (s : State) (x) : (s.setGates x).cuts = s.cuts := rfl
@[simp] theorem State.setGates_inbound (s : State) (x) : (s.setGates x).inbound = s.inbound := rfl
@[simp] theorem State.setGates_mgmt (s : State) (x) : (s.setGates x).mgmt = s.mgmt := rfl
@[simp] theorem State.setGates_inds (s : State) (x) : (s.setGates x).inds = s.inds := rfl
@[simp] theorem State.setGates_prot (s : State) (x) : (s.setGates x).prot = s.prot := rfl
@[simp] theorem State.setGates_resetting (s : State) (x) : (s.setGates x).resetting = s.resetting := rfl
@[simp] theorem State.setCuts_pending (s : State) (x) : (s.setCuts x).pending = s.pending := rfl
@[simp] theorem State.setCuts_notices (s : State) (x) : (s.setCuts x).notices = s.notices := rfl
@[simp] theorem State.setCuts_settled (s : State) (x) : (s.setCuts x).settled = s.settled := rfl
@[simp] theorem State.setCuts_now (s : State) (x) : (s.setCuts x).now = s.now := rfl
@[simp] theorem State.setCuts_tables (s : State) (x) : (s.setCuts x).tables = s.tables := rfl
@[simp] theorem State.setCuts_roles (s : State) (x) : (s.setCuts x).roles = s.roles := rfl
@[simp] theorem State.setCuts_framers (s : State) (x) : (s.setCuts x).framers = s.framers := rfl
@[simp] theorem State.setCuts_trackers (s : State) (x) : (s.setCuts x).trackers = s.trackers := rfl
@[simp] theorem State.setCuts_censusRecs (s : State) (x) : (s.setCuts x).censusRecs = s.censusRecs := rfl
@[simp] theorem State.setCuts_qmLanes (s : State) (x) : (s.setCuts x).qmLanes = s.qmLanes := rfl
@[simp] theorem State.setCuts_mismatch (s : State) (x) : (s.setCuts x).mismatch = s.mismatch := rfl
@[simp] theorem State.setCuts_lifetimes (s : State) (x) : (s.setCuts x).lifetimes = s.lifetimes := rfl
@[simp] theorem State.setCuts_buses (s : State) (x) : (s.setCuts x).buses = s.buses := rfl
@[simp] theorem State.setCuts_tuners (s : State) (x) : (s.setCuts x).tuners = s.tuners := rfl
@[simp] theorem State.setCuts_hostQueue (s : State) (x) : (s.setCuts x).hostQueue = s.hostQueue := rfl
@[simp] theorem State.setCuts_sched (s : State) (x) : (s.setCuts x).sched = s.sched := rfl
@[simp] theorem State.setCuts_clock (s : State) (x) : (s.setCuts x).clock = s.clock := rfl
@[simp] theorem State.setCuts_lives (s : State) (x) : (s.setCuts x).lives = s.lives := rfl
@[simp] theorem State.setCuts_ranks (s : State) (x) : (s.setCuts x).ranks = s.ranks := rfl
@[simp] theorem State.setCuts_floors (s : State) (x) : (s.setCuts x).floors = s.floors := rfl
@[simp] theorem State.setCuts_outs (s : State) (x) : (s.setCuts x).outs = s.outs := rfl
@[simp] theorem State.setCuts_gates (s : State) (x) : (s.setCuts x).gates = s.gates := rfl
@[simp] theorem State.setCuts_cuts (s : State) (x) : (s.setCuts x).cuts = x := rfl
@[simp] theorem State.setCuts_inbound (s : State) (x) : (s.setCuts x).inbound = s.inbound := rfl
@[simp] theorem State.setCuts_mgmt (s : State) (x) : (s.setCuts x).mgmt = s.mgmt := rfl
@[simp] theorem State.setCuts_inds (s : State) (x) : (s.setCuts x).inds = s.inds := rfl
@[simp] theorem State.setCuts_prot (s : State) (x) : (s.setCuts x).prot = s.prot := rfl
@[simp] theorem State.setCuts_resetting (s : State) (x) : (s.setCuts x).resetting = s.resetting := rfl
@[simp] theorem State.setInbound_pending (s : State) (x) : (s.setInbound x).pending = s.pending := rfl
@[simp] theorem State.setInbound_notices (s : State) (x) : (s.setInbound x).notices = s.notices := rfl
@[simp] theorem State.setInbound_settled (s : State) (x) : (s.setInbound x).settled = s.settled := rfl
@[simp] theorem State.setInbound_now (s : State) (x) : (s.setInbound x).now = s.now := rfl
@[simp] theorem State.setInbound_tables (s : State) (x) : (s.setInbound x).tables = s.tables := rfl
@[simp] theorem State.setInbound_roles (s : State) (x) : (s.setInbound x).roles = s.roles := rfl
@[simp] theorem State.setInbound_framers (s : State) (x) : (s.setInbound x).framers = s.framers := rfl
@[simp] theorem State.setInbound_trackers (s : State) (x) : (s.setInbound x).trackers = s.trackers := rfl
@[simp] theorem State.setInbound_censusRecs (s : State) (x) : (s.setInbound x).censusRecs = s.censusRecs := rfl
@[simp] theorem State.setInbound_qmLanes (s : State) (x) : (s.setInbound x).qmLanes = s.qmLanes := rfl
@[simp] theorem State.setInbound_mismatch (s : State) (x) : (s.setInbound x).mismatch = s.mismatch := rfl
@[simp] theorem State.setInbound_lifetimes (s : State) (x) : (s.setInbound x).lifetimes = s.lifetimes := rfl
@[simp] theorem State.setInbound_buses (s : State) (x) : (s.setInbound x).buses = s.buses := rfl
@[simp] theorem State.setInbound_tuners (s : State) (x) : (s.setInbound x).tuners = s.tuners := rfl
@[simp] theorem State.setInbound_hostQueue (s : State) (x) : (s.setInbound x).hostQueue = s.hostQueue := rfl
@[simp] theorem State.setInbound_sched (s : State) (x) : (s.setInbound x).sched = s.sched := rfl
@[simp] theorem State.setInbound_clock (s : State) (x) : (s.setInbound x).clock = s.clock := rfl
@[simp] theorem State.setInbound_lives (s : State) (x) : (s.setInbound x).lives = s.lives := rfl
@[simp] theorem State.setInbound_ranks (s : State) (x) : (s.setInbound x).ranks = s.ranks := rfl
@[simp] theorem State.setInbound_floors (s : State) (x) : (s.setInbound x).floors = s.floors := rfl
@[simp] theorem State.setInbound_outs (s : State) (x) : (s.setInbound x).outs = s.outs := rfl
@[simp] theorem State.setInbound_gates (s : State) (x) : (s.setInbound x).gates = s.gates := rfl
@[simp] theorem State.setInbound_cuts (s : State) (x) : (s.setInbound x).cuts = s.cuts := rfl
@[simp] theorem State.setInbound_inbound (s : State) (x) : (s.setInbound x).inbound = x := rfl
@[simp] theorem State.setInbound_mgmt (s : State) (x) : (s.setInbound x).mgmt = s.mgmt := rfl
@[simp] theorem State.setInbound_inds (s : State) (x) : (s.setInbound x).inds = s.inds := rfl
@[simp] theorem State.setInbound_prot (s : State) (x) : (s.setInbound x).prot = s.prot := rfl
@[simp] theorem State.setInbound_resetting (s : State) (x) : (s.setInbound x).resetting = s.resetting := rfl
@[simp] theorem State.setMgmt_pending (s : State) (x) : (s.setMgmt x).pending = s.pending := rfl
@[simp] theorem State.setMgmt_notices (s : State) (x) : (s.setMgmt x).notices = s.notices := rfl
@[simp] theorem State.setMgmt_settled (s : State) (x) : (s.setMgmt x).settled = s.settled := rfl
@[simp] theorem State.setMgmt_now (s : State) (x) : (s.setMgmt x).now = s.now := rfl
@[simp] theorem State.setMgmt_tables (s : State) (x) : (s.setMgmt x).tables = s.tables := rfl
@[simp] theorem State.setMgmt_roles (s : State) (x) : (s.setMgmt x).roles = s.roles := rfl
@[simp] theorem State.setMgmt_framers (s : State) (x) : (s.setMgmt x).framers = s.framers := rfl
@[simp] theorem State.setMgmt_trackers (s : State) (x) : (s.setMgmt x).trackers = s.trackers := rfl
@[simp] theorem State.setMgmt_censusRecs (s : State) (x) : (s.setMgmt x).censusRecs = s.censusRecs := rfl
@[simp] theorem State.setMgmt_qmLanes (s : State) (x) : (s.setMgmt x).qmLanes = s.qmLanes := rfl
@[simp] theorem State.setMgmt_mismatch (s : State) (x) : (s.setMgmt x).mismatch = s.mismatch := rfl
@[simp] theorem State.setMgmt_lifetimes (s : State) (x) : (s.setMgmt x).lifetimes = s.lifetimes := rfl
@[simp] theorem State.setMgmt_buses (s : State) (x) : (s.setMgmt x).buses = s.buses := rfl
@[simp] theorem State.setMgmt_tuners (s : State) (x) : (s.setMgmt x).tuners = s.tuners := rfl
@[simp] theorem State.setMgmt_hostQueue (s : State) (x) : (s.setMgmt x).hostQueue = s.hostQueue := rfl
@[simp] theorem State.setMgmt_sched (s : State) (x) : (s.setMgmt x).sched = s.sched := rfl
@[simp] theorem State.setMgmt_clock (s : State) (x) : (s.setMgmt x).clock = s.clock := rfl
@[simp] theorem State.setMgmt_lives (s : State) (x) : (s.setMgmt x).lives = s.lives := rfl
@[simp] theorem State.setMgmt_ranks (s : State) (x) : (s.setMgmt x).ranks = s.ranks := rfl
@[simp] theorem State.setMgmt_floors (s : State) (x) : (s.setMgmt x).floors = s.floors := rfl
@[simp] theorem State.setMgmt_outs (s : State) (x) : (s.setMgmt x).outs = s.outs := rfl
@[simp] theorem State.setMgmt_gates (s : State) (x) : (s.setMgmt x).gates = s.gates := rfl
@[simp] theorem State.setMgmt_cuts (s : State) (x) : (s.setMgmt x).cuts = s.cuts := rfl
@[simp] theorem State.setMgmt_inbound (s : State) (x) : (s.setMgmt x).inbound = s.inbound := rfl
@[simp] theorem State.setMgmt_mgmt (s : State) (x) : (s.setMgmt x).mgmt = x := rfl
@[simp] theorem State.setMgmt_inds (s : State) (x) : (s.setMgmt x).inds = s.inds := rfl
@[simp] theorem State.setMgmt_prot (s : State) (x) : (s.setMgmt x).prot = s.prot := rfl
@[simp] theorem State.setMgmt_resetting (s : State) (x) : (s.setMgmt x).resetting = s.resetting := rfl
@[simp] theorem State.setInds_pending (s : State) (x) : (s.setInds x).pending = s.pending := rfl
@[simp] theorem State.setInds_notices (s : State) (x) : (s.setInds x).notices = s.notices := rfl
@[simp] theorem State.setInds_settled (s : State) (x) : (s.setInds x).settled = s.settled := rfl
@[simp] theorem State.setInds_now (s : State) (x) : (s.setInds x).now = s.now := rfl
@[simp] theorem State.setInds_tables (s : State) (x) : (s.setInds x).tables = s.tables := rfl
@[simp] theorem State.setInds_roles (s : State) (x) : (s.setInds x).roles = s.roles := rfl
@[simp] theorem State.setInds_framers (s : State) (x) : (s.setInds x).framers = s.framers := rfl
@[simp] theorem State.setInds_trackers (s : State) (x) : (s.setInds x).trackers = s.trackers := rfl
@[simp] theorem State.setInds_censusRecs (s : State) (x) : (s.setInds x).censusRecs = s.censusRecs := rfl
@[simp] theorem State.setInds_qmLanes (s : State) (x) : (s.setInds x).qmLanes = s.qmLanes := rfl
@[simp] theorem State.setInds_mismatch (s : State) (x) : (s.setInds x).mismatch = s.mismatch := rfl
@[simp] theorem State.setInds_lifetimes (s : State) (x) : (s.setInds x).lifetimes = s.lifetimes := rfl
@[simp] theorem State.setInds_buses (s : State) (x) : (s.setInds x).buses = s.buses := rfl
@[simp] theorem State.setInds_tuners (s : State) (x) : (s.setInds x).tuners = s.tuners := rfl
@[simp] theorem State.setInds_hostQueue (s : State) (x) : (s.setInds x).hostQueue = s.hostQueue := rfl
@[simp] theorem State.setInds_sched (s : State) (x) : (s.setInds x).sched = s.sched := rfl
@[simp] theorem State.setInds_clock (s : State) (x) : (s.setInds x).clock = s.clock := rfl
@[simp] theorem State.setInds_lives (s : State) (x) : (s.setInds x).lives = s.lives := rfl
@[simp] theorem State.setInds_ranks (s : State) (x) : (s.setInds x).ranks = s.ranks := rfl
@[simp] theorem State.setInds_floors (s : State) (x) : (s.setInds x).floors = s.floors := rfl
@[simp] theorem State.setInds_outs (s : State) (x) : (s.setInds x).outs = s.outs := rfl
@[simp] theorem State.setInds_gates (s : State) (x) : (s.setInds x).gates = s.gates := rfl
@[simp] theorem State.setInds_cuts (s : State) (x) : (s.setInds x).cuts = s.cuts := rfl
@[simp] theorem State.setInds_inbound (s : State) (x) : (s.setInds x).inbound = s.inbound := rfl
@[simp] theorem State.setInds_mgmt (s : State) (x) : (s.setInds x).mgmt = s.mgmt := rfl
@[simp] theorem State.setInds_inds (s : State) (x) : (s.setInds x).inds = x := rfl
@[simp] theorem State.setInds_prot (s : State) (x) : (s.setInds x).prot = s.prot := rfl
@[simp] theorem State.setInds_resetting (s : State) (x) : (s.setInds x).resetting = s.resetting := rfl
@[simp] theorem State.setProt_pending (s : State) (x) : (s.setProt x).pending = s.pending := rfl
@[simp] theorem State.setProt_notices (s : State) (x) : (s.setProt x).notices = s.notices := rfl
@[simp] theorem State.setProt_settled (s : State) (x) : (s.setProt x).settled = s.settled := rfl
@[simp] theorem State.setProt_now (s : State) (x) : (s.setProt x).now = s.now := rfl
@[simp] theorem State.setProt_tables (s : State) (x) : (s.setProt x).tables = s.tables := rfl
@[simp] theorem State.setProt_roles (s : State) (x) : (s.setProt x).roles = s.roles := rfl
@[simp] theorem State.setProt_framers (s : State) (x) : (s.setProt x).framers = s.framers := rfl
@[simp] theorem State.setProt_trackers (s : State) (x) : (s.setProt x).trackers = s.trackers := rfl
@[simp] theorem State.setProt_censusRecs (s : State) (x) : (s.setProt x).censusRecs = s.censusRecs := rfl
@[simp] theorem State.setProt_qmLanes (s : State) (x) : (s.setProt x).qmLanes = s.qmLanes := rfl
@[simp] theorem State.setProt_mismatch (s : State) (x) : (s.setProt x).mismatch = s.mismatch := rfl
@[simp] theorem State.setProt_lifetimes (s : State) (x) : (s.setProt x).lifetimes = s.lifetimes := rfl
@[simp] theorem State.setProt_buses (s : State) (x) : (s.setProt x).buses = s.buses := rfl
@[simp] theorem State.setProt_tuners (s : State) (x) : (s.setProt x).tuners = s.tuners := rfl
@[simp] theorem State.setProt_hostQueue (s : State) (x) : (s.setProt x).hostQueue = s.hostQueue := rfl
@[simp] theorem State.setProt_sched (s : State) (x) : (s.setProt x).sched = s.sched := rfl
@[simp] theorem State.setProt_clock (s : State) (x) : (s.setProt x).clock = s.clock := rfl
@[simp] theorem State.setProt_lives (s : State) (x) : (s.setProt x).lives = s.lives := rfl
@[simp] theorem State.setProt_ranks (s : State) (x) : (s.setProt x).ranks = s.ranks := rfl
@[simp] theorem State.setProt_floors (s : State) (x) : (s.setProt x).floors = s.floors := rfl
@[simp] theorem State.setProt_outs (s : State) (x) : (s.setProt x).outs = s.outs := rfl
@[simp] theorem State.setProt_gates (s : State) (x) : (s.setProt x).gates = s.gates := rfl
@[simp] theorem State.setProt_cuts (s : State) (x) : (s.setProt x).cuts = s.cuts := rfl
@[simp] theorem State.setProt_inbound (s : State) (x) : (s.setProt x).inbound = s.inbound := rfl
@[simp] theorem State.setProt_mgmt (s : State) (x) : (s.setProt x).mgmt = s.mgmt := rfl
@[simp] theorem State.setProt_inds (s : State) (x) : (s.setProt x).inds = s.inds := rfl
@[simp] theorem State.setProt_prot (s : State) (x) : (s.setProt x).prot = x := rfl
@[simp] theorem State.setProt_resetting (s : State) (x) : (s.setProt x).resetting = s.resetting := rfl
@[simp] theorem State.setResetting_pending (s : State) (x) : (s.setResetting x).pending = s.pending := rfl
@[simp] theorem State.setResetting_notices (s : State) (x) : (s.setResetting x).notices = s.notices := rfl
@[simp] theorem State.setResetting_settled (s : State) (x) : (s.setResetting x).settled = s.settled := rfl
@[simp] theorem State.setResetting_now (s : State) (x) : (s.setResetting x).now = s.now := rfl
@[simp] theorem State.setResetting_tables (s : State) (x) : (s.setResetting x).tables = s.tables := rfl
@[simp] theorem State.setResetting_roles (s : State) (x) : (s.setResetting x).roles = s.roles := rfl
@[simp] theorem State.setResetting_framers (s : State) (x) : (s.setResetting x).framers = s.framers := rfl
@[simp] theorem State.setResetting_trackers (s : State) (x) : (s.setResetting x).trackers = s.trackers := rfl
@[simp] theorem State.setResetting_censusRecs (s : State) (x) : (s.setResetting x).censusRecs = s.censusRecs := rfl
@[simp] theorem State.setResetting_qmLanes (s : State) (x) : (s.setResetting x).qmLanes = s.qmLanes := rfl
@[simp] theorem State.setResetting_mismatch (s : State) (x) : (s.setResetting x).mismatch = s.mismatch := rfl
@[simp] theorem State.setResetting_lifetimes (s : State) (x) : (s.setResetting x).lifetimes = s.lifetimes := rfl
@[simp] theorem State.setResetting_buses (s : State) (x) : (s.setResetting x).buses = s.buses := rfl
@[simp] theorem State.setResetting_tuners (s : State) (x) : (s.setResetting x).tuners = s.tuners := rfl
@[simp] theorem State.setResetting_hostQueue (s : State) (x) : (s.setResetting x).hostQueue = s.hostQueue := rfl
@[simp] theorem State.setResetting_sched (s : State) (x) : (s.setResetting x).sched = s.sched := rfl
@[simp] theorem State.setResetting_clock (s : State) (x) : (s.setResetting x).clock = s.clock := rfl
@[simp] theorem State.setResetting_lives (s : State) (x) : (s.setResetting x).lives = s.lives := rfl
@[simp] theorem State.setResetting_ranks (s : State) (x) : (s.setResetting x).ranks = s.ranks := rfl
@[simp] theorem State.setResetting_floors (s : State) (x) : (s.setResetting x).floors = s.floors := rfl
@[simp] theorem State.setResetting_outs (s : State) (x) : (s.setResetting x).outs = s.outs := rfl
@[simp] theorem State.setResetting_gates (s : State) (x) : (s.setResetting x).gates = s.gates := rfl
@[simp] theorem State.setResetting_cuts (s : State) (x) : (s.setResetting x).cuts = s.cuts := rfl
@[simp] theorem State.setResetting_inbound (s : State) (x) : (s.setResetting x).inbound = s.inbound := rfl
@[simp] theorem State.setResetting_mgmt (s : State) (x) : (s.setResetting x).mgmt = s.mgmt := rfl
@[simp] theorem State.setResetting_inds (s : State) (x) : (s.setResetting x).inds = s.inds := rfl
@[simp] theorem State.setResetting_prot (s : State) (x) : (s.setResetting x).prot = s.prot := rfl
@[simp] theorem State.setResetting_resetting (s : State) (x) : (s.setResetting x).resetting = x := rfl

end Sys2Proof.Machine
end

