-- ==== Sys2Proof/Laws/Act.lean ====
section
/-! SUPPORT. What a command or an event does when nothing else acts: with no hand-over, no run left to end and none caused,
the command's own effect is all. -/

namespace Sys2Proof.Laws
open Sys2Proof.Machine

set_option Elab.async false

/-- With no hand-over waiting there is nothing to take. -/
theorem drain_nil (n : Nat) (s : State) (h : s.notices = []) : State.drain n s = s := by
  cases n with
  | zero => rfl
  | succ n => simp only [State.drain, h]

/-- One hand-over, taken first. -/
theorem drain_cons (n : Nat) (s : State) (a : Notice) (rest : List Notice) (h : s.notices = a :: rest) :
    State.drain (n + 1) s = State.drain n ((s.setNotices rest).takeNotice a) := by
  simp only [State.drain, h]

theorem wake_quiet (s : State) (h : s.Quiet) : s.wake = s := by
  have hb : ∀ b, b < 4 → s.wakeBus b = s := fun b hb => by simp only [State.wakeBus, h.2.2 b hb]
  show (List.range 4).foldl State.wakeBus s = s
  simp only [List.range, List.range.loop, List.foldl, hb 0 (by omega), hb 1 (by omega), hb 2 (by omega), hb 3 (by omega)]

theorem setSettled_eq (s : State) (h : s.settled = []) : s.setSettled [] = s := by
  cases s
  cases h
  rfl

/-- A command whose own effect hands nothing on does that effect and nothing else. -/
theorem act_quiet (f : State → State) (s : State) (h : s.Quiet) (hn : (f s).notices = []) (hs : (f s).settled = []) :
    s.act f = f s := by
  unfold State.act
  rw [wake_quiet s h, drain_nil _ _ hn, setSettled_eq _ hs]

/-- A command whose own effect hands one notice on does its effect, and that notice is taken; if that hands nothing on, no
more happens. -/
theorem act_one (f : State → State) (s : State) (h : s.Quiet) (a : Notice) (hn : (f s).notices = [a])
    (h1 : (((f s).setNotices []).takeNotice a).notices = []) (h2 : (((f s).setNotices []).takeNotice a).settled = []) :
    s.act f = ((f s).setNotices []).takeNotice a := by
  unfold State.act
  rw [wake_quiet s h]
  show (State.drain (99999 + 1) (f s)).setSettled [] = _
  rw [drain_cons _ _ a [] hn, drain_nil _ _ h1, setSettled_eq _ h2]

/-- The list of replies has room: the reply joins it. -/
theorem answer_room (s : State) (c : Cmd) (o d x) (h : s.mgmt.replies.length < 16) :
    s.answer c o d x = s.withReply { tag := c.tag, kind := c.kind, outcome := o, detail := d, data := x } :=
  if_pos h

/-- The head of the inbound queue is taken when it belongs to the row. -/
theorem takeHead_eq (p : Cmd → Bool) (f : Cmd → State → State) (s : State) (c : Cmd) (rest : List Cmd)
    (hi : s.resetting = none) (hh : s.inbound = c :: rest) (hp : p c = true) : State.takeHead p f s = f c (s.setInbound rest) := by
  simp only [State.takeHead, hi, hh, hp, if_true]

end Sys2Proof.Laws
end

