-- ==== Sys2Proof/Laws/Tables.lean ====
section
/-! SUPPORT. Laws of the sparse tables: a read after a write, and the canonical form that every write keeps. -/

namespace Sys2Proof.Laws
open Sys2Proof.Machine

set_option Elab.async false

variable {α : Type} [DecidableEq α]

omit [DecidableEq α] in
@[simp] theorem tab_get_nil (d : α) (i : Nat) : Tab.get d [] i = d := rfl

theorem tab_get_below (d : α) (t : Tab α) (lo i : Nat) (h : Tab.wfFrom d lo t = true) (hi : i < lo) : Tab.get d t i = d := by
  induction t generalizing lo with
  | nil => rfl
  | cons e t ih =>
    obtain ⟨k, v⟩ := e
    simp only [Tab.wfFrom, Bool.and_eq_true, decide_eq_true_eq] at h
    have hk : k ≠ i := by omega
    simp only [Tab.get, hk, if_false]
    exact ih (k + 1) h.2 (by omega)

/-- A read of the index that was written gives the value written, in a canonical table. -/
theorem tab_get_set_same (d : α) (t : Tab α) (lo i : Nat) (v : α) (h : Tab.wfFrom d lo t = true) :
    Tab.get d (Tab.set d t i v) i = v := by
  induction t generalizing lo with
  | nil => by_cases hv : v = d <;> simp [Tab.set, Tab.get, hv]
  | cons e t ih =>
    obtain ⟨k, w⟩ := e
    simp only [Tab.wfFrom, Bool.and_eq_true, decide_eq_true_eq] at h
    simp only [Tab.set]
    split
    · rename_i hlt
      split
      · rename_i hv
        have hk : k ≠ i := by omega
        simp only [Tab.get, hk, if_false, hv]
        exact tab_get_below d t (k + 1) i h.2 (by omega)
      · simp [Tab.get]
    · split
      · rename_i hik
        split
        · rename_i hv
          rw [hv]
          exact tab_get_below d t (k + 1) i h.2 (by omega)
        · simp [Tab.get]
      · rename_i hik
        have hk : k ≠ i := fun e => hik e.symm
        simp only [Tab.get, hk, if_false]
        exact ih (k + 1) h.2

/-- A read of the index where a value other than the default was written gives that value, in any table. -/
theorem tab_get_set_ne (d : α) (t : Tab α) (i : Nat) (v : α) (hv : v ≠ d) : Tab.get d (Tab.set d t i v) i = v := by
  induction t with
  | nil => simp [Tab.set, Tab.get, hv]
  | cons e t ih =>
    obtain ⟨k, w⟩ := e
    simp only [Tab.set, hv, if_false]
    split
    · simp [Tab.get]
    · split
      · simp [Tab.get]
      · rename_i hik
        have hk : k ≠ i := fun e => hik e.symm
        simp only [Tab.get, hk, if_false]
        exact ih

/-- A write leaves every other index as it reads. -/
theorem tab_get_set_other (d : α) (t : Tab α) (i j : Nat) (v : α) (h : j ≠ i) :
    Tab.get d (Tab.set d t i v) j = Tab.get d t j := by
  have h' : i ≠ j := fun e => h e.symm
  induction t with
  | nil => by_cases hv : v = d <;> simp [Tab.set, Tab.get, hv, h']
  | cons e t ih =>
    obtain ⟨k, w⟩ := e
    simp only [Tab.set]
    split
    · split <;> simp [Tab.get, h']
    · split
      · rename_i hik
        split <;> simp [Tab.get, ← hik, h']
      · simp only [Tab.get, ih]

theorem tab_wfFrom_mono (d : α) (t : Tab α) (hi lo : Nat) (h : Tab.wfFrom d hi t = true) (hl : lo ≤ hi) :
    Tab.wfFrom d lo t = true := by
  cases t with
  | nil => rfl
  | cons e t =>
    obtain ⟨k, w⟩ := e
    simp only [Tab.wfFrom, Bool.and_eq_true, decide_eq_true_eq] at h ⊢
    exact ⟨⟨by omega, h.1.2⟩, h.2⟩

theorem tab_wfFrom_set (d : α) (t : Tab α) (lo i : Nat) (v : α) (h : Tab.wfFrom d lo t = true) (hi : lo ≤ i) :
    Tab.wfFrom d lo (Tab.set d t i v) = true := by
  induction t generalizing lo with
  | nil =>
    simp only [Tab.set]
    split <;> simp_all [Tab.wfFrom]
  | cons e t ih =>
    obtain ⟨k, w⟩ := e
    simp only [Tab.wfFrom, Bool.and_eq_true, decide_eq_true_eq] at h
    simp only [Tab.set]
    split
    · rename_i hlt
      split
      · simp only [Tab.wfFrom, Bool.and_eq_true, decide_eq_true_eq]
        exact h
      · rename_i hv
        simp only [Tab.wfFrom, Bool.and_eq_true, decide_eq_true_eq]
        exact ⟨⟨hi, hv⟩, ⟨by omega, h.1.2⟩, h.2⟩
    · split
      · rename_i hik
        split
        · exact tab_wfFrom_mono d t (k + 1) lo h.2 (by omega)
        · rename_i hv
          simp only [Tab.wfFrom, Bool.and_eq_true, decide_eq_true_eq]
          exact ⟨⟨hi, hv⟩, hik ▸ h.2⟩
      · rename_i hlt hik
        simp only [Tab.wfFrom, Bool.and_eq_true, decide_eq_true_eq]
        exact ⟨h.1, ih (k + 1) h.2 (by omega)⟩

/-- A write keeps the canonical form. -/
theorem tab_wf_set (d : α) (t : Tab α) (i : Nat) (v : α) (h : Tab.wf d t = true) : Tab.wf d (Tab.set d t i v) = true :=
  tab_wfFrom_set d t 0 i v h (Nat.zero_le i)

end Sys2Proof.Laws
end

