-- ==== Sys2Proof/Laws/Reach.lean ====
section
/-! SUPPORT. What the operations of the blocks can do to State, said once: every operation is a chain of the primitive
updates of `Prim`, each with the condition it is made under. A level bounds the fields a chain may touch: 0 lanes, buses,
indications and report packets; 1 all that hand-overs between blocks change; 2 all that events and commands change but for
the protection; 3 the protection too. No chain changes the queue of commands. With the flag `fl` the chain keeps scores in
their range, which needs reports in theirs; without it nothing is asked of the reports. -/

namespace Sys2Proof.Laws
open Sys2Proof.Machine

set_option Elab.async false

/-- The record occupies a multiplex (R15, R90). -/
def holds (r : Tuner) (x : Nat) : Bool :=
  decide (r.mux = some x) && (decide (r.state = .tuning) || decide (r.state = .acquiring) || decide (r.state = .observing))

/-! ## A property of every entry of a table -/

theorem tab_all_get {α : Type} {P : α → Prop} {d : α} (hd : P d) (l : Tab α) (h : Tab.all P l) (i : Nat) :
    P (Tab.get d l i) := by
  induction l with
  | nil => exact hd
  | cons e l ih =>
    obtain ⟨k, v⟩ := e
    simp only [Tab.get]
    split
    · exact h (k, v) List.mem_cons_self
    · exact ih (fun x hx => h x (List.mem_cons_of_mem _ hx))

theorem tab_all_set {α : Type} [DecidableEq α] {P : α → Prop} (d : α) (l : Tab α) (h : Tab.all P l) (i : Nat) (v : α)
    (hv : P v) : Tab.all P (Tab.set d l i v) := by
  induction l with
  | nil =>
    simp only [Tab.set]
    split
    · exact h
    · intro e he; rw [List.mem_singleton.mp he]; exact hv
  | cons e l ih =>
    obtain ⟨k, x⟩ := e
    have hl : Tab.all P l := fun y hy => h y (List.mem_cons_of_mem _ hy)
    have hx : P x := h (k, x) List.mem_cons_self
    simp only [Tab.set]
    split
    · split
      · exact h
      · intro e he
        rcases List.mem_cons.mp he with rfl | he
        · exact hv
        · exact h e he
    · split
      · split
        · exact hl
        · intro e he
          rcases List.mem_cons.mp he with rfl | he
          · exact hv
          · exact hl e he
      · intro e he
        rcases List.mem_cons.mp he with rfl | he
        · exact hx
        · exact ih hl e he

/-! ## Primitive updates and chains -/

theorem occupies_eq (s : State) (t x : Nat) : s.occupies t x = holds (s.tuner t) x := rfl

/-- One primitive update of a level, with the condition it is made under. -/
inductive Prim (fl : Bool) (w : Nat) (s : State) : State → Prop
  | notices (l) (h : (∀ n, (s.qmLane n).ok) → (∀ n ∈ s.notices, n.ok) → ∀ n ∈ l, n.ok) : Prim fl w s (s.setNotices l)
  | settled (l) : Prim fl w s (s.setSettled l)
  | framer (n f) : Prim fl w s (s.putFramer n f)
  | tracker (n x) (h : (s.tracker n).ok → x.ok) : Prim fl w s (s.putTracker n x)
  | lane (n q) (h : (s.qmLane n).ok → q.ok) : Prim fl w s (s.putQmLane n q)
  | bus (b u) (h : (s.bus b).ok → u.ok) : Prim fl w s (s.putBus b u)
  | inds (i : Indications) (h1 : Tab.wf false s.inds.latched = true → Tab.wf false i.latched = true)
      (h2 : Tab.wf false s.inds.status = true → Tab.wf false i.status = true) : Prim fl w s (s.setInds i)
  | mgmt (m : Mgmt) (h : s.mgmt.ok → m.ok) (hr : 2 ≤ w ∨ m.replies = s.mgmt.replies) : Prim fl w s (s.setMgmt m)
  | role (hw : 1 ≤ w) (t r) : Prim fl w s (s.putRole t r)
  | census (hw : 1 ≤ w) (x r) (h : (∀ n, (s.tracker n).ok) → censusRecordOk r) : Prim fl w s (s.putCensusRec x r)
  | mismatch (hw : 1 ≤ w) (x b) : Prim fl w s (s.putMismatched x b)
  | tuner (hw : 1 ≤ w) (t r) (h : ∀ x, holds r x = true → s.occupies t x = true ∨ s.occupied x = false) :
      Prim fl w s (s.putTuner t r)
  | hostQueue (hw : 1 ≤ w) (l) (h : hostQueueOk s.hostQueue → hostQueueOk l) : Prim fl w s (s.setHostQueue l)
  | sched (hw : 1 ≤ w) (c : Sched) (h : (∀ x, (s.mux x).dwell ≤ 16) → s.sched.ok → c.ok)
      (hv : Tab.wf none s.sched.visits = true → Tab.wf none c.visits = true)
      (hl : Tab.wf none s.sched.lastOutcome = true → Tab.wf none c.lastOutcome = true) : Prim fl w s (s.setSched c)
  | live (hw : 1 ≤ w) (i l) (h : fl = true → (s.live i).ok → l.ok) : Prim fl w s (s.putLive i l)
  | rank (hw : 1 ≤ w) (v k) (h : (s.rank v).ok → k.ok) : Prim fl w s (s.putRank v k)
  | floor (hw : 1 ≤ w) (v x) : Prim fl w s (s.putFloor v x)
  | out (hw : 1 ≤ w) (o x) (h : (s.out o).ok → x.ok)
      (hc : Tab.wf 0 (s.out o).counters = true → Tab.wf 0 x.counters = true) : Prim fl w s (s.putOut o x)
  | gate (hw : 1 ≤ w) (v g) : Prim fl w s (s.putGate v g)
  | cut (hw : 1 ≤ w) (v c) : Prim fl w s (s.putCut v c)
  | life (hw : 2 ≤ w) (n l) (h : (s.lifetime n).ok → l.ok) : Prim fl w s (s.putLifetime n l)
  | now (hw : 2 ≤ w) (n) : Prim fl w s (s.setNow n)
  | tables (hw : 2 ≤ w) (x : Tables) (h : s.tables.canonical → x.canonical)
      (hd : Tab.all (fun r : MuxRec => r.dwell ≤ 16) s.tables.muxes → Tab.all (fun r : MuxRec => r.dwell ≤ 16) x.muxes) : Prim fl w s (s.setTables x)
  | clock (hw : 2 ≤ w) (c : RankClock) (h : s.clock.secs ≤ 4294967295 → c.secs ≤ 4294967295) : Prim fl w s (s.setClock c)
  | inbound (hw : 2 ≤ w) (l : List Cmd) (h : s.inbound.length ≤ 8 → l.length ≤ 8) : Prim fl w s (s.setInbound l)
  | resetting (hw : 2 ≤ w) (c) : Prim fl w s (s.setResetting c)
  | noMismatch (hw : 2 ≤ w) : Prim fl w s (s.setMismatch [])
  | noLives (hw : 2 ≤ w) : Prim fl w s (s.setLives [])
  | noRanks (hw : 2 ≤ w) : Prim fl w s (s.setRanks [])
  | noGates (hw : 2 ≤ w) : Prim fl w s (s.setGates [])
  | noCuts (hw : 2 ≤ w) : Prim fl w s (s.setCuts [])
  | prot (hw : 3 ≤ w) (p) : Prim fl w s (s.setProt p)

/-- A chain of primitive updates. -/
inductive Reach (fl : Bool) (w : Nat) (s : State) : State → Prop
  | refl : Reach fl w s s
  | step {t u : State} (h : Reach fl w s t) (p : Prim fl w t u) : Reach fl w s u

variable {fl : Bool} {w : Nat} {s t : State}

theorem Reach.trans {u : State} (h : Reach fl w s t) (h' : Reach fl w t u) : Reach fl w s u := by
  induction h' with
  | refl => exact h
  | step _ p ih => exact ih.step p

/-- What holds of a state and is kept by every primitive update holds of every state reached. -/
theorem Reach.keeps {P : State → Prop} (hp : ∀ a b, Prim fl w a b → P a → P b) (h : Reach fl w s t) (hs : P s) : P t := by
  induction h with
  | refl => exact hs
  | step _ p ih => exact hp _ _ p ih

theorem Prim.widen {v : Nat} (hv : v ≤ w) (h : Prim fl v s t) : Prim fl w s t := by
  cases h with
  | notices l h => exact .notices l h
  | settled l => exact .settled l
  | framer n f => exact .framer n f
  | tracker n x h => exact .tracker n x h
  | lane n q h => exact .lane n q h
  | bus b u h => exact .bus b u h
  | inds i h1 h2 => exact .inds i h1 h2
  | mgmt m h hr => exact .mgmt m h (hr.imp_left (fun x => Nat.le_trans x hv))
  | role hw a r => exact .role (Nat.le_trans hw hv) a r
  | census hw x r h => exact .census (Nat.le_trans hw hv) x r h
  | mismatch hw x b => exact .mismatch (Nat.le_trans hw hv) x b
  | tuner hw a r h => exact .tuner (Nat.le_trans hw hv) a r h
  | hostQueue hw l h => exact .hostQueue (Nat.le_trans hw hv) l h
  | sched hw c h h1 h2 => exact .sched (Nat.le_trans hw hv) c h h1 h2
  | live hw i l h => exact .live (Nat.le_trans hw hv) i l h
  | rank hw v k h => exact .rank (Nat.le_trans hw hv) v k h
  | floor hw v x => exact .floor (Nat.le_trans hw hv) v x
  | out hw o x h hc => exact .out (Nat.le_trans hw hv) o x h hc
  | gate hw v g => exact .gate (Nat.le_trans hw hv) v g
  | cut hw v c => exact .cut (Nat.le_trans hw hv) v c
  | life hw n l h => exact .life (Nat.le_trans hw hv) n l h
  | now hw n => exact .now (Nat.le_trans hw hv) n
  | tables hw x h hd => exact .tables (Nat.le_trans hw hv) x h hd
  | clock hw c h => exact .clock (Nat.le_trans hw hv) c h
  | inbound hw l h => exact .inbound (Nat.le_trans hw hv) l h
  | resetting hw c => exact .resetting (Nat.le_trans hw hv) c
  | noMismatch hw => exact .noMismatch (Nat.le_trans hw hv)
  | noLives hw => exact .noLives (Nat.le_trans hw hv)
  | noRanks hw => exact .noRanks (Nat.le_trans hw hv)
  | noGates hw => exact .noGates (Nat.le_trans hw hv)
  | noCuts hw => exact .noCuts (Nat.le_trans hw hv)
  | prot hw p => exact .prot (Nat.le_trans hw hv) p

/-- A chain of one level is a chain of every higher one. -/
theorem Reach.widen {v : Nat} (h : Reach fl v s t) (hv : v ≤ w) : Reach fl w s t := by
  induction h with
  | refl => exact .refl
  | step _ p ih => exact ih.step (p.widen hv)

theorem reach_foldl {α : Type} (l : List α) (f : State → α → State)
    (hf : ∀ u a, Reach fl w s u → Reach fl w s (f u a)) (h : Reach fl w s t) : Reach fl w s (l.foldl f t) := by
  induction l generalizing t with
  | nil => exact h
  | cons a l ih => exact ih (hf _ _ h)

theorem reach_ite {b : Prop} [Decidable b] {u v : State} (hu : Reach fl w s u) (hv : Reach fl w s v) :
    Reach fl w s (if b then u else v) := by
  split
  · exact hu
  · exact hv

/-! ## Updates without a condition -/

theorem notice_ok_post (l : List Notice) (n : Notice) (hl : ∀ n ∈ l, n.ok) (hn : n.ok) : ∀ m ∈ l ++ [n], m.ok := by
  intro m hm
  rcases List.mem_append.mp hm with h | h
  · exact hl m h
  · rw [List.mem_singleton.mp h]; exact hn

theorem reach_post (h : Reach fl w s t) (n : Notice) (hn : n.ok := by intro _ _ h; cases h) : Reach fl w s (t.post n) :=
  h.step (.notices _ (fun _ hl => notice_ok_post _ _ hl hn))
theorem reach_setSettled (h : Reach fl w s t) (l) : Reach fl w s (t.setSettled l) := h.step (.settled l)
theorem reach_putFramer (h : Reach fl w s t) (n f) : Reach fl w s (t.putFramer n f) := h.step (.framer n f)
theorem reach_putRole (h : Reach fl w s t) (n r) (hw : 1 ≤ w := by omega) : Reach fl w s (t.putRole n r) := h.step (.role hw n r)
theorem reach_putCensusRec (h : Reach fl w s t) (x r) (hr : (∀ n, (t.tracker n).ok) → censusRecordOk r) (hw : 1 ≤ w := by omega) :
    Reach fl w s (t.putCensusRec x r) := h.step (.census hw x r hr)
theorem reach_putMismatched (h : Reach fl w s t) (x b) (hw : 1 ≤ w := by omega) : Reach fl w s (t.putMismatched x b) :=
  h.step (.mismatch hw x b)
theorem reach_putRank (h : Reach fl w s t) (v k) (hk : (t.rank v).ok → k.ok := by exact fun ho => ho) (hw : 1 ≤ w := by omega) :
    Reach fl w s (t.putRank v k) := h.step (.rank hw v k hk)
theorem reach_putFloor (h : Reach fl w s t) (v x) (hw : 1 ≤ w := by omega) : Reach fl w s (t.putFloor v x) := h.step (.floor hw v x)
theorem reach_putGate (h : Reach fl w s t) (v g) (hw : 1 ≤ w := by omega) : Reach fl w s (t.putGate v g) := h.step (.gate hw v g)
theorem reach_putCut (h : Reach fl w s t) (v c) (hw : 1 ≤ w := by omega) : Reach fl w s (t.putCut v c) := h.step (.cut hw v c)
theorem reach_reach (h : Reach fl w s t) (n) (hw : 2 ≤ w := by omega) : Reach fl w s (t.reach n) := h.step (.now hw _)

end Sys2Proof.Laws
end

