-- ==== Sys2Proof/Laws/ReachBlocks.lean ====
section
/-! SUPPORT. The chains of primitive updates that the operations of the Management Unit's lists, the Output Assembler, the
Identifier Tracker, the Tuner Bus Controller and the Quality Monitor make. -/

namespace Sys2Proof.Laws
open Sys2Proof.Machine

set_option Elab.async false

variable {fl : Bool} {w : Nat} {s t : State}

/-! ## Indications, reports, replies -/

@[simp] theorem isReply_reply (i r) : MgmtPacket.isReply (.reply i r) = true := rfl
@[simp] theorem isReply_report (i r) : MgmtPacket.isReply (.report i r) = false := rfl

theorem reach_buildReport (h : Reach fl w s t) : Reach fl w s t.buildReport := by
  unfold State.buildReport
  split
  · exact h
  · rename_i hc
    simp only [Bool.or_eq_true, not_or, Mgmt.reportWaits, List.any_eq_true] at hc
    have hnone : t.mgmt.list.filter (fun p => !p.isReply) = [] := by
      rw [List.filter_eq_nil_iff]
      intro p hp hq
      exact hc.1 ⟨p, hp, hq⟩
    refine h.step (.mgmt _ ?_ (.inr ?_))
    · intro ho
      refine ⟨?_, ?_, ?_, ?_⟩
      · simpa [Mgmt.replies, List.filter_append] using ho.1
      · simp [List.filter_append, hnone]
      · have := ho.2.2.1; simp only [List.length_drop]; omega
      · intro p hp
        rcases List.mem_append.mp hp with hp | hp
        · exact ho.2.2.2 p hp
        · rw [List.mem_singleton.mp hp]
          have hq : t.mgmt.queue ≠ [] := by simpa using hc.2
          have := List.length_pos_iff.mpr hq
          simp only [MgmtPacket.ok, List.length_take, Config.recordsPerPacket]; omega
    · simp [Mgmt.replies, List.filter_append]

theorem reach_offerRecord (h : Reach fl w s t) (r) : Reach fl w s (t.offerRecord r) := by
  unfold State.offerRecord
  split
  · exact h
  · split
    · rename_i hl
      refine reach_buildReport (h.step (.mgmt _ ?_ (.inr rfl)))
      refine fun ho => ⟨ho.1, ho.2.1, ?_, ho.2.2.2⟩
      have : t.mgmt.queue.length < 32 := hl
      simp only [List.length_append, List.length_singleton]; omega
    · exact h.step (.mgmt _ (fun ho => ho) (.inr rfl))

theorem reach_raise (h : Reach fl w s t) (k i kd v) : Reach fl w s (t.raise k i kd v) := by
  unfold State.raise
  have h1 : Reach fl w s (t.setInds { t.inds with status := Tab.set false t.inds.status (indKey k i kd) v }) :=
    h.step (.inds _ (fun x => x) (fun x => tab_wf_set _ _ _ _ x))
  dsimp only
  split
  · exact h1
  · exact reach_offerRecord (h1.step (.inds { latched := Tab.set false t.inds.latched (indKey k i kd) true, status := _ }
      (fun x => tab_wf_set _ _ _ _ x) (fun x => x))) _

theorem dropOldestReply_replies (l : List MgmtPacket) :
    (dropOldestReply l).filter MgmtPacket.isReply = (l.filter MgmtPacket.isReply).drop 1 := by
  induction l with
  | nil => rfl
  | cons p l ih =>
    cases p with
    | reply i r => simp [dropOldestReply, List.filter_cons]
    | report i r => simpa [dropOldestReply, List.filter_cons] using ih

theorem dropOldestReply_reports (l : List MgmtPacket) :
    (dropOldestReply l).filter (fun p => !p.isReply) = l.filter (fun p => !p.isReply) := by
  induction l with
  | nil => rfl
  | cons p l ih =>
    cases p with
    | reply i r => simp [dropOldestReply]
    | report i r => simpa [dropOldestReply, List.filter_cons] using ih

/-- A reply joins a list of management packets, of which some may have left. -/
theorem packets_ok_reply {l m : List MgmtPacket} (hl : ∀ p ∈ l, p.ok) (hm : ∀ p ∈ m, p ∈ l) (i r) :
    ∀ p ∈ m ++ [.reply i r], p.ok := by
  intro p hp
  rcases List.mem_append.mp hp with hp | hp
  · exact hl p (hm p hp)
  · rw [List.mem_singleton.mp hp]; trivial

theorem dropOldestReply_mem (l : List MgmtPacket) : ∀ p ∈ dropOldestReply l, p ∈ l := by
  induction l with
  | nil => exact fun p hp => hp
  | cons q l ih =>
    cases q with
    | reply i r => exact fun p hp => List.mem_cons_of_mem _ hp
    | report i r =>
      intro p hp
      rcases List.mem_cons.mp hp with rfl | hp
      · exact List.mem_cons_self
      · exact List.mem_cons_of_mem _ (ih p hp)

theorem reach_buildReply (h : Reach fl w s t) (i r) (hw : 2 ≤ w := by omega) : Reach fl w s (t.buildReply i r) := by
  unfold State.buildReply
  split
  · rename_i hl
    refine h.step (.mgmt _ ?_ (.inl hw))
    refine fun ho => ⟨?_, ?_, ho.2.2.1, packets_ok_reply ho.2.2.2 (fun _ hp => hp) _ _⟩
    · have : (t.mgmt.list.filter MgmtPacket.isReply).length < 16 := hl
      simp [Mgmt.replies, List.filter_append, List.filter_cons]; omega
    · simpa [List.filter_append] using ho.2.1
  · refine reach_raise (h.step (.mgmt _ ?_ (.inl hw))) _ _ _ _
    refine fun ho => ⟨?_, ?_, ho.2.2.1, packets_ok_reply ho.2.2.2 (dropOldestReply_mem _) _ _⟩
    · have : (t.mgmt.list.filter MgmtPacket.isReply).length ≤ 16 := ho.1
      simp [Mgmt.replies, List.filter_append, List.filter_cons, dropOldestReply_replies]; omega
    · simpa [List.filter_append, dropOldestReply_reports] using ho.2.1

theorem reach_answer (h : Reach fl w s t) (c o d x) (hw : 2 ≤ w := by omega) : Reach fl w s (t.answer c o d x) :=
  reach_buildReply h _ _ hw

/-! ## Output Assembler -/

theorem satAdd_le (cap a b : Nat) : satAdd cap a b ≤ cap := Nat.min_le_left _ _

theorem nextCount_le (c : Nat) (b : Bool) (h : c ≤ 15) : nextCount c b ≤ 15 := by
  unfold nextCount
  split
  · exact Nat.lt_succ_iff.mp (Nat.mod_lt _ (by omega))
  · exact h

theorem reach_admit (h : Reach fl w s t) (v c p) (hw : 1 ≤ w := by omega) : Reach fl w s (t.admitPacket v c p) := by
  unfold State.admitPacket
  dsimp only
  split
  · exact h
  · split
    · rename_i hl
      refine h.step (.out hw _ _ (fun ho => ⟨?_, ho.2.1, ho.2.2.1, ho.2.2.2.1, ?_⟩) (fun hc => tab_wf_set _ _ _ _ hc))
      · have : (t.out (t.service v).output).queue.length < 256 := hl
        simp; omega
      · exact tab_all_set _ _ ho.2.2.2.2 _ _ (nextCount_le _ _ (tab_all_get (P := (· ≤ 15)) (Nat.zero_le _) _ ho.2.2.2.2 _))
    · have h1 : Reach fl w s (t.putOut (t.service v).output { t.out (t.service v).output with
          drops := satAdd Config.max16 (t.out (t.service v).output).drops 1, overflowRaised := true }) := by
        refine h.step (.out hw _ _ ?_ (fun hc => hc))
        exact fun ho => ⟨ho.1, ho.2.1, satAdd_le _ _ _, ho.2.2.2⟩
      exact reach_ite h1 (reach_raise h1 _ _ _ _)

theorem reach_performCut (h : Reach fl w s t) (v c n p) (hw : 1 ≤ w := by omega) : Reach fl w s (t.performCut v c n p) := by
  unfold State.performCut
  have h1 := reach_post (reach_admit (reach_putCut (reach_putGate h v (some c.new)) v none) v n p) (.cutDone v c.new)
  exact reach_ite h1 (reach_raise h1 _ _ _ _)

theorem reach_offer (h : Reach fl w s t) (p v sl n) (hw : 1 ≤ w := by omega) : Reach fl w s (t.offer p v sl n) := by
  unfold State.offer State.examine
  refine reach_ite h ?_
  split
  · exact reach_ite (reach_ite (reach_performCut h _ _ _ _) h) (reach_ite (reach_admit h _ _ _) h)
  · exact reach_ite (reach_admit h _ _ _) h

theorem reach_createCut (h : Reach fl w s t) (v o n) (hw : 1 ≤ w := by omega) : Reach fl w s (t.createCut v o n) :=
  reach_putCut h _ _

theorem reach_oaLoss (h : Reach fl w s t) (n) (hw : 1 ≤ w := by omega) : Reach fl w s (t.oaLoss n) := by
  refine reach_foldl _ _ (fun u a hu => ?_) h
  split
  · exact reach_ite (reach_putCut hu _ _) hu
  · exact hu

theorem reach_cancelCut (h : Reach fl w s t) (v b) (hw : 1 ≤ w := by omega) : Reach fl w s (t.cancelCut v b) := by
  have h1 := reach_raise (reach_putCut h v none) .service v .cutCancelled true
  exact reach_ite (reach_post h1 _) h1

theorem reach_oaUnhosted (h : Reach fl w s t) (x) (hw : 1 ≤ w := by omega) : Reach fl w s (t.oaUnhosted x) := by
  refine reach_foldl _ _ (fun u a hu => ?_) h
  split
  · refine reach_ite (reach_cancelCut hu _ _) ?_
    split
    · exact reach_ite (reach_putCut hu _ _) hu
    · exact hu
  · exact hu

theorem reach_oaDisable (h : Reach fl w s t) (v) (hw : 1 ≤ w := by omega) : Reach fl w s (t.oaDisable v) :=
  reach_ite (reach_cancelCut (reach_putGate h _ _) _ _) (reach_putGate h _ _)

theorem reach_sendQueue (h : Reach fl w s t) (o) (hm : t.mgmtTurn o = false) (hw : 1 ≤ w := by omega) :
    Reach fl w s (t.sendQueue o) := by
  have hr : (t.out o).ok → t.nextReserve o ≤ 31 := by
    intro ho
    unfold State.nextReserve
    split
    · rename_i h0
      split
      · omega
      · rename_i he
        have hne : (t.out o).reserve ≠ 31 := by
          intro e
          have : t.mgmtTurn o = true := by
            unfold State.mgmtTurn
            rw [h0] at e
            simp [h0, he, e, Config.reserveFull]
          simp [this] at hm
        have := ho.2.1
        omega
    · exact ho.2.1
  unfold State.sendQueue
  dsimp only
  split
  · rename_i p rest hq
    refine h.step (.out hw _ _ (fun ho => ⟨?_, hr ho, ho.2.2⟩) (fun hc => hc))
    have := ho.1
    rw [hq] at this
    simp at this ⊢; omega
  · exact h.step (.out hw _ _ (fun ho => ⟨ho.1, hr ho, ho.2.2⟩) (fun hc => hc))

theorem reach_emit (h : Reach fl w s t) (o) (hw : 2 ≤ w := by omega) : Reach fl w s (t.emit o) := by
  unfold State.emit
  refine reach_ite h ?_
  split
  · rename_i hm
    split
    · rename_i m rest hl
      unfold State.sendMgmt
      refine reach_buildReport ?_
      refine Reach.step (t := t.setMgmt { t.mgmt with list := rest }) (h.step (.mgmt _ ?_ (.inl hw)))
        (.out (by omega) _ _ ?_ (fun hc => tab_wf_set _ _ _ _ hc))
      · intro ho
        have h1 := ho.1
        have h2 := ho.2.1
        simp only [Mgmt.replies, hl] at h1 h2
        refine ⟨?_, ?_, ho.2.2.1, fun p hp => ho.2.2.2 p (hl ▸ List.mem_cons_of_mem _ hp)⟩
        · exact Nat.le_trans (List.Sublist.length_le ((List.sublist_cons_self m rest).filter _)) h1
        · exact Nat.le_trans (List.Sublist.length_le ((List.sublist_cons_self m rest).filter _)) h2
      · exact fun ho => ⟨ho.1, by simp, ho.2.2.1, ho.2.2.2.1,
          tab_all_set _ _ ho.2.2.2.2 _ _ (nextCount_le _ _ (tab_all_get (P := (· ≤ 15)) (Nat.zero_le _) _ ho.2.2.2.2 _))⟩
    · rename_i hl
      simp [State.mgmtTurn, hl] at hm
  · rename_i hm
    exact reach_sendQueue h o (by simpa using hm)

theorem reach_endPeriod (h : Reach fl w s t) (o) (hw : 2 ≤ w := by omega) : Reach fl w s (t.endPeriod o) :=
  (reach_reach h _).step (.out (by omega) _ _ (fun ho => ⟨ho.1, ho.2.1, Nat.zero_le _, ho.2.2.1, ho.2.2.2.2⟩) (fun hc => hc))

theorem reach_disableOutput (h : Reach fl w s t) (o) (hw : 1 ≤ w := by omega) : Reach fl w s (t.disableOutput o) :=
  h.step (.out hw _ _ (fun ho => ⟨Nat.zero_le _, Nat.zero_le _, ho.2.2⟩) (fun hc => hc))

/-! ## Identifier Tracker -/

theorem reach_putTracker (h : Reach fl w s t) (n x) (hx : (t.tracker n).ok → x.ok) : Reach fl w s (t.putTracker n x) :=
  h.step (.tracker n x hx)

theorem reach_raiseOn (h : Reach fl w s t) (x k) : Reach fl w s (t.raiseOn x k) :=
  reach_ite (reach_raise h _ _ _ _) (reach_raise h _ _ _ _)

theorem entries_default_ok (l : List TrackEntry) (h : ∀ e ∈ l, e.pkts = 0 ∧ e.breaks = 0 ∧ e.lastCc = none) : ∀ e ∈ l, e.ok := by
  intro e he
  obtain ⟨h1, h2, h3⟩ := h e he
  exact ⟨by omega, by omega, by simp [h3]⟩

theorem buildEntries_ok (s : State) (x : Nat) : entriesOk (s.buildEntries x) := by
  refine ⟨?_, entries_default_ok _ (fun e he => ?_)⟩
  · simp only [State.buildEntries, State.keptIds, List.length_map, List.length_take, Config.trackCap]; omega
  · obtain ⟨i, _, rfl⟩ := List.mem_map.mp he
    exact ⟨rfl, rfl, rfl⟩

theorem countsOk_nil : countsOk [] := by simp [countsOk]

theorem tracker_built_ok {l : List TrackEntry} (h : entriesOk l) : Tracker.ok { entries := l } :=
  ⟨h, Nat.zero_le _, countsOk_nil, Nat.zero_le _⟩

theorem tracker_default_ok : ({} : Tracker).ok := tracker_built_ok ⟨Nat.zero_le _, by simp⟩

theorem reach_buildTracker (h : Reach fl w s t) (n x) : Reach fl w s (t.buildTracker n x) := by
  have h1 := reach_putTracker h n { entries := t.buildEntries x } (fun _ => tracker_built_ok (buildEntries_ok t x))
  exact reach_ite h1 (reach_raiseOn h1 _ _)

theorem reach_putEntries (h : Reach fl w s t) (n es) (he : entriesOk (t.tracker n).entries → entriesOk es) :
    Reach fl w s (t.putEntries n es) := reach_putTracker h _ _ (fun ho => ⟨he ho.1, ho.2⟩)

/-- A map that keeps each entry's counts in range. -/
theorem entriesOk_map {l : List TrackEntry} {f : TrackEntry → TrackEntry} (h : entriesOk l)
    (hf : ∀ e : TrackEntry, e.ok → (f e).ok := by exact fun _ he => he) : entriesOk (l.map f) := by
  refine ⟨by simpa using h.1, fun e he => ?_⟩
  obtain ⟨e', he', rfl⟩ := List.mem_map.mp he
  exact hf e' (h.2 e' he')

theorem entriesOk_prune {l : List TrackEntry} (h : entriesOk l) : entriesOk (prune l) :=
  ⟨Nat.le_trans (List.length_filter_le _ _) h.1, fun e he => h.2 e (List.mem_filter.mp he).1⟩

theorem entriesOk_removeCopy (i : Nat) {l : List TrackEntry} (h : entriesOk l) : entriesOk (removeCopy i l) :=
  entriesOk_prune (entriesOk_map h)

theorem insertEntry_length (e : TrackEntry) (es : List TrackEntry) : (insertEntry e es).length = es.length + 1 := by
  induction es with
  | nil => rfl
  | cons f t ih =>
    simp only [insertEntry]
    split
    · rfl
    · simp [ih]

theorem insertEntry_mem (e : TrackEntry) (es : List TrackEntry) : ∀ x ∈ insertEntry e es, x = e ∨ x ∈ es := by
  induction es with
  | nil => exact fun x hx => .inl (List.mem_singleton.mp hx)
  | cons f t ih =>
    intro x hx
    simp only [insertEntry] at hx
    split at hx
    · exact (List.mem_cons.mp hx)
    · rcases List.mem_cons.mp hx with rfl | hx
      · exact .inr List.mem_cons_self
      · exact (ih x hx).imp_right (List.mem_cons_of_mem _)

theorem touchEntry_ok (es r : List TrackEntry) (i b) (f : TrackEntry → TrackEntry) (hf : ∀ e : TrackEntry, e.ok → (f e).ok)
    (h : touchEntry es i b f = some r) (hl : entriesOk es) : entriesOk r := by
  unfold touchEntry at h
  split at h
  · cases h
    refine entriesOk_map hl (fun e he => ?_)
    split
    · exact hf e he
    · exact he
  · split at h
    · rename_i hlt
      cases h
      refine ⟨by rw [insertEntry_length]; exact hlt, fun e he => ?_⟩
      rcases insertEntry_mem _ _ e he with rfl | he
      · exact hf _ ⟨Nat.zero_le _, Nat.zero_le _, by simp⟩
      · exact hl.2 e he
    · cases h

theorem mergeBinding_ok (l : List Nat) (acc : List TrackEntry × Bool) (i b) (hl : entriesOk acc.1) :
    entriesOk (mergeBinding l acc i b).1 := by
  unfold mergeBinding
  split
  · rename_i es he; exact touchEntry_ok _ _ _ _ _ (by exact fun _ h => h) he hl
  · exact hl

theorem gainSignature_ok (acc : List TrackEntry × Bool) (i) (hl : entriesOk acc.1) : entriesOk (gainSignature acc i).1 := by
  unfold gainSignature
  split
  · rename_i es he; exact touchEntry_ok _ _ _ _ _ (by exact fun _ h => h) he hl
  · exact hl

/-- A property of a fold's accumulator, kept by each step, is kept by the fold. -/
theorem foldl_keeps {α β : Type} (P : β → Prop) (f : β → α → β) (hf : ∀ b a, P b → P (f b a)) (l : List α) (b : β)
    (hb : P b) : P (l.foldl f b) := by
  induction l generalizing b with
  | nil => exact hb
  | cons a l ih => exact ih _ (hf _ _ hb)

theorem mergeCopy_ok (s : State) (i es) (hl : entriesOk es) : entriesOk (s.mergeCopy i es).1 := by
  unfold State.mergeCopy
  have h : ∀ l : List (Nat × Nat), entriesOk (l.foldl (fun acc c => mergeBinding (s.signatures (s.copy i).mux) acc c.2
      { svc := i / 4, slot := i % 4, comp := c.1, whole := false, unobs := false }) (es, false)).1 :=
    fun l => foldl_keeps (fun a : List TrackEntry × Bool => entriesOk a.1) _ (fun b a hb => mergeBinding_ok _ _ _ _ hb) l _ hl
  dsimp only
  split
  · exact entriesOk_map (h _)
  · exact h _

theorem reach_mergeOn (h : Reach fl w s t) (x i) : Reach fl w s (t.mergeOn x i) := by
  unfold State.mergeOn
  split
  · exact h
  · have h1 := reach_putEntries h ‹_› _ (mergeCopy_ok t i (t.tracker ‹_›).entries)
    exact reach_ite (reach_raiseOn h1 _ _) h1

theorem reach_removeOn (h : Reach fl w s t) (x i) : Reach fl w s (t.removeOn x i) := by
  unfold State.removeOn
  split
  · exact h
  · exact reach_putEntries h _ _ (entriesOk_removeCopy i)

theorem reach_followSignatures (h : Reach fl w s t) (x l) : Reach fl w s (t.followSignatures x l) := by
  unfold State.followSignatures
  split
  · exact h
  · dsimp only
    refine reach_ite (reach_raiseOn (reach_putEntries h _ _ ?_) _ _) (reach_putEntries h _ _ ?_)
    all_goals
      exact fun hl => foldl_keeps (fun a : List TrackEntry × Bool => entriesOk a.1) _ (fun b a hb => gainSignature_ok _ _ hb) _ _
        (entriesOk_prune (entriesOk_map hl))

theorem rebuildEntry_ok (old new : List TrackEntry) (ho : ∀ e ∈ old, e.ok) (e : TrackEntry) (he : e.ok) :
    (rebuildEntry old new e).ok := by
  unfold rebuildEntry
  dsimp only
  split
  · rename_i o hf; exact ho o (List.mem_of_find?_eq_some hf)
  · exact he

theorem reach_rebuildLocal (h : Reach fl w s t) : Reach fl w s t.rebuildLocal := by
  have h1 := reach_putEntries h insertionLane
    ((t.buildEntries localMux).map (rebuildEntry (t.tracker insertionLane).entries (t.buildEntries localMux)))
    (fun ho => entriesOk_map (buildEntries_ok t localMux) (rebuildEntry_ok _ _ ho.2))
  exact reach_ite h1 (reach_raiseOn h1 _ _)

theorem recordUnknown_ok (x : Tracker) (i : Nat) (h : x.ok) : (x.recordUnknown i).ok := by
  unfold Tracker.recordUnknown
  split
  · refine ⟨h.1, by simpa [censusAdd] using h.2.1, fun e he => ?_, h.2.2.2⟩
    obtain ⟨e', he', rfl⟩ := List.mem_map.mp he
    split
    · exact satAdd_le _ _ _
    · exact h.2.2.1 e' he'
  · split
    · rename_i hl
      refine ⟨h.1, ?_, fun e he => ?_, h.2.2.2⟩
      · have : x.census.length < 32 := hl
        simp; omega
      · rcases List.mem_append.mp he with he | he
        · exact h.2.2.1 e he
        · rw [List.mem_singleton.mp he]; exact (by omega : 1 ≤ 65535)
    · exact ⟨h.1, h.2.1, h.2.2.1, satAdd_le _ _ _⟩

theorem insertCensus_mem (e : Nat × Nat) (l : List (Nat × Nat)) : ∀ x ∈ insertCensus e l, x = e ∨ x ∈ l := by
  induction l with
  | nil => exact fun x hx => .inl (List.mem_singleton.mp hx)
  | cons f t ih =>
    intro x hx
    simp only [insertCensus] at hx
    split at hx
    · exact List.mem_cons.mp hx
    · rcases List.mem_cons.mp hx with rfl | hx
      · exact .inr List.mem_cons_self
      · exact (ih x hx).imp_right (List.mem_cons_of_mem _)

theorem insertAll_mem (l : List (Nat × Nat)) : ∀ x ∈ l.foldr insertCensus [], x ∈ l := by
  induction l with
  | nil => exact fun x hx => hx
  | cons e l ih =>
    intro x hx
    rcases insertCensus_mem _ _ x hx with rfl | hx
    · exact List.mem_cons_self
    · exact List.mem_cons_of_mem _ (ih x hx)

/-- A close set holds at most 16 entries of the census it was made from. -/
theorem closeSet_ok (m : Nat) (l : List (Nat × Nat)) (h : countsOk l) :
    (closeSet m l).length ≤ 16 ∧ countsOk (closeSet m l) := by
  refine ⟨?_, fun e he => ?_⟩
  · simp only [closeSet, List.length_take, Config.recordCap]; omega
  · exact h e (List.mem_filter.mp (insertAll_mem _ e (List.mem_of_mem_take he))).1

theorem reach_closeCensus (h : Reach fl w s t) (n x) (hw : 1 ≤ w := by omega) : Reach fl w s (t.closeCensus n x) := by
  unfold State.closeCensus
  have h0 : Reach fl w s (t.putCensusRec x
      (some { pairs := closeSet t.settings.censusMin (t.tracker n).census, overflow := (t.tracker n).overflow })) := by
    refine reach_putCensusRec h x _ (fun ho y hy => ?_)
    cases hy
    have := closeSet_ok t.settings.censusMin _ (ho n).2.2.1
    exact ⟨this.1, this.2, (ho n).2.2.2⟩
  have h1 := reach_putTracker h0 n { t.tracker n with census := [], overflow := 0, windows := 0 }
    (fun ho => ⟨ho.1, Nat.zero_le _, countsOk_nil, Nat.zero_le _⟩)
  dsimp only
  split
  · exact h1
  · exact reach_ite h1 (reach_raiseOn h1 _ _)

theorem nextWindow_ok (x : Tracker) (h : x.ok) : x.nextWindow.ok :=
  ⟨entriesOk_map h.1 (by exact fun _ he => ⟨Nat.zero_le _, Nat.zero_le _, he.2.2⟩), h.2⟩

/-- The count a packet leaves as an entry's last is at most 15 (Table 28). -/
theorem judge_cc (l m b c) (hl : ∀ x, l = some x → x ≤ 15) (hc : c ≤ 15) : (judge l m b c).2.1 ≤ 15 := by
  unfold judge
  split
  · exact hc
  · rename_i x
    have := hl x rfl
    repeat' split
    all_goals assumption

theorem count_ok (e : TrackEntry) (p : Packet) (h : e.ok) : (e.count p).ok := by
  refine ⟨satAdd_le _ _ _, satAdd_le _ _ _, fun c hc => ?_⟩
  cases hc
  exact judge_cc _ _ _ _ h.2.2 (Nat.lt_succ_iff.mp (Nat.mod_lt _ (by omega)))

theorem count_matching (p : Packet) (e : TrackEntry) (h : e.ok) :
    (if e.ident = Packet.ident p then e.count p else e).ok := by
  split
  · exact count_ok e p h
  · exact h

theorem reach_offerAll (h : Reach fl w s t) (n p) (hw : 1 ≤ w := by omega) : Reach fl w s (t.offerAll n p) :=
  reach_ite (reach_foldl _ _ (fun _ _ hu => reach_offer hu _ _ _ _) h) h

theorem reach_takeCommand (h : Reach fl w s t) (p) (hw : 2 ≤ w := by omega) : Reach fl w s (t.takeCommand p) := by
  unfold State.takeCommand
  refine reach_ite (reach_raise h _ _ _ _) ?_
  split
  · rename_i hl
    refine h.step (.inbound hw _ (fun _ => ?_))
    have : t.inbound.length < 8 := hl
    simp; omega
  · exact reach_raise h _ _ _ _

theorem reach_sortPacket (h : Reach fl w s t) (n p) (hw : 2 ≤ w := by omega) : Reach fl w s (t.sortPacket n p) := by
  unfold State.sortPacket
  refine reach_ite (reach_takeCommand h _) (reach_ite h (reach_ite (reach_offerAll h _ _) (reach_ite ?_ ?_)))
  · exact reach_offerAll (reach_putEntries h _ _ (fun hl => entriesOk_map hl (count_matching p))) _ _
  · exact reach_putTracker h _ _ (recordUnknown_ok _ _)

/-! ## Tuner Bus Controller -/

theorem reach_putBus (h : Reach fl w s t) (b u) (hu : (t.bus b).ok → u.ok) : Reach fl w s (t.putBus b u) := h.step (.bus b u hu)

theorem joinQueue_mem (r : Run) (q : List Run) (x : Run) (h : x ∈ joinQueue r q) : x = r ∨ x ∈ q := by
  unfold joinQueue at h
  split at h <;> simp at h <;> grind

theorem joinQueue_length (r : Run) (q : List Run) : (joinQueue r q).length = q.length + 1 := by
  unfold joinQueue
  split
  · have : (q.filter Run.classOne).length + (q.filter (fun x => !x.classOne)).length = q.length := by
      induction q with
      | nil => rfl
      | cons x q ih => cases hx : x.classOne <;> simp [hx] <;> omega
    simp; omega
  · simp

theorem reach_enqueue (h : Reach fl w s t) (r : Run) (hr : r.steps = 0) (hl : (t.bus r.bus).queue.length < 12) :
    Reach fl w s (t.enqueue r) := by
  refine reach_putBus h _ _ (fun ho => ⟨?_, ?_, ho.2.2⟩)
  · simp only [joinQueue_length]; omega
  · intro x hx
    rcases joinQueue_mem _ _ _ hx with e | e
    · simp [e, Run.ok, hr]
    · exact ho.2.1 x e

theorem newRun_steps (s : State) (t p x) : (s.newRun t p x).steps = 0 := rfl

theorem reach_placeDeferred (h : Reach fl w s t) (b) : Reach fl w s (t.placeDeferred b) := by
  refine reach_foldl _ _ (fun u d hu => ?_) (reach_putBus h _ _ (by exact fun ho => ho))
  unfold State.placeOne
  split
  · rename_i hp
    simp only [State.placeable, Bool.and_eq_true, decide_eq_true_eq] at hp
    exact reach_enqueue hu _ rfl hp.1
  · exact reach_putBus hu _ _ (by exact fun ho => ho)

theorem enterStep_ok (s : State) (r : Run) (i : Nat) (h : r.ok) : (s.enterStep r i).1.ok := by
  unfold State.enterStep
  dsimp only
  split
  · exact h
  · rename_i hs
    have : r.steps < 64 := Nat.lt_of_not_le hs
    split
    · exact h
    · split
      · exact h
      · split <;> (show r.steps + 1 ≤ 64) <;> omega

theorem reach_startNext (h : Reach fl w s t) (b) : Reach fl w s (t.startNext b) := by
  unfold State.startNext
  dsimp only
  split
  · split
    · exact h
    · rename_i r rest hq
      have h1 : Reach fl w s (t.putBus b { t.bus b with state := .running, run := some { (t.enterStep { r with clock := t.settings.busClock } r.head).1 with failing := (t.enterStep { r with clock := t.settings.busClock } r.head).2 }, queue := rest }) := by
        refine reach_putBus h _ _ (fun ho => ?_)
        have h2 := ho.2.1
        rw [hq] at h2
        refine ⟨?_, fun x hx => h2 x (List.mem_cons_of_mem _ hx), ?_⟩
        · have := ho.1; rw [hq] at this; simp at this ⊢; omega
        · intro x hx
          cases hx
          exact enterStep_ok t { r with clock := t.settings.busClock } r.head (h2 r List.mem_cons_self)
      exact reach_ite (reach_post (reach_setSettled h1 _) _) h1
  · exact h

theorem reach_kick (h : Reach fl w s t) : Reach fl w s t.kick :=
  reach_foldl _ _ (fun _ _ hu => reach_placeDeferred hu _) (reach_foldl _ _ (fun _ _ hu => reach_startNext hu _)
    (reach_foldl _ _ (fun _ _ hu => reach_placeDeferred hu _) h))

theorem reach_endRun (h : Reach fl w s t) (b o) : Reach fl w s (t.endRun b o) := by
  unfold State.endRun
  split
  · exact h
  · have h1 := reach_putBus h b { t.bus b with run := none, state := if o = .busStall then .recovering else .idle }
      (fun ho => ⟨ho.1, ho.2.1, fun _ hx => by cases hx⟩)
    exact reach_kick (reach_post (reach_ite (reach_raise h1 _ _ _ _) h1) _)

theorem reach_goTo (h : Reach fl w s t) (b r i) (hr : (t.bus b).ok → r.ok) : Reach fl w s (t.goTo b r i) := by
  unfold State.goTo
  have h1 := reach_putBus h b { t.bus b with run := some (t.enterStep r i).1 }
    (fun ho => ⟨ho.1, ho.2.1, fun x hx => by cases hx; exact enterStep_ok t r i (hr ho)⟩)
  dsimp only
  split
  · exact reach_endRun h1 _ _
  · exact h1

theorem reach_stepDone (h : Reach fl w s t) (b) : Reach fl w s (t.stepDone b) := by
  unfold State.stepDone
  split
  · exact h
  · rename_i r hr
    refine reach_ite (reach_endRun h _ _) ?_
    split
    · exact h
    · split
      · exact reach_endRun h _ _
      · exact reach_goTo h _ _ _ (fun ho => ho.2.2 r hr)

theorem reach_endFailing (h : Reach fl w s t) (b) : Reach fl w s (t.endFailing b) := by
  unfold State.endFailing
  split
  · exact h
  · split
    · exact h
    · exact reach_endRun h _ _

theorem reach_defer (h : Reach fl w s t) (b d) : Reach fl w s (t.defer b d) := by
  unfold State.defer
  split
  · exact reach_putBus h _ _ (by exact fun ho => ho)
  · exact reach_putBus h _ _ (by exact fun ho => ho)

theorem reach_requestRun (h : Reach fl w s t) (n p x) : Reach fl w s (t.requestRun n p x) := by
  unfold State.requestRun
  dsimp only
  split
  · refine reach_putBus h _ _ (fun ho => ⟨by simpa using ho.1, ?_, ho.2.2⟩)
    intro r hr
    obtain ⟨r', hr', rfl⟩ := List.mem_map.mp hr
    have := ho.2.1 r' hr'
    unfold mergeRun
    split <;> exact this
  · split
    · exact reach_defer h _ _
    · split
      · rename_i hl
        exact reach_kick (reach_enqueue h _ rfl hl)
      · exact reach_defer h _ _

theorem reach_withdrawRun (h : Reach fl w s t) (n p) : Reach fl w s (t.withdrawRun n p) := by
  unfold State.withdrawRun
  split
  · exact reach_post (reach_putBus h _ _ (by exact fun ho => ho)) (.runDone n p .aborted none)
  · split
    · refine reach_kick (reach_post (reach_putBus h _ _ ?_) (.runDone n p .aborted none))
      refine fun ho => ⟨?_, ?_, ho.2.2⟩
      · exact Nat.le_trans (List.length_filter_le _ _) ho.1
      · exact fun r hr => ho.2.1 r (List.mem_filter.mp hr).1
    · split
      · refine reach_putBus h _ _ (fun ho => ⟨ho.1, ho.2.1, ?_⟩)
        intro r hr
        obtain ⟨r', hr', rfl⟩ := Option.map_eq_some_iff.mp hr
        exact ho.2.2 r' hr'
      · exact h

/-- New tables in canonical form, the multiplex entries as they were. -/
theorem reach_setTables (h : Reach fl w s t) (x : Tables) (hc : t.tables.canonical → x.canonical)
    (hm : x.muxes = t.tables.muxes := by rfl) (hw : 2 ≤ w := by omega) : Reach fl w s (t.setTables x) :=
  h.step (.tables hw x hc (fun hd => hm ▸ hd))

theorem reach_putPoolByte (h : Reach fl w s t) (i x) (hw : 2 ≤ w := by omega) : Reach fl w s (t.putPoolByte i x) :=
  reach_setTables h _ (by exact fun hc => ⟨hc.1, hc.2.1, hc.2.2.1, hc.2.2.2.1, hc.2.2.2.2.1, hc.2.2.2.2.2.1,
    tab_wf_set _ _ _ _ hc.2.2.2.2.2.2⟩)

theorem reach_storePool (bs : List Byte) (hw : 2 ≤ w := by omega) :
    ∀ {t : State} (_ : Reach fl w s t) (o : Nat), Reach fl w s (t.storePool o bs) := by
  induction bs with
  | nil => exact fun h _ => h
  | cons x xs ih => exact fun h o => ih (reach_putPoolByte h _ _) _

theorem reach_noteTransfer (h : Reach fl w s t) (b x) : Reach fl w s (t.noteTransfer b x) := reach_putBus h _ _ (fun ho => ho)

theorem executing_run {s : State} {b k ph r c} (h : s.executing b k ph = some (r, c)) : (s.bus b).run = some r := by
  unfold State.executing at h
  split at h
  · cases h
  · split at h
    · cases h
    · split at h
      · cases h; assumption
      · cases h

theorem reach_putCurrent (h : Reach fl w s t) (b r c) (hr : (t.bus b).ok → r.ok) : Reach fl w s (t.putCurrent b r c) :=
  reach_putBus h _ _ (fun ho => ⟨ho.1, ho.2.1, fun x hx => by cases hx; exact hr ho⟩)

theorem reach_endWrite (h : Reach fl w s t) (b a) : Reach fl w s (t.endWrite b a) := by
  unfold State.endWrite
  split
  · exact h
  · rename_i r c he
    dsimp only
    split
    · exact reach_ite (reach_putCurrent h _ _ _ (fun ho => ho.2.2 r (executing_run he))) h
    · exact reach_ite (reach_endRun (reach_noteTransfer h _ _) _ _) h
    · exact reach_ite (reach_endRun (reach_noteTransfer h _ _) _ _) h
    · exact reach_stepDone (reach_noteTransfer h _ _) _

theorem storePool_bus (bs : List Byte) (s : State) (o b : Nat) : (s.storePool o bs).bus b = s.bus b := by
  induction bs generalizing s o with
  | nil => rfl
  | cons x xs ih => exact ih (s.putPoolByte o x) (o + 1)

theorem noteTransfer_bus (s : State) (b x) : (s.noteTransfer b x).bus b = { s.bus b with lastTransfer := some x } :=
  tab_get_set_ne _ _ _ _ (by simp [Bus.mk.injEq])

theorem reach_storeReceived (h : Reach fl w s t) (c bs) (hw : 2 ≤ w := by omega) : Reach fl w s (t.storeReceived c bs) :=
  reach_storePool bs hw h _

theorem reach_endTail (h : Reach fl w s t) (b bs) (hw : 2 ≤ w := by omega) : Reach fl w s (t.endTail b bs) := by
  unfold State.endTail
  split
  · exact h
  · exact reach_ite (reach_storePool _ hw (reach_putBus h _ _ (by exact fun ho => ho)) _) h

theorem reach_endRead (h : Reach fl w s t) (b a) (hw : 2 ≤ w := by omega) : Reach fl w s (t.endRead b a) := by
  unfold State.endRead
  split
  · exact reach_endTail h _ _
  · rename_i r c he
    dsimp only
    split
    · exact reach_ite (reach_endRun (reach_noteTransfer h _ _) _ _) h
    · refine reach_ite (reach_putCurrent (reach_storeReceived h _ _) _ _ _ (fun ho => ?_)) h
      rw [State.storeReceived, storePool_bus] at ho
      exact ho.2.2 r (executing_run he)
    · rename_i bs
      refine reach_ite (reach_stepDone (reach_putBus (reach_storeReceived (reach_noteTransfer h b
        { addr := transferAddr r c.step, read := true, bytes := c.bytes ++ bs }) c bs) _ _ ?_) _) h
      refine fun ho => ⟨ho.1, ho.2.1, fun x hx => ?_⟩
      cases hx
      rw [State.storeReceived, storePool_bus, noteTransfer_bus] at ho
      exact ho.2.2 r (executing_run he)

theorem reach_endPollRead (h : Reach fl w s t) (b a) : Reach fl w s (t.endPollRead b a) := by
  unfold State.endPollRead
  split
  · exact h
  · rename_i r c he
    dsimp only
    split
    · exact reach_endRun (reach_noteTransfer h _ _) _ _
    · refine reach_ite (reach_stepDone (reach_noteTransfer h _ _) _) (reach_ite (reach_endRun (reach_noteTransfer h _ _) _ _)
        (reach_putCurrent (reach_noteTransfer h _ _) _ _ _ ?_))
      rw [noteTransfer_bus]
      exact fun ho => ho.2.2 r (executing_run he)

theorem reach_nextPollRead (h : Reach fl w s t) (b) (hw : 2 ≤ w := by omega) : Reach fl w s (t.nextPollRead b) := by
  unfold State.nextPollRead
  split
  · exact h
  · rename_i r c he
    exact reach_ite (reach_putCurrent (reach_reach h _) _ _ _ (fun ho => ho.2.2 r (executing_run he))) h

theorem reach_endPollTime (h : Reach fl w s t) (b) (hw : 2 ≤ w := by omega) : Reach fl w s (t.endPollTime b) := by
  unfold State.endPollTime
  split
  · exact reach_endRun (reach_reach h _) _ _
  · split
    · rename_i r c he
      exact reach_putCurrent (reach_reach h _) _ _ _ (fun ho => ho.2.2 r (executing_run he))
    · exact h

theorem reach_endWait (h : Reach fl w s t) (b) (hw : 2 ≤ w := by omega) : Reach fl w s (t.endWait b) := by
  unfold State.endWait
  split
  · exact h
  · exact reach_stepDone (reach_reach h _) _

theorem reach_stall (h : Reach fl w s t) (b l) (hw : 2 ≤ w := by omega) : Reach fl w s (t.stall b l) := by
  unfold State.stall
  split
  · split
    · exact reach_endRun (reach_storeReceived h _ _) _ _
    · exact reach_endRun h _ _
  · exact reach_ite (reach_putBus (reach_endTail h _ _) _ _ (by exact fun ho => ho)) h

theorem reach_leaveRecovery (h : Reach fl w s t) (b) : Reach fl w s (t.leaveRecovery b) :=
  reach_ite (reach_kick (reach_putBus h _ _ (by exact fun ho => ho))) h

theorem reach_resetBus (h : Reach fl w s t) (b) : Reach fl w s (t.resetBus b) :=
  reach_putBus h _ _ (fun _ => ⟨Nat.zero_le _, by simp, by simp⟩)

/-! ## Quality Monitor -/

theorem reach_putQmLane (h : Reach fl w s t) (n q) (hq : (t.qmLane n).ok → q.ok) : Reach fl w s (t.putQmLane n q) :=
  h.step (.lane n q hq)

theorem inWindow_ok (q : QmLane) (f : QmLane → QmLane) (hf : q.ok → (f q).ok) (h : q.ok) : (q.inWindow f).ok := by
  unfold QmLane.inWindow
  split
  · exact hf h
  · exact h

theorem reach_qmPacket (h : Reach fl w s t) (n b) (hw : 2 ≤ w := by omega) : Reach fl w s (t.qmPacket n b) := by
  refine Reach.step (reach_putQmLane h n _ (inWindow_ok _ _ ?_)) (.life hw _ _ ?_)
  · rintro ⟨h1, h2, h3⟩
    refine ⟨satAdd_le _ _ _, ?_, h3⟩
    simp only [QmLane.addPacket, satAdd, Config.max24]
    split <;> omega
  · exact fun ho => ⟨satAdd_le _ _ _, satAdd_le _ _ _, ho.2.2⟩

theorem reach_qmSyncError (h : Reach fl w s t) (n k) (hw : 2 ≤ w := by omega) : Reach fl w s (t.qmSyncError n k) := by
  refine Reach.step (reach_putQmLane h n _ (inWindow_ok _ _ ?_)) (.life hw _ _ ?_)
  · exact fun ho => ⟨ho.1, ho.2.1, satAdd_le _ _ _, ho.2.2.2⟩
  · exact fun ho => ⟨ho.1, ho.2.1, satAdd_le _ _ _, ho.2.2.2⟩

theorem reach_qmLoss (h : Reach fl w s t) (n) (hw : 2 ≤ w := by omega) : Reach fl w s (t.qmLoss n) := by
  refine Reach.step (reach_putQmLane h n _ (inWindow_ok _ _ ?_)) (.life hw _ _ ?_)
  · exact fun ho => ⟨ho.1, ho.2.1, ho.2.2.1, satAdd_le _ _ _, ho.2.2.2.2⟩
  · exact fun ho => ⟨ho.1, ho.2.1, ho.2.2.1, satAdd_le _ _ _, ho.2.2.2.2⟩

theorem reach_qmRealign (h : Reach fl w s t) (n) (hw : 2 ≤ w := by omega) : Reach fl w s (t.qmRealign n) := by
  refine Reach.step (reach_putQmLane h n _ (inWindow_ok _ _ ?_)) (.life hw _ _ ?_)
  · exact fun ho => ⟨ho.1, ho.2.1, ho.2.2.1, ho.2.2.2.1, satAdd_le _ _ _, ho.2.2.2.2.2⟩
  · exact fun ho => ⟨ho.1, ho.2.1, ho.2.2.1, ho.2.2.2.1, satAdd_le _ _ _⟩

theorem reach_qmLock (h : Reach fl w s t) (n b) : Reach fl w s (t.qmLock n b) := by
  refine reach_putQmLane h n _ (inWindow_ok _ _ (fun ho => ?_))
  split <;> exact ho

theorem reach_startWindow (h : Reach fl w s t) (n) : Reach fl w s (t.startWindow n) := by
  refine reach_putQmLane h n _ (fun ho => ?_)
  exact ⟨Nat.zero_le _, Nat.le_refl _, Nat.zero_le _, Nat.zero_le _, Nat.zero_le _, ho.2.2.2.2.2.1, ho.2.2.2.2.2.2.1,
    Nat.zero_le _, ho.2.2.2.2.2.2.2.2⟩

/-- A lane's pending report leaves it and goes on as a completed report with another margin. -/
theorem reach_complete (h : Reach fl w s t) (n : Nat) (r : Report) (q : QmLane) (m : Nat) (ms : MarginState)
    (hp : (t.qmLane n).pending = some r) (hq : (t.qmLane n).ok → q.ok) :
    Reach fl w s ((t.putQmLane n q).completeReport { r with margin := m, marginState := ms }) := by
  have h1 : Reach fl w s (t.post (.report { r with margin := m, marginState := ms }
      (decide (r.lane ≠ insertionLane) && decide (t.role r.lane = .scan)))) := by
    refine h.step (.notices _ (fun hl hn => notice_ok_post _ _ hn ?_))
    intro r' b e
    cases e
    exact (hl n).2.2.2.2.2.2.2.2 r hp
  exact reach_putQmLane h1 n q hq

theorem afterHeld_ok (q : QmLane) (h : q.ok) : q.afterHeld.ok :=
  ⟨h.1, h.2.1, h.2.2.1, h.2.2.2.1, h.2.2.2.2.1, Nat.min_le_left _ _, h.2.2.2.2.2.2.1, h.2.2.2.2.2.2.2.1,
    by simp [QmLane.afterHeld]⟩

theorem reach_completeHeld (h : Reach fl w s t) (n) : Reach fl w s (t.completeHeld n) := by
  unfold State.completeHeld
  dsimp only
  split
  · exact h
  · rename_i r hr
    exact reach_complete h n r _ _ _ hr (afterHeld_ok _)

theorem reach_completeFresh (h : Reach fl w s t) (n m) : Reach fl w s (t.completeFresh n m) := by
  unfold State.completeFresh
  dsimp only
  split
  · exact h
  · rename_i r hr
    exact reach_complete h n r _ _ _ hr (fun ho =>
      ⟨ho.1, ho.2.1, ho.2.2.1, ho.2.2.2.1, ho.2.2.2.2.1, Nat.zero_le _, ho.2.2.2.2.2.2.1, ho.2.2.2.2.2.2.2.1, by simp⟩)

theorem reach_measureOutcome (h : Reach fl w s t) (n o m) : Reach fl w s (t.measureOutcome n o m) := by
  unfold State.measureOutcome
  dsimp only
  refine reach_ite (reach_putQmLane h _ _ (by exact fun ho => ho)) ?_
  have h1 := reach_putQmLane h n { t.qmLane n with outstanding := false } (fun ho => ho)
  split
  · exact reach_completeFresh h1 _ _
  · exact reach_completeHeld h1 _

theorem reach_judgeStatus (h : Reach fl w s t) (n b) : Reach fl w s (t.judgeStatus n b) := by
  unfold State.judgeStatus
  dsimp only
  split
  · have h1 := reach_putQmLane h n { t.qmLane n with degraded := true, degCount := min 4 ((t.qmLane n).degCount + 1) }
      (fun ho => ⟨ho.1, ho.2.1, ho.2.2.1, ho.2.2.2.1, ho.2.2.2.2.1, ho.2.2.2.2.2.1, Nat.min_le_left _ _,
        ho.2.2.2.2.2.2.2⟩)
    exact reach_ite (reach_raise (reach_ite h1 (reach_raise h1 _ _ _ _)) _ _ _ _) (reach_ite h1 (reach_raise h1 _ _ _ _))
  · have h1 := reach_putQmLane h n { t.qmLane n with degraded := false, degCount := 0 }
      (fun ho => ⟨ho.1, ho.2.1, ho.2.2.1, ho.2.2.2.1, ho.2.2.2.2.1, ho.2.2.2.2.2.1, Nat.zero_le _, ho.2.2.2.2.2.2.2⟩)
    exact reach_ite (reach_raise (reach_ite (reach_raise h1 _ _ _ _) h1) _ _ _ _) (reach_ite (reach_raise h1 _ _ _ _) h1)

theorem reach_judgeMismatch (h : Reach fl w s t) (x p f) (hw : 1 ≤ w := by omega) : Reach fl w s (t.judgeMismatch x p f) :=
  reach_ite h (reach_raise (reach_putMismatched h _ _) _ _ _ _)

theorem reach_nextWindow (h : Reach fl w s t) (n) : Reach fl w s (t.nextWindow n) := by
  refine reach_putQmLane h n _ (fun ho => ?_)
  exact ⟨Nat.zero_le _, Nat.le_refl _, Nat.zero_le _, Nat.zero_le _, Nat.zero_le _, ho.2.2.2.2.2.1, ho.2.2.2.2.2.2.1,
    Nat.lt_succ_iff.mp (Nat.mod_lt _ (by omega)), ho.2.2.2.2.2.2.2.2⟩

theorem reach_fileReport (h : Reach fl w s t) (n r) (hr : r.ok) : Reach fl w s (t.fileReport n r) := by
  unfold State.fileReport
  refine reach_ite (reach_post h _ (by intro r' b e; cases e; exact hr)) ?_
  dsimp only
  have h1 := reach_putQmLane h n { t.qmLane n with pending := some r, outstanding := true }
    (fun ho => ⟨ho.1, ho.2.1, ho.2.2.1, ho.2.2.2.1, ho.2.2.2.2.1, ho.2.2.2.2.2.1, ho.2.2.2.2.2.2.1, ho.2.2.2.2.2.2.2.1,
      fun r' e => by cases e; exact hr⟩)
  exact reach_ite h1 (reach_requestRun h1 _ _ _)

theorem formReport_ok (s : State) (n : Nat) : (s.formReport n).ok := by
  show lockedPerMille _ _ ≤ 1000
  unfold lockedPerMille
  generalize ((s.qmLane n).window.map (·.2)).getD 0 = len
  rcases Nat.eq_zero_or_pos len with h | h
  · simp [h]
  · refine Nat.div_le_of_le_mul ?_
    have := Nat.min_le_right ((s.qmLane n).lockedUntil s.now) len
    rw [Nat.mul_comm len]
    calc min ((s.qmLane n).lockedUntil s.now) len * 1000 ≤ len * 1000 := Nat.mul_le_mul_right _ this
      _ = 1000 * len := Nat.mul_comm _ _

theorem reach_closeWindow (h : Reach fl w s t) (n) (hw : 1 ≤ w := by omega) : Reach fl w s (t.closeWindow n) := by
  unfold State.closeWindow
  refine reach_fileReport (reach_nextWindow (reach_ite (reach_closeCensus ?_ _ _) ?_) n) n _ (formReport_ok _ _)
  all_goals
    exact reach_judgeMismatch (reach_judgeStatus (reach_putTracker h n _ (nextWindow_ok _)) n _) _ _ _

theorem reach_qmEnd (h : Reach fl w s t) (n) : Reach fl w s (t.qmEnd n) := by
  have h1 := reach_putQmLane (reach_completeHeld h n) n
    { awaited := ((t.completeHeld n).qmLane n).awaited || ((t.completeHeld n).qmLane n).outstanding } (by simp [QmLane.ok])
  exact reach_ite (reach_withdrawRun h1 _ _) h1

theorem reach_laneIdle (h : Reach fl w s t) (n) : Reach fl w s (t.laneIdle n) :=
  reach_qmEnd (reach_putTracker (reach_putFramer h n {}) n {} (fun _ => tracker_default_ok)) n

theorem reach_laneHunt (h : Reach fl w s t) (n x) : Reach fl w s (t.laneHunt n x) :=
  reach_buildTracker (reach_putFramer h n _) n x

theorem reach_qmSoftReset (h : Reach fl w s t) (n) : Reach fl w s (t.qmSoftReset n) :=
  reach_putQmLane h n {} (by simp [QmLane.ok])

end Sys2Proof.Laws
end

