-- ==== Sys2Proof/Laws/ReachPool.lean ====
section
/-! SUPPORT. The chains of primitive updates that the operations of the Tuner Pool Manager, the Scan Scheduler and the
Ranking Engine make, and the chain of all hand-overs of a command. -/

namespace Sys2Proof.Laws
open Sys2Proof.Machine

set_option Elab.async false

variable {fl : Bool} {w : Nat} {s t : State}

/-! ## The host request queue -/

theorem reach_setHostQueue (h : Reach fl w s t) (l) (hl : hostQueueOk t.hostQueue → hostQueueOk l) (hw : 1 ≤ w := by omega) :
    Reach fl w s (t.setHostQueue l) := h.step (.hostQueue hw l hl)

theorem reach_dropRequest (h : Reach fl w s t) (x) (hw : 1 ≤ w := by omega) : Reach fl w s (t.dropRequest x) :=
  reach_setHostQueue h _ (fun ho => ⟨Nat.le_trans (List.length_filter_le _ _) ho.1,
    List.Nodup.sublist (List.Sublist.map _ List.filter_sublist) ho.2⟩)

theorem markRequest_muxes (l : List HostReq) (x : Nat) (m : Bool) :
    (l.map (fun r => if r.mux = x then { r with committed := m } else r)).map HostReq.mux = l.map HostReq.mux := by
  rw [List.map_map]
  refine List.map_congr_left (fun r _ => ?_)
  simp only [Function.comp]
  split <;> rfl

theorem reach_markRequest (h : Reach fl w s t) (x m) (hw : 1 ≤ w := by omega) : Reach fl w s (t.markRequest x m) :=
  reach_setHostQueue h _ (fun ho => ⟨by simpa using ho.1, by rw [markRequest_muxes]; exact ho.2⟩)

theorem fileAnswer_queued (s : State) (x : Nat) (h : s.fileAnswer x = .queued) (hq : s.queuedHost x = false) :
    s.hostQueue.length < 16 := by
  unfold State.fileAnswer at h
  simp only [hq] at h
  split at h
  · cases h
  · split at h
    · cases h
    · split at h
      · rename_i hc; cases hc
      · split at h
        · cases h
        · split at h
          · cases h
          · rename_i hl; exact Nat.lt_of_not_le hl

theorem reach_fileHost (h : Reach fl w s t) (x) (hw : 1 ≤ w := by omega) : Reach fl w s (t.fileHost x) := by
  unfold State.fileHost
  split
  · exact reach_raise h _ _ _ _
  · rename_i ha
    split
    · exact h
    · rename_i hq
      have hq' : t.queuedHost x = false := by simpa using hq
      refine reach_post (reach_setHostQueue h _ (fun ho => ⟨?_, ?_⟩)) .serveTry
      · have := fileAnswer_queued t x ha hq'
        simp; omega
      · simp only [State.queuedHost, List.any_eq_false, decide_eq_true_eq] at hq'
        simp only [List.map_append, List.map_cons, List.map_nil]
        refine List.nodup_append.mpr ⟨ho.2, by simp, ?_⟩
        intro a ha b hb
        obtain ⟨r, hr, rfl⟩ := List.mem_map.mp ha
        rw [List.mem_singleton.mp hb]
        exact hq' r hr
  · exact h

theorem reach_claimGone (h : Reach fl w s t) (x) (hw : 1 ≤ w := by omega) : Reach fl w s (t.claimGone x) := by
  unfold State.claimGone
  split
  · exact reach_dropRequest h _
  · exact reach_ite (reach_post h _) h

theorem reach_settleClaims (h : Reach fl w s t) (l) (hw : 1 ≤ w := by omega) : Reach fl w s (t.settleClaims l) :=
  reach_foldl _ _ (fun _ _ hu => reach_ite (reach_claimGone hu _) hu) h

/-! ## Tuners -/

theorem reach_putTuner (h : Reach fl w s t) (n r) (hr : ∀ x, holds r x = true → holds (t.tuner n) x = true)
    (hw : 1 ≤ w := by omega) : Reach fl w s (t.putTuner n r) := h.step (.tuner hw n r (fun x hx => .inl (hr x hx)))

theorem holds_none (r : Tuner) (h : r.mux = none) (x : Nat) : holds r x = false := by simp [holds, h]

theorem holds_idle (r : Tuner) (h : r.state = .off ∨ r.state = .free ∨ r.state = .releasing) (x : Nat) :
    holds r x = false := by
  rcases h with h | h | h <;> simp [holds, h]

theorem reach_putTuner_idle (h : Reach fl w s t) (n r)
    (hr : r.mux = none ∨ r.state = .off ∨ r.state = .free ∨ r.state = .releasing) (hw : 1 ≤ w := by omega) : Reach fl w s (t.putTuner n r) := by
  refine reach_putTuner h n r (fun x hx => ?_)
  rcases hr with hr | hr
  · rw [holds_none r hr] at hx; cases hx
  · rw [holds_idle r hr] at hx; cases hx

theorem reach_beginTune (h : Reach fl w s t) (n x k)
    (hx : t.occupies n x = true ∨ t.occupied x = false) (hw : 1 ≤ w := by omega) :
    Reach fl w s (t.beginTune n x k) := by
  refine reach_requestRun (h.step (.tuner hw n _ (fun y hy => ?_))) _ _ _
  have : y = x := by
    simp only [holds, Bool.and_eq_true, decide_eq_true_eq] at hy
    exact (Option.some.inj hy.1).symm
  rw [this]
  exact hx

/-- A tuner that does not occupy a multiplex leaves it unoccupied if no other tuner occupies it. -/
theorem occupied_putTuner (s : State) (n : Nat) (r : Tuner) (x : Nat) (hd : r ≠ {})
    (hr : holds r x = false) (h : s.occupied x = false) : (s.putTuner n r).occupied x = false := by
  simp only [State.occupied, List.any_eq_false, List.mem_range] at h ⊢
  intro u hu
  rw [occupies_eq]
  show ¬ holds (Tab.get {} (Tab.set {} s.tuners n r) u) x = true
  by_cases hun : u = n
  · rw [hun, tab_get_set_ne _ _ _ _ hd, hr]; simp
  · rw [tab_get_set_other _ _ _ _ _ hun]
    exact h u hu

theorem reach_enterFree (h : Reach fl w s t) (n) (hw : 1 ≤ w := by omega) : Reach fl w s (t.enterFree n) := by
  unfold State.enterFree
  dsimp only
  split
  · exact reach_putTuner_idle h _ _ (.inr (.inl rfl))
  · exact reach_post (reach_putTuner_idle h _ _ (.inr (.inr (.inl rfl)))) _
  · have h1 := reach_putTuner_idle h n { t.tuner n with state := .free, committed := none } (.inr (.inr (.inl rfl)))
    split
    · exact reach_post h1 _
    · rename_i x hx
      split
      · rename_i hq
        simp only [Bool.and_eq_true, Bool.not_eq_true'] at hq
        exact reach_post (reach_beginTune (reach_dropRequest h1 x) n x .host (.inr (occupied_putTuner t n
          { t.tuner n with state := .free, committed := none } x (by simp [Tuner.mk.injEq]) (holds_idle _ (.inr (.inl rfl)) x)
          hq.2))) _
      · exact reach_post (reach_markRequest h1 _ _) _

theorem reach_tellFailure (h : Reach fl w s t) (n x k c) : Reach fl w s (t.tellFailure n x k c) := by
  unfold State.tellFailure
  split
  · exact reach_post h _
  · exact reach_post h _
  · exact reach_post (reach_raise h _ _ _ _) _
  · exact h

theorem reach_failTune (h : Reach fl w s t) (n c) (hw : 1 ≤ w := by omega) : Reach fl w s (t.failTune n c) :=
  reach_post (reach_enterFree (reach_tellFailure (reach_putTuner_idle (reach_raise (reach_laneIdle h n) _ _ _ _) n _
    (by exact .inl rfl)) _ _ _ _) _) _

theorem reach_endWinding (h : Reach fl w s t) (n p) (hs : (t.tuner n).state = .releasing) (hw : 1 ≤ w := by omega) :
    Reach fl w s (t.endWinding n p) := by
  have h1 : Reach fl w s (t.putTuner n
      (if p = .tune then { t.tuner n with windTune := false } else { t.tuner n with windRelease := false })) :=
    reach_putTuner_idle h _ _ (by split <;> exact .inr (.inr (.inr hs)))
  exact reach_ite h1 (reach_enterFree h1 _)

theorem reach_tunerOutcome (h : Reach fl w s t) (n p o) (hw : 1 ≤ w := by omega) : Reach fl w s (t.tunerOutcome n p o) := by
  unfold State.tunerOutcome
  dsimp only
  split
  · rename_i hc
    exact reach_endWinding h _ _ hc.1
  · split
    · rename_i hc
      refine reach_ite (reach_laneHunt (reach_putTuner h _ _ (fun x hx => ?_)) _ _) (reach_failTune h _ _)
      simp only [holds, Bool.and_eq_true, decide_eq_true_eq] at hx ⊢
      exact ⟨hx.1, by simp [hc.1]⟩
    · exact h

theorem reach_beginHosting (h : Reach fl w s t) (n) (hw : 1 ≤ w := by omega) : Reach fl w s (t.beginHosting n) :=
  reach_putTuner h _ _ (fun _ hx => hx)

theorem reach_tryIfIdle (h : Reach fl w s t) (n) : Reach fl w s (t.tryIfIdle n) := reach_ite (reach_post h _) h

theorem reach_firstLock (h : Reach fl w s t) (n) (hw : 1 ≤ w := by omega) : Reach fl w s (t.firstLock n) := by
  unfold State.firstLock
  dsimp only
  split
  · rename_i hc
    have hk : ∀ r : Tuner, r.mux = (t.tuner n).mux → ∀ x, holds r x = true → holds (t.tuner n) x = true := by
      intro r hr x hx
      simp only [holds, Bool.and_eq_true, decide_eq_true_eq, hr] at hx ⊢
      exact ⟨hx.1, by simp [hc]⟩
    have h1 := reach_putTuner h n { t.tuner n with state := .observing, acquire := none } (hk _ rfl)
    split
    · exact reach_post (reach_post h1 _) _
    · exact reach_tryIfIdle (reach_post (reach_beginHosting h1 _) _) _
    · refine reach_tryIfIdle (reach_putTuner h1 n _ ?_) _
      intro x hx
      show holds (Tab.get {} (Tab.set {} t.tuners n _) n) x = true
      rw [tab_get_set_ne _ _ _ _ (by simp [Tuner.mk.injEq])]
      exact hx
  · exact h

theorem reach_tpmLock (h : Reach fl w s t) (n b) (hw : 1 ≤ w := by omega) : Reach fl w s (t.tpmLock n b) :=
  reach_ite (reach_putTuner h _ _ (by exact fun _ hx => hx)) h

theorem reach_acquireExpires (h : Reach fl w s t) (n) (hw : 2 ≤ w := by omega) : Reach fl w s (t.acquireExpires n) := by
  unfold State.acquireExpires
  split
  · exact reach_ite (reach_failTune (reach_reach h _) _ _) h
  · exact h

/-- A chain of level 0 leaves the tuners, the roles and the request queue as they are. -/
theorem Prim.level0 (h : Prim fl 0 s t) : t.tuners = s.tuners ∧ t.roles = s.roles ∧ t.hostQueue = s.hostQueue := by
  cases h <;> first | exact ⟨rfl, rfl, rfl⟩ | omega

theorem Reach.level0 (h : Reach fl 0 s t) : t.tuners = s.tuners ∧ t.roles = s.roles ∧ t.hostQueue = s.hostQueue := by
  induction h with
  | refl => exact ⟨rfl, rfl, rfl⟩
  | step _ p ih =>
    have := p.level0
    exact ⟨this.1.trans ih.1, this.2.1.trans ih.2.1, this.2.2.trans ih.2.2⟩

theorem tuner_congr {u v : State} (h : u.tuners = v.tuners) (n : Nat) : u.tuner n = v.tuner n := by
  unfold State.tuner; rw [h]

theorem laneIdle_tuners (s : State) (n : Nat) : (s.laneIdle n).tuners = s.tuners :=
  (reach_laneIdle (fl := true) (w := 0) .refl n).level0.1

theorem raise_tuners (s : State) (k i kd v) : (s.raise k i kd v).tuners = s.tuners :=
  (reach_raise (fl := true) (w := 0) .refl k i kd v).level0.1

theorem reach_relockExpires (h : Reach fl w s t) (n) (hw : 2 ≤ w := by omega) : Reach fl w s (t.relockExpires n) := by
  unfold State.relockExpires
  split
  · rename_i m x hm hx
    split
    · rename_i hc
      refine reach_beginTune (reach_laneIdle (reach_raise (reach_reach h _) _ _ _ _) n) n x _ (.inl ?_)
      rw [occupies_eq, tuner_congr ((laneIdle_tuners _ _).trans (raise_tuners _ _ _ _ _))]
      show holds (t.tuner n) x = true
      simp [holds, hx, hc.1]
    · exact h
  · exact h

/-! ## Release -/

theorem reach_windDown (h : Reach fl w s t) (n b) (hw : 1 ≤ w := by omega) : Reach fl w s (t.windDown n b) := by
  have h1 := reach_putTuner_idle h n { t.tuner n with
      mux := none, work := none, acquire := none, relock := none, windTune := b, windRelease := (t.tunerRec n).release.isSome,
      state := if (b || (t.tunerRec n).release.isSome) = true then .releasing else (t.tuner n).state } (.inl rfl)
  have h2 := reach_ite (b := b = true) (reach_withdrawRun h1 n .tune) h1
  have h3 := reach_ite (b := (t.tunerRec n).release.isSome = true) (reach_requestRun h2 n .release 0) h2
  exact reach_ite h3 (reach_enterFree h3 n)

theorem reach_release (h : Reach fl w s t) (n r) (hw : 1 ≤ w := by omega) : Reach fl w s (t.release n r) := by
  unfold State.release
  have h1 : Reach fl w s (if (t.tuner n).state = TunerState.tuning then t else t.laneIdle n) := reach_ite h (reach_laneIdle h n)
  refine reach_post (reach_windDown (reach_putRole ?_ _ _) _ _) _
  split
  · exact reach_ite (reach_post h1 _) h1
  · exact h1

/-! ## Visit records -/

theorem reach_putVisit (h : Reach fl w s t) (n v) (hv : (∀ x, (t.mux x).dwell ≤ 16) → t.sched.ok → visitOk v)
    (hw : 1 ≤ w := by omega) : Reach fl w s (t.putVisit n v) :=
  h.step (.sched hw _ (fun hd ho => ⟨ho.1, ho.2.1, ho.2.2.1, ho.2.2.2.1, ho.2.2.2.2.1,
    tab_all_set _ _ ho.2.2.2.2.2 _ _ (hv hd ho)⟩) (fun hc => tab_wf_set _ _ _ _ hc) (fun hc => hc))

theorem reach_putLastOutcome (h : Reach fl w s t) (n v) (hw : 1 ≤ w := by omega) : Reach fl w s (t.putLastOutcome n v) :=
  h.step (.sched hw _ (fun _ ho => ho) (fun hc => hc) (fun hc => tab_wf_set _ _ _ _ hc))

theorem visitOk_none : visitOk none := by simp [visitOk]

theorem reach_endVisit (h : Reach fl w s t) (n o) (hw : 1 ≤ w := by omega) : Reach fl w s (t.endVisit n o) := by
  unfold State.endVisit
  split
  · exact h
  · exact reach_post (reach_putVisit (reach_putLastOutcome h _ _) _ _ (fun _ _ => visitOk_none)) _

theorem reach_visitStopped (h : Reach fl w s t) (n o) (hw : 1 ≤ w := by omega) : Reach fl w s (t.visitStopped n o) :=
  reach_post (reach_endVisit h n o) _

/-! ## Swaps, serving, roles -/

theorem reach_swap (h : Reach fl w s t) (x a l) (hw : 1 ≤ w := by omega) : Reach fl w s (t.swap x a l) := by
  have h2 := reach_post (reach_beginHosting (reach_putRole (reach_visitStopped (reach_dropRequest h x) a .promoted) a .live) a)
    (.hosted x)
  exact reach_post (reach_ite (reach_enterFree (reach_putRole h2 _ _) _) (reach_release h2 _ _)) _

theorem reach_serveByTune (h : Reach fl w s t) (x l) (hx : t.occupied x = false) (hw : 1 ≤ w := by omega) :
    Reach fl w s (t.serveByTune x l) := by
  unfold State.serveByTune
  refine reach_ite (reach_beginTune (reach_dropRequest h x) l x .host (by exact .inr hx)) (reach_ite ?_ ?_)
  · exact reach_putTuner (reach_release (reach_markRequest h _ _) _ _) _ _ (by exact fun _ hy => hy)
  · exact reach_release (reach_putTuner h _ _ (by exact fun _ hy => hy)) _ _

theorem judgeRequest_tune {s : State} {x l} (h : s.judgeRequest x = .tune l) : s.occupied x = false := by
  unfold State.judgeRequest at h
  split at h
  · cases h
  · split at h
    · cases h
    · split at h
      · cases h
      · rename_i hx; simpa using hx

theorem firstServed_judge {s : State} {l : List HostReq} {x a} (h : s.firstServed l = some (x, a)) : s.judgeRequest x = a := by
  induction l with
  | nil => cases h
  | cons r l ih =>
    simp only [State.firstServed] at h
    split at h
    · exact ih h
    · split at h
      · exact ih h
      · cases h; rfl

theorem reach_serveOne (h : Reach fl w s t) (x a) (ha : t.judgeRequest x = a) (hw : 1 ≤ w := by omega) :
    Reach fl w s (t.serveOne x a) := by
  cases a with
  | unreachable => exact reach_post (reach_raise (reach_dropRequest h _) _ _ _ _) (.hostFailed x .unreachable)
  | swap a l => exact reach_swap h _ _ _
  | tune l => exact reach_serveByTune h _ _ (judgeRequest_tune ha)
  | waits => exact h

theorem reach_serve (n : Nat) (hw : 1 ≤ w := by omega) : ∀ {t : State}, Reach fl w s t → Reach fl w s (State.serve n t) := by
  induction n with
  | zero => exact fun h => h
  | succ n ih =>
    intro t h
    simp only [State.serve]
    split
    · exact h
    · rename_i x a he
      exact ih (reach_serveOne h x a (firstServed_judge he))

theorem reach_clearCommitted (h : Reach fl w s t) (n) (hw : 1 ≤ w := by omega) : Reach fl w s (t.clearCommitted n) := by
  unfold State.clearCommitted
  split
  · exact h
  · exact reach_putTuner (reach_markRequest h _ _) _ _ (by exact fun _ hy => hy)

theorem reach_setRole (h : Reach fl w s t) (n r) (hw : 1 ≤ w := by omega) : Reach fl w s (t.setRole n r) := by
  unfold State.setRole
  refine reach_ite h (reach_post (reach_post ?_ _) _)
  unfold State.changeRole
  split
  · exact reach_enterFree (reach_putRole h _ _) _
  · exact reach_ite (reach_windDown (reach_putRole h _ _) _ _) (reach_enterFree (reach_putRole h _ _) _)
  · exact reach_putRole (reach_clearCommitted h _) _ _
  · exact reach_ite (reach_release (reach_visitStopped h _ _) _ _) (reach_release h _ _)

theorem reach_tpmReset (h : Reach fl w s t) (n) (hw : 1 ≤ w := by omega) : Reach fl w s (t.tpmReset n) :=
  reach_putTuner_idle h _ _ (by exact .inl rfl)

end Sys2Proof.Laws
end

