-- ==== Sys2Proof/Laws/ReachEngine.lean ====
section
/-! SUPPORT. The chains of primitive updates that the operations of the Scan Scheduler and the Ranking Engine make, and the
chain of all the hand-overs of a command. -/

namespace Sys2Proof.Laws
open Sys2Proof.Machine

set_option Elab.async false

variable {fl : Bool} {w : Nat} {s t : State}

/-! ## Scan Scheduler -/

theorem advance_ok (c : Sched) (x : Nat) (p : PickSource) (h : c.ok) : (c.advance x p).ok := by
  cases p with
  | urgent => exact ⟨Nat.le_trans (List.length_filter_le _ _) h.1, List.Nodup.sublist List.filter_sublist h.2.1, h.2.2⟩
  | ringA => exact ⟨h.1, h.2.1, Nat.mod_lt _ (by omega), h.2.2.2.1, satAdd_le _ _ _, h.2.2.2.2.2⟩
  | ringB => exact ⟨h.1, h.2.1, h.2.2.1, Nat.mod_lt _ (by omega), Nat.zero_le _, h.2.2.2.2.2⟩

/-- Below level 2 the loaded tables stand. -/
theorem Prim.tables_eq (p : Prim fl w s t) (hw : w ≤ 1) : t.tables = s.tables := by
  cases p <;> first | rfl | omega

theorem Reach.tables_eq (h : Reach fl w s t) (hw : w ≤ 1) : t.tables = s.tables :=
  h.keeps (P := fun u => u.tables = s.tables) (fun _ _ p e => (p.tables_eq hw).trans e) rfl

theorem reach_takePick (h : Reach fl w s t) (n x p) (hx : t.occupied x = false) (hw : 1 ≤ w := by omega) :
    Reach fl w s (t.takePick n x p) := by
  have ht := (reach_beginTune (fl := fl) (w := 1) (.refl (s := t)) n x .visit (.inr hx)).tables_eq (Nat.le_refl _)
  refine reach_putVisit (reach_putLastOutcome (Reach.step (reach_beginTune h n x .visit (.inr hx)) (.sched hw _ ?_ ?_ ?_)) _ _) _ _ ?_
  · exact fun _ => advance_ok _ _ _
  · cases p <;> exact fun hc => hc
  · cases p <;> exact fun hc => hc
  · intro hd _ r hr
    cases hr
    have := hd x
    show (Tab.get {} t.tables.muxes x).dwell ≤ 16
    rw [← ht]
    exact this

theorem visitAnswer_taken {s : State} {n x} (h : s.visitAnswer n x = .taken) : s.occupied x = false := by
  unfold State.visitAnswer at h
  split at h
  · cases h
  · split at h
    · cases h
    · split at h
      · cases h
      · rename_i hx; simpa using hx

theorem reach_tryPick (h : Reach fl w s t) (n k : Nat) (l : List Nat) (hw : 1 ≤ w := by omega) :
    Reach fl w s (State.tryPick n k l t) := by
  induction k generalizing l with
  | zero => exact h
  | succ k ih =>
    simp only [State.tryPick]
    split
    · exact h
    · split
      · rename_i ha; exact reach_takePick h _ _ _ (visitAnswer_taken ha)
      · exact h
      · exact ih _

theorem reach_tryPicks (h : Reach fl w s t) (hw : 1 ≤ w := by omega) : Reach fl w s t.tryPicks :=
  reach_foldl _ _ (fun _ _ hu => reach_ite (reach_tryPick hu _ _ _) hu) h

theorem reach_setUrgent (h : Reach fl w s t) (l : List Nat)
    (hl : t.sched.urgent.length ≤ 8 ∧ t.sched.urgent.Nodup → l.length ≤ 8 ∧ l.Nodup) (hw : 1 ≤ w := by omega) :
    Reach fl w s (t.setUrgent l) :=
  h.step (.sched hw _ (fun _ ho => ⟨(hl ⟨ho.1, ho.2.1⟩).1, (hl ⟨ho.1, ho.2.1⟩).2, ho.2.2⟩) (fun hc => hc) (fun hc => hc))

theorem urgent_append (l : List Nat) (x : Nat) (hx : l.contains x = false) (hl : l.length < 8) (h : l.length ≤ 8 ∧ l.Nodup) :
    (l ++ [x]).length ≤ 8 ∧ (l ++ [x]).Nodup := by
  refine ⟨by simp; omega, List.nodup_append.mpr ⟨h.2, by simp, ?_⟩⟩
  intro a ha b hb e
  rw [List.mem_singleton.mp hb] at e
  subst e
  simp [ha] at hx

theorem reach_placeUrgent (h : Reach fl w s t) (x) (hw : 1 ≤ w := by omega) : Reach fl w s (t.placeUrgent x).1 := by
  unfold State.placeUrgent
  split
  · exact h
  · rename_i hx
    split
    · exact reach_raise h _ _ _ _
    · split
      · exact reach_raise h _ _ _ _
      · rename_i hl
        exact reach_setUrgent h _ (urgent_append _ _ (by simpa using hx) (Nat.lt_of_not_le hl))

theorem reach_pairFold {α β : Type} (l : List α) (f : State × β → α → State × β) (b : β)
    (hf : ∀ (p : State × β) a, Reach fl w s p.1 → Reach fl w s (f p a).1) (h : Reach fl w s t) :
    Reach fl w s (l.foldl f (t, b)).1 :=
  foldl_keeps (fun p : State × β => Reach fl w s p.1) f hf l (t, b) h

theorem reach_sweepRequest (h : Reach fl w s t) (l) (hw : 1 ≤ w := by omega) : Reach fl w s (t.sweepRequest l).1 := by
  have h1 : Reach fl w s (l.foldl (fun (a : State × List Nat) x =>
      let p := a.1.placeUrgent x
      (p.1, if p.2 then a.2 ++ [x] else a.2)) (t, [])).1 :=
    reach_pairFold l _ [] (fun p a hp => reach_placeUrgent hp a) h
  exact reach_ite (reach_post h1 _) h1

theorem reach_dropUrgent (h : Reach fl w s t) (x) (hw : 1 ≤ w := by omega) : Reach fl w s (t.dropUrgent x) :=
  reach_ite (reach_post (reach_setUrgent h _ (fun hl =>
    ⟨Nat.le_trans (List.length_filter_le _ _) hl.1, List.Nodup.sublist List.filter_sublist hl.2⟩)) _) h

theorem reach_pruneUrgent (h : Reach fl w s t) (hw : 1 ≤ w := by omega) : Reach fl w s t.pruneUrgent :=
  reach_foldl _ _ (fun _ _ hu => reach_raise (reach_dropUrgent hu _) _ _ _ _) h

theorem reach_completeVisit (h : Reach fl w s t) (n x) (hw : 1 ≤ w := by omega) : Reach fl w s (t.completeVisit n x) :=
  reach_post (reach_endVisit (reach_release (reach_closeCensus h _ _) _ _) _ _) _

theorem visit_ok {n v} (hv : t.visit n = some v) (ho : t.sched.ok) : v.dwell ≤ 16 :=
  tab_all_get visitOk_none _ ho.2.2.2.2.2 n v hv

theorem reach_schReport (h : Reach fl w s t) (r) (hw : 1 ≤ w := by omega) : Reach fl w s (t.schReport r) := by
  unfold State.schReport
  split
  · exact h
  · rename_i v hv
    have h1 := reach_putVisit h r.lane (some { v with dwell := v.dwell - 1 }) (fun _ ho x hx => by
      cases hx
      have := visit_ok hv ho
      exact Nat.le_trans (Nat.sub_le _ _) this)
    exact reach_ite (reach_ite (reach_completeVisit h1 _ _) h1) h

theorem reach_visitObserving (h : Reach fl w s t) (n) (hw : 1 ≤ w := by omega) : Reach fl w s (t.visitObserving n) := by
  unfold State.visitObserving
  split
  · rename_i v hv
    exact reach_putVisit h _ _ (fun _ ho x hx => by cases hx; exact (visit_ok hv ho : v.dwell ≤ 16))
  · exact h

theorem reach_visitFails (h : Reach fl w s t) (n x c) (hw : 1 ≤ w := by omega) : Reach fl w s (t.visitFails n x c) :=
  reach_post (reach_endVisit (reach_post h _) _ _) _

/-! ## Scores -/

theorem ceilDiv_le_self (a b : Nat) (hb : 1 ≤ b) : ceilDiv a b ≤ a := by
  unfold ceilDiv
  rcases Nat.eq_zero_or_pos a with h | h
  · subst h
    rcases Nat.lt_or_ge 0 b with hb' | hb'
    · exact Nat.le_of_eq (Nat.div_eq_of_lt (by omega))
    · omega
  · rw [← Nat.lt_succ_iff, Nat.div_lt_iff_lt_mul hb]
    have : a + b ≤ a * b + b := by
      have := Nat.le_mul_of_pos_right a hb; omega
    rw [Nat.succ_mul]
    omega

theorem smooth_le (n : Nat) (q : Option Nat) (x : Nat) (hq : ∀ y, q = some y → y ≤ 1000) (hx : x ≤ 1000) :
    smooth n q x ≤ 1000 := by
  unfold smooth
  have hp : 1 ≤ 2 ^ n := Nat.one_le_two_pow
  split
  · exact hx
  · rename_i y
    have hy := hq y rfl
    split
    · have := ceilDiv_le_self (x - y) _ hp; omega
    · omega

theorem score_le (i : ScoreInput) (h : i.l ≤ 1000) : i.score ≤ 1000 := by
  have hb : i.base ≤ 1000 := by unfold ScoreInput.base; have := Nat.min_le_right i.m 200; omega
  have h1 : i.v1 ≤ 1000 := by
    refine Nat.div_le_of_le_mul ?_
    exact Nat.mul_le_mul hb h
  have h2 : i.v2 ≤ 1000 := by
    refine Nat.div_le_of_le_mul ?_
    exact Nat.le_trans (Nat.mul_le_mul h1 (Nat.sub_le 1000 i.pen)) (by omega)
  have h4 : i.v4 ≤ 1000 := by unfold ScoreInput.v4 ScoreInput.v3; omega
  unfold ScoreInput.score
  split
  · omega
  · split <;> omega

theorem observe_ok (n now x : Nat) (l : Live) (hx : x ≤ 1000) (h : l.ok) : (l.observe n now x).ok := by
  refine ⟨?_, ?_, ?_⟩
  · intro q hq
    cases hq
    exact smooth_le _ _ _ h.1 hx
  · intro q hq
    cases hq
    exact hx
  · simp only [Live.observe]
    split
    · exact Nat.min_le_left _ _
    · exact Nat.zero_le _

/-! ## Ranking Engine -/

theorem addNew_nodup (l : List Nat) (x : Nat) (h : l.Nodup) : (addNew l x).Nodup := by
  unfold addNew
  split
  · exact h
  · rename_i hx
    refine List.nodup_append.mpr ⟨h, by simp, ?_⟩
    intro a ha b hb e
    rw [List.mem_singleton.mp hb] at e
    subst e
    simp [ha] at hx

/-- A sweep collects at most 3 multiplexes, none twice (R147). -/
theorem sweepMuxes_ok (s : State) (v : Nat) : (s.sweepMuxes v).length ≤ 3 ∧ (s.sweepMuxes v).Nodup := by
  refine ⟨List.length_take_le _ _, List.Nodup.sublist (List.take_sublist _ _) ?_⟩
  refine foldl_keeps List.Nodup _ (fun l x hl => ?_) _ [] List.nodup_nil
  split
  · exact hl
  · exact addNew_nodup _ _ hl

/-- What a sweep request places is what it was given, some left out, in the same order. -/
theorem sweepRequest_sublist (s : State) (l : List Nat) : (s.sweepRequest l).2.Sublist l := by
  have h : ∀ (l : List Nat) (a : State × List Nat), (l.foldl (fun (a : State × List Nat) x =>
      let p := a.1.placeUrgent x
      (p.1, if p.2 then a.2 ++ [x] else a.2)) a).2.Sublist (a.2 ++ l) := by
    intro l
    induction l with
    | nil => intro a; simp
    | cons x l ih =>
      intro a
      refine (ih _).trans ?_
      dsimp only
      split
      · simp
      · exact List.Sublist.append (List.Sublist.refl _) (List.sublist_cons_self _ _)
  exact h l (s, [])

theorem reach_startSweep (h : Reach fl w s t) (v) (hw : 1 ≤ w := by omega) : Reach fl w s (t.startSweep v) := by
  have h1 := reach_putRank (reach_sweepRequest h (t.sweepMuxes v)) v
    { (t.sweepRequest (t.sweepMuxes v)).1.rank v with sweep := (t.sweepRequest (t.sweepMuxes v)).2 }
    (fun ho => ⟨ho.1, Nat.le_trans (sweepRequest_sublist _ _).length_le (sweepMuxes_ok t v).1,
      List.Nodup.sublist (sweepRequest_sublist _ _) (sweepMuxes_ok t v).2⟩)
  exact reach_ite (reach_raise h1 _ _ _ _) h1

theorem reach_leaveSweeps (h : Reach fl w s t) (x) (hw : 1 ≤ w := by omega) : Reach fl w s (t.leaveSweeps x) := by
  refine reach_foldl _ _ (fun u v hu => ?_) h
  unfold State.leaveSweep
  have h1 := reach_putRank hu v { u.rank v with sweep := (u.rank v).sweep.filter (fun y => !decide (y = x)) }
    (fun ho => ⟨ho.1, Nat.le_trans (List.length_filter_le _ _) ho.2.1, List.Nodup.sublist List.filter_sublist ho.2.2⟩)
  exact reach_ite (reach_ite (reach_raise h1 _ _ _ _) h1) hu

theorem reach_judgeDegraded (h : Reach fl w s t) (v) (hw : 1 ≤ w := by omega) : Reach fl w s (t.judgeDegraded v) := by
  unfold State.judgeDegraded
  have h1 := reach_raise (reach_putRank h v { t.rank v with degraded := true }) .service v .liveDegraded true
  exact reach_ite (reach_ite h (reach_ite (reach_startSweep h1 _) h1)) (reach_putRank h _ _)

theorem reach_observe (h : Reach fl w s t) (i x) (hx : fl = true → x ≤ 1000) (hw : 1 ≤ w := by omega) : Reach fl w s (t.observe i x) := by
  have h1 : Reach fl w s (t.putLive i ((t.live i).observe t.settings.shift t.clock.secs x)) :=
    h.step (.live hw _ _ (fun e => observe_ok _ _ _ _ (hx e)))
  exact reach_ite (reach_judgeDegraded h1 _) h1

theorem reach_putClaims (h : Reach fl w s t) (v k) (hk : (t.rank v).ok → k.ok := by exact fun ho => ho)
    (hw : 1 ≤ w := by omega) : Reach fl w s (t.putClaims v k) :=
  reach_settleClaims (reach_putRank h _ _ hk) _

theorem reach_dropTarget (h : Reach fl w s t) (v) (hw : 1 ≤ w := by omega) : Reach fl w s (t.dropTarget v) := by
  unfold State.dropTarget
  split
  · exact h
  · exact reach_putClaims h _ _

theorem reach_askCut (h : Reach fl w s t) (v n) (hw : 1 ≤ w := by omega) : Reach fl w s (t.askCut v n) :=
  reach_createCut (reach_putRank h _ _) _ _ _

theorem challengeCount_le (k : Ranking) (c sel : Nat) (g : Trigger) (h : k.challenges ≤ 15) : challengeCount k c sel g ≤ 15 := by
  unfold challengeCount
  split
  · split
    · exact Nat.min_le_left _ _
    · exact h
  · omega

section fail
variable {fail : State → State} (hf : ∀ {u : State}, Reach fl w s u → Reach fl w s (fail u))
include hf

theorem reach_fileTarget (h : Reach fl w s t) (v n) (hw : 1 ≤ w := by omega) : Reach fl w s (t.fileTarget fail v n) := by
  have h1 := reach_fileHost h (t.copyMux v n)
  unfold State.fileTarget
  dsimp only
  split
  · exact reach_askCut h1 _ _
  · exact reach_putRank h1 _ _
  · exact reach_putRank h1 _ _
  · exact hf h1
  · exact reach_putRank h1 _ _

theorem reach_targetCopy (h : Reach fl w s t) (v n) (hw : 1 ≤ w := by omega) : Reach fl w s (t.targetCopy fail v n) := by
  have h2 := reach_putRank (reach_dropTarget h v) v { (t.dropTarget v).rank v with target := some n, filing := none }
  exact reach_ite (reach_askCut h2 _ _) (reach_fileTarget hf h2 _ _)

theorem reach_challenge (h : Reach fl w s t) (v n g) (hw : 1 ≤ w := by omega) : Reach fl w s (t.challenge fail v n g) := by
  unfold State.challenge
  dsimp only
  split
  · exact reach_putRank h _ _ (fun ho => ⟨Nat.zero_le _, ho.2⟩)
  · rename_i c _
    have h0 := reach_putRank h v { t.rank v with challenger := none, challenges := 0 } (fun ho => ⟨Nat.zero_le _, ho.2⟩)
    have h1 := reach_putRank h v { t.rank v with challenger := some c, challenges := challengeCount (t.rank v) c n g }
      (fun ho => ⟨challengeCount_le _ _ _ _ ho.1, ho.2⟩)
    exact reach_ite (reach_targetCopy hf h0 _ _) h1

theorem reach_decideFree (h : Reach fl w s t) (v g) (hw : 1 ≤ w := by omega) : Reach fl w s (t.decideFree fail v g) := by
  unfold State.decideFree
  split
  · refine reach_ite ?_ (reach_challenge hf h _ _ _)
    split
    · exact reach_targetCopy hf h _ _
    · exact h
  · split
    · exact reach_targetCopy hf h _ _
    · exact h

theorem reach_makeDecision (h : Reach fl w s t) (v g) (hw : 1 ≤ w := by omega) : Reach fl w s (t.makeDecision fail v g) := by
  unfold State.makeDecision State.decidePinned
  split
  · exact reach_ite (reach_ite h (reach_dropTarget h _)) (reach_ite (reach_dropTarget h _) (reach_ite h (reach_targetCopy hf h _ _)))
  · split
    · exact reach_ite h (reach_decideFree hf (reach_dropTarget h _) _ _)
    · exact reach_decideFree hf h _ _

theorem reach_refile (h : Reach fl w s t) (v) (hw : 1 ≤ w := by omega) : Reach fl w s (t.refile fail v) := by
  unfold State.refile
  split
  · exact reach_fileTarget hf h _ _
  · exact h

end fail

theorem reach_barTarget (h : Reach fl w s t) (v) (hw : 1 ≤ w := by omega) : Reach fl w s (t.barTarget v) := by
  unfold State.barTarget
  split
  · exact h
  · rename_i slot _
    have h1 : Reach fl w s (t.putLive (copyIndex v slot)
        { t.live (copyIndex v slot) with barredUntil := some (t.clock.secs + t.settings.hostRetry) }) :=
      h.step (.live hw _ _ (fun _ ho => ho))
    exact reach_dropTarget (reach_observe h1 _ _ (fun _ => Nat.zero_le _)) _

theorem reach_evaluateN (n : Nat) (hw : 1 ≤ w := by omega) :
    ∀ {t : State}, Reach fl w s t → ∀ v g, Reach fl w s (State.evaluateN n v g t) := by
  induction n with
  | zero => exact fun h _ _ => h
  | succ n ih =>
    intro t h v g
    have hf : ∀ {u : State}, Reach fl w s u → Reach fl w s (State.evaluateN n v .other (u.barTarget v)) :=
      fun hu => ih (reach_barTarget hu v) _ _
    have h1 := reach_refile hf (reach_judgeDegraded (reach_putFloor h v (t.service v).floor) v) v
    simp only [State.evaluateN]
    refine reach_ite h (reach_ite h1 ?_)
    exact reach_makeDecision (fail := fun u => State.evaluateN n v .other (u.barTarget v)) hf h1 v g

theorem reach_evaluate (h : Reach fl w s t) (v g) (hw : 1 ≤ w := by omega) : Reach fl w s (t.evaluate v g) :=
  reach_evaluateN 6 hw h v g

theorem reach_reHostFailed (h : Reach fl w s t) (x) (hw : 1 ≤ w := by omega) : Reach fl w s (t.reHostFailed x) :=
  reach_foldl _ _ (fun _ _ hu => reach_ite (reach_evaluate (reach_barTarget hu _) _ _) hu) h

theorem reach_reHosted (h : Reach fl w s t) (x) (hw : 1 ≤ w := by omega) : Reach fl w s (t.reHosted x) := by
  refine reach_leaveSweeps (reach_foldl _ _ (fun u v hu => ?_) h) _
  split
  · exact reach_ite (reach_askCut hu _ _) hu
  · exact hu

theorem reach_reCutDone (h : Reach fl w s t) (v n) (hw : 1 ≤ w := by omega) : Reach fl w s (t.reCutDone v n) :=
  reach_ite (reach_ite (reach_evaluate (reach_judgeDegraded (reach_raise (reach_putClaims h _ _) _ _ _ _) _) _ _)
    (reach_evaluate (reach_raise (reach_putClaims h _ _) _ _ _ _) _ _)) h

theorem reach_reCutCancelled (h : Reach fl w s t) (v) (hw : 1 ≤ w := by omega) : Reach fl w s (t.reCutCancelled v) :=
  reach_ite (reach_evaluate (reach_putClaims h _ _) _ _) h

theorem reach_reUnhosted (h : Reach fl w s t) (x) (hw : 1 ≤ w := by omega) : Reach fl w s (t.reUnhosted x) :=
  reach_foldl _ _ (fun _ _ hu => reach_evaluate hu _ _)
    (reach_foldl _ _ (fun _ _ hu => reach_raise (reach_putClaims hu _ _) _ _ _ _) h)

theorem reach_lossAlert (h : Reach fl w s t) (n) (hw : 1 ≤ w := by omega) : Reach fl w s (t.lossAlert n) := by
  refine reach_foldl _ _ (fun u v hu => reach_ite ?_ hu) h
  split
  · exact reach_targetCopy (fun hu => hu) hu _ _
  · exact hu

theorem reach_pinCopy (h : Reach fl w s t) (v n) (hw : 1 ≤ w := by omega) : Reach fl w s (t.pinCopy v n) :=
  reach_evaluate (reach_putRank h _ _) _ _

theorem reach_unpinCopy (h : Reach fl w s t) (v) (hw : 1 ≤ w := by omega) : Reach fl w s (t.unpinCopy v) := by
  unfold State.unpinCopy
  split
  · exact h
  · exact reach_evaluate (reach_ite (reach_dropTarget (reach_putRank h _ _) _) (reach_putRank h _ _)) _ _

theorem reach_evaluateTouched (h : Reach fl w s t) (l) (hw : 1 ≤ w := by omega) : Reach fl w s (t.evaluateTouched l) :=
  reach_foldl _ _ (fun _ _ hu => reach_evaluate hu _ _) h

theorem reach_reReport (h : Reach fl w s t) (r : Report) (hr : fl = true → r.ok) (hw : 1 ≤ w := by omega) :
    Reach fl w s (t.reReport r) := by
  refine reach_evaluateTouched (reach_pairFold _ _ _ (fun p c hp => ?_) h) _
  unfold State.scoreLine
  split
  · exact reach_observe hp _ _ (fun e => score_le _ (hr e))
  · exact hp

theorem reach_deliverReport (h : Reach fl w s t) (r : Report) (b) (hr : fl = true → r.ok) (hw : 1 ≤ w := by omega) :
    Reach fl w s (t.deliverReport r b) :=
  reach_ite (reach_schReport (reach_reReport h r hr) r) (reach_reReport h r hr)

theorem reach_reZeroWindow (h : Reach fl w s t) (x l) (hw : 1 ≤ w := by omega) : Reach fl w s (t.reZeroWindow x l) := by
  refine reach_evaluateTouched (reach_pairFold _ _ _ (fun p c hp => ?_) h) _
  split
  · exact reach_observe hp _ _ (fun _ => Nat.zero_le _)
  · exact hp

theorem judgeStale_ok (now n : Nat) (l : Live) (h : l.ok) : (l.judgeStale now n).ok := by
  unfold Live.judgeStale
  split <;> exact h

theorem liftBar_ok (now : Nat) (l : Live) (h : l.ok) : (l.liftBar now).ok := by
  unfold Live.liftBar
  split
  · exact h
  · split <;> exact h

theorem reach_reSecond (h : Reach fl w s t) (hw : 1 ≤ w := by omega) : Reach fl w s t.reSecond := by
  refine reach_foldl _ _ (fun _ _ hu => reach_evaluate hu _ _) (reach_pairFold _ _ _ (fun p c hp => ?_) h)
  exact hp.step (.live hw _ _ (fun _ ho => liftBar_ok _ _ (judgeStale_ok _ _ _ ho)))

theorem reach_tickClock (h : Reach fl w s t) (hw : 2 ≤ w := by omega) : Reach fl w s t.tickClock :=
  (reach_reach h _).step (.clock hw _ (fun _ => satAdd_le _ _ _))

/-! ## Hand-overs -/

theorem reach_takeNotice (h : Reach fl w s t) (n : Notice) (hn : fl = true → n.ok) (hw : 1 ≤ w := by omega) :
    Reach fl w s (t.takeNotice n) := by
  cases n with
  | runDone a p o m => exact reach_ite (reach_measureOutcome h _ _ _) (reach_tunerOutcome h _ _ _)
  | checkEnd b => exact reach_endFailing h _
  | hosted x => exact reach_tryPicks (reach_dropUrgent (reach_reHosted h _) _)
  | hostFailed x c => exact reach_reHostFailed h _
  | unhosted x => exact reach_tryPicks (reach_reUnhosted (reach_oaUnhosted h _) _)
  | observing a => exact reach_visitObserving h _
  | visitFailed a x c => exact reach_visitFails h _ _ _
  | scanFree a => exact reach_tryPicks h
  | roleChanged => exact reach_tryPicks (reach_pruneUrgent h)
  | serveTry => exact reach_serve _ hw h
  | pickTry => exact reach_tryPicks h
  | report r b =>
    have hr : fl = true → r.ok := fun e => hn e r b rfl
    exact reach_deliverReport h r b hr
  | zeroWindow x l => exact reach_reZeroWindow h _ _
  | visitEnd a x o => exact reach_leaveSweeps h _
  | dropped x => exact reach_leaveSweeps h _
  | cutDone v n => exact reach_reCutDone h _ _
  | cutCancelled v => exact reach_reCutCancelled h _

/-- Every hand-over that waits carries a report within its range, and so does every pending report. -/
def ReportsOk (s : State) : Prop := Tab.all QmLane.ok s.qmLanes ∧ ∀ n ∈ s.notices, n.ok

theorem qmLane_default_ok : ({} : QmLane).ok := by simp [QmLane.ok]

theorem qmLanes_get_ok (h : Tab.all QmLane.ok s.qmLanes) (n : Nat) : (s.qmLane n).ok := tab_all_get qmLane_default_ok _ h n

theorem Prim.reportsOk (p : Prim fl w s t) (h : ReportsOk s) : ReportsOk t := by
  cases p with
  | notices l hl => exact ⟨h.1, hl (qmLanes_get_ok h.1) h.2⟩
  | lane n q hq => exact ⟨tab_all_set _ _ h.1 _ _ (hq (qmLanes_get_ok h.1 n)), h.2⟩
  | _ => exact h

theorem reach_drain (n : Nat) (hw : 1 ≤ w := by omega) :
    ∀ {t : State}, (fl = true → ReportsOk t) → Reach fl w s t → Reach fl w s (State.drain n t) := by
  induction n with
  | zero => exact fun _ h => h
  | succ n ih =>
    intro t ht h
    simp only [State.drain]
    split
    · exact h
    · rename_i a rest hl
      have h0 : Reach fl w t (t.setNotices rest) :=
        Reach.refl.step (.notices _ (fun _ hn m hm => hn m (hl ▸ List.mem_cons_of_mem _ hm)))
      have h1 := reach_takeNotice h0 a (fun e => (ht e).2 a (hl ▸ List.mem_cons_self))
      exact ih (fun e => h1.keeps (fun _ _ p hp => p.reportsOk hp) (ht e)) (h.trans h1)

theorem reach_wake (h : Reach fl w s t) : Reach fl w s t.wake := by
  refine reach_foldl _ _ (fun u b hu => ?_) h
  unfold State.wakeBus
  split
  · exact reach_post (reach_setSettled hu _) _
  · exact hu

/-- A command or event whose own effect is a chain is a chain with all its hand-overs. -/
theorem reach_act (f : State → State) (hf : ∀ {u : State}, Reach fl w s u → Reach fl w s (f u)) (h : fl = true → ReportsOk s)
    (hw : 1 ≤ w := by omega) : Reach fl w s (s.act f) := by
  have h1 := hf (reach_wake (fl := fl) (w := w) (.refl (s := s)))
  exact reach_setSettled (reach_drain _ hw (fun e => h1.keeps (fun _ _ p hp => p.reportsOk hp) (h e)) h1) _

end Sys2Proof.Laws
end

