-- ==== Sys2Proof/Laws/ReachCommands.lean ====
section
/-! SUPPORT. The chains of primitive updates that the events and the commands make: one lemma for exec. -/

namespace Sys2Proof.Laws
open Sys2Proof.Machine

set_option Elab.async false

variable {fl : Bool} {w : Nat} {s t : State}

/-! ## Events -/

theorem reach_takeLock (h : Reach fl w s t) (n a b c) (hw : 2 ≤ w := by omega) : Reach fl w s (t.takeLock n a b c) := by
  have h1 : Reach fl w s (t.firstWindow n a) := reach_ite (reach_startWindow h n) h
  have h2 := reach_ite (b := c = true) (reach_qmLock h1 n true) h1
  have h3 := reach_ite (b := b = true) (reach_qmRealign h2 n) h2
  have h4 := reach_ite (b := c = true) (reach_tpmLock h3 n true) h3
  exact reach_ite (reach_firstLock h4 n) h4

theorem reach_laneByte (h : Reach fl w s t) (n b) (hw : 2 ≤ w := by omega) : Reach fl w s (t.laneByte n b) := by
  refine reach_foldl _ _ (fun u e hu => ?_) (reach_putFramer h _ _)
  cases e with
  | lock a b c => exact reach_takeLock hu _ _ _ _
  | packet p => exact reach_sortPacket (reach_qmPacket hu _ _) _ _
  | syncError k => exact reach_qmSyncError hu _ _
  | loss => exact reach_oaLoss (reach_lossAlert (reach_tpmLock (reach_qmLock (reach_qmLoss hu n) n false) n false) n) n

theorem reach_deliverHeld (h : Reach fl w s t) (n) (hp : fl = true → (t.qmLane n).ok) (hw : 2 ≤ w := by omega) :
    Reach fl w s (t.deliverHeld n) := by
  unfold State.deliverHeld
  dsimp only
  split
  · exact h
  · rename_i r hr
    refine reach_deliverReport (reach_putQmLane h _ _ (afterHeld_ok _)) _ _ (fun e => ?_)
    exact (hp e).2.2.2.2.2.2.2.2 r hr

theorem reach_expireWindow (h : Reach fl w s t) (n) (hp : fl = true → (t.qmLane n).ok) (hw : 2 ≤ w := by omega) :
    Reach fl w s (t.expireWindow n) := by
  unfold State.expireWindow
  split
  · exact h
  · rename_i v _
    have h1 := reach_deliverHeld (reach_reach h (v.1 + v.2)) n hp
    exact reach_ite (reach_closeWindow h1 _) h1

theorem reach_forceCut (h : Reach fl w s t) (v) (hw : 2 ≤ w := by omega) : Reach fl w s (t.forceCut v) := by
  unfold State.forceCut
  split
  · exact reach_ite (reach_putCut (reach_reach h _) _ _) h
  · exact h

theorem reach_abandonCut (h : Reach fl w s t) (v) (hw : 2 ≤ w := by omega) : Reach fl w s (t.abandonCut v) := by
  unfold State.abandonCut
  split
  · exact reach_ite (reach_cancelCut (reach_reach h _) _ _) h
  · exact h

/-! ## Commands -/

theorem reach_checked (h : Reach fl w s t) (c l act) (hf : Reach fl w s (act t)) (hw : 2 ≤ w := by omega) :
    Reach fl w s (t.checked c l act) := by
  unfold State.checked
  split
  · exact reach_answer h _ _ _ _
  · exact hf

theorem reach_takeHead (h : Reach fl w s t) (p f)
    (hf : ∀ {u : State} (c), Reach fl w s u → Reach fl w s (f c u)) (hw : 2 ≤ w := by omega) : Reach fl w s (t.takeHead p f) := by
  unfold State.takeHead
  split
  · rename_i c rest _ hi
    refine reach_ite (hf c (h.step (.inbound hw _ (fun hl => ?_)))) h
    rw [hi] at hl
    simp at hl; omega
  · exact h

theorem reach_putService (h : Reach fl w s t) (i x) (hw : 2 ≤ w := by omega) : Reach fl w s (t.putService i x) :=
  h.step (.tables hw _ (fun hc => ⟨tab_wf_set _ _ _ _ hc.1, hc.2⟩) (fun hd => hd))

theorem reach_putCopy (h : Reach fl w s t) (i x) (hw : 2 ≤ w := by omega) : Reach fl w s (t.putCopy i x) :=
  h.step (.tables hw _ (fun hc => ⟨hc.1, tab_wf_set _ _ _ _ hc.2.1, hc.2.2⟩) (fun hd => hd))

theorem reach_putMux (h : Reach fl w s t) (i x) (hx : x.dwell ≤ 16) (hw : 2 ≤ w := by omega) : Reach fl w s (t.putMux i x) :=
  h.step (.tables hw _ (fun hc => ⟨hc.1, hc.2.1, tab_wf_set _ _ _ _ hc.2.2.1, hc.2.2.2⟩) (fun hd => tab_all_set _ _ hd _ _ hx))

/-- A record as a COPY write of a multiplex reads it has a dwell of at most 16 (Table 12). -/
theorem readMux_dwell (b : List Byte) : (readMux b).dwell ≤ 16 := by
  show max 1 (min 16 (fieldAt b 3)) ≤ 16; omega

theorem reach_putTunerRec (h : Reach fl w s t) (i x) (hw : 2 ≤ w := by omega) : Reach fl w s (t.putTunerRec i x) :=
  h.step (.tables hw _ (fun hc => ⟨hc.1, hc.2.1, hc.2.2.1, tab_wf_set _ _ _ _ hc.2.2.2.1, hc.2.2.2.2⟩) (fun hd => hd))

theorem reach_putOutputRec (h : Reach fl w s t) (i x) (hw : 2 ≤ w := by omega) : Reach fl w s (t.putOutputRec i x) :=
  h.step (.tables hw _ (fun hc => ⟨hc.1, hc.2.1, hc.2.2.1, hc.2.2.2.1, tab_wf_set _ _ _ _ hc.2.2.2.2.1, hc.2.2.2.2.2⟩) (fun hd => hd))

theorem reach_putStep (h : Reach fl w s t) (i x) (hw : 2 ≤ w := by omega) : Reach fl w s (t.putStep i x) :=
  h.step (.tables hw _ (fun hc => ⟨hc.1, hc.2.1, hc.2.2.1, hc.2.2.2.1, hc.2.2.2.2.1,
    tab_wf_set _ _ _ _ hc.2.2.2.2.2.1, hc.2.2.2.2.2.2⟩) (fun hd => hd))

theorem reach_putSettings (h : Reach fl w s t) (x) (hw : 2 ≤ w := by omega) : Reach fl w s (t.putSettings x) :=
  h.step (.tables hw _ (fun hc => hc) (fun hd => hd))

theorem reach_retrack (h : Reach fl w s t) (a b i) : Reach fl w s (t.retrack a b i) := by
  have h1 := reach_ite (b := (a.defined && !decide (a.mux = localMux)) = true) (reach_removeOn h a.mux i) h
  have h2 := reach_ite (b := (b.defined && !decide (b.mux = localMux)) = true) (reach_mergeOn h1 b.mux i) h1
  exact reach_ite (reach_rebuildLocal h2) h2

theorem rank_default_ok : ({} : Ranking).ok := by simp [Ranking.ok]

theorem reach_storeService (h : Reach fl w s t) (v x) (hw : 2 ≤ w := by omega) : Reach fl w s (t.storeService v x) := by
  have h1 := reach_putService h v x
  have h2 : Reach fl w s (if x.comps = (t.service v).comps then t.putService v x else (t.putService v x).retrackService v) :=
    reach_ite h1 (reach_foldl _ _ (fun _ _ hu => reach_retrack hu _ _ _) h1)
  unfold State.storeService State.disableService
  exact reach_ite h (reach_ite (reach_settleClaims (reach_putRank (reach_oaDisable h2 _) _ _ (fun _ => rank_default_ok)) _)
    (reach_ite (reach_evaluate (reach_putRank h2 _ _ (fun _ => rank_default_ok)) _ _) (reach_evaluate h2 _ _)))

theorem reach_writeService (h : Reach fl w s t) (c) (hw : 2 ≤ w := by omega) : Reach fl w s (t.writeService c) := by
  unfold State.writeService
  exact reach_checked h _ _ _ (reach_answer (reach_storeService h _ _) _ _ _ _)

theorem live_default_ok : ({} : Live).ok := by simp [Live.ok]

theorem reach_storeCopy (h : Reach fl w s t) (i x) (hw : 2 ≤ w := by omega) : Reach fl w s (t.storeCopy i x) := by
  have h1 := reach_putCopy h i x
  have h2 := reach_ite (b := resetsLive (t.service (i / 4)).comps (t.copy i) x = true)
    (Reach.step h1 (.live (by omega) i {} (fun _ _ => live_default_ok))) h1
  exact reach_ite h (reach_evaluate (reach_retrack h2 _ _ _) _ _)

theorem reach_writeCopy (h : Reach fl w s t) (c) (hw : 2 ≤ w := by omega) : Reach fl w s (t.writeCopy c) := by
  unfold State.writeCopy
  exact reach_checked h _ _ _ (reach_answer (reach_storeCopy h _ _) _ _ _ _)

theorem reach_storeMux (h : Reach fl w s t) (i x) (hx : x.dwell ≤ 16) (hw : 2 ≤ w := by omega) :
    Reach fl w s (t.storeMux i x) := by
  have h1 := reach_putMux h i x hx
  have h2 := reach_ite (b := ((t.mux i).defined && !x.defined) = true)
    (reach_dropUrgent (reach_putCensusRec (reach_putMismatched h1 i false) i none (fun _ _ e => by cases e)) i) h1
  have h3 := reach_ite (b := x.sigs = (t.mux i).sigs) h2 (reach_followSignatures h2 i (t.mux i).sigs)
  exact reach_ite (reach_post h3 _) h3

theorem reach_writeMux (h : Reach fl w s t) (c) (hw : 2 ≤ w := by omega) : Reach fl w s (t.writeMux c) := by
  unfold State.writeMux
  exact reach_checked h _ _ _ (reach_answer (reach_storeMux h _ _ (readMux_dwell _)) _ _ _ _)

theorem reach_writeTuner (h : Reach fl w s t) (c) (hw : 2 ≤ w := by omega) : Reach fl w s (t.writeTuner c) := by
  unfold State.writeTuner
  exact reach_checked h _ _ _ (reach_answer (reach_putTunerRec h _ _) _ _ _ _)

theorem reach_writeOutput (h : Reach fl w s t) (c) (hw : 2 ≤ w := by omega) : Reach fl w s (t.writeOutput c) := by
  unfold State.writeOutput
  refine reach_checked h _ _ _ (reach_answer ?_ _ _ _ _)
  have h1 := reach_putOutputRec h c.index (readOutput c.operands)
  exact reach_ite (reach_disableOutput h1 _) h1

theorem reach_writeSettings (h : Reach fl w s t) (c) (hw : 2 ≤ w := by omega) : Reach fl w s (t.writeSettings c) := by
  unfold State.writeSettings
  exact reach_checked h _ _ _ (reach_buildReply (reach_putSettings h _) _ _)

theorem reach_writeStep (h : Reach fl w s t) (c) (hw : 2 ≤ w := by omega) : Reach fl w s (t.writeStep c) := by
  unfold State.writeStep
  exact reach_checked h _ _ _ (reach_answer (reach_putStep h _ _) _ _ _ _)

theorem reach_writePool (h : Reach fl w s t) (c) (hw : 2 ≤ w := by omega) : Reach fl w s (t.writePool c) :=
  reach_checked h _ _ _ (reach_answer (reach_storePool _ hw h _) _ _ _ _)

theorem reach_commandRole (h : Reach fl w s t) (c) (hw : 2 ≤ w := by omega) : Reach fl w s (t.commandRole c) :=
  reach_checked h _ _ _ (reach_answer (reach_setRole h _ _) _ _ _ _)

theorem urgentAnswer_joins {s : State} {x} (h : (s.urgentAnswer x).2 = true) :
    s.sched.urgent.contains x = false ∧ s.sched.urgent.length < 8 := by
  unfold State.urgentAnswer at h
  split at h
  · cases h
  · split at h
    · cases h
    · split at h
      · cases h
      · rename_i hc
        split at h
        · cases h
        · split at h
          · cases h
          · rename_i hl
            exact ⟨by simpa using hc, Nat.lt_of_not_le hl⟩

theorem reach_joinUrgent (h : Reach fl w s t) (x) (hw : 2 ≤ w := by omega) : Reach fl w s (t.joinUrgent x) := by
  unfold State.joinUrgent
  split
  · rename_i ha
    exact reach_post (reach_setUrgent h _ (urgent_append _ _ (urgentAnswer_joins ha).1 (urgentAnswer_joins ha).2)) _
  · exact h

theorem reach_commandUrgent (h : Reach fl w s t) (c) (hw : 2 ≤ w := by omega) : Reach fl w s (t.commandUrgent c) :=
  reach_checked h _ _ _ (reach_answer (reach_joinUrgent h _) _ _ _ _)

theorem reach_commandPin (h : Reach fl w s t) (c) (hw : 2 ≤ w := by omega) : Reach fl w s (t.commandPin c) :=
  reach_checked h _ _ _ (reach_answer (reach_pinCopy h _ _) _ _ _ _)

theorem reach_commandUnpin (h : Reach fl w s t) (c) (hw : 2 ≤ w := by omega) : Reach fl w s (t.commandUnpin c) :=
  reach_checked h _ _ _ (reach_answer (reach_unpinCopy h _) _ _ _ _)

theorem clearedFlags_wf (k i m) (l : Tab Bool) (h : Tab.wf false l = true) : Tab.wf false (clearedFlags k i m l) = true :=
  foldl_keeps (fun l => Tab.wf false l = true) _ (fun _ _ hb => tab_wf_set _ _ _ _ hb) _ _ h

theorem reach_commandClear (h : Reach fl w s t) (c) (hw : 2 ≤ w := by omega) : Reach fl w s (t.commandClear c) :=
  reach_checked h _ _ _ (reach_answer (h.step (.inds
    { t.inds with latched := clearedFlags (c.operand 0) c.index (maskAt c.operands 1) t.inds.latched }
    (clearedFlags_wf _ _ _ _) (fun hc => hc))) _ _ _ _)

theorem reach_commandEnables (h : Reach fl w s t) (c) (hw : 2 ≤ w := by omega) : Reach fl w s (t.commandEnables c) := by
  unfold State.commandEnables
  exact reach_checked h _ _ _ (reach_answer (reach_putSettings h _) _ _ _ _)

theorem reach_commandCounters (h : Reach fl w s t) (c) (hw : 2 ≤ w := by omega) : Reach fl w s (t.commandCounters c) := by
  refine reach_checked h _ _ _ (reach_answer (reach_foldl _ _ (fun _ _ hu => ?_) h) _ _ _ _)
  exact hu.step (.life hw _ _ (fun _ => by simp [Lifetime.ok]))

theorem reach_commandProtection (h : Reach fl w s t) (c) (hw : 3 ≤ w := by omega) : Reach fl w s (t.commandProtection c) :=
  reach_checked h _ _ _ (reach_answer (h.step (.prot hw _)) _ _ _ _)

/-! ## Resets -/

theorem keptStatus_wf (f : Nat × Bool → Bool) (l : Tab Bool) (lo : Nat) (h : Tab.wfFrom false lo l = true) :
    Tab.wfFrom false lo (l.filter f) = true := by
  induction l generalizing lo with
  | nil => rfl
  | cons e l ih =>
    obtain ⟨k, v⟩ := e
    simp only [Tab.wfFrom, Bool.and_eq_true, decide_eq_true_eq] at h
    rw [List.filter_cons]
    split
    · simp only [Tab.wfFrom, Bool.and_eq_true, decide_eq_true_eq]
      exact ⟨h.1, ih _ h.2⟩
    · exact tab_wfFrom_mono false _ (k + 1) lo (ih _ h.2) (by omega)

theorem reach_resetOutput (h : Reach fl w s t) (o) (hw : 2 ≤ w := by omega) : Reach fl w s (t.resetOutput o) :=
  h.step (.out (by omega) _ _ (fun _ => ⟨Nat.zero_le _, Nat.zero_le _, Nat.zero_le _, Nat.zero_le _, fun _ he => by cases he⟩)
    (fun _ => rfl))

theorem reach_resetMgmt (h : Reach fl w s t) (hw : 2 ≤ w := by omega) : Reach fl w s t.resetMgmt := by
  refine Reach.step (h.step (.inds { latched := [], status := t.keptStatus } (fun _ => rfl) (keptStatus_wf _ _ 0))) (.mgmt _ ?_ (.inl hw))
  intro ho
  refine ⟨?_, ?_, Nat.zero_le _, fun p hp => ho.2.2.2 p (List.mem_filter.mp hp).1⟩
  · show ((t.mgmt.list.filter MgmtPacket.isReply).filter MgmtPacket.isReply).length ≤ 16
    rw [List.filter_filter]
    simp only [Bool.and_self]
    exact ho.1
  · show ((t.mgmt.list.filter MgmtPacket.isReply).filter (fun p => !p.isReply)).length ≤ 1
    rw [List.filter_filter, List.filter_eq_nil_iff.mpr (by simp)]
    exact Nat.zero_le _

theorem reach_resetBlocks (h : Reach fl w s t) (hw : 2 ≤ w := by omega) : Reach fl w s t.resetBlocks := by
  have h1 : Reach fl w s ((List.range 4).foldl State.resetBus t) := reach_foldl _ _ (fun _ _ hu => reach_resetBus hu _) h
  have h2 : Reach fl w s ((List.range 16).foldl State.resetLane ((List.range 4).foldl State.resetBus t)) :=
    reach_foldl _ _ (fun _ n hu => reach_tpmReset (reach_qmSoftReset (reach_putTracker (reach_putFramer hu n {}) n {}
      (fun _ => tracker_default_ok)) n) n) h1
  have h3 := reach_putTracker h2 insertionLane
    { entries := ((List.range 16).foldl State.resetLane ((List.range 4).foldl State.resetBus t)).buildEntries localMux }
    (fun _ => ⟨buildEntries_ok _ _, Nat.zero_le _, fun _ he => (by cases he), Nat.zero_le _⟩)
  have h4 := (((h3.step (.noMismatch hw)).step (.hostQueue (by omega) [] (fun _ => ⟨Nat.zero_le _, List.nodup_nil⟩))).step
    (.sched (by omega) {} (fun _ _ => by simp [Sched.ok, Tab.all]) (fun _ => rfl) (fun _ => rfl))).step
    (.clock hw { secs := 0, since := ((List.range 16).foldl State.resetLane ((List.range 4).foldl State.resetBus t)).now }
      (fun _ => Nat.zero_le _))
  have h5 := (((h4.step (.noLives hw)).step (.noRanks hw)).step (.noGates hw)).step (.noCuts hw)
  exact Reach.step (reach_resetMgmt (reach_foldl _ _ (fun _ _ hu => reach_resetOutput hu _) h5))
    (.notices [] (fun _ _ _ hn => by cases hn))

theorem reach_commandReset (h : Reach fl w s t) (c) (hw : 2 ≤ w := by omega) : Reach fl w s (t.commandReset c) :=
  reach_checked h _ _ _ ((reach_resetBlocks h).step (.resetting hw _))

theorem reach_completeReset (h : Reach fl w s t) (hw : 2 ≤ w := by omega) : Reach fl w s t.completeReset := by
  unfold State.completeReset
  split
  · exact h
  · refine reach_ite (reach_post (reach_answer (reach_kick (Reach.step (reach_foldl _ _ (fun _ _ hu => ?_) h)
      (.resetting hw none))) _ _ _ _) _) h
    exact reach_putBus hu _ _ (by exact fun ho => ho)

/-! ## exec -/

/-- Every command and event but the power-on reset is a chain of primitive updates; the protection is in it for
SET_PROTECTION alone. -/
theorem reach_exec (i : Instr) (hi : i ≠ .powerOnReset) (hp : i = .setProtection → 3 ≤ w) (hw : 2 ≤ w) (h : fl = true → ReportsOk s)
    (he : exec i s = .next t) : Reach fl w s t := by
  have run : ∀ {f : State → State}, (∀ {u : State}, Reach fl w s u → Reach fl w s (f u)) → s.run f = .next t → Reach fl w s t :=
    fun hf e => by cases e; exact reach_act _ hf h
  have below : ∀ {b n : Nat} {f : State → State} {e : Fault}, (∀ {u : State}, Reach fl w s u → Reach fl w s (f u)) →
      s.runBelow b n f e = .next t → Reach fl w s t := by
    intro b n f e hf he
    unfold State.runBelow at he
    split at he
    · exact run hf he
    · cases he
  have head : ∀ {p f}, (∀ {u : State} (c), Reach fl w s u → Reach fl w s (f c u)) → s.run (State.takeHead p f) = .next t →
      Reach fl w s t := fun hf e => run (fun hu => reach_takeHead hu _ _ hf) e
  cases i with
  | powerOnReset => exact absurd rfl hi
  | laneByte n b => exact below (fun hu => reach_laneByte hu _ _) he
  | windowExpiry n => exact below (fun hu =>
      reach_expireWindow hu _ (fun e => qmLanes_get_ok (hu.keeps (fun _ _ p hp => p.reportsOk hp) (h e)).1 _)) he
  | emissionSlot n => exact below (fun hu => reach_emit hu _) he
  | overflowPeriodEnd n => exact below (fun hu => reach_endPeriod hu _) he
  | rankClockSecond => exact run (fun hu => reach_reSecond (reach_tickClock hu)) he
  | acquireTimerExpiry n => exact below (fun hu => reach_acquireExpires hu _) he
  | relockTimerExpiry n => exact below (fun hu => reach_relockExpires hu _) he
  | cutForceExpiry n => exact below (fun hu => reach_forceCut hu _) he
  | cutAbandonExpiry n => exact below (fun hu => reach_abandonCut hu _) he
  | writeStep n a => exact below (fun hu => reach_endWrite hu _ _) he
  | readStep n a => exact below (fun hu => reach_endRead hu _ _) he
  | pollRead n a => exact below (fun hu => reach_endPollRead hu _ _) he
  | pollIntervalExpiry n => exact below (fun hu => reach_nextPollRead hu _) he
  | pollTimeValueExpiry n => exact below (fun hu => reach_endPollTime hu _) he
  | waitStepExpiry n => exact below (fun hu => reach_endWait hu _) he
  | busStall n r => exact below (fun hu => reach_stall hu _ _) he
  | recoveryEnd n => exact below (fun hu => reach_leaveRecovery hu _) he
  | recoveryAbandon n => exact below (fun hu => reach_leaveRecovery hu _) he
  | writeEntryService => exact head (fun c hu => reach_writeService hu c) he
  | writeEntryCopy => exact head (fun c hu => reach_writeCopy hu c) he
  | writeEntryMultiplex => exact head (fun c hu => reach_writeMux hu c) he
  | writeEntryTuner => exact head (fun c hu => reach_writeTuner hu c) he
  | writeEntryOutput => exact head (fun c hu => reach_writeOutput hu c) he
  | writeEntrySettings => exact head (fun c hu => reach_writeSettings hu c) he
  | writeEntryStep => exact head (fun c hu => reach_writeStep hu c) he
  | writeEntryPool => exact head (fun c hu => reach_writePool hu c) he
  | readEntry => exact head (fun c hu => reach_checked hu c _ _ (reach_answer hu _ _ _ _)) he
  | readRank => exact head (fun c hu => reach_checked hu c _ _ (reach_answer hu _ _ _ _)) he
  | readLane => exact head (fun c hu => reach_checked hu c _ _ (reach_answer hu _ _ _ _)) he
  | readCensus => exact head (fun c hu => reach_checked hu c _ _ (reach_answer hu _ _ _ _)) he
  | readIndications => exact head (fun c hu => reach_checked hu c _ _ (reach_answer hu _ _ _ _)) he
  | setRole => exact head (fun c hu => reach_commandRole hu c) he
  | urgent => exact head (fun c hu => reach_commandUrgent hu c) he
  | pin => exact head (fun c hu => reach_commandPin hu c) he
  | unpin => exact head (fun c hu => reach_commandUnpin hu c) he
  | clearIndication => exact head (fun c hu => reach_commandClear hu c) he
  | setEnables => exact head (fun c hu => reach_commandEnables hu c) he
  | clearCounters => exact head (fun c hu => reach_commandCounters hu c) he
  | setProtection => exact head (fun c hu => reach_commandProtection hu c (hp rfl)) he
  | softReset => exact head (fun c hu => reach_commandReset hu c) he
  | softResetComplete => exact run (fun hu => reach_completeReset hu) he
  | unrecognisedCommand => exact head (fun c hu => reach_buildReply hu _ _) he
  | writeEntryUnknownTable => exact head (fun c hu => reach_answer hu _ _ _ _) he

end Sys2Proof.Laws
end

