-- ==== Sys2Proof/Laws/Invariants.lean ====
section
/-! SUPPORT. What every primitive update keeps: the canonical form of the tables, the limits of the collections and
counters, one occupant per multiplex, the queue of commands, and (below level 3) the protection. -/

namespace Sys2Proof.Laws
open Sys2Proof.Machine

set_option Elab.async false

variable {fl : Bool} {w : Nat} {s t : State}

theorem Prim.pending (p : Prim fl w s t) : t.pending = s.pending := by cases p <;> rfl

theorem Prim.prot_eq (p : Prim fl w s t) (hw : w ≤ 2) : t.prot = s.prot := by
  cases p with
  | prot h _ => omega
  | _ => rfl

theorem Reach.pending (h : Reach fl w s t) : t.pending = s.pending :=
  h.keeps (P := fun u => u.pending = s.pending) (fun _ _ p e => p.pending.trans e) rfl

theorem Reach.prot_eq (h : Reach fl w s t) (hw : w ≤ 2) : t.prot = s.prot :=
  h.keeps (P := fun u => u.prot = s.prot) (fun _ _ p e => (p.prot_eq hw).trans e) rfl

theorem Prim.canonical (p : Prim fl w s t) (h : s.Canonical) : t.Canonical := by
  cases p with
  | framer n f => exact { h with framers := tab_wf_set _ _ _ _ h.framers }
  | tracker n x _ => exact { h with trackers := tab_wf_set _ _ _ _ h.trackers }
  | lane n q _ => exact { h with qmLanes := tab_wf_set _ _ _ _ h.qmLanes }
  | bus b u _ => exact { h with buses := tab_wf_set _ _ _ _ h.buses }
  | inds i h1 h2 => exact { h with latched := h1 h.latched, status := h2 h.status }
  | role _ n r => exact { h with roles := tab_wf_set _ _ _ _ h.roles }
  | census _ x r => exact { h with censusRecs := tab_wf_set _ _ _ _ h.censusRecs }
  | mismatch _ x b => exact { h with mismatch := tab_wf_set _ _ _ _ h.mismatch }
  | tuner _ n r _ => exact { h with tuners := tab_wf_set _ _ _ _ h.tuners }
  | sched _ c _ hv hl => exact { h with visits := hv h.visits, lastOutcome := hl h.lastOutcome }
  | live _ i l _ => exact { h with lives := tab_wf_set _ _ _ _ h.lives }
  | rank _ v k => exact { h with ranks := tab_wf_set _ _ _ _ h.ranks }
  | floor _ v x => exact { h with floors := tab_wf_set _ _ _ _ h.floors }
  | out _ o x _ hx =>
    have hg : Tab.wf 0 (s.out o).counters = true :=
      tab_all_get (P := fun q : OutState => Tab.wf 0 q.counters = true) rfl _ h.counters o
    exact { h with outs := tab_wf_set _ _ _ _ h.outs, counters := tab_all_set _ _ h.counters _ _ (hx hg) }
  | gate _ v g => exact { h with gates := tab_wf_set _ _ _ _ h.gates }
  | cut _ v c => exact { h with cuts := tab_wf_set _ _ _ _ h.cuts }
  | life _ n l _ => exact { h with lifetimes := tab_wf_set _ _ _ _ h.lifetimes }
  | tables _ x hx _ => exact { h with tables := hx h.tables }
  | noMismatch _ => exact { h with mismatch := rfl }
  | noLives _ => exact { h with lives := rfl }
  | noRanks _ => exact { h with ranks := rfl }
  | noGates _ => exact { h with gates := rfl }
  | noCuts _ => exact { h with cuts := rfl }
  | _ => exact { h with }

theorem Prim.withinLimits (p : Prim true w s t) (h : s.WithinLimits) : t.WithinLimits := by
  cases p with
  | notices l hl => exact { h with notices := hl (qmLanes_get_ok h.lanes) h.notices }
  | tracker n x hx => exact { h with trackers := tab_all_set _ _ h.trackers _ _ (hx (tab_all_get tracker_default_ok _ h.trackers n)) }
  | lane n q hq => exact { h with lanes := tab_all_set _ _ h.lanes _ _ (hq (qmLanes_get_ok h.lanes n)) }
  | bus b u hu => exact { h with buses := tab_all_set _ _ h.buses _ _ (hu (tab_all_get (by simp [Bus.ok]) _ h.buses b)) }
  | mgmt m hm _ => exact { h with mgmt := hm h.mgmt }
  | hostQueue _ l hl => exact { h with hostQueue := hl h.hostQueue }
  | sched _ c hc _ _ => exact { h with sched := hc (tab_all_get (P := fun r : MuxRec => r.dwell ≤ 16) (by decide) _ h.dwells) h.sched }
  | census _ x r hr =>
    exact { h with censusRecs := tab_all_set _ _ h.censusRecs _ _ (hr (tab_all_get tracker_default_ok _ h.trackers)) }
  | rank _ v k hk => exact { h with ranks := tab_all_set _ _ h.ranks _ _ (hk (tab_all_get rank_default_ok _ h.ranks v)) }
  | tables _ x _ hd => exact { h with dwells := hd h.dwells }
  | noRanks _ => exact { h with ranks := fun _ he => by cases he }
  | live _ i l hl => exact { h with lives := tab_all_set _ _ h.lives _ _ (hl rfl (tab_all_get live_default_ok _ h.lives i)) }
  | out _ o x hx _ =>
    exact { h with outs := tab_all_set _ _ h.outs _ _ (hx (tab_all_get (by simp [OutState.ok, Tab.all]) _ h.outs o)) }
  | life _ n l hl => exact { h with lifetimes := tab_all_set _ _ h.lifetimes _ _ (hl (tab_all_get (by simp [Lifetime.ok]) _ h.lifetimes n)) }
  | clock _ c hc => exact { h with clock := hc h.clock }
  | inbound _ l hl => exact { h with inbound := hl h.inbound }
  | noLives _ => exact { h with lives := fun _ he => by cases he }
  | _ => exact { h with }

theorem holds_default (x : Nat) : holds {} x = false := by simp [holds]

theorem Prim.oneOccupant (p : Prim fl w s t) (hc : s.Canonical) (h : s.OneOccupant) : t.OneOccupant := by
  cases p with
  | tuner _ n r hr =>
    have get : ∀ u x, (s.putTuner n r).occupies u x = if u = n then holds r x else s.occupies u x := by
      intro u x
      rw [occupies_eq]
      show holds (Tab.get {} (Tab.set {} s.tuners n r) u) x = _
      split
      · rename_i e; rw [e, tab_get_set_same _ _ 0 _ _ hc.tuners]
      · rename_i e; rw [tab_get_set_other _ _ _ _ _ e]; rfl
    have free : ∀ x u, u < 16 → s.occupied x = false → s.occupies u x = true → False := by
      intro x u hu hx ho
      simp only [State.occupied, List.any_eq_false, List.mem_range] at hx
      exact hx u hu ho
    intro x a b ha hb h1 h2
    rw [get] at h1 h2
    split at h1
    · rename_i ea
      split at h2
      · rename_i eb; rw [ea, eb]
      · rcases hr x h1 with ho | ho
        · exact h x a b ha hb (ea ▸ ho) h2
        · exact (free x b hb ho h2).elim
    · split at h2
      · rename_i eb
        rcases hr x h2 with ho | ho
        · exact h x a b ha hb h1 (eb ▸ ho)
        · exact (free x a ha ho h1).elim
      · exact h x a b ha hb h1 h2
  | _ => exact h

end Sys2Proof.Laws
end

