-- ==== Sys2Proof/WellFormed.lean ====
section
/-! DEFINITION. Which commands are well formed: every index lies in its range of 00_scope.md Table 4, a READ step
receives at most the 32 bytes of Table 37, and a refused byte is one of at most 32. -/

namespace Sys2Proof

/-- The answer names no more than the 32 bytes of a WRITE step (Table 37). -/
def WriteAnswer.wellFormed : WriteAnswer → Bool
  | .bytesPut n => decide (n ≤ 32)
  | .allAcked => true
  | .noAddress => true
  | .byteRefused i => decide (i < 32)

/-- The answer carries at most the 32 bytes of a READ step (Table 37). -/
def ReadAnswer.wellFormed : ReadAnswer → Bool
  | .bytesIn bs => decide (bs.length ≤ 32)
  | .received bs => decide (bs.length ≤ 32)
  | .noAddress => true

/-- The command's operands lie in the ranges of R1 Table 4 and Table 37. -/
def Instr.wellFormed : Instr → Bool
  | .powerOnReset => true
  | .laneByte n _ => decide (n < 17)
  | .windowExpiry n => decide (n < 17)
  | .emissionSlot o => decide (o < 4)
  | .overflowPeriodEnd o => decide (o < 4)
  | .rankClockSecond => true
  | .acquireTimerExpiry t => decide (t < 16)
  | .relockTimerExpiry t => decide (t < 16)
  | .cutForceExpiry v => decide (v < 256)
  | .cutAbandonExpiry v => decide (v < 256)
  | .writeStep b a => decide (b < 4) && a.wellFormed
  | .readStep b a => decide (b < 4) && a.wellFormed
  | .pollRead b _ => decide (b < 4)
  | .pollIntervalExpiry b => decide (b < 4)
  | .pollTimeValueExpiry b => decide (b < 4)
  | .waitStepExpiry b => decide (b < 4)
  | .busStall b r => decide (b < 4) && decide (r.length ≤ 32)
  | .recoveryEnd b => decide (b < 4)
  | .recoveryAbandon b => decide (b < 4)
  | .writeEntryService => true
  | .writeEntryCopy => true
  | .writeEntryMultiplex => true
  | .writeEntryTuner => true
  | .writeEntryOutput => true
  | .writeEntrySettings => true
  | .writeEntryStep => true
  | .writeEntryPool => true
  | .readEntry => true
  | .readRank => true
  | .readLane => true
  | .readCensus => true
  | .readIndications => true
  | .setRole => true
  | .urgent => true
  | .pin => true
  | .unpin => true
  | .clearIndication => true
  | .setEnables => true
  | .clearCounters => true
  | .setProtection => true
  | .softReset => true
  | .softResetComplete => true
  | .unrecognisedCommand => true
  | .writeEntryUnknownTable => true

end Sys2Proof
end

