-- ==== Sys2Proof/Laws/PerInstr.lean ====
section
/-! SUPPORT. The family WellFormedRange, one lemma per command: a well-formed command's index lies in its range of R1
Table 4. -/

namespace Sys2Proof.Laws.WellFormedRange
open Sys2Proof

set_option Elab.async false

/-- The index a command carries from outside, with the number of items of its kind (R1 Table 4). -/
def index : Instr → Option (Nat × Nat)
  | .powerOnReset => none
  | .laneByte n _ => some (n, 17)
  | .windowExpiry n => some (n, 17)
  | .emissionSlot o => some (o, 4)
  | .overflowPeriodEnd o => some (o, 4)
  | .rankClockSecond => none
  | .acquireTimerExpiry t => some (t, 16)
  | .relockTimerExpiry t => some (t, 16)
  | .cutForceExpiry v => some (v, 256)
  | .cutAbandonExpiry v => some (v, 256)
  | .writeStep b _ => some (b, 4)
  | .readStep b _ => some (b, 4)
  | .pollRead b _ => some (b, 4)
  | .pollIntervalExpiry b => some (b, 4)
  | .pollTimeValueExpiry b => some (b, 4)
  | .waitStepExpiry b => some (b, 4)
  | .busStall b _ => some (b, 4)
  | .recoveryEnd b => some (b, 4)
  | .recoveryAbandon b => some (b, 4)
  | .writeEntryService => none
  | .writeEntryCopy => none
  | .writeEntryMultiplex => none
  | .writeEntryTuner => none
  | .writeEntryOutput => none
  | .writeEntrySettings => none
  | .writeEntryStep => none
  | .writeEntryPool => none
  | .readEntry => none
  | .readRank => none
  | .readLane => none
  | .readCensus => none
  | .readIndications => none
  | .setRole => none
  | .urgent => none
  | .pin => none
  | .unpin => none
  | .clearIndication => none
  | .setEnables => none
  | .clearCounters => none
  | .setProtection => none
  | .softReset => none
  | .softResetComplete => none
  | .unrecognisedCommand => none
  | .writeEntryUnknownTable => none

/-- A well-formed command names an item that the part has. -/
def Statement (i : Instr) : Prop := i.wellFormed = true → ∀ x n, index i = some (x, n) → x < n

theorem powerOnReset : Statement .powerOnReset := by intro _ x n e; cases e
theorem laneByte (n b) : Statement (.laneByte n b) := by
  intro h x n e
  cases e
  simp only [Instr.wellFormed, decide_eq_true_eq] at h
  exact h
theorem windowExpiry (n) : Statement (.windowExpiry n) := by
  intro h x n e
  cases e
  simp only [Instr.wellFormed, decide_eq_true_eq] at h
  exact h
theorem emissionSlot (o) : Statement (.emissionSlot o) := by
  intro h x n e
  cases e
  simp only [Instr.wellFormed, decide_eq_true_eq] at h
  exact h
theorem overflowPeriodEnd (o) : Statement (.overflowPeriodEnd o) := by
  intro h x n e
  cases e
  simp only [Instr.wellFormed, decide_eq_true_eq] at h
  exact h
theorem rankClockSecond : Statement .rankClockSecond := by intro _ x n e; cases e
theorem acquireTimerExpiry (t) : Statement (.acquireTimerExpiry t) := by
  intro h x n e
  cases e
  simp only [Instr.wellFormed, decide_eq_true_eq] at h
  exact h
theorem relockTimerExpiry (t) : Statement (.relockTimerExpiry t) := by
  intro h x n e
  cases e
  simp only [Instr.wellFormed, decide_eq_true_eq] at h
  exact h
theorem cutForceExpiry (v) : Statement (.cutForceExpiry v) := by
  intro h x n e
  cases e
  simp only [Instr.wellFormed, decide_eq_true_eq] at h
  exact h
theorem cutAbandonExpiry (v) : Statement (.cutAbandonExpiry v) := by
  intro h x n e
  cases e
  simp only [Instr.wellFormed, decide_eq_true_eq] at h
  exact h
theorem writeStep (b a) : Statement (.writeStep b a) := by
  intro h x n e
  cases e
  simp only [Instr.wellFormed, Bool.and_eq_true, decide_eq_true_eq] at h
  exact h.1
theorem readStep (b a) : Statement (.readStep b a) := by
  intro h x n e
  cases e
  simp only [Instr.wellFormed, Bool.and_eq_true, decide_eq_true_eq] at h
  exact h.1
theorem pollRead (b a) : Statement (.pollRead b a) := by
  intro h x n e
  cases e
  simp only [Instr.wellFormed, decide_eq_true_eq] at h
  exact h
theorem pollIntervalExpiry (b) : Statement (.pollIntervalExpiry b) := by
  intro h x n e
  cases e
  simp only [Instr.wellFormed, decide_eq_true_eq] at h
  exact h
theorem pollTimeValueExpiry (b) : Statement (.pollTimeValueExpiry b) := by
  intro h x n e
  cases e
  simp only [Instr.wellFormed, decide_eq_true_eq] at h
  exact h
theorem waitStepExpiry (b) : Statement (.waitStepExpiry b) := by
  intro h x n e
  cases e
  simp only [Instr.wellFormed, decide_eq_true_eq] at h
  exact h
theorem busStall (b r) : Statement (.busStall b r) := by
  intro h x n e
  cases e
  simp only [Instr.wellFormed, Bool.and_eq_true, decide_eq_true_eq] at h
  exact h.1
theorem recoveryEnd (b) : Statement (.recoveryEnd b) := by
  intro h x n e
  cases e
  simp only [Instr.wellFormed, decide_eq_true_eq] at h
  exact h
theorem recoveryAbandon (b) : Statement (.recoveryAbandon b) := by
  intro h x n e
  cases e
  simp only [Instr.wellFormed, decide_eq_true_eq] at h
  exact h
theorem writeEntryService : Statement .writeEntryService := by intro _ x n e; cases e
theorem writeEntryCopy : Statement .writeEntryCopy := by intro _ x n e; cases e
theorem writeEntryMultiplex : Statement .writeEntryMultiplex := by intro _ x n e; cases e
theorem writeEntryTuner : Statement .writeEntryTuner := by intro _ x n e; cases e
theorem writeEntryOutput : Statement .writeEntryOutput := by intro _ x n e; cases e
theorem writeEntrySettings : Statement .writeEntrySettings := by intro _ x n e; cases e
theorem writeEntryStep : Statement .writeEntryStep := by intro _ x n e; cases e
theorem writeEntryPool : Statement .writeEntryPool := by intro _ x n e; cases e
theorem readEntry : Statement .readEntry := by intro _ x n e; cases e
theorem readRank : Statement .readRank := by intro _ x n e; cases e
theorem readLane : Statement .readLane := by intro _ x n e; cases e
theorem readCensus : Statement .readCensus := by intro _ x n e; cases e
theorem readIndications : Statement .readIndications := by intro _ x n e; cases e
theorem setRole : Statement .setRole := by intro _ x n e; cases e
theorem urgent : Statement .urgent := by intro _ x n e; cases e
theorem pin : Statement .pin := by intro _ x n e; cases e
theorem unpin : Statement .unpin := by intro _ x n e; cases e
theorem clearIndication : Statement .clearIndication := by intro _ x n e; cases e
theorem setEnables : Statement .setEnables := by intro _ x n e; cases e
theorem clearCounters : Statement .clearCounters := by intro _ x n e; cases e
theorem setProtection : Statement .setProtection := by intro _ x n e; cases e
theorem softReset : Statement .softReset := by intro _ x n e; cases e
theorem softResetComplete : Statement .softResetComplete := by intro _ x n e; cases e
theorem unrecognisedCommand : Statement .unrecognisedCommand := by intro _ x n e; cases e
theorem writeEntryUnknownTable : Statement .writeEntryUnknownTable := by intro _ x n e; cases e

end Sys2Proof.Laws.WellFormedRange
end

