-- ==== Sys2Proof/Tests/Slice0.lean ====
section
/-! SUPPORT. Tests. Ill-formed terms that WellFormed refuses; at most two tests of each command, on one step of a small state,
their expected values taken from the worked examples and rules of spec/ that each names; and, for each statement with
hypotheses, a concrete state and operands that meet them. -/

/-- The state with one command packet in the inbound queue. -/
def Sys2Proof.Machine.State.send (s : Sys2Proof.Machine.State) (c : Sys2Proof.Machine.Cmd) : Sys2Proof.Machine.State :=
  s.setInbound [c]

/-- Bus 1 executes a run. -/
def Sys2Proof.Machine.State.onBus (s : Sys2Proof.Machine.State) (r : Sys2Proof.Machine.Run) : Sys2Proof.Machine.State :=
  s.putBus 1 { state := .running, run := some r }

namespace Sys2Proof.Tests

open Sys2Proof Sys2Proof.Machine

set_option Elab.async false

/-! ## WellFormed refuses an operand outside its range -/

theorem test_wellFormed_laneByte : (Instr.laneByte 17 0).wellFormed = false := by decide
theorem test_wellFormed_windowExpiry : (Instr.windowExpiry 17).wellFormed = false := by decide
theorem test_wellFormed_emissionSlot : (Instr.emissionSlot 4).wellFormed = false := by decide
theorem test_wellFormed_overflowPeriodEnd : (Instr.overflowPeriodEnd 4).wellFormed = false := by decide
theorem test_wellFormed_acquireTimer : (Instr.acquireTimerExpiry 16).wellFormed = false := by decide
theorem test_wellFormed_relockTimer : (Instr.relockTimerExpiry 16).wellFormed = false := by decide
theorem test_wellFormed_cutForce : (Instr.cutForceExpiry 256).wellFormed = false := by decide
theorem test_wellFormed_cutAbandon : (Instr.cutAbandonExpiry 256).wellFormed = false := by decide
theorem test_wellFormed_writeStep_bus : (Instr.writeStep 4 .allAcked).wellFormed = false := by decide
theorem test_wellFormed_writeStep_byte : (Instr.writeStep 0 (.byteRefused 32)).wellFormed = false := by decide
theorem test_wellFormed_writeStep_count : (Instr.writeStep 0 (.bytesPut 33)).wellFormed = false := by decide
theorem test_wellFormed_readStep_part :
    (Instr.readStep 0 (.bytesIn (List.replicate 33 0))).wellFormed = false := by decide
theorem test_wellFormed_readStep_bus : (Instr.readStep 4 .noAddress).wellFormed = false := by decide
theorem test_wellFormed_readStep_bytes :
    (Instr.readStep 0 (.received (List.replicate 33 0))).wellFormed = false := by decide
theorem test_wellFormed_pollRead : (Instr.pollRead 4 none).wellFormed = false := by decide
theorem test_wellFormed_pollInterval : (Instr.pollIntervalExpiry 4).wellFormed = false := by decide
theorem test_wellFormed_pollTimeValue : (Instr.pollTimeValueExpiry 4).wellFormed = false := by decide
theorem test_wellFormed_waitStep : (Instr.waitStepExpiry 4).wellFormed = false := by decide
theorem test_wellFormed_busStall_bus : (Instr.busStall 4 []).wellFormed = false := by decide
theorem test_wellFormed_busStall_bytes : (Instr.busStall 0 (List.replicate 33 0)).wellFormed = false := by decide
theorem test_wellFormed_recoveryEnd : (Instr.recoveryEnd 4).wellFormed = false := by decide
theorem test_wellFormed_recoveryAbandon : (Instr.recoveryAbandon 4).wellFormed = false := by decide

/-! ## Helpers -/

/-- The command gives a next state with a property. -/
def after (i : Instr) (s : State) (f : State → Bool) : Bool :=
  match exec i s with
  | .next t => f t
  | _ => false

/-- Bytes from numbers. -/
def bytes (l : List Nat) : List Byte := l.map (BitVec.ofNat 8)

/-- Fields of two bytes (Table 75). -/
def words (l : List Nat) : List Byte := bytes (l.flatMap (fun x => [x / 256, x % 256]))

/-- A command packet with tag 7 (Table 74). -/
def command (a : Authority) (kind table index : Nat) (ops : List Byte) : Cmd :=
  { auth := a,
    bytes := bytes [0x47, 0x5F, 0xF0, 0x10, 0, 7, kind, table, index / 256, index % 256, ops.length] ++ ops ++
      List.replicate (177 - ops.length) 0xFF }

/-- The newest packet of the list for output 0 is a reply with an outcome, a detail and data. -/
def replied (o : ReplyOutcome) (detail : Nat) (data : ReplyData) (s : State) : Bool :=
  match s.mgmt.list.getLast? with
  | some (.reply i r) => decide (i = 0x1FF1 ∧ r.tag = 7 ∧ r.outcome = o ∧ r.detail = detail ∧ r.data = data)
  | _ => false

/-- The newest packet of the list for output 0 is a reply with an outcome and a detail. -/
def answered (o : ReplyOutcome) (detail : Nat) (s : State) : Bool :=
  match s.mgmt.list.getLast? with
  | some (.reply _ r) => decide (r.outcome = o ∧ r.detail = detail)
  | _ => false

/-! ## Small states, after the worked examples -/

/-- Multiplex 12 as Table 16 stores it. -/
def mux12 : MuxRec := { defined := true, feed := 2, head := 20, dwell := 16, ring := .a, sigs := [0x200] }
/-- Copy 17/0 of Table 16. -/
def copy68 : CopyRec := { defined := true, mux := 12, src := [0x201, 0x202, 0, 0, 0, 0, 0, 0] }
/-- Service 17 of Table 16. -/
def svc17 : Service :=
  { enabled := true, output := 1, comps := 2, outIds := [0x110, 0x111, 0x10, 0x10, 0x10, 0x10, 0x10, 0x10],
    required := [true, true, false, false, false, false, false, false], hyst := 300 }
/-- Multiplex 12 and copy 17/0 loaded. -/
def loaded : State := (State.reset.putMux 12 mux12).putCopy 68 copy68
/-- Service 17 enabled on its copy. -/
def enabled : State := loaded.putService 17 svc17
/-- Service 17 served from copy 17/0. -/
def served : State := enabled.putRank 17 { selected := some 0 }

/-- The steps of Table 40. -/
def step20 : Step := { kind := .write, byteOff := 0, count := 6, next := some 21 }
def step21 : Step := { kind := .wait, time := 20, next := some 22 }
def step22 : Step := { kind := .poll, mask := 1, want := 1, time := 300 }
def step60 : Step := { kind := .write, byteOff := 64, count := 1, next := some 61 }
def step61 : Step := { kind := .read, byteOff := 200, count := 1, capture := .margin }
/-- Tuner 4 of Table 40, reaching feed 2. -/
def tuner4 : TunerRec := { bus := 1, addr := 0x60, reach := 4, measure := 60 }
/-- The recipes of Table 40 loaded. -/
def recipes : State :=
  ((((((loaded.putStep 20 step20).putStep 21 step21).putStep 22 step22).putStep 60 step60).putStep 61 step61).putTunerRec 4
    tuner4).putRole 4 .live
/-- A run of tuner 4 at a step. -/
def run4 (p : Purpose) (i : Nat) (st : Step) (ph : StepPhase) : Run :=
  { tuner := 4, purpose := p, mux := 12, bus := 1, base := 0x60, head := 20, steps := 1,
    current := some { index := i, step := st, phase := ph, since := 0, readSince := 0, interval := 10, timedOut := false } }
/-- The executing step of bus 1. -/
def stepOn1 (s : State) : Option (Nat × StepPhase) :=
  ((s.bus 1).run.bind Run.current).map (fun c => (c.index, c.phase))

/-- Tuner 0 of Table 49 hosts multiplex 12. -/
def hosting : State :=
  ((((loaded.putRole 0 .live).putTunerRec 0 { reach := 4 }).putTuner 0
    { state := .observing, mux := some 12, work := some .host, relockLimit := 5000 }).putFramer 0
    { state := .locked, lockPhase := some 100, prevPhase := some 100 }).putStep 20 step20

/-- The cut of Table 72: service 17 from slot 0 to slot 1. -/
def cut17 : Cut := { old := some 0, new := 1, limit := 1500, start := 0, down := false }
def cutting : State :=
  ((enabled.putRank 17 { selected := some 0, target := some 1, cutting := true }).putGate 17 (some 0)).putCut 17 (some cut17)

/-! ## Resets, lanes and windows -/

/-- R179: power-on reset clears tables and protection. -/
theorem test_powerOnReset : after .powerOnReset (served.setProt { flags := 1, level := .hard }) (fun t =>
    decide (t.prot = {} ∧ t.tables = {} ∧ (t.framer 16).state = .hunt)) = true := by decide +kernel

/-- Table 23, position 664: the fourth confirmation locks lane 5 at phase 100, which starts its window. -/
theorem test_laneByte_locks :
    after (.laneByte 5 0x47) (State.reset.putFramer 5
        { state := .verify, pos := 664, search := { next := 664, cand := some (100, 3) } }) (fun t =>
      decide ((t.framer 5).state = .locked ∧ (t.framer 5).lockPhase = some 100 ∧ (t.qmLane 5).window = some (0, 1000))) =
    true := by decide +kernel

/-- R54, R165: the last byte of a packet under the installer identifier on lane 16 queues the command. -/
theorem test_laneByte_command :
    after (.laneByte 16 0xFF) (State.reset.putFramer 16
        { state := .locked, lockPhase := some 0, pos := 187, pkt := bytes [0x47, 0x1F, 0xF2, 0x10] ++ List.replicate 183 0xFF })
      (fun t => decide (t.inbound.map Cmd.auth = [.installer])) = true := by decide +kernel

/-- Table 36, window 21: E = 380 and Y = 30 reach the excess threshold. -/
theorem test_windowExpiry_degraded :
    after (.windowExpiry 7) (State.reset.putQmLane 7
        { window := some (0, 1500), p := 1000, e := 380, y := 30, lockSince := some 0, outstanding := true }) (fun t =>
      t.latched .lane 7 .degraded && decide ((t.qmLane 7).degCount = 1 ∧ (t.qmLane 7).pending.map Report.l = some 1000)) =
    true := by decide +kernel

/-- Table 36, window 23: 1426 ms of 1500 are 950 per mille, and 399 is below the threshold. -/
theorem test_windowExpiry_clean :
    after (.windowExpiry 7) (State.reset.putQmLane 7
        { window := some (0, 1500), p := 1000, e := 396, y := 3, lockedMs := 1426, outstanding := true, degraded := true,
          degCount := 2 }) (fun t =>
      decide ((t.qmLane 7).degraded = false ∧ (t.qmLane 7).degCount = 0 ∧ (t.qmLane 7).pending.map Report.l = some 950)) =
    true := by decide +kernel

/-- R130, R140: at clock 5030 the bar of Table 68 is lifted. -/
theorem test_rankClockSecond :
    after .rankClockSecond ((served.putLive 69 { q := some 581, observedAt := some 5000, barredUntil := some 5030 }).setClock
        { secs := 5029 }) (fun t => decide (t.clock.secs = 5030 ∧ (t.live 69).barredUntil = none)) = true := by
  decide +kernel

/-! ## Outputs and cuts -/

/-- A reply that waits. -/
def waitingReply : MgmtPacket :=
  .reply 0x1FF1 { tag := 7, kind := 2, outcome := .done, detail := 0, data := .bytes [] }
/-- Output 0 enabled, one packet queued and one reply waiting. -/
def busyOutput (reserve : Nat) : State :=
  ((State.reset.putOutputRec 0 { enabled := true }).putOut 0 { queue := [nullPacket], reserve := reserve }).setMgmt
    { list := [waitingReply] }

/-- Table 73, slots 2–31: the queue head goes out and the reserve count rises. -/
theorem test_emissionSlot_queue :
    after (.emissionSlot 0) (busyOutput 30) (fun t =>
      decide ((t.out 0).reserve = 31 ∧ (t.out 0).port = some (.packet nullPacket) ∧ t.mgmt.list = [waitingReply])) = true := by
  decide +kernel

/-- Table 73, slot 32: the reply goes out with the next continuity count, and the reserve count returns to 0. -/
theorem test_emissionSlot_reply :
    after (.emissionSlot 0) (busyOutput 31) (fun t =>
      decide ((t.out 0).reserve = 0 ∧ (t.out 0).port = some (.mgmt waitingReply 1) ∧ t.mgmt.list = [] ∧
        (t.out 0).queue = [nullPacket])) = true := by decide +kernel

/-- R154: the period's drop count is kept as the last period's. -/
theorem test_overflowPeriodEnd :
    after (.overflowPeriodEnd 2) (State.reset.putOut 2 { drops := 5, overflowRaised := true }) (fun t =>
      decide ((t.out 2).lastDrops = 5 ∧ (t.out 2).drops = 0 ∧ (t.out 2).overflowRaised = false)) = true := by decide +kernel

/-- Section 10.7: the timer's first expiry sets the forced flag. -/
theorem test_cutForceExpiry :
    after (.cutForceExpiry 17) cutting (fun t => decide ((t.cut 17).map Cut.forced = some true ∧ t.now = 1500)) = true := by
  decide +kernel

/-- Section 10.7: the second expiry abandons the cut; service 17 stays on 17/0. -/
theorem test_cutAbandonExpiry :
    after (.cutAbandonExpiry 17) (cutting.putCut 17 (some { cut17 with expiries := 1, forced := true })) (fun t =>
      t.latched .service 17 .cutCancelled && decide (t.cut 17 = none ∧ t.gate 17 = some 0 ∧ (t.rank 17).selected = some 0 ∧
        (t.rank 17).cutting = false)) = true := by decide +kernel

/-- Table 72: the cut key's packet with unit-start set cuts, and is admitted with the next count. -/
theorem test_offer_cuts :
    let s := (cutting.putOutputRec 1 { enabled := true }).putOut 1 { counters := [(0x110, 10), (0x111, 5)] }
    let t := s.offer (bytes [0x47, 0x43, 0x01, 0x10] ++ List.replicate 184 0) 17 1 0
    t.gate 17 = some 1 ∧ t.cut 17 = none ∧ (t.out 1).counters = [(0x110, 11), (0x111, 5)] ∧
      (t.out 1).queue.map Packet.ident = [0x110] := by decide +kernel

/-! ## Tuners and buses -/

/-- Table 49, 6900 ms: the retune fails, and the multiplex is no longer hosted. -/
theorem test_acquireTimerExpiry :
    after (.acquireTimerExpiry 0) ((hosting.setNow 6900).putTuner 0
        { state := .acquiring, mux := some 12, work := some .retune, acquire := some { start := 5400, limit := 1500 } })
      (fun t => t.latched .tuner 0 .tuneFailed && t.latched .multiplex 12 .unhosted &&
        decide ((t.tuner 0).state = .free ∧ (t.framer 0).state = .idle)) = true := by decide +kernel

/-- Table 49, 5000 ms: the relock timer starts a retune. -/
theorem test_relockTimerExpiry :
    after (.relockTimerExpiry 0) (hosting.putTuner 0
        { state := .observing, mux := some 12, work := some .host, relock := some { start := 0, limit := 5000 } })
      (fun t => t.latched .tuner 0 .retuned && t.hosted 12 && decide (t.now = 5000 ∧ (t.tuner 0).state = .tuning ∧
        (t.tuner 0).work = some .retune ∧ (t.framer 0).state = .idle)) = true := by decide +kernel

/-- Table 41: step 20 is acknowledged, and step 21 waits. -/
theorem test_writeStep_done :
    after (.writeStep 1 .allAcked) (recipes.onBus (run4 .tune 20 step20 .transfer)) (fun t =>
      decide (stepOn1 t = some (21, .pause) ∧ (t.bus 1).lastTransfer.map Transfer.addr = some 0x60)) = true := by
  decide +kernel

/-- Section 5.10: the fourth byte of step 20 is not acknowledged. -/
theorem test_writeStep_refused :
    after (.writeStep 1 (.byteRefused 3)) (recipes.onBus (run4 .tune 20 step20 .transfer)) (fun t =>
      t.latched .tuner 4 .busFault && decide ((t.bus 1).state = .idle ∧ (t.bus 1).run = none ∧
        ((t.bus 1).lastTransfer.map Transfer.bytes).map List.length = some 4)) = true := by decide +kernel

/-- Section 5.10: step 61 reads 142 into pool offset 200, and the pending report completes with margin 142. -/
theorem test_readStep_margin :
    after (.readStep 1 (.received [142])) ((recipes.onBus (run4 .measure 61 step61 .transfer)).putQmLane 4
        { outstanding := true, pending := some ((recipes.putQmLane 4 { window := some (0, 1000) }).formReport 4) }) (fun t =>
      decide (t.poolByte 200 = 142 ∧ (t.bus 1).state = .idle ∧ (t.qmLane 4).lastFresh = some 142 ∧
        (t.qmLane 4).pending = none)) = true := by decide +kernel

/-- Table 41: a read of 0x00 does not satisfy step 22. -/
theorem test_pollRead_pauses :
    after (.pollRead 1 (some 0x00)) (recipes.onBus (run4 .tune 22 step22 .transfer)) (fun t =>
      decide (stepOn1 t = some (22, .pause))) = true := by decide +kernel

/-- Table 41: a read of 0x05 satisfies step 22, and the TUNE run ends DONE. -/
theorem test_pollRead_done :
    after (.pollRead 1 (some 0x05)) ((recipes.onBus (run4 .tune 22 step22 .transfer)).putTuner 4
        { state := .tuning, mux := some 12, work := some .host }) (fun t =>
      decide ((t.bus 1).state = .idle ∧ (t.tuner 4).state = .acquiring ∧ (t.framer 4).state = .hunt)) = true := by
  decide +kernel

/-- Table 41: the next read begins one poll interval after the last one began. -/
theorem test_pollIntervalExpiry :
    after (.pollIntervalExpiry 1) (recipes.onBus (run4 .tune 22 step22 .pause)) (fun t =>
      decide (stepOn1 t = some (22, .transfer) ∧ t.now = 10)) = true := by decide +kernel

/-- R81: the time value of step 22 runs out between two reads, and the run fails without BUS_FAULT. -/
theorem test_pollTimeValueExpiry :
    after (.pollTimeValueExpiry 1) ((recipes.onBus (run4 .tune 22 step22 .pause)).putTuner 4
        { state := .tuning, mux := some 12, work := some .host }) (fun t =>
      t.latched .tuner 4 .tuneFailed && !t.latched .tuner 4 .busFault && decide (t.now = 300 ∧ (t.bus 1).run = none)) =
    true := by decide +kernel

/-- Table 41: the wait of 20 ms ends, and step 22 begins to read. -/
theorem test_waitStepExpiry :
    after (.waitStepExpiry 1) (recipes.onBus (run4 .tune 21 step21 .pause)) (fun t =>
      decide (stepOn1 t = some (22, .transfer) ∧ t.now = 20)) = true := by decide +kernel

/-- R83, R87: a stall puts the bus into RECOVERING and raises BUS_FAULT. -/
theorem test_busStall :
    after (.busStall 1 []) (recipes.onBus (run4 .tune 20 step20 .transfer)) (fun t =>
      t.latched .tuner 4 .busFault && decide ((t.bus 1).state = .recovering ∧ (t.bus 1).run = none)) = true := by
  decide +kernel

/-- R83, R84: at the end of the recovery the next queued run starts. -/
theorem test_recoveryEnd :
    after (.recoveryEnd 1) (recipes.putBus 1 { state := .recovering, queue := [recipes.newRun 4 .measure 0] }) (fun t =>
      decide ((t.bus 1).state = .running ∧ stepOn1 t = some (60, .transfer) ∧ (t.bus 1).queue = [])) = true := by decide +kernel

/-- R83: an abandoned recovery returns the bus to IDLE too. -/
theorem test_recoveryAbandon :
    after (.recoveryAbandon 1) (recipes.putBus 1 { state := .recovering }) (fun t => decide (t.bus 1 = {})) = true := by
  decide +kernel

/-! ## WRITE_ENTRY -/

/-- The entry of service 17 in Table 16, step 8, with hysteresis 350. -/
def service17Bytes (ids : List Nat) : List Byte :=
  words ([0, 1, 2] ++ ids ++ [0x10, 0x10, 0x10, 0x10, 0x10, 0x10] ++ [0, 0, 1, 1, 1, 1, 1, 1] ++
    [0, 350, 3, 2, 150, 900, 1, 0])
def writeService17 (ids : List Nat) : Cmd := command .property 1 1 17 (service17Bytes ids)
def writeCopy (i mux : Nat) (src : List Nat) : Cmd :=
  command .property 1 2 i (words ([0, mux] ++ src ++ List.replicate (8 - src.length) 0))

/-- Table 16, step 8: DONE_CLAMPED, H stored as 300. -/
theorem test_writeEntryService_clamped :
    after .writeEntryService (loaded.send (writeService17 [0x110, 0x111])) (fun t =>
      answered .doneClamped 0 t && decide (t.service 17 = svc17)) = true := by decide +kernel

/-- Table 16, step 7: 0x0102 is used on output 1 by enabled service 9; the detail names service 9. -/
theorem test_writeEntryService_conflict :
    after .writeEntryService ((loaded.putService 9 { svc17 with outIds := [0x101, 0x102, 16, 16, 16, 16, 16, 16] }).send
      (writeService17 [0x110, 0x102])) (answered .conflict (1 * 4096 + 9)) = true := by decide +kernel

/-- Table 16, step 2: copy 17/0 is stored. -/
theorem test_writeEntryCopy :
    after .writeEntryCopy ((State.reset.putMux 12 mux12).send (writeCopy 68 12 [0x201, 0x202])) (fun t =>
      answered .done 0 t && decide (t.copy 68 = copy68)) = true := by decide +kernel

/-- Table 17, step 9: the selected copy's source identifiers are locked; the detail is their position, 3. -/
theorem test_writeEntryCopy_inUse :
    after .writeEntryCopy (served.send (writeCopy 68 12 [0x201, 0x205])) (fun t =>
      answered .inUse 3 t && decide (t.copy 68 = copy68)) = true := by decide +kernel

/-- Table 16, step 1: the dwell of 20 is stored as 16. -/
theorem test_writeEntryMultiplex :
    after .writeEntryMultiplex (State.reset.send (command .property 1 3 12 (words [0, 2, 20, 20, 1, 1, 0x200]))) (fun t =>
      answered .doneClamped 0 t && decide (t.mux 12 = mux12)) = true := by decide +kernel

/-- R18, R19: a TUNER entry is stored, its acquire limit clamped to 8000, and the role stands. -/
theorem test_writeEntryTuner :
    after .writeEntryTuner (State.reset.send (command .property 1 4 4 (words [2, 1, 0x60, 4, 60, 0xFFFF, 9000, 5000]))) (fun t =>
      answered .doneClamped 0 t && decide (t.tunerRec 4 = { tuner4 with acquireLimit := 8000 } ∧ t.role 4 = .off)) = true := by
  decide +kernel

/-- R20, R155: a disabled output loses its queue. -/
theorem test_writeEntryOutput :
    after .writeEntryOutput ((busyOutput 4).send (command .property 1 5 0 (words [1, 0, 8000]))) (fun t =>
      answered .done 0 t && decide ((t.outputRec 0).enabled = false ∧ (t.out 0).queue = [] ∧ (t.out 0).reserve = 0)) = true := by
  decide +kernel

/-- A SETTINGS entry with the power-on values but a window length, reply identifier and instrument of the caller's. -/
def settingsEntry (win reply : Nat) : List Byte :=
  words [win, 4, 3, 0, 400, 8, 2, 3, 10, 30, 1500, 30, 0, 10, 0x1FF0, reply, 0x1FF2] ++ bytes [0, 0, 0, 0]

/-- R21, R23: 1555 ms are stored as 1500, and the reply leaves under the old reply identifier. -/
theorem test_writeEntrySettings :
    after .writeEntrySettings (State.reset.send (command .property 1 6 0 (settingsEntry 1555 0x1FE0))) (fun t =>
      answered .doneClamped 0 t && decide (t.settings.winLen = 1500 ∧ t.settings.replyId = 0x1FE0 ∧
        t.mgmt.list.map MgmtPacket.ident = [0x1FF1])) = true := by decide +kernel

/-- R22: equal identifiers are refused RANGE at the reply identifier. -/
theorem test_writeEntrySettings_range :
    after .writeEntrySettings (State.reset.send (command .property 1 6 0 (settingsEntry 1000 0x1FF0))) (answered .range 16) =
      true := by decide +kernel

/-- R74: an unknown kind is stored as NONE, and the reply says so. -/
theorem test_writeEntryStep :
    after .writeEntryStep (State.reset.send (command .property 1 7 20 (words [9, 0, 0, 6, 0, 0, 0, 0, 21]))) (fun t =>
      answered .doneClamped 0 t && decide (t.step 20 = { count := 6, time := 0, next := some 21 })) = true := by decide +kernel

/-- R75: chunk 255 holds offsets 4080 to 4095. -/
theorem test_writeEntryPool :
    after .writeEntryPool (State.reset.send (command .property 1 8 255 (bytes (List.range 16)))) (fun t =>
      answered .done 0 t && decide (t.poolByte 4095 = 15 ∧ t.poolByte 4081 = 1 ∧ t.poolByte 0 = 0)) = true := by decide +kernel

/-- R166, R167: a table code outside 1–8 is refused UNKNOWN with detail 0. -/
theorem test_writeEntryUnknownTable :
    after .writeEntryUnknownTable (State.reset.send (command .property 1 9 0 [])) (replied .unknown 0 (.bytes [])) = true := by
  decide +kernel

/-! ## The other commands -/

/-- R2, Table 75: READ_ENTRY of copy 17/0 returns its ten fields and its live fields, absent ones as 0xFFFF. -/
theorem test_readEntry_copy :
    after .readEntry (loaded.send (command .property 2 2 68 [])) (replied .done 0 (.bytes
      (words [0, 12, 0x201, 0x202, 0, 0, 0, 0, 0, 0] ++ words [0xFFFF, 0xFFFF, 0] ++ List.replicate 10 0))) = true := by
  decide +kernel

/-- Table 16, step 8: READ_RANK after it gives copies 0 and 1 in slot order, both never observed, UNSERVED. -/
theorem test_readRank :
    after .readRank ((enabled.putCopy 69 { copy68 with mux := 40 }).send (command .property 3 0 17 [])) (replied .done 0
      (.read (.rank { state := .unserved, record := {},
                      list := [{ slot := 0, cls := .never, live := {} }, { slot := 1, cls := .never, live := {} }],
                      claims := [(12, 0), (40, 0)] }))) = true := by decide +kernel

/-- R169: part 1 of READ_LANE returns the first eight entries of the track list. -/
theorem test_readLane :
    after .readLane ((loaded.putTracker 3 { entries := [{ ident := 0x200, sig := true }] }).send
        (command .property 4 0 3 [1])) (replied .done 0 (.read (.tracks [{ ident := 0x200, sig := true }]))) = true := by
  decide +kernel

/-- R169: READ_CENSUS with index 0xFFFF returns the insertion record. -/
theorem test_readCensus :
    after .readCensus ((State.reset.putCensusRec localMux (some { pairs := [(0x400, 1200)], overflow := 0 })).send
        (command .property 5 0 0xFFFF []))
      (replied .done 0 (.read (.census (some { pairs := [(0x400, 1200)], overflow := 0 })))) = true := by decide +kernel

/-- R169, Table 81: READ_INDICATIONS of the device shows URGENT_FULL, code 18, at bit 17 of both masks. -/
theorem test_readIndications :
    after .readIndications ((State.reset.raise .device 0 .urgentFull).send (command .property 6 0 0 [6]))
      (replied .done 0 (.read (.indications
        { flags := [(0x020000, 0x020000)], summary := [false, false, false, false, false, true], lost := false }))) =
    true := by decide +kernel

/-- Table 55's multiplex 5 on ring A, and tuner 10 that reaches feed 1. -/
def ringed : State :=
  (State.reset.putMux 5 { defined := true, feed := 1, head := 20, dwell := 3, ring := .a }).putTunerRec 10 { reach := 0x0B }

/-- Table 55: SET_ROLE 10 SCAN, and tuner 10 takes 5 from ring A. -/
theorem test_setRole_scan :
    after .setRole ((ringed.putStep 20 step20).send (command .property 7 0 10 [2])) (fun t =>
      answered .done 0 t && decide ((t.visit 10).map Visit.source = some .ringA ∧ t.sched.ptrA = 6 ∧ t.sched.aRun = 1 ∧
        (t.tuner 10).state = .tuning)) = true := by decide +kernel

/-- R104: a tuner that hosts a claimed multiplex keeps its role. -/
theorem test_setRole_inUse :
    after .setRole (((hosting.putService 17 svc17).putRank 17 { selected := some 0 }).send (command .property 7 0 0 [2])) (fun t =>
      answered .inUse 0 t && decide (t.role 0 = .live)) = true := by decide +kernel

/-- Section 7.6: URGENT 90 is DONE and waits while tuner 9 is RELEASING. -/
theorem test_urgent :
    after .urgent ((((State.reset.putMux 90 { defined := true, feed := 3, ring := .b }).putTunerRec 9 { reach := 0x0A }).putRole
        9 .scan |>.putTuner 9 { state := .releasing, windRelease := true }).send (command .property 8 0 90 [])) (fun t =>
      answered .done 0 t && decide (t.sched.urgent = [90])) = true := by decide +kernel

/-- R109: an undefined multiplex is refused UNKNOWN. -/
theorem test_urgent_unknown :
    after .urgent (State.reset.send (command .property 8 0 57 [])) (answered .unknown 0) = true := by decide +kernel

/-- R145: PIN names a copy of an enabled service. -/
theorem test_pin :
    after .pin (served.send (command .property 9 0 17 [0])) (fun t =>
      answered .done 0 t && decide ((t.rank 17).pin = some 0 ∧ (t.rank 17).selected = some 0)) = true := by decide +kernel

/-- R145: a slot without a defined copy is refused UNKNOWN. -/
theorem test_pin_unknown :
    after .pin (served.send (command .property 9 0 17 [3])) (answered .unknown 0) = true := by decide +kernel

/-- R145: UNPIN clears the pin. -/
theorem test_unpin :
    after .unpin ((enabled.putRank 17 { selected := some 0, pin := some 0 }).send (command .property 10 0 17 [])) (fun t =>
      answered .done 0 t && decide ((t.rank 17).pin = none)) = true := by decide +kernel

/-- R173: the named flag is cleared and its status value stands. -/
theorem test_clearIndication :
    after .clearIndication ((State.reset.raise .multiplex 12 .mismatch true).send
        (command .property 11 0 12 (bytes [3, 0, 0, 0x04]))) (fun t =>
      !t.latched .multiplex 12 .mismatch && t.statusValue .multiplex 12 .mismatch) = true := by decide +kernel

/-- R174, R177: a latched kind that is then enabled asserts ALERT; bits above code 21 are stored as 0. -/
theorem test_setEnables :
    after .setEnables ((State.reset.raise .multiplex 12 .mismatch true).send (command .property 12 0 0 (bytes [0xFF, 0, 0x04])))
      (fun t => t.alert && decide (t.settings.mask = 0x1F0004 ∧ t.mgmt.queue = [])) = true := by decide +kernel

/-- R71: bit n of the mask is lane n. -/
theorem test_clearCounters :
    after .clearCounters (((State.reset.putLifetime 16 { p := 9 }).putLifetime 3 { p := 5 }).send
        (command .property 13 0 0 (bytes [1, 0, 0]))) (fun t =>
      decide ((t.lifetime 16).p = 0 ∧ (t.lifetime 3).p = 5)) = true := by decide +kernel

/-- Table 83: SET_PROTECTION TUNING, MULTIPLEX; SOFT from the installer. -/
theorem test_setProtection :
    after .setProtection (State.reset.send (command .installer 14 0 0 (bytes [3, 0]))) (fun t =>
      answered .done 0 t && decide (t.prot = { flags := 3, level := .soft })) = true := by decide +kernel

/-- Table 83: the same from the property is refused PROTECTED, detail 0. -/
theorem test_setProtection_property :
    after .setProtection (State.reset.send (command .property 14 0 0 (bytes [3, 0]))) (fun t =>
      answered .prot 0 t && decide (t.prot = {})) = true := by decide +kernel

/-- R178: a soft reset keeps what is loaded, and its reply waits for every block. -/
theorem test_softReset :
    after .softReset (served.send (command .property 15 0 0 [])) (fun t =>
      decide (t.tables = served.tables ∧ t.ranks = [] ∧ t.mgmt.list = [] ∧ t.resetting.isSome = true)) = true := by decide +kernel

/-- R178: the reply DONE is built when every block has completed. -/
theorem test_softResetComplete :
    after .softResetComplete (State.reset.setResetting (some (command .property 15 0 0 []))) (fun t =>
      replied .done 0 (.bytes []) t && t.resetting.isNone) = true := by decide +kernel

/-- R166: an unknown kind is refused UNKNOWN with reply kind 0. -/
theorem test_unrecognisedCommand :
    after .unrecognisedCommand (State.reset.send (command .property 16 0 0 [])) (fun t =>
      replied .unknown 0 (.bytes []) t && decide (t.mgmt.list.map (fun | .reply _ r => r.kind | .report _ _ => 99) = [0])) =
    true := by decide +kernel

/-! ## Scores -/

/-- Table 60: W = 654 and Q = 688. -/
theorem test_score_case1 :
    let i : ScoreInput := { m := 142, l := 1000, p := 58000, e := 12, s := 0, r := 0, mismatch := false, counts := [1],
                            breaks := 2, required := [true], g := 8 }
    i.score = 654 ∧ smooth 2 (some 700) i.score = 688 := by decide +kernel

/-- Table 61: W = 18 and Q = 229, then 171 after a window without a required component. -/
theorem test_score_case2 :
    let i : ScoreInput := { m := 231, l := 940, p := 61000, e := 4000, s := 1, r := 1, mismatch := false, counts := [1],
                            breaks := 9, required := [true], g := 8 }
    i.score = 18 ∧ smooth 2 (some 300) i.score = 229 ∧ ScoreInput.score { i with counts := [0] } = 0 ∧
      smooth 2 (some 229) 0 = 171 := by decide +kernel

/-! ## Witnesses: for each statement with hypotheses, states and operands that meet them -/

/-- No hand-over and no failing run waits, as a test. -/
def isQuiet (s : State) : Bool :=
  decide (s.notices = []) && decide (s.settled = []) && (List.range 4).all (fun b => (s.failingRun b).isNone)

theorem quiet_of {s : State} (h : isQuiet s = true) : s.Quiet := by
  simp only [isQuiet, Bool.and_eq_true, decide_eq_true_eq, List.all_eq_true, List.mem_range, Option.isNone_iff_eq_none] at h
  exact ⟨h.1.1, h.1.2, h.2⟩

/-- A command packet is the MU's to take, alone, as a test. -/
def isReady (s : State) (c : Cmd) (rest : List Cmd) : Bool :=
  isQuiet s && decide (s.resetting = none) && decide (s.inbound = c :: rest) && decide (c.bytes.length = 188) &&
    decide (s.mgmt.replies.length < 16)

theorem ready_of {s : State} {c : Cmd} {rest : List Cmd} (h : isReady s c rest = true) : s.Ready c rest := by
  simp only [isReady, Bool.and_eq_true, decide_eq_true_eq] at h
  exact ⟨quiet_of h.1.1.1.1, h.1.1.1.2, h.1.1.2, h.1.2, h.2⟩

/-- The part takes and accepts a command packet for a row, as a test. -/
def isTaken (s : State) (c : Cmd) (i : Instr) : Bool :=
  isReady s c [] && rowTakes i c && decide (firstFailing (s.checksOf c i) = none)

theorem taken_of {s : State} {c : Cmd} {i : Instr} (h : isTaken s c i = true) : s.Ready c [] ∧ s.accepts c i := by
  simp only [isTaken, Bool.and_eq_true, decide_eq_true_eq] at h
  exact ⟨ready_of h.1.1, h.1.2, h.2⟩

/-- The loaded tables are in canonical form, as a test. -/
def loadedCanonical (t : Tables) : Bool :=
  Tab.wf {} t.services && Tab.wf {} t.copies && Tab.wf {} t.muxes && Tab.wf {} t.tuners && Tab.wf {} t.outputs &&
    Tab.wf {} t.steps && Tab.wf 0 t.pool
/-- The records of the lanes, buses and tuners are in canonical form, as a test. -/
def frontCanonical (s : State) : Bool :=
  Tab.wf {} s.framers && Tab.wf {} s.trackers && Tab.wf {} s.qmLanes && Tab.wf {} s.lifetimes && Tab.wf none s.censusRecs &&
    Tab.wf false s.mismatch && Tab.wf {} s.buses && Tab.wf .off s.roles && Tab.wf {} s.tuners &&
    Tab.wf none s.sched.visits && Tab.wf none s.sched.lastOutcome
/-- The records of the services, outputs and indications are in canonical form, as a test. -/
def backCanonical (s : State) : Bool :=
  Tab.wf {} s.lives && Tab.wf {} s.ranks && Tab.wf 150 s.floors && Tab.wf none s.gates && Tab.wf none s.cuts &&
    Tab.wf {} s.outs && List.all s.outs (fun e => Tab.wf 0 e.2.counters) && Tab.wf false s.inds.latched &&
    Tab.wf false s.inds.status
/-- Every table is in canonical form, as a test. -/
def isCanonical (s : State) : Bool := loadedCanonical s.tables && frontCanonical s && backCanonical s

theorem canonical_of {s : State} (h : isCanonical s = true) : s.Canonical := by
  simp [isCanonical, loadedCanonical, frontCanonical, backCanonical] at h
  constructor
  case counters => exact fun e he => h.2.1.1.2 e.1 e.2 he
  all_goals simp [Tables.canonical, h]

/-- The step of a state is a next state, as a test of the state alone. -/
theorem next_of {s : State} (h : s.stepsOn = true) : ∃ t, step s = .next t := by
  unfold State.stepsOn at h
  split at h
  · exact ⟨_, ‹_›⟩
  · cases h

/-- A waiting command and an idle part, for StepRunsFrontCommand. -/
theorem witness_StepRunsFrontCommand :
    (State.reset.setPending [.rankClockSecond, .pin]).pending = [.rankClockSecond, .pin] ∧ State.reset.Quiet ∧
      State.reset.pending = [] := ⟨rfl, quiet_of (by decide +kernel), rfl⟩

theorem witness_CanonicalKept : (served.setPending [.rankClockSecond]).Canonical ∧
    ∃ t, step (served.setPending [.rankClockSecond]) = .next t :=
  ⟨canonical_of (by decide +kernel), next_of (by decide +kernel)⟩

theorem witness_LimitsKept : (State.reset.setPending [.rankClockSecond]).WithinLimits ∧
    ∃ t, step (State.reset.setPending [.rankClockSecond]) = .next t := by
  refine ⟨⟨⟨by decide, by decide, by decide, fun _ h => by cases h⟩, ⟨by decide, by decide⟩,
    ⟨by decide, by decide, by decide, by decide, by decide, fun _ h => by cases h⟩, ?_, ?_, ?_, ?_, ?_, ?_, ?_, ?_, ?_, by decide,
    ?_, by decide⟩, next_of (by decide +kernel)⟩
  all_goals intro e he
  all_goals try (cases he; done)
  have : e = (16, QmLane.atPowerOn) := by simpa using List.mem_singleton.mp he
  subst this
  exact ⟨by decide, by decide, by decide, by decide, by decide, by decide, by decide, by decide, fun r h => by cases h⟩

/-- Two tuners that occupy different multiplexes. -/
theorem witness_OneOccupantKept :
    let s := (hosting.putTuner 3 { state := .tuning, mux := some 40, work := some .host }).setPending [.rankClockSecond]
    s.Canonical ∧ s.OneOccupant ∧ s.occupied 12 = true ∧ s.occupied 40 = true ∧ ∃ t, step s = .next t := by
  refine ⟨canonical_of (by decide +kernel), ?_, by decide +kernel, by decide +kernel, next_of (by decide +kernel)⟩
  intro x t u ht hu h1 h2
  by_cases e : t = u
  · exact e
  · have key : ∀ t, t < 16 → ∀ u, u < 16 → t ≠ u →
        (((hosting.putTuner 3 { state := .tuning, mux := some 40, work := some .host }).setPending
          [.rankClockSecond]).tuner t).mux ≠ none →
        (((hosting.putTuner 3 { state := .tuning, mux := some 40, work := some .host }).setPending
          [.rankClockSecond]).tuner t).mux ≠
        (((hosting.putTuner 3 { state := .tuning, mux := some 40, work := some .host }).setPending
          [.rankClockSecond]).tuner u).mux := by decide +kernel
    simp only [State.occupies, Bool.and_eq_true, decide_eq_true_eq] at h1 h2
    exact absurd (h1.1.trans h2.1.symm) (key t ht u hu e (by rw [h1.1]; simp))

/-- Service 17 served from the copy that tuner 0 hosts. -/
def servedByHost : State := (hosting.putService 17 svc17).putRank 17 { selected := some 0 }

theorem witness_SelectedCopyHostedKept :
    let s := servedByHost.setPending [.rankClockSecond]
    s.Canonical ∧ s.SelectedHosted ∧ (s.service 17).enabled = true ∧ (s.rank 17).selected = some 0 ∧ ∃ t, step s = .next t := by
  refine ⟨canonical_of (by decide +kernel), ?_, by decide +kernel, by decide +kernel, next_of (by decide +kernel)⟩
  intro v slot _ _ h
  have hr : (servedByHost.setPending [.rankClockSecond]).rank v = if 17 = v then { selected := some 0 } else {} := rfl
  rw [hr] at h
  split at h
  · rename_i e
    subst e
    cases h
    exact .inl (by decide +kernel)
  · cases h

theorem witness_HardProtectionStays :
    let s := (State.reset.setProt { flags := 3, level := .hard }).setPending [.rankClockSecond]
    s.prot.level = .hard ∧ s.pending.head? ≠ some .powerOnReset ∧ ∃ t, step s = .next t :=
  ⟨rfl, by decide, next_of (by decide +kernel)⟩

/-- The lowest operands outside the ranges of Table 4. -/
theorem witness_OutOfRangeOperandsFault :
    exec (.laneByte 17 0) State.reset = .fault .noSuchLane ∧ exec (.emissionSlot 4) State.reset = .fault .noSuchOutput ∧
      exec (.relockTimerExpiry 16) State.reset = .fault .noSuchTuner ∧
      exec (.cutForceExpiry 256) State.reset = .fault .noSuchService ∧
      exec (.recoveryEnd 4) State.reset = .fault .noSuchBus := by
  refine ⟨rfl, rfl, rfl, rfl, rfl⟩

/-! ### The management channel -/

/-- A POOL write of chunk 256 fails its index check. -/
def badPool : Cmd := command .property 1 8 256 (bytes (List.range 16))
theorem witness_RefusedCommandOnlyReplies :
    (State.reset.send badPool).Ready badPool [] ∧ rowTakes .writeEntryPool badPool = true ∧
      firstFailing ((State.reset.send badPool).checksOf badPool .writeEntryPool) =
        some { fails := true, outcome := .range, detail := 0 } :=
  ⟨ready_of (by decide +kernel), by decide, by decide +kernel⟩

/-- The highest index of each reading command. -/
def readEntryCmd : Cmd := command .property 2 7 511 []
def readRankCmd : Cmd := command .property 3 0 255 []
def readLaneCmd : Cmd := command .property 4 0 16 [12]
def readCensusCmd : Cmd := command .property 5 0 0xFFFF []
def readIndCmd : Cmd := command .property 6 0 255 [4]
theorem witness_ReadingCommandsReply :
    ((served.send readEntryCmd).Ready readEntryCmd [] ∧ (served.send readEntryCmd).accepts readEntryCmd .readEntry) ∧
    ((served.send readRankCmd).Ready readRankCmd [] ∧ (served.send readRankCmd).accepts readRankCmd .readRank) ∧
    ((served.send readLaneCmd).Ready readLaneCmd [] ∧ (served.send readLaneCmd).accepts readLaneCmd .readLane) ∧
    ((served.send readCensusCmd).Ready readCensusCmd [] ∧ (served.send readCensusCmd).accepts readCensusCmd .readCensus) ∧
    ((served.send readIndCmd).Ready readIndCmd [] ∧ (served.send readIndCmd).accepts readIndCmd .readIndications) :=
  ⟨taken_of (by decide +kernel), taken_of (by decide +kernel), taken_of (by decide +kernel), taken_of (by decide +kernel),
    taken_of (by decide +kernel)⟩

def tunerCmd : Cmd := command .property 1 4 15 (words [2, 3, 0x77, 255, 511, 0xFFFF, 8000, 30000])
def outputCmd (enabled : Nat) : Cmd := command .property 1 5 0 (words [enabled, 1, 0x5F90])
def stepCmd : Cmd := command .property 1 7 511 (words [3, 7, 4095, 32, 255, 255, 8000, 1, 0xFFFF])
/-- One write of each table, the output enabled and disabled. -/
theorem witness_PlainWritesStore :
    ((recipes.send tunerCmd).Ready tunerCmd [] ∧ (recipes.send tunerCmd).accepts tunerCmd .writeEntryTuner) ∧
    (((recipes.send (outputCmd 0)).Ready (outputCmd 0) [] ∧
        (recipes.send (outputCmd 0)).accepts (outputCmd 0) .writeEntryOutput) ∧
      (readOutput (outputCmd 0).operands).enabled = true) ∧
    ((((busyOutput 4).send (outputCmd 1)).Ready (outputCmd 1) [] ∧
        ((busyOutput 4).send (outputCmd 1)).accepts (outputCmd 1) .writeEntryOutput) ∧
      (((busyOutput 4).send (outputCmd 1)).outputRec 0).enabled = true ∧
      (readOutput (outputCmd 1).operands).enabled = false) ∧
    ((recipes.send stepCmd).Ready stepCmd [] ∧ (recipes.send stepCmd).accepts stepCmd .writeEntryStep) :=
  ⟨taken_of (by decide +kernel), ⟨taken_of (by decide +kernel), by decide +kernel⟩,
    ⟨taken_of (by decide +kernel), by decide +kernel⟩, taken_of (by decide +kernel)⟩

def settingsCmd : Cmd := command .property 1 6 0 (settingsEntry 1555 0x1FE0)
theorem witness_SettingsWriteKeepsMask : (served.send settingsCmd).Ready settingsCmd [] ∧
    (served.send settingsCmd).accepts settingsCmd .writeEntrySettings := taken_of (by decide +kernel)

def poolCmd : Cmd := command .property 1 8 255 (bytes (List.range 16))
theorem witness_PoolWriteStoresChunk : (recipes.send poolCmd).Canonical ∧ (recipes.send poolCmd).Ready poolCmd [] ∧
    (recipes.send poolCmd).accepts poolCmd .writeEntryPool := ⟨canonical_of (by decide +kernel), taken_of (by decide +kernel)⟩

/-- A write that disables service 17. -/
def disable17 : Cmd := command .property 1 1 17 (words [1] ++ (service17Bytes [0x110, 0x111]).drop 2)
/-- A write that enables service 17, one that changes it while it is served, and one that disables it during a cut. -/
theorem witness_ServiceWriteStoresEntry :
    ((loaded.send (writeService17 [0x110, 0x111])).Canonical ∧
      (loaded.send (writeService17 [0x110, 0x111])).Ready (writeService17 [0x110, 0x111]) [] ∧
      (loaded.send (writeService17 [0x110, 0x111])).accepts (writeService17 [0x110, 0x111]) .writeEntryService ∧
      ((loaded.send (writeService17 [0x110, 0x111])).service 17).enabled = false ∧
      ∀ slot, (loaded.send (writeService17 [0x110, 0x111])).choosable 17 slot = false) ∧
    (((served.putService 17 { svc17 with hyst := 60 }).send (writeService17 [0x110, 0x111])).Canonical ∧
      ((served.putService 17 { svc17 with hyst := 60 }).send (writeService17 [0x110, 0x111])).Ready
        (writeService17 [0x110, 0x111]) [] ∧
      ((served.putService 17 { svc17 with hyst := 60 }).send (writeService17 [0x110, 0x111])).accepts
        (writeService17 [0x110, 0x111]) .writeEntryService) ∧
    ((cutting.send disable17).Canonical ∧ (cutting.send disable17).Ready disable17 [] ∧
      (cutting.send disable17).accepts disable17 .writeEntryService ∧ (cutting.send disable17).cut 17 ≠ none ∧
      ((cutting.send disable17).service 17).enabled = true ∧ (readService disable17.operands).enabled = false) :=
  ⟨⟨canonical_of (by decide +kernel), (taken_of (i := .writeEntryService) (by decide +kernel)).1,
      (taken_of (by decide +kernel)).2, by decide +kernel,
      fun _ => rfl⟩,
    ⟨canonical_of (by decide +kernel), taken_of (by decide +kernel)⟩,
    ⟨canonical_of (by decide +kernel), (taken_of (i := .writeEntryService) (by decide +kernel)).1,
      (taken_of (by decide +kernel)).2, by decide +kernel⟩⟩

/-- In a disabled service, a write that changes the reception and one that does not. -/
theorem witness_CopyWriteStoresEntry :
    ((loaded.send (writeCopy 68 12 [0x201, 0x205])).Canonical ∧
      (loaded.send (writeCopy 68 12 [0x201, 0x205])).Ready (writeCopy 68 12 [0x201, 0x205]) [] ∧
      (loaded.send (writeCopy 68 12 [0x201, 0x205])).accepts (writeCopy 68 12 [0x201, 0x205]) .writeEntryCopy) ∧
    ((loaded.send (writeCopy 68 12 [0x201, 0x205])).service 17).enabled = false ∧
    (resetsLive 2 copy68 (readCopy (writeCopy 68 12 [0x201, 0x205]).operands) = true ∧
      resetsLive 1 copy68 (readCopy (writeCopy 68 12 [0x201, 0x205]).operands) = false) :=
  ⟨⟨canonical_of (by decide +kernel), taken_of (by decide +kernel)⟩, by decide +kernel, by decide +kernel⟩

def undefineMuxCmd : Cmd := command .property 1 3 12 (words [1, 2, 20, 16, 1, 0])
/-- Multiplex 12 is undefined while its copy is undefined and no tuner waits for a pick. -/
theorem witness_MultiplexWriteStoresEntry :
    let s := ((State.reset.putMux 12 mux12).putMismatched 12 true).send undefineMuxCmd
    s.Canonical ∧ (s.Ready undefineMuxCmd [] ∧ s.accepts undefineMuxCmd .writeEntryMultiplex) ∧ s.NoPicks ∧
      (s.mux undefineMuxCmd.index).defined = true ∧ (readMux undefineMuxCmd.operands).defined = false :=
  ⟨canonical_of (by decide +kernel), taken_of (by decide +kernel), by unfold State.NoPicks; decide +kernel, by decide +kernel,
    by decide +kernel⟩

def roleCmd (t role : Nat) : Cmd := command .property 7 0 t (bytes [role])
/-- Tuner 10 of Table 55 visits multiplex 5. -/
def visiting : State :=
  (((ringed.putRole 10 .scan).putTuner 10 { state := .observing, mux := some 5, work := some .visit }).putVisit 10
    (some { mux := 5, source := .ringA, phase := .observing, dwell := 1 })).putFramer 10
    { state := .locked, lockPhase := some 100, prevPhase := some 100 }
/-- A tuner in a role and state, the part otherwise as after power-on. -/
def lone (n : Nat) (r : Role) (st : TunerState) : State := (State.reset.putRole n r).putTuner n { state := st }
/-- The role a tuner has; LIVE on a tuner that is OFF; SCAN on one that is LIVE and FREE; OFF on one that visits; LIVE on one
that is RELEASING. -/
theorem witness_SetRoleChangesRole :
    ((recipes.send (roleCmd 4 1)).Canonical ∧
      ((recipes.send (roleCmd 4 1)).Ready (roleCmd 4 1) [] ∧ (recipes.send (roleCmd 4 1)).accepts (roleCmd 4 1) .setRole) ∧
      (recipes.send (roleCmd 4 1)).role 4 = .live) ∧
    ((recipes.send (roleCmd 15 1)).Canonical ∧
      ((recipes.send (roleCmd 15 1)).Ready (roleCmd 15 1) [] ∧
        (recipes.send (roleCmd 15 1)).accepts (roleCmd 15 1) .setRole) ∧
      (recipes.send (roleCmd 15 1)).role 15 = .off ∧ ((recipes.send (roleCmd 15 1)).tuner 15).state = .off ∧
      ((recipes.send (roleCmd 15 1)).tuner 15).committed = none ∧ (recipes.send (roleCmd 15 1)).hostQueue = [] ∧
      (recipes.send (roleCmd 15 1)).sched.urgent = [] ∧ (recipes.send (roleCmd 15 1)).NoPicks) ∧
    (let s := (lone 3 .live .free).send (roleCmd 3 2)
     s.Canonical ∧ (s.Ready (roleCmd 3 2) [] ∧ s.accepts (roleCmd 3 2) .setRole) ∧ s.role 3 = .live ∧
      (s.tuner 3).state = .free ∧ s.NoPicks ∧ ∀ x, (s.mux x).defined = true → s.reaches 3 (s.mux x).feed = false) ∧
    (let s := visiting.send (roleCmd 10 0)
     s.Canonical ∧ (s.Ready (roleCmd 10 0) [] ∧ s.accepts (roleCmd 10 0) .setRole) ∧ s.role 10 = .scan ∧
      (s.tuner 10).state = .observing ∧ s.visit 10 ≠ none) ∧
    (let s := (lone 9 .scan .releasing).send (roleCmd 9 1)
     s.Canonical ∧ (s.Ready (roleCmd 9 1) [] ∧ s.accepts (roleCmd 9 1) .setRole) ∧ s.role 9 ≠ Role.ofCode 1 ∧
      (s.tuner 9).state = .releasing ∧ s.NoPicks) := by
  refine ⟨⟨canonical_of (by decide +kernel), taken_of (by decide +kernel), by decide +kernel⟩,
    ⟨canonical_of (by decide +kernel), taken_of (by decide +kernel), by decide +kernel, by decide +kernel,
      by decide +kernel, by decide +kernel, by decide +kernel, by unfold State.NoPicks; decide +kernel⟩,
    ⟨canonical_of (by decide +kernel), taken_of (by decide +kernel), by decide +kernel, by decide +kernel,
      by unfold State.NoPicks; decide +kernel, fun _ h => (Bool.false_ne_true h).elim⟩,
    ⟨canonical_of (by decide +kernel), taken_of (by decide +kernel), by decide +kernel⟩,
    ⟨canonical_of (by decide +kernel), taken_of (by decide +kernel), by decide +kernel, by decide +kernel,
      by unfold State.NoPicks; decide +kernel⟩⟩

def urgentCmd : Cmd := command .property 8 0 90 []
/-- Section 7.6's tuner 9 in RELEASING, with seven multiplexes already listed. -/
def scanning : State :=
  ((((State.reset.putMux 90 { defined := true, feed := 3, ring := .b }).putTunerRec 9 { reach := 0x0A }).putRole 9 .scan).putTuner
    9 { state := .releasing, windRelease := true }).setUrgent [1, 2, 3, 4, 5, 6, 7]
/-- Multiplex 90 hosted by tuner 1. -/
def hosted90 : State :=
  (scanning.putRole 1 .live).putTuner 1 { state := .observing, mux := some 90, work := some .host }
/-- Table 52: not defined; hosted; listed, though no tuner reaches it; not reached; a full list; room for one more. -/
theorem witness_UrgentJoinsList :
    (∀ s, s ∈ [scanning.putMux 90 {}, hosted90, (scanning.setUrgent [1, 90]).putTunerRec 9 {}, scanning.putTunerRec 9 {},
        scanning.setUrgent [1, 2, 3, 4, 5, 6, 7, 8], scanning] →
      (s.send urgentCmd).Ready urgentCmd [] ∧ (s.send urgentCmd).accepts urgentCmd .urgent) ∧
    (((scanning.putMux 90 {}).mux 90).defined = false ∧ hosted90.hosted 90 = true ∧ (scanning.mux 90).defined = true ∧
      scanning.hosted 90 = false ∧ 90 ∉ scanning.sched.urgent ∧ (scanning.putTunerRec 9 {}).hosted 90 = false ∧
      (scanning.putTunerRec 9 {}).roleReaches .scan 90 = false ∧ scanning.roleReaches .scan 90 = true ∧
      scanning.sched.urgent.length = 7) ∧ (scanning.send urgentCmd).NoPicks := by
  refine ⟨fun s hs => taken_of ?_, by decide +kernel, by unfold State.NoPicks; decide +kernel⟩
  revert s
  decide +kernel

def pinCmd : Cmd := command .property 9 0 17 (bytes [0])
def unpinCmd : Cmd := command .property 10 0 17 []

def clearCmd : Cmd := command .property 11 0 12 (bytes [3, 0, 0, 0x04])
def countersCmd : Cmd := command .property 13 0 0 (bytes [1, 0, 1])
theorem witness_ClearingCommands :
    (let s := (State.reset.raise .multiplex 12 .mismatch true).send clearCmd
     s.Canonical ∧ s.Ready clearCmd [] ∧ s.accepts clearCmd .clearIndication) ∧
    let s := (State.reset.putLifetime 16 { p := 9 }).send countersCmd
    s.Canonical ∧ s.Ready countersCmd [] ∧ s.accepts countersCmd .clearCounters :=
  ⟨⟨canonical_of (by decide +kernel), taken_of (by decide +kernel)⟩, canonical_of (by decide +kernel),
    taken_of (by decide +kernel)⟩

def enablesCmd : Cmd := command .property 12 0 0 (bytes [0xFF, 0, 0x04])
theorem witness_SetEnablesStoresMask :
    let s := (State.reset.raise .multiplex 12 .mismatch true).send enablesCmd
    s.Ready enablesCmd [] ∧ s.accepts enablesCmd .setEnables := taken_of (by decide +kernel)

def protCmd (a : Authority) : Cmd := command a 14 0 0 (bytes [31, 1])
/-- At SOFT from the installer; at SOFT from the property; at HARD from the installer. -/
theorem witness_SetProtectionDecision :
    (State.reset.send (protCmd .installer)).Ready (protCmd .installer) [] ∧
      (State.reset.send (protCmd .property)).Ready (protCmd .property) [] ∧
      ((State.reset.setProt { level := .hard }).send (protCmd .installer)).Ready (protCmd .installer) [] ∧
      (∀ a, (protCmd a).kind = 14 ∧ (protCmd a).len = 2 ∧ (protCmd a).operand 1 < 2 ∧ (protCmd a).auth = a) :=
  ⟨ready_of (by decide +kernel), ready_of (by decide +kernel), ready_of (by decide +kernel),
    fun a => by cases a <;> decide +kernel⟩

def resetCmd : Cmd := command .property 15 0 0 []
theorem witness_SoftResetClearsTheBlocks : (served.send resetCmd).Canonical ∧ (served.send resetCmd).Ready resetCmd [] ∧
    (served.send resetCmd).accepts resetCmd .softReset := ⟨canonical_of (by decide +kernel), taken_of (by decide +kernel)⟩

/-- A soft reset executes; bus 2 has made a transfer, and is finishing in a state. -/
def resettingOn (st : BusState) : State :=
  (served.setResetting (some resetCmd)).putBus 2
    { state := st, finishing := true, lastTransfer := some { addr := 0x60, read := false, bytes := [1] } }
theorem witness_SoftResetCompletes :
    (let s := resettingOn .recovering
     s.Quiet ∧ s.Canonical ∧ s.resetting = some resetCmd ∧ (s.bus 2).finishing = true ∧ (s.bus 2).state = .recovering) ∧
    let s := resettingOn .idle
    s.Quiet ∧ s.Canonical ∧ s.resetting = some resetCmd ∧
      (∀ b, b < 4 → (s.bus b).finishing = false ∨ (s.bus b).state ≠ .recovering) ∧ s.QuietBuses ∧
      s.mgmt.replies.length < 16 ∧ s.NoPicks :=
  ⟨⟨quiet_of (by decide +kernel), canonical_of (by decide +kernel), by decide +kernel⟩, quiet_of (by decide +kernel),
    canonical_of (by decide +kernel), by decide +kernel, by decide +kernel, by unfold State.QuietBuses; decide +kernel,
    by decide +kernel, by unfold State.NoPicks; decide +kernel⟩

/-- Kinds 0 and 16, and table codes 0 and 9. -/
theorem witness_UnknownCommandsRefused :
    (State.reset.send (command .property 0 0 0 [])).Ready (command .property 0 0 0 []) [] ∧
      (State.reset.send (command .property 16 0 0 [])).Ready (command .property 16 0 0 []) [] ∧
      (command .property 0 0 0 []).kind = 0 ∧ (command .property 16 0 0 []).kind = 16 ∧
      (State.reset.send (command .property 1 0 0 [])).Ready (command .property 1 0 0 []) [] ∧
      (State.reset.send (command .property 1 9 0 [])).Ready (command .property 1 9 0 []) [] ∧
      (command .property 1 0 0 []).table = 0 ∧ (command .property 1 9 0 []).table = 9 :=
  ⟨ready_of (by decide +kernel), ready_of (by decide +kernel), by decide +kernel, by decide +kernel,
    ready_of (by decide +kernel), ready_of (by decide +kernel), by decide +kernel, by decide +kernel⟩

/-- Sixteen replies wait. -/
theorem witness_ReplyOverrunDropsOldest :
    (State.reset.setMgmt { list := List.replicate 16 waitingReply }).mgmt.replies.length = 16 := by decide +kernel

/-- A flagged packet, a clear one, and inbound queues of 7 and 8. -/
theorem witness_CommandPacketTaken :
    Packet.flagged (bytes [0x47, 0x9F, 0xF0, 0x10]) = true ∧ Packet.flagged badPool.bytes = false ∧
      (State.reset.setInbound (List.replicate 7 badPool)).inbound.length = 7 ∧
      (State.reset.setInbound (List.replicate 8 badPool)).inbound.length = 8 := by decide +kernel

/-- MISMATCH enabled: not latched with 31 and with 32 records queued, latched, and a waiting report packet. -/
def reporting (n : Nat) : State :=
  (State.reset.setTables { settings := { mask := 4 } }).setMgmt
    { queue := List.replicate n { source := .device, index := 0, kind := .urgentFull, status := true, stamp := 0 } }
theorem witness_RaiseLatchesAndReports :
    (∀ n, n = 31 ∨ n = 32 → (reporting n).Canonical ∧ (reporting n).latched .multiplex 12 .mismatch = false ∧
      (reporting n).settings.mask.getLsbD (Kind.mismatch.code - 1) = true ∧ (reporting n).mgmt.queue.length = n ∧
      (reporting n).mgmt.reportWaits = false) ∧
    (State.reset.raise .multiplex 12 .mismatch).latched .multiplex 12 .mismatch = true ∧
    ((reporting 31).setMgmt { (reporting 31).mgmt with list := [.report 0 { lost := false, records := [] }] }).mgmt.reportWaits =
      true := by
  refine ⟨?_, by decide +kernel, by decide +kernel⟩
  intro n h
  refine ⟨canonical_of ?_, ?_⟩ <;> rcases h with rfl | rfl <;> decide +kernel

/-- A record of each table at the ends of its ranges. -/
theorem witness_EntryCodecsAgree :
    svc17.inRange ∧ CopyRec.inRange { copy68 with mux := localMux } ∧ mux12.inRange ∧
      TunerRec.inRange { tuner4 with release := some 511 } ∧ OutputRec.inRange { rate := 90000 } ∧
      Settings.inRange { winLen := 4000 } ∧ Step.inRange { step22 with time := 8000 } := by
  refine ⟨by unfold Service.inRange; decide, by unfold CopyRec.inRange; decide, by unfold MuxRec.inRange; decide, ?_,
    by unfold OutputRec.inRange; decide, by unfold Settings.inRange; decide, ?_⟩
  · refine ⟨by decide, by decide, by decide, by decide, ?_, by decide, by decide, by decide, by decide⟩
    intro x h
    cases h
    decide
  · refine ⟨by decide, by decide, by decide, by decide, by decide, by decide, ?_⟩
    intro x h
    cases h

/-! ### Lanes, windows, the rank clock -/

/-- Lane `n` in LOCKED with a packet in progress. -/
def locked (n : Nat) (p : Packet) : State := State.reset.putFramer n { state := .locked, lockPhase := some 0, pkt := p }
/-- The first 187 bytes of a packet of an identifier, with its error flag set or clear. -/
def packetOf (flag : Bool) (ident : Nat) : Packet :=
  bytes [0x47, (if flag then 128 else 0) + ident / 256, ident % 256, 0x10] ++ List.replicate 183 0
/-- Lane `n` of a state in LOCKED, one byte short of a packet. -/
def oneShort (s : State) (n : Nat) (p : Packet) : State := s.putFramer n { state := .locked, lockPhase := some 0, pkt := p }
/-- The binding of component 0 of copy 17/0. -/
def binding17 : Binding := { svc := 17, slot := 0, comp := 0, whole := true, unobs := false }
/-- Service 17 emitted from copy 17/0, which lane 0 of tuner 0 receives. -/
def emitting : State :=
  (servedByHost.putGate 17 (some 0)).putTracker 0 { entries := [{ ident := 0x201, bindings := [binding17] }] }
/-- What LockedLaneTakesBytes asks of every lane, as a test. -/
def isLocked (s : State) (n : Nat) (len : Nat) : Bool :=
  decide (n < 17) && isQuiet s && isCanonical s && decide ((s.framer n).state = .locked) &&
    decide ((s.framer n).pkt.length = len)
/-- The first and the last byte that joins; a null packet; a command packet with 7 waiting, and a flagged one; a flagged
packet; one that is tracked on a lane that offers nothing; one that is offered; one that is unknown. -/
theorem witness_LockedLaneTakesBytes :
    (isLocked (locked 3 [0x47]) 3 1 ∧ isLocked (locked 16 (List.replicate 186 0)) 16 186) ∧
    (let s := (oneShort State.reset 15 (nullPacket.take 187)).putQmLane 15 { window := some (0, 1000) }
     isLocked s 15 187 ∧ Packet.ident ((s.framer 15).pkt ++ [0xFF]) = nullId ∧ (s.qmLane 15).window ≠ none ∧
      (s.qmLane 15).p = 0 ∧ (s.qmLane 15).e = 0 ∧ s.lifetime 15 = {}) ∧
    (let s := (oneShort State.reset 16 (packetOf false 0x1FF2)).setInbound (List.replicate 7 badPool)
     isLocked s 16 187 ∧ Packet.ident ((s.framer 16).pkt ++ [0]) = s.settings.instId ∧ s.inbound.length = 7 ∧
      Packet.flagged ((s.framer 16).pkt ++ [0]) = false) ∧
    (let s := oneShort State.reset 16 (packetOf true 0x1FF0)
     isLocked s 16 187 ∧ Packet.ident ((s.framer 16).pkt ++ [0]) = s.settings.mgmtId ∧
      Packet.flagged ((s.framer 16).pkt ++ [0]) = true) ∧
    (let s := oneShort (emitting.putRank 17 {}) 0 (packetOf true 0x201)
     isLocked s 0 187 ∧ Packet.flagged ((s.framer 0).pkt ++ [0]) = true ∧ s.forwarding 0 ((s.framer 0).pkt ++ [0]) = []) ∧
    (let s := oneShort (emitting.putRole 0 .scan) 0 (packetOf false 0x201)
     isLocked s 0 187 ∧ Packet.flagged ((s.framer 0).pkt ++ [0]) = false ∧ s.offersPackets 0 = false ∧
      (∃ e ∈ (s.tracker 0).entries, e.ident = Packet.ident ((s.framer 0).pkt ++ [0]))) ∧
    (let s := oneShort emitting 0 (packetOf false 0x201)
     isLocked s 0 187 ∧ s.offersPackets 0 = true ∧ s.forwarding 0 ((s.framer 0).pkt ++ [0]) = [binding17] ∧
      (s.service 17).enabled = true ∧ s.cut 17 = none ∧ s.gate 17 = some 0) ∧
    (let s := oneShort emitting 0 (packetOf false 0x300)
     isLocked s 0 187 ∧ Packet.ident ((s.framer 0).pkt ++ [0]) ≠ nullId ∧
      ∀ e ∈ (s.tracker 0).entries, e.ident ≠ Packet.ident ((s.framer 0).pkt ++ [0])) := by decide +kernel

/-- Table 24's miss at 2544 and a good byte there, and one below the loss count, with no candidate and with one at another phase;
a lane in LOCKED whose last packet holds a 0x47; a lane in HUNT; Table 23's candidate at 100, waiting, confirmed at 288 and at 664,
and rejected at either. -/
theorem witness_SyncBytesJudged :
    let f : Framer := { state := .flywheel, pos := 2544, lockPhase := some 100, miss := 2, search := { next := 2544 } }
    let p : List Byte := 0x47 :: List.replicate 187 1
    let l : Framer := { state := .locked, pos := 664, lockPhase := some 100, last := p.set 50 0x47 }
    let g (next k : Nat) (buf : List Byte) : Framer :=
      { state := .verify, pos := next, search := { next := next, cand := some (100, k), buf := buf } }
    (some (f.pos % 188) = f.lockPhase ∧ ({} : Settings).lossCount = f.miss + 1 ∧
        ({ f with miss := 1 } : Framer).miss + 1 < ({} : Settings).lossCount ∧ f.search.next = f.pos ∧ f.search.cand = none ∧
        some (2000 % 188) ≠ f.lockPhase) ∧
      (l.pkt = [] ∧ l.last.length = 188 ∧ 187 ≤ l.pos ∧
        (searchOver l.lockPhase (l.pos - 187) (l.last.drop 1 ++ [1])).cand = some (526, 1)) ∧
      ({ state := .hunt } : Framer).search.cand = none ∧
      ((g 200 1 p).search.next ≠ 100 + 188 * 1 ∧ (g 288 1 p).search.next = 100 + 188 * 1 ∧
        1 + 1 < ({} : Settings).lockCount ∧ (g 288 1 p).search.buf.length = 188 * 1) ∧
      ((g 664 3 (p ++ p.drop 1 ++ p.drop 1 ++ [1, 1])).search.next = 100 + 188 * 3 ∧ ({} : Settings).lockCount = 3 + 1 ∧
        (g 664 3 (p ++ p.drop 1 ++ p.drop 1 ++ [1, 1])).search.buf.length = 188 * 3 ∧
        ∀ x ∈ (g 664 3 (p ++ p.drop 1 ++ p.drop 1 ++ [1, 1])).search.buf.drop 1, x ≠ 0x47) := by decide +kernel

/-- A first lock of a tuner that acquires, and a loss on a hosting tuner's lane. -/
theorem witness_LockAndLossReachBlocks :
    (let s := (hosting.putTuner 0 { state := .acquiring, mux := some 12, work := some .host }).putFramer 0
        { state := .verify, pos := 664, search := { next := 664, cand := some (100, 3) } }
     s.Quiet ∧ s.Canonical ∧ s.ranks = [] ∧ (s.tuner 0).mux = some 12 ∧ (s.tuner 0).work = some .host ∧
      (s.framer 0).state = .verify ∧ (s.framer 0).search.cand = some (100, 3) ∧ (s.framer 0).search.next = 100 + 188 * 3 ∧
      s.settings.lockCount = 3 + 1 ∧ (s.framer 0).prevPhase = none ∧ (s.tuner 0).state = .acquiring ∧ s.role 0 = .live ∧
      s.hostQueue = [] ∧ s.sched.urgent = [] ∧ s.NoPicks) ∧
    let s := (hosting.putFramer 0 { state := .flywheel, pos := 2544, lockPhase := some 100, miss := 2 }).putQmLane 0
      { window := some (0, 1000), lockSince := some 0 }
    s.Quiet ∧ s.Canonical ∧ s.ranks = [] ∧ (s.tuner 0).mux = some 12 ∧ (s.tuner 0).work = some .host ∧
      (s.framer 0).state = .flywheel ∧ some ((s.framer 0).pos % 188) = (s.framer 0).lockPhase ∧
      s.settings.lossCount ≤ (s.framer 0).miss + 1 ∧ (s.tuner 0).state = .observing ∧ s.cuts = [] ∧
      (s.qmLane 0).window ≠ none := by
  refine ⟨⟨quiet_of (by decide +kernel), canonical_of (by decide +kernel), ?_⟩, quiet_of (by decide +kernel),
    canonical_of (by decide +kernel), by decide +kernel⟩
  unfold State.NoPicks
  decide +kernel

/-- A census with an entry, one that is full, a list with more entries than a close set holds; a record that names the same
identifiers, and one that does not. -/
theorem witness_CensusRecordsAndCloses :
    let k : Tracker := { census := [(0x400, 7)] }
    let full : Tracker := { census := (List.range 32).map (fun i => (i, 5)) }
    (k.census.map (·.1)).Nodup ∧ (0x400, 7) ∈ k.census ∧ (0x401 ∉ k.census.map (·.1) ∧ k.census.length < 32) ∧
      ((full.census.map (·.1)).Nodup ∧ 0x401 ∉ full.census.map (·.1) ∧ 32 ≤ full.census.length) ∧
      ((31, 5) ∈ full.census ∧ 3 ≤ (31, 5).2 ∧ (31, 5) ∉ closeSet 3 full.census) ∧
      (State.reset.putCensusRec 12 (some { pairs := [(0x400, 9)], overflow := 0 })).Canonical ∧
      (State.reset.putCensusRec 12 (some { pairs := [(0x400, 9)], overflow := 0 })).censusRec 12 =
        some { pairs := [(0x400, 9)], overflow := 0 } ∧
      closeSet 3 k.census = [(0x400, 7)] ∧ closeSet 3 [] = [] :=
  ⟨by decide, by decide, by decide, by decide, by decide, canonical_of (by decide +kernel), by decide +kernel, by decide,
    by decide⟩

/-- Lane 16's window with its census period not yet passed, and passing; a third degraded window before, and a fourth. -/
theorem witness_WindowExpiryOnLane16 :
    (State.reset.Quiet ∧ State.reset.Canonical ∧ (State.reset.qmLane 16).window = some (0, 1000) ∧
      (State.reset.qmLane 16).pending = none ∧ State.reset.copiesOn localMux = [] ∧
      (State.reset.tracker 16).windows + 1 < State.reset.settings.censusPeriod) ∧
    (let s := (State.reset.putTracker 16 { windows := 29 }).putQmLane 16
        { window := some (0, 1000), degCount := 3, degraded := true }
     s.Quiet ∧ s.Canonical ∧ (s.qmLane 16).window = some (0, 1000) ∧ (s.qmLane 16).pending = none ∧
      s.copiesOn localMux = [] ∧ s.settings.censusPeriod ≤ (s.tracker 16).windows + 1 ∧
      degradedWindow s.settings.excess (s.qmLane 16).e (s.qmLane 16).y ((s.reach 1000).formReport 16).l = true) ∧
    let s := State.reset.putQmLane 16 { window := some (0, 1000), degCount := 4, degraded := true, lockSince := some 0 }
    s.Quiet ∧ s.Canonical ∧ degradedWindow s.settings.excess (s.qmLane 16).e (s.qmLane 16).y
      ((s.reach 1000).formReport 16).l = false :=
  ⟨⟨quiet_of (by decide +kernel), canonical_of (by decide +kernel), by decide +kernel⟩,
    ⟨quiet_of (by decide +kernel), canonical_of (by decide +kernel), by decide +kernel⟩,
    quiet_of (by decide +kernel), canonical_of (by decide +kernel), by decide +kernel⟩

/-- A report of lane 0 without lines. -/
def plainReport : Report := { (hosting.putQmLane 0 { window := some (0, 1000) }).formReport 0 with lines := [] }
/-- Tuner 4's lane with no report pending, its bus IDLE and busy; tuner 0's lane with an older report pending. -/
theorem witness_WindowExpiryFilesReport :
    (let s := recipes.putQmLane 4 { window := some (0, 1000), p := 5 }
     s.Quiet ∧ s.Canonical ∧ (s.qmLane 4).window = some (0, 1000) ∧ s.QuietBuses ∧ (s.qmLane 4).pending = none ∧
      (s.qmLane 4).outstanding = false ∧ (∀ k, k < 4 → (s.bus k).runs 4 .measure = false) ∧
      s.busReady (s.tunerRec 4).bus ∧ s.enterable (s.newRun 4 .measure 0) (s.tunerRec 4).measure) ∧
    (let s := (recipes.putQmLane 4 { window := some (0, 1000) }).putBus 1 { state := .recovering }
     s.Quiet ∧ s.Canonical ∧ s.QuietBuses ∧ (∀ k, k < 4 → (s.bus k).runs 4 .measure = false) ∧
      (s.bus (s.tunerRec 4).bus).state ≠ .idle) ∧
    let s := hosting.putQmLane 0 { window := some (0, 1000), p := 5, pending := some plainReport, outstanding := true }
    s.Quiet ∧ s.Canonical ∧ (s.qmLane 0).window = some (0, 1000) ∧ s.QuietBuses ∧ (s.qmLane 0).pending = some plainReport ∧
      plainReport.lines = [] ∧ s.role plainReport.lane ≠ .scan ∧ (s.qmLane 0).outstanding = true :=
  ⟨⟨quiet_of (by decide +kernel), canonical_of (by decide +kernel), by decide +kernel,
      by unfold State.QuietBuses; decide +kernel, by decide +kernel, by decide +kernel, by decide +kernel,
      by unfold State.busReady; decide +kernel, by unfold State.enterable; decide +kernel⟩,
    ⟨quiet_of (by decide +kernel), canonical_of (by decide +kernel), by unfold State.QuietBuses; decide +kernel,
      by decide +kernel, by decide +kernel⟩,
    quiet_of (by decide +kernel), canonical_of (by decide +kernel), by decide +kernel,
    by unfold State.QuietBuses; decide +kernel, by decide +kernel⟩

/-- Service 17 on one local copy that is fresh and barred until second 1. -/
def localBarred : State :=
  (enabled.putCopy 68 { copy68 with mux := localMux }).putLive 68 { q := some 581, observedAt := some 0, barredUntil := some 1 }
/-- A copy whose bar ends, of a disabled service; no copy that changes; a local copy of an enabled service whose bar ends. -/
theorem witness_RankClockSecondPasses :
    (let s := (loaded.putLive 68 { q := some 581, observedAt := some 0, barredUntil := some 1 })
     s.Quiet ∧ s.Canonical ∧ ∀ v, (s.service v).enabled = false) ∧
    (served.Quiet ∧ served.Canonical ∧ ∀ i, (served.live i).barredUntil = none ∧ (served.live i).q = none) ∧
    (localBarred.Quiet ∧ localBarred.Canonical ∧ (∀ w, (localBarred.service w).enabled = true ↔ w = 17) ∧
      localBarred.definedSlots 17 = [0] ∧ localBarred.copyMux 17 0 = localMux ∧
      localBarred.liveOf 17 0 = { localBarred.liveOf 17 0 with
        q := some 581, observedAt := some 0, barredUntil := some 1 } ∧ localBarred.rank 17 = {}) := by
  refine ⟨⟨quiet_of (by decide +kernel), canonical_of (by decide +kernel), fun _ => rfl⟩,
    ⟨quiet_of (by decide +kernel), canonical_of (by decide +kernel), fun _ => ⟨rfl, rfl⟩⟩,
    quiet_of (by decide +kernel), canonical_of (by decide +kernel), ?_, by decide +kernel⟩
  intro w
  have h : localBarred.service w = if 17 = w then svc17 else {} := rfl
  rw [h]
  split
  · rename_i e; subst e; decide
  · rename_i e; exact ⟨fun h => (Bool.false_ne_true h).elim, fun h => absurd h.symm e⟩

/-! ### Tuners and buses -/

theorem witness_AcquireTimerFailsHostTune :
    let s := (hosting.putTuner 0 { state := .acquiring, mux := some 12, work := some .host,
                                   acquire := some { start := 0, limit := 1500 } })
    s.Quiet ∧ s.Canonical ∧ s.role 0 = .live ∧ (s.tuner 0).state = .acquiring ∧
      (s.tuner 0).acquire = some { start := 0, limit := 1500 } ∧ (s.tuner 0).work = some .host ∧ (s.tuner 0).mux = some 12 ∧
      (s.tuner 0).committed = none ∧ s.qmLane 0 = {} ∧ s.hostQueue = [] ∧ s.ranks = [] :=
  ⟨quiet_of (by decide +kernel), canonical_of (by decide +kernel), by decide +kernel⟩

/-- Bus 0 has made a transfer before. -/
theorem witness_RelockTimerRetunes :
    let s := (hosting.putTuner 0 { state := .observing, mux := some 12, work := some .host,
                                   relock := some { start := 0, limit := 5000 } }).putBus 0
      { lastTransfer := some { addr := 0x60, read := false, bytes := [1] } }
    s.Quiet ∧ s.Canonical ∧ (s.tuner 0).state = .observing ∧ (s.tuner 0).work = some .host ∧ (s.tuner 0).mux = some 12 ∧
      (s.tuner 0).relock = some { start := 0, limit := 5000 } ∧ (s.qmLane 0).pending = none ∧
      (s.qmLane 0).outstanding = false ∧ (s.tunerRec 0).bus < 4 ∧ s.QuietBuses ∧
      (∀ k, k < 4 → (s.bus k).runs 0 .tune = false) ∧ s.busReady (s.tunerRec 0).bus ∧
      s.enterable (s.newRun 0 .tune 12) (s.mux 12).head :=
  ⟨quiet_of (by decide +kernel), canonical_of (by decide +kernel), by decide +kernel, by decide +kernel, by decide +kernel,
    by decide +kernel, by decide +kernel, by decide +kernel, by decide +kernel, by unfold State.QuietBuses; decide +kernel,
    by decide +kernel, by unfold State.busReady; decide +kernel, by unfold State.enterable; decide +kernel⟩

/-- Tuner 4's run at a step of Table 40 on bus 1. -/
def stepping (p : Purpose) (i : Nat) (st : Step) (ph : StepPhase) : State := recipes.onBus (run4 p i st ph)
/-- The current step of such a run. -/
def current4 (i : Nat) (st : Step) (ph : StepPhase) : Current :=
  { index := i, step := st, phase := ph, since := 0, readSince := 0, interval := 10, timedOut := false }

/-- A WRITE, a POLL and a WAIT step that have a next step. -/
theorem witness_StepsMoveOn :
    ((stepping .tune 20 step20 .transfer).Quiet ∧
      (stepping .tune 20 step20 .transfer).executing 1 .write .transfer =
        some (run4 .tune 20 step20 .transfer, current4 20 step20 .transfer) ∧
      (stepping .tune 20 step20 .transfer).enterable (run4 .tune 20 step20 .transfer) 21 ∧
      (current4 20 step20 .transfer).bytes.length + 6 ≤ step20.count) ∧
    ((stepping .tune 22 { step22 with next := some 20 } .transfer).Quiet ∧
      (stepping .tune 22 { step22 with next := some 20 } .transfer).executing 1 .poll .transfer =
        some (run4 .tune 22 { step22 with next := some 20 } .transfer, current4 22 { step22 with next := some 20 } .transfer) ∧
      (stepping .tune 22 { step22 with next := some 20 } .transfer).enterable
        (run4 .tune 22 { step22 with next := some 20 } .transfer) 20 ∧ (0x05 : Byte) &&& step22.mask = step22.want) ∧
    ((stepping .tune 21 step21 .pause).Quiet ∧
      (stepping .tune 21 step21 .pause).executing 1 .wait .pause =
        some (run4 .tune 21 step21 .pause, current4 21 step21 .pause) ∧
      (stepping .tune 21 step21 .pause).enterable (run4 .tune 21 step21 .pause) 22) :=
  ⟨⟨quiet_of (by decide +kernel), by decide +kernel, by unfold State.enterable; decide +kernel, by decide⟩,
    ⟨quiet_of (by decide +kernel), by decide +kernel, by unfold State.enterable; decide +kernel, by decide⟩,
    quiet_of (by decide +kernel), by decide +kernel, by unfold State.enterable; decide +kernel⟩

/-- Step 61 leading on to step 60. -/
theorem witness_ReadStepStoresBytes :
    let st := { step61 with next := some 60 }
    let s := stepping .measure 61 st .transfer
    s.Quiet ∧ s.Canonical ∧
      s.executing 1 .read .transfer = some (run4 .measure 61 st .transfer, current4 61 st .transfer) ∧
      ([142] : List Byte).length = st.count ∧ s.enterable (run4 .measure 61 st .transfer) 60 :=
  ⟨quiet_of (by decide +kernel), canonical_of (by decide +kernel), by decide +kernel, rfl,
    by unfold State.enterable; decide +kernel⟩

/-- A read that does not satisfy; one whose time has run out; a pause with time left, and one without. -/
theorem witness_PollPausesAndRepeats :
    ((stepping .tune 22 step22 .transfer).Quiet ∧ (stepping .tune 22 step22 .transfer).executing 1 .poll .transfer =
      some (run4 .tune 22 step22 .transfer, current4 22 step22 .transfer) ∧ (0x00 : Byte) &&& step22.mask ≠ step22.want) ∧
    (let r := { run4 .tune 22 step22 .transfer with
        current := some { current4 22 step22 .transfer with timedOut := true } }
     (recipes.onBus r).Quiet ∧ (recipes.onBus r).executing 1 .poll .transfer =
      some (r, { current4 22 step22 .transfer with timedOut := true })) ∧
    ((stepping .tune 22 step22 .pause).Quiet ∧ (stepping .tune 22 step22 .pause).executing 1 .poll .pause =
      some (run4 .tune 22 step22 .pause, current4 22 step22 .pause) ∧
      max (stepping .tune 22 step22 .pause).now (0 + 10) < 0 + step22.time) ∧
    (((stepping .tune 22 step22 .pause).setNow 300).Quiet ∧
      ((stepping .tune 22 step22 .pause).setNow 300).executing 1 .poll .pause =
        some (run4 .tune 22 step22 .pause, current4 22 step22 .pause) ∧
      0 + step22.time ≤ max ((stepping .tune 22 step22 .pause).setNow 300).now (0 + 10)) :=
  ⟨⟨quiet_of (by decide +kernel), by decide +kernel, by decide⟩, ⟨quiet_of (by decide +kernel), by decide +kernel⟩,
    ⟨quiet_of (by decide +kernel), by decide +kernel, by decide +kernel⟩,
    quiet_of (by decide +kernel), by decide +kernel, by decide +kernel⟩

/-- A POLL step whose read fails to satisfy it after its time has run out ends the run. -/
theorem test_pollRead_timedOut :
    after (.pollRead 1 (some 0x00)) ((recipes.onBus { run4 .tune 22 step22 .transfer with
        current := some { current4 22 step22 .transfer with timedOut := true } }).putTuner 4
        { state := .tuning, mux := some 12, work := some .host }) (fun t =>
      t.latched .tuner 4 .tuneFailed && decide ((t.bus 1).run = none)) = true := by decide +kernel

/-- A MEASURE run that the Quality Monitor only waits for. -/
def awaited (i : Nat) (st : Step) (ph : StepPhase) : State := (stepping .measure i st ph).putQmLane 4 { awaited := true }
/-- A WRITE step; a POLL step between two reads; a WAIT step that leads to no step. -/
theorem witness_FailedStepsEndTheRun :
    ((awaited 60 step60 .transfer).Quiet ∧ (awaited 60 step60 .transfer).Canonical ∧
      ((awaited 60 step60 .transfer).qmLane 4).awaited = true ∧ (awaited 60 step60 .transfer).QuietBuses ∧
      (awaited 60 step60 .transfer).executing 1 .write .transfer =
        some (run4 .measure 60 step60 .transfer, current4 60 step60 .transfer)) ∧
    ((awaited 22 step22 .pause).Quiet ∧ (awaited 22 step22 .pause).Canonical ∧
      (awaited 22 step22 .pause).executing 1 .poll .pause =
        some (run4 .measure 22 step22 .pause, current4 22 step22 .pause)) ∧
    ((awaited 21 { step21 with next := some 23 } .pause).Quiet ∧
      (awaited 21 { step21 with next := some 23 } .pause).executing 1 .wait .pause =
        some (run4 .measure 21 { step21 with next := some 23 } .pause, current4 21 { step21 with next := some 23 } .pause) ∧
      ((awaited 21 { step21 with next := some 23 } .pause).step 23).kind = .none) :=
  ⟨⟨quiet_of (by decide +kernel), canonical_of (by decide +kernel), by decide +kernel,
      by unfold State.QuietBuses; decide +kernel, by decide +kernel⟩,
    ⟨quiet_of (by decide +kernel), canonical_of (by decide +kernel), by decide +kernel⟩,
    quiet_of (by decide +kernel), by decide +kernel, by decide +kernel⟩

/-- Step 20 as the last step of its run. -/
def lastWrite : Step := { step20 with next := none }
/-- What RunOutcomesReachRequesters asks of every run: tuner 4's run at a last step on bus 1, nothing else waiting. -/
def AtLastStep (s : State) (k : StepKind) (p : Purpose) (i : Nat) (st : Step) : Prop :=
  s.Quiet ∧ s.Canonical ∧ s.QuietBuses ∧ (run4 p i st .transfer).withdrawn = false ∧
    s.executing 1 k .transfer = some (run4 p i st .transfer, current4 i st .transfer) ∧
    (current4 i st .transfer).bytes = [] ∧ st.next = none
/-- The same, as a test. -/
def isLastStep (s : State) (k : StepKind) (p : Purpose) (i : Nat) (st : Step) : Bool :=
  isQuiet s && isCanonical s && (List.range 4).all (fun k => decide ((s.bus k).queue = [] ∧ (s.bus k).deferred = [])) &&
    decide (s.executing 1 k .transfer = some (run4 p i st .transfer, current4 i st .transfer)) && decide (st.next = none)
theorem lastStep_of {s : State} {k : StepKind} {p : Purpose} {i : Nat} {st : Step} (h : isLastStep s k p i st = true) :
    AtLastStep s k p i st := by
  simp only [isLastStep, Bool.and_eq_true, decide_eq_true_eq, List.all_eq_true, List.mem_range] at h
  obtain ⟨⟨⟨⟨h1, h2⟩, h3⟩, h4⟩, h5⟩ := h
  exact ⟨quiet_of h1, canonical_of h2, h3, rfl, h4, rfl, h5⟩

/-- TUNE of a tuner that tunes for a host request; MEASURE with a report pending, at a READ and at a WRITE step; RELEASE of an
OFF and of a LIVE tuner. -/
theorem witness_RunOutcomesReachRequesters :
    (let s := (stepping .tune 20 lastWrite .transfer).putTuner 4 { state := .tuning, mux := some 12, work := some .host }
     AtLastStep s .write .tune 20 lastWrite ∧ (s.tuner 4).state = .tuning ∧ (s.tuner 4).work = some .host ∧
      s.role 4 = .live ∧ (s.tuner 4).committed = none ∧ s.qmLane 4 = {} ∧ s.hostQueue = [] ∧ s.ranks = []) ∧
    (let s := (stepping .measure 61 step61 .transfer).putQmLane 4 { pending := some plainReport, outstanding := true }
     AtLastStep s .read .measure 61 step61 ∧ (s.qmLane 4).awaited = false ∧ (s.qmLane 4).pending = some plainReport ∧
      plainReport.lines = [] ∧ s.role plainReport.lane ≠ .scan ∧ step61.count = 1 ∧ step61.capture = .margin) ∧
    (let s := (stepping .measure 20 lastWrite .transfer).putQmLane 4 { pending := some plainReport, outstanding := true }
     AtLastStep s .write .measure 20 lastWrite ∧ (s.qmLane 4).awaited = false ∧ (s.qmLane 4).pending = some plainReport ∧
      s.role plainReport.lane ≠ .scan) ∧
    ∀ r, r = Role.off ∨ r = Role.live →
      let s := ((stepping .release 20 lastWrite .transfer).putTuner 4 { state := .releasing, windRelease := true }).putRole 4 r
      AtLastStep s .write .release 20 lastWrite ∧ (s.tuner 4).state = .releasing ∧ (s.tuner 4).windRelease = true ∧
        (s.tuner 4).windTune = false ∧ (s.tuner 4).committed = none ∧ s.role 4 = r ∧ s.hostQueue = [] := by
  refine ⟨⟨lastStep_of (by decide +kernel), by decide +kernel⟩, ⟨lastStep_of (by decide +kernel), by decide +kernel⟩,
    ⟨lastStep_of (by decide +kernel), by decide +kernel⟩, ?_⟩
  rintro r (rfl | rfl) <;> exact ⟨lastStep_of (by decide +kernel), by decide +kernel⟩

/-- A bus that finishes a recovery; Table 42: a queue with a RELEASE run ahead of a MEASURE run. -/
theorem witness_BusesRecoverAndQueue :
    (let s := State.reset.putBus 3 { state := .recovering, finishing := true }
     s.Quiet ∧ s.Canonical ∧ (s.bus 3).state = .recovering ∧ s.QuietBuses) ∧
    (∀ x ∈ [run4 .release 20 step20 .transfer], x.purpose ≠ .measure) ∧
      (∀ x ∈ [run4 .measure 60 step60 .transfer], x.purpose = .measure) ∧ (run4 .tune 20 step20 .transfer).purpose ≠ .measure ∧
      (run4 .measure 60 step60 .transfer).purpose = .measure :=
  ⟨⟨quiet_of (by decide +kernel), canonical_of (by decide +kernel), by decide +kernel,
      by unfold State.QuietBuses; decide +kernel⟩, by decide⟩

/-- Hosted; being tuned; queued; out of reach; reached with 16 and with 15 requests queued. -/
theorem witness_FilingAnswers :
    hosting.hosted 12 = true ∧
    (let s := hosting.putTuner 0 { state := .tuning, mux := some 12, work := some .host }
     s.hosted 12 = false ∧ s.hostTuning 12 = true) ∧
    (let s := recipes.setHostQueue [{ mux := 12 }]
     s.hosted 12 = false ∧ s.hostTuning 12 = false ∧ 12 ∈ s.hostQueue.map HostReq.mux) ∧
    (loaded.hosted 12 = false ∧ loaded.roleReaches .live 12 = false ∧ 12 ∉ loaded.hostQueue.map HostReq.mux) ∧
    ∀ n, n = 15 ∨ n = 16 →
      (recipes.setHostQueue ((List.range n).map (fun x => { mux := 50 + x }))).roleReaches .live 12 = true ∧
      12 ∉ (recipes.setHostQueue ((List.range n).map (fun x => { mux := 50 + x }))).hostQueue.map HostReq.mux ∧
      (recipes.setHostQueue ((List.range n).map (fun x => { mux := 50 + x }))).hostQueue.length = n := by
  refine ⟨by decide +kernel, by decide +kernel, by decide +kernel, by decide +kernel, ?_⟩
  intro n h
  rcases h with rfl | rfl <;> decide +kernel

/-- A request for multiplex 5 that tuner 10 visits, with tuner 3 LIVE and FREE. -/
def requested : State :=
  (((visiting.putTunerRec 3 { reach := 0x02 }).putRole 3 .live).putTuner 3 { state := .free }).setHostQueue [{ mux := 5 }]
/-- Tuner 0 hosts multiplex 12 idle, with and without a release recipe, and multiplex 40 on its feed is requested. -/
def idleHost (h : Option Nat) : State :=
  ((hosting.putTunerRec 0 { reach := 4, release := h }).putMux 40 { defined := true, feed := 2 }).setHostQueue [{ mux := 40 }]
/-- Out of reach; a swap; occupied; tuned by an idle-hosted tuner; waiting; a swap's and a tune's tuners. -/
theorem witness_RequestsServed :
    loaded.roleReaches .live 12 = false ∧
    (requested.roleReaches .live 5 = true ∧ requested.visitorOf 5 = some 10 ∧
      requested.serverAmong (fun _ => true) = some 3 ∧ requested.firstServed requested.hostQueue = some (5, .swap 10 3) ∧
      (10 : Nat) ≠ 3 ∧ requested.visit 10 ≠ none ∧ (requested.tuner 3).state = .free) ∧
    (let s := requested.putTuner 10 { state := .tuning, mux := some 5, work := some .visit }
     s.roleReaches .live 5 = true ∧ s.visitorOf 5 = none ∧ s.occupied 5 = true ∧ s.firstServed s.hostQueue = none) ∧
    (∀ h, h = none ∨ h = some 20 → (idleHost h).roleReaches .live 40 = true ∧ (idleHost h).visitorOf 40 = none ∧
      (idleHost h).occupied 40 = false ∧
      (idleHost h).serverAmong (fun t => (idleHost h).reaches t ((idleHost h).mux 40).feed) = some 0 ∧
      (idleHost h).idleHosted 0 = true ∧ ((idleHost h).tuner 0).state = .observing ∧
      ((idleHost h).tunerRec 0).release = h ∧ (idleHost h).queuedHost 40 = true) ∧
    (let s := (idleHost none).putTuner 0 { state := .releasing }
     s.roleReaches .live 40 = true ∧ s.occupied 40 = false ∧
      s.serverAmong (fun t => s.reaches t (s.mux 40).feed) = none) ∧
    requested.Canonical ∧ (idleHost none).Canonical ∧ (idleHost (some 20)).Canonical := by
  refine ⟨by decide +kernel, by decide +kernel, by decide +kernel, ?_, by decide +kernel, canonical_of (by decide +kernel),
    canonical_of (by decide +kernel), canonical_of (by decide +kernel)⟩
  rintro h (rfl | rfl) <;> decide +kernel

/-! ### Scanning, scores, ranking, outputs -/

/-- Ring A of Table 54 from pointer 19: the search wraps to 5. An urgent pick; a ring A pick; with the A share used up, a ring
B pick and, without one, ring A's. -/
theorem witness_PicksChooseAndAdvance :
    ringed.Canonical ∧ ringed.ringPick .a 19 (fun _ => true) = some 5 ∧
      ringed.ringPick .a 127 (fun x => decide (x ≠ 5)) = none ∧
    (ringed.setUrgent [5]).sched.urgent.find? (ringed.eligible 10) = some 5 ∧
    (ringed.sched.urgent.find? (ringed.eligible 10) = none ∧ ringed.sched.aRun < ringed.settings.aShare ∧
      ringed.ringPick .a ringed.sched.ptrA (ringed.eligible 10) = some 5) ∧
    (let s := (ringed.putMux 6 { defined := true, feed := 1, ring := .b }).setSched { aRun := 3 }
     s.settings.aShare ≤ s.sched.aRun ∧ s.ringPick .b s.sched.ptrB (s.eligible 10) = some 6) ∧
    (let s := ringed.setSched { aRun := 3 }
     s.settings.aShare ≤ s.sched.aRun ∧ s.ringPick .b s.sched.ptrB (s.eligible 10) = none ∧
      s.ringPick .a s.sched.ptrA (s.eligible 10) = some 5) :=
  ⟨canonical_of (by decide +kernel), by decide +kernel⟩

/-- A report of tuner 10's visit. -/
def visitReport : Report := { plainReport with lane := 10, mux := 5 }
/-- A visit with 1 and with 2 reports to come, and a report of another multiplex; a service whose sweep waits for multiplex 5
alone; a window's expiry with the last report pending. -/
theorem witness_VisitsCountAndEnd :
    visiting.Canonical ∧
    (visiting.visit visitReport.lane = some { mux := 5, source := .ringA, phase := .observing, dwell := 1 } ∧
      visitReport.mux = 5 ∧ plainReport.mux ≠ 5 ∧ (visiting.tuner 10).state = .observing ∧ visiting.role 10 = .scan) ∧
    (visiting.putVisit 10 (some { mux := 5, source := .ringA, phase := .observing, dwell := 2 })).Canonical ∧
    ((served.putRank 17 { sweep := [5] }).Canonical ∧ 5 ∈ ((served.putRank 17 { sweep := [5] }).rank 17).sweep ∧
      ∀ y ∈ ((served.putRank 17 { sweep := [5] }).rank 17).sweep, y = 5) ∧
    let s := visiting.putQmLane 10 { window := some (0, 1000), pending := some visitReport, outstanding := true }
    s.Canonical ∧ s.Quiet ∧ (s.qmLane 10).window = some (0, 1000) ∧ (s.qmLane 10).pending = some visitReport ∧
      visitReport.lane = 10 ∧ s.role 10 = .scan ∧ (s.tuner 10).state = .observing ∧
      s.visit 10 = some { mux := 5, source := .ringA, phase := .observing, dwell := 1 } ∧ visitReport.mux = 5 :=
  ⟨canonical_of (by decide +kernel), by decide +kernel, canonical_of (by decide +kernel),
    ⟨canonical_of (by decide +kernel), by decide +kernel, by decide +kernel⟩, canonical_of (by decide +kernel),
    quiet_of (by decide +kernel), by decide +kernel⟩

/-- Table 30: packet 4 breaks on a repeated count; an entry with no last count. -/
theorem witness_ContinuityJudged :
    let e : TrackEntry := { ident := 0x202, lastCc := some 8, repeated := true, pkts := 3 }
    let p : Packet := bytes [0x47, 0x02, 0x02, 0x18]
    e.pkts < 16777215 ∧ e.breaks < 65535 ∧ e.lastCc = some 8 ∧ Packet.payload p = true ∧ Packet.cc p = 8 ∧
      ({ ident := 0x202 } : TrackEntry).lastCc = none ∧ Packet.payload (bytes [0x47, 0x02, 0x02, 0x08]) = false := by decide

/-- Table 62: below, at and above the window score; the largest shift. -/
theorem witness_SmoothingMovesTowardScore :
    (998 : Nat) < 1000 ∧ smooth 2 (some 998) 1000 = 999 ∧ smooth 2 (some 1) 0 = 0 ∧ smooth 4 (some 500) 500 = 500 := by decide

/-- Table 60's line; no packets; a mismatch; a required component at 0. -/
theorem witness_WindowScoreStages :
    let i : ScoreInput := { m := 142, l := 1000, p := 58000, e := 12, s := 0, r := 0, mismatch := false, counts := [1],
                            breaks := 2, required := [true], g := 8 }
    (0 < i.p ∧ i.mismatch = false ∧ i.counts.getD 0 0 ≠ 0 ∧ i.l ≤ 1000) ∧ ScoreInput.p { i with p := 0 } = 0 ∧
      ScoreInput.mismatch { i with mismatch := true } = true ∧ ScoreInput.counts { i with counts := [0] } = [0] := by decide

theorem witness_RankListOrder : (served.service 17).enabled = true ∧ served.rankList 17 = [0] := by decide +kernel

/-- Service 17 with a second copy, on multiplex 40, and live fields of both. -/
def ranked (a b : Live) (k : Ranking) : State :=
  ((((servedByHost.putMux 40 { defined := true, feed := 2 }).putCopy 69 { copy68 with mux := 40 }).putLive 68 a).putLive 69
    b).putRank 17 k
/-- The same with the second copy on the insertion lane. -/
def rankedLocal (a b : Live) (k : Ranking) : State := (ranked a b k).putCopy 69 { copy68 with mux := localMux }
/-- Fresh with a score; fresh at 0 after three zero windows. -/
def good (q : Nat) : Live := { q := some q, observedAt := some 0 }
def zeroed : Live := { q := some 200, zeros := 3, observedAt := some 0 }
/-- What EvaluationDecides asks of every service it evaluates, as a test on service 17. -/
def isJudged (s : State) : Bool :=
  isCanonical s && (s.service 17).enabled && !(s.rank 17).cutting && decide ((s.rank 17).filing ≠ some .unfiled) &&
    match (s.rank 17).selected with
    | some sel => ((s.liveOf 17 sel).q).all (fun q => decide ((s.service 17).floor ≤ q))
    | none => true
/-- CUTTING; a pin on the other copy; a target that stands; a failover found, and none; no challenger; a challenger below and at
the debounce count; nothing selected with no choice, an available one, one that is queued, and one that finds the queue full. -/
theorem witness_EvaluationDecides :
    (cutting.rank 17).cutting = true ∧
    (let s := rankedLocal (good 500) (good 400) { selected := some 0, pin := some 1 }
     isJudged s ∧ s.barred 17 1 = false ∧ s.available (s.copyMux 17 1) = true) ∧
    (let s := ranked (good 500) (good 400) { selected := some 0, target := some 1 }
     isJudged s ∧ s.choosable 17 1 = true) ∧
    (let s := rankedLocal zeroed (good 400) { selected := some 0 }
     isJudged s ∧ (s.service 17).failCount ≤ (s.liveOf 17 0).zeros ∧
      (s.rankList 17).find? (fun y => !decide (y = 0) && s.choosable 17 y) = some 1 ∧
      s.available (s.copyMux 17 1) = true) ∧
    (let s := ranked zeroed {} { selected := some 0 }
     isJudged s ∧ (s.service 17).failCount ≤ (s.liveOf 17 0).zeros ∧ s.choosable 17 1 = false) ∧
    (let s := ranked (good 500) (good 400) { selected := some 0 }
     isJudged s ∧ (s.liveOf 17 0).zeros < (s.service 17).failCount ∧
      (s.rankList 17).find? (fun y => !s.barred 17 y) = some 0) ∧
    (∀ n, n = 1 ∨ n = 2 →
      let s := rankedLocal (good 500) (good 900) { selected := some 0, challenger := some 1, challenges := n }
      isJudged s ∧ (s.rankList 17).find? (fun y => !s.barred 17 y) = some 1 ∧ (s.liveOf 17 1).cls = .fresh ∧
        (s.liveOf 17 0).q.getD 0 + (s.service 17).hyst ≤ (s.liveOf 17 1).q.getD 0 ∧
        (s.service 17).floor ≤ (s.liveOf 17 1).q.getD 0 ∧ (Trigger.observed [1]).updated 1 0 = true ∧
        (s.service 17).debounce = 3 ∧ s.available (s.copyMux 17 1) = true) ∧
    (isJudged (ranked {} {} {}) ∧
      (let s := ranked (good 500) {} {}
       isJudged s ∧ (s.rankList 17).find? (s.choosable 17) = some 0 ∧ s.available (s.copyMux 17 0) = true) ∧
      (let s := ranked {} (good 500) {}
       isJudged s ∧ (s.rankList 17).find? (s.choosable 17) = some 1 ∧ s.available (s.copyMux 17 1) = false ∧
        s.fileAnswer (s.copyMux 17 1) = .queued) ∧
      let s := (ranked {} (good 500) {}).setHostQueue ((List.range 16).map (fun x => { mux := 50 + x }))
      isJudged s ∧ (s.rankList 17).find? (s.choosable 17) = some 1 ∧ s.fileAnswer (s.copyMux 17 1) = .full) := by
  refine ⟨by decide +kernel, by decide +kernel, by decide +kernel, by decide +kernel, by decide +kernel, by decide +kernel, ?_,
    by decide +kernel⟩
  rintro n (rfl | rfl) <;> decide +kernel

theorem rankOnly_of {s t : State} {v : Nat} {k : Ranking} (hk : { k with degraded := false } ≠ ({} : Ranking))
    (h : t = (s.putRank v { k with degraded := false }).putFloor v (s.service v).floor) : s.RankOnly t v k := by
  subst h
  exact ⟨Laws.tab_get_set_ne _ _ _ _ hk, fun u hu => Laws.tab_get_set_other _ _ _ _ _ hu, rfl⟩

/-- A service that holds its selected copy, pinned to it or to the other; one whose pin moves it to the local copy; one whose
pinned target waits for its host, between two other requests. -/
def pinned (p : Nat) : State := ranked (good 500) (good 400) { selected := some 0, pin := some p }
def unpinnedLocal : State := rankedLocal (good 500) (good 400) { selected := some 0 }
def pinTarget : State :=
  (ranked (good 500) {} { selected := some 0, pin := some 1, target := some 1, filing := some .filed }).setHostQueue
    [{ mux := 7 }, { mux := 40 }, { mux := 9 }]
def pin1Cmd : Cmd := command .property 9 0 17 (bytes [1])

/-- PIN and UNPIN while CUTTING. -/
theorem witness_PinAndUnpin :
    ((cutting.send pinCmd).Canonical ∧ ((cutting.send pinCmd).Ready pinCmd [] ∧ (cutting.send pinCmd).accepts pinCmd .pin) ∧
      ((cutting.send pinCmd).rank 17).cutting = true) ∧
    let s := (cutting.putRank 17 { cutting.rank 17 with pin := some 0 }).send unpinCmd
    (s.Canonical ∧ (s.Ready unpinCmd [] ∧ s.accepts unpinCmd .unpin) ∧ (s.rank 17).cutting = true ∧ (s.rank 17).pin ≠ none) :=
  ⟨⟨canonical_of (by decide +kernel), taken_of (by decide +kernel), by decide +kernel⟩,
    canonical_of (by decide +kernel), taken_of (by decide +kernel), by decide +kernel, by decide +kernel⟩

/-- PIN on the selected copy, and on the local one, to which it asks for the cut; UNPIN without a pin. -/
theorem witness_PinAndUnpin_pin :
    (let s := served.send pinCmd
     s.Canonical ∧ (s.Ready pinCmd [] ∧ s.accepts pinCmd .pin) ∧ (s.rank 17).cutting = false ∧
      (s.rank 17).selected = some (pinCmd.operand 0) ∧ (s.rank 17).target = none ∧ (s.rank 17).degraded = false ∧
      (s.liveOf 17 (pinCmd.operand 0)).q = none) ∧
    (let s := unpinnedLocal.send pin1Cmd
     let s1 := (s.setInbound []).putRank 17 { s.rank 17 with pin := some 1 }
     s.Canonical ∧ (s.Ready pin1Cmd [] ∧ s.accepts pin1Cmd .pin) ∧ (s.rank 17).cutting = false ∧
      s1.CutAsked (s1.evaluate 17 .other) 17 1 { s.rank 17 with pin := some 1 }) ∧
    (let s := served.send unpinCmd
     s.Canonical ∧ (s.Ready unpinCmd [] ∧ s.accepts unpinCmd .unpin) ∧ (s.rank 17).pin = none) := by
  refine ⟨⟨canonical_of (by decide +kernel), taken_of (by decide +kernel), by decide +kernel⟩,
    ⟨canonical_of (by decide +kernel), taken_of (by decide +kernel), by decide +kernel, ?_⟩,
    canonical_of (by decide +kernel), taken_of (by decide +kernel), by decide +kernel⟩
  have h : ∀ s1 : State, s1 = (((unpinnedLocal.send pin1Cmd).setInbound []).putRank 17
      { selected := some 0, pin := some 1 }) → s1.evaluate 17 .other =
      ((s1.putRank 17 { selected := some 0, pin := some 1, target := some 1, cutting := true }).putCut 17
        (some { old := some 0, new := 1, limit := 1500, start := 0, down := false })).putFloor 17 150 := by
    rintro s1 rfl; decide +kernel
  have e := h _ rfl
  refine ⟨by decide +kernel, by decide +kernel, fun u hu => ?_, by decide +kernel⟩
  exact e ▸ ⟨Laws.tab_get_set_other _ _ _ _ _ hu, Laws.tab_get_set_other _ _ _ _ _ hu⟩

/-- UNPIN of the selected copy, of another copy, and of a target whose host request it withdraws. -/
theorem witness_PinAndUnpin_unpin :
    (∀ p, p = 0 ∨ p = 1 →
      let s := (pinned p).send unpinCmd
      let s1 := (s.setInbound []).putRank 17 { s.rank 17 with pin := none }
      s.Canonical ∧ (s.Ready unpinCmd [] ∧ s.accepts unpinCmd .unpin) ∧ (s.rank 17).cutting = false ∧
        (s.rank 17).pin = some p ∧ (s.rank 17).target ≠ some p ∧ s1.RankOnly (s1.evaluate 17 .other) 17 (s1.rank 17)) ∧
    (let s := pinTarget.send unpinCmd
     let s1 := ((s.setInbound []).putRank 17 { s.rank 17 with pin := none, target := none, filing := none }).setHostQueue
      [{ mux := 7 }, { mux := 9 }]
     s.Canonical ∧ (s.Ready unpinCmd [] ∧ s.accepts unpinCmd .unpin) ∧ (s.rank 17).cutting = false ∧
      (s.rank 17).pin = some 1 ∧ (s.rank 17).target = some 1 ∧ s.copyMux 17 1 = 40 ∧ s.hosted 40 = false ∧
      (s.rank 17).selected = some 0 ∧ s.copyMux 17 0 = 12 ∧
      s.hostQueue.filter (fun r => !decide (r.mux = 40)) = s1.hostQueue ∧
      s1.RankOnly (s1.evaluate 17 .other) 17 (s1.rank 17)) := by
  refine ⟨?_, canonical_of (by decide +kernel), taken_of (by decide +kernel), by decide +kernel, by decide +kernel,
    by decide +kernel, by decide +kernel, by decide +kernel, by decide +kernel, by decide +kernel, by decide +kernel,
    rankOnly_of (by decide +kernel) (by decide +kernel)⟩
  rintro p (rfl | rfl) <;>
    exact ⟨canonical_of (by decide +kernel), taken_of (by decide +kernel), by decide +kernel, by decide +kernel,
      by decide +kernel, rankOnly_of (by decide +kernel) (by decide +kernel)⟩

/-- A service that awaits the multiplex tuner 0 hosts; one served from it; a cut to a hosted and to an unhosted copy; a service
that is not CUTTING; a loss alert that finds the local copy. -/
theorem witness_AnswersMoveServices :
    (let s := servedByHost.putRank 17 { target := some 0, filing := some .filed }
     s.Canonical ∧ s.awaits 12 17 = true ∧ s.awaits 40 17 = false ∧ (s.rank 17).target = some 0 ∧
      0 < s.settings.hostRetry) ∧
    (servedByHost.Canonical ∧ servedByHost.selectedOn 12 17 = true ∧ servedByHost.selectedOn 40 17 = false ∧
      (servedByHost.rank 17).cutting = false) ∧
    (let s := servedByHost.putRank 17 { target := some 0, cutting := true }
     s.Canonical ∧ (s.rank 17).cutting = true ∧ s.available (s.copyMux 17 0) = true ∧ s.available (s.copyMux 17 1) = false) ∧
    let s := (rankedLocal (good 500) (good 400) { selected := some 0 }).putService 17 { svc17 with fastFailover := true }
    s.Canonical ∧ s.alerted 0 17 = true ∧ s.alertCopy 17 = some 1 :=
  ⟨⟨canonical_of (by decide +kernel), by decide +kernel⟩, ⟨canonical_of (by decide +kernel), by decide +kernel⟩,
    ⟨canonical_of (by decide +kernel), by decide +kernel⟩, canonical_of (by decide +kernel), by decide +kernel⟩

/-- Table 70: disabled; a cut whose new copy this is, with and without a clean point, its old source down, forced; its old copy;
another copy; no cut. -/
theorem witness_OffersDecided :
    (loaded.service 17).enabled = false ∧ (cutting.service 17).enabled = true ∧ cutting.cut 17 = some cut17 ∧
      cleanCut (cutting.service 17) 0 (bytes [0x47, 0x43, 0x01, 0x10]) = true ∧
      cleanCut (cutting.service 17) 1 (bytes [0x47, 0x43, 0x01, 0x10]) = false ∧ cut17.down = false ∧ cut17.forced = false ∧
      (∀ c, c = { cut17 with down := true } ∨ c = { cut17 with forced := true } →
        isCanonical (cutting.putCut 17 (some c)) = true ∧ (cutting.putCut 17 (some c)).cut 17 = some c) ∧
      cut17.new ≠ 0 ∧ cut17.old = some 0 ∧ served.cut 17 = none ∧ (served.putGate 17 (some 0)).gate 17 = some 0 := by
  refine ⟨by decide +kernel, by decide +kernel, by decide +kernel, by decide +kernel, by decide +kernel, rfl, rfl, ?_,
    by decide +kernel⟩
  rintro c (rfl | rfl) <;> decide +kernel

/-- Output 1 with 255 and with 256 packets queued. -/
def filled (n : Nat) : State :=
  (enabled.putOutputRec 1 { enabled := true }).putOut 1 { queue := List.replicate n nullPacket, counters := [(0x110, 9)] }
theorem witness_AdmissionRewritesPacket : ∀ n, n = 255 ∨ n = 256 →
    ((filled n).service 17).output = 1 ∧ ((filled n).service 17).outIds.getD 0 0 = 0x110 ∧ nullPacket.length = 188 ∧
      ((filled n).outputRec 1).enabled = true ∧ (filled n).Canonical ∧
      (∀ i, Tab.get 0 ((filled n).out 1).counters i < 16) ∧
      ((filled n).out 1).queue.length = n := by
  intro n h
  have hc : ∀ i, Tab.get 0 [(0x110, 9)] i < 16 := by
    intro i
    simp only [Tab.get]
    split <;> decide
  have ho : ((filled n).out 1).counters = [(0x110, 9)] := by rcases h with rfl | rfl <;> decide +kernel
  refine ⟨?_, ?_, ?_, ?_, canonical_of ?_, fun i => ho ▸ hc i, ?_⟩ <;> rcases h with rfl | rfl <;> decide +kernel

/-- A busy output 0 with reserve count 30 and with 31, output 3 with an empty queue, a disabled one, and a full one. -/
theorem witness_OutputsEmitAndCount :
    ((busyOutput 30).Quiet ∧ ((busyOutput 30).outputRec 0).enabled = true ∧ (busyOutput 30).mgmt.list ≠ [] ∧
      ((busyOutput 30).out 0).queue ≠ [] ∧ ((busyOutput 30).out 0).reserve ≠ 31) ∧
    ((State.reset.putOutputRec 3 { enabled := true }).Quiet ∧
      ((State.reset.putOutputRec 3 { enabled := true }).outputRec 3).enabled = true) ∧
    ((busyOutput 31).Quiet ∧ ((busyOutput 31).outputRec 0).enabled = true ∧ (busyOutput 31).mgmt.list = [waitingReply] ∧
      (busyOutput 31).mgmt.queue = [] ∧ ((busyOutput 31).out 0).reserve = 31) ∧
    (State.reset.Quiet ∧ (State.reset.outputRec 2).enabled = false) ∧ (filled 256).Quiet :=
  ⟨⟨quiet_of (by decide +kernel), by decide +kernel⟩, ⟨quiet_of (by decide +kernel), by decide +kernel⟩,
    ⟨quiet_of (by decide +kernel), by decide +kernel⟩, ⟨quiet_of (by decide +kernel), by decide +kernel⟩,
    quiet_of (by decide +kernel)⟩

/-- The first expiry; the second of a service that has nothing selected and no copy it could choose, and of one whose old copy
is selected. -/
theorem witness_CutTimerExpiries :
    (cutting.Quiet ∧ cutting.cut 17 = some cut17 ∧ cut17.expiries = 0) ∧
    (let c : Cut := { cut17 with old := none, down := true, expiries := 1, forced := true }
     let s := ((enabled.putRank 17 { target := some 1, cutting := true }).putCut 17 (some c))
     s.Quiet ∧ s.Canonical ∧ s.cut 17 = some c ∧ (s.service 17).enabled = true ∧ (s.rank 17).cutting = true ∧
      (s.rank 17).selected = none ∧ (s.rank 17).pin = none ∧ s.hostQueue = [] ∧ ∀ slot, s.choosable 17 slot = false) ∧
    let c : Cut := { cut17 with expiries := 1, forced := true }
    let s := (cutting.putCut 17 (some c)).putLive 68 (good 500)
    s.Quiet ∧ s.Canonical ∧ s.cut 17 = some c ∧ (s.service 17).enabled = true ∧ (s.rank 17).cutting = true ∧
      (s.rank 17).pin = none ∧ s.hostQueue = [] ∧ (s.rank 17).selected = some 0 ∧
      (∀ slot, slot ≠ 0 → (s.liveOf 17 slot).cls ≠ .fresh) ∧ (s.liveOf 17 0).q = some 500 ∧
      (s.service 17).floor ≤ 500 ∧ (s.liveOf 17 0).zeros < (s.service 17).failCount := by
  refine ⟨⟨quiet_of (by decide +kernel), by decide +kernel, rfl⟩,
    ⟨quiet_of (by decide +kernel), canonical_of (by decide +kernel), by decide +kernel, by decide +kernel, by decide +kernel,
      by decide +kernel, by decide +kernel, by decide +kernel, fun _ => rfl⟩,
    quiet_of (by decide +kernel), canonical_of (by decide +kernel), by decide +kernel, by decide +kernel, by decide +kernel,
    by decide +kernel, by decide +kernel, by decide +kernel, ?_, by decide +kernel⟩
  intro slot hs h
  have hl : ((cutting.putCut 17 (some { cut17 with expiries := 1, forced := true })).putLive 68 (good 500)).liveOf 17 slot =
      if 68 = 4 * 17 + slot then good 500 else {} := rfl
  rw [hl, if_neg (by omega)] at h
  cases h

end Sys2Proof.Tests
end

section
/-! SUPPORT. The proofs of the obligations about the scope of the model (R1). -/

namespace Sys2Proof.Proofs
open Sys2Proof Sys2Proof.Machine

/-- The one range check that all rows with an operand share (R1 Table 4). -/
theorem runBelow_of_bound_le {bound i : Nat} (h : bound ≤ i) (f : State → State) (e : Fault) (s : State) :
    s.runBelow bound i f e = .fault e :=
  if_neg (Nat.not_lt.mpr h)

/-- Settles O9: the arm of `exec` for each row with an operand is a `runBelow` whose bound and fault are those of Table 4. -/
theorem outOfRangeOperandsFault : Obligations.OutOfRangeOperandsFault := by
  intro s
  refine ⟨fun n hn => ?lane, fun o ho => ?output, fun t ht => ?tuner, fun v hv => ?service, fun b hb => ?bus⟩
  case lane => exact ⟨fun _ => runBelow_of_bound_le hn .., runBelow_of_bound_le hn ..⟩
  case output => exact ⟨runBelow_of_bound_le ho .., runBelow_of_bound_le ho ..⟩
  case tuner => exact ⟨runBelow_of_bound_le ht .., runBelow_of_bound_le ht ..⟩
  case service => exact ⟨runBelow_of_bound_le hv .., runBelow_of_bound_le hv ..⟩
  case bus =>
    have stops (f : State → State) : s.runBelow 4 b f .noSuchBus = .fault .noSuchBus := runBelow_of_bound_le hb ..
    exact ⟨fun _ => stops _, fun _ => stops _, fun _ => stops _, stops _, stops _, stops _, fun _ => stops _, stops _,
      stops _⟩

end Sys2Proof.Proofs
end

section
/-! SUPPORT. What a row of the management channel does with the command packet at the head of the inbound queue: refused by
the first failing check, or accepted, with the hand-overs its effect causes (R4, R166). -/

namespace Sys2Proof.Proofs
open Sys2Proof Sys2Proof.Machine Sys2Proof.Laws

set_option Elab.async false

/-- The command that each row of the management channel carries out. -/
def commandOf : Instr → Cmd → State → State
  | .writeEntryService => State.writeService
  | .writeEntryCopy => State.writeCopy
  | .writeEntryMultiplex => State.writeMux
  | .writeEntryTuner => State.writeTuner
  | .writeEntryOutput => State.writeOutput
  | .writeEntrySettings => State.writeSettings
  | .writeEntryStep => State.writeStep
  | .writeEntryPool => State.writePool
  | .readEntry => State.readEntry
  | .readRank => State.readRank
  | .readLane => State.readLane
  | .readCensus => State.readCensus
  | .readIndications => State.readIndications
  | .setRole => State.commandRole
  | .urgent => State.commandUrgent
  | .pin => State.commandPin
  | .unpin => State.commandUnpin
  | .clearIndication => State.commandClear
  | .setEnables => State.commandEnables
  | .clearCounters => State.commandCounters
  | .setProtection => State.commandProtection
  | .softReset => State.commandReset
  | _ => fun _ s => s

theorem exec_row {i : Instr} {c : Cmd} (h : rowTakes i c = true) (s : State) :
    exec i s = s.run (State.takeHead (rowTakes i) (commandOf i)) := by
  cases i <;> first | rfl | cases h

theorem pinAnswer_some (s : State) (v slot : Nat) :
    decide (s.pinAnswer v (some slot) = .done) = ((s.service v).enabled && (s.copy (copyIndex v slot)).defined) := by
  cases he : (s.service v).enabled <;> cases hd : (s.copy (copyIndex v slot)).defined <;> simp [State.pinAnswer, he, hd]

theorem pinAnswer_none (s : State) (v : Nat) : decide (s.pinAnswer v none = .done) = (s.service v).enabled := by
  cases he : (s.service v).enabled <;> simp [State.pinAnswer, he]

theorem commandPin_eq (c : Cmd) (s : State) : s.commandPin c =
    s.checked c (s.checksOf c .pin) (fun s => (s.pinCopy c.index (c.operand 0)).answer c .done 0 (.bytes [])) := by
  unfold State.commandPin
  rw [pinAnswer_some]
  rfl

theorem commandUnpin_eq (c : Cmd) (s : State) : s.commandUnpin c =
    s.checked c (s.checksOf c .unpin) (fun s => (s.unpinCopy c.index).answer c .done 0 (.bytes [])) := by
  unfold State.commandUnpin
  rw [pinAnswer_none]
  rfl

/-- Every row makes its checks before it acts (R4, R166). -/
theorem commandOf_checked {i : Instr} {c : Cmd} (h : rowTakes i c = true) (s : State) :
    ∃ act, commandOf i c s = s.checked c (s.checksOf c i) act := by
  cases i
  case pin => exact ⟨_, commandPin_eq c s⟩
  case unpin => exact ⟨_, commandUnpin_eq c s⟩
  all_goals first
    | cases (show false = true from h)
    | (simp only [commandOf, State.writeService, State.writeCopy, State.writeMux, State.writeTuner, State.writeOutput,
        State.writeSettings, State.writeStep, State.writePool, State.readEntry, State.readRank, State.readLane,
        State.readCensus, State.readIndications, State.commandRole, State.commandUrgent, State.commandClear,
        State.commandEnables, State.commandCounters, State.commandProtection, State.commandReset, State.checksOf]
       exact ⟨_, rfl⟩)

/-- The checks of a command do not read the inbound queue. -/
theorem checksOf_setInbound (s : State) (rest : List Cmd) (c : Cmd) (i : Instr) :
    (s.setInbound rest).checksOf c i = s.checksOf c i := by
  cases i <;> rfl

theorem checked_of_some {s : State} {c : Cmd} {l : List Check} {k : Check} (h : firstFailing l = some k)
    (act : State → State) : s.checked c l act = s.answer c k.outcome k.detail (.bytes []) := by
  simp only [State.checked, h]

theorem checked_of_none {s : State} {c : Cmd} {l : List Check} (h : firstFailing l = none) (act : State → State) :
    s.checked c l act = act s := by
  simp only [State.checked, h]

section ready
variable {s : State} {c : Cmd} {rest : List Cmd}

/-- The state that a command of a quiet part acts on: its packet has left the inbound queue. -/
theorem act_takeHead (h : s.Ready c rest) {p : Cmd → Bool} (hp : p c = true) (f : Cmd → State → State) :
    s.act (State.takeHead p f) = (State.drain Config.handOverFuel (f c (s.setInbound rest))).setSettled [] := by
  unfold State.act
  rw [wake_quiet s h.quiet, takeHead_eq p f s c rest h.idle h.head hp]

/-- A command that hands nothing on does its effect and nothing else. -/
theorem run_takeHead_quiet (h : s.Ready c rest) {p : Cmd → Bool} (hp : p c = true) {f : Cmd → State → State} {t : State}
    (hf : f c (s.setInbound rest) = t) (hn : t.notices = []) (hs : t.settled = []) :
    s.run (State.takeHead p f) = .next t := by
  unfold State.run
  rw [act_takeHead h hp, hf, drain_nil _ _ hn, setSettled_eq _ hs]

theorem buildReply_setInbound (h : s.Ready c rest) (r : Reply) :
    (s.setInbound rest).buildReply s.settings.replyId r = (s.setInbound rest).withReply r :=
  if_pos h.room

theorem answer_setInbound (h : s.Ready c rest) (o d x) : (s.setInbound rest).answer c o d x =
    (s.setInbound rest).withReply { tag := c.tag, kind := c.kind, outcome := o, detail := d, data := x } :=
  answer_room _ _ _ _ _ h.room

/-- An accepted command does its effect, and the hand-overs that it causes are taken. -/
theorem exec_accepted (h : s.Ready c rest) {i : Instr} (ha : s.accepts c i) {act : State → State}
    (hc : commandOf i c (s.setInbound rest) = (s.setInbound rest).checked c (s.checksOf c i) act) :
    exec i s = .next ((State.drain Config.handOverFuel (act (s.setInbound rest))).setSettled []) := by
  obtain ⟨hrow, hpass⟩ := ha
  rw [exec_row hrow, State.run, act_takeHead h hrow, hc, checked_of_none hpass]

/-- An accepted command whose effect hands nothing on does that effect and nothing else. -/
theorem exec_accepted_quiet (h : s.Ready c rest) {i : Instr} (ha : s.accepts c i) {act : State → State} {t : State}
    (hc : commandOf i c (s.setInbound rest) = (s.setInbound rest).checked c (s.checksOf c i) act)
    (ht : act (s.setInbound rest) = t) (hn : t.notices = []) (hs : t.settled = []) : exec i s = .next t := by
  rw [exec_accepted h ha hc, ht, drain_nil _ _ hn, setSettled_eq _ hs]

end ready

/-- Settles O10: every row is a `checked` of its own checks, which do not read the inbound queue. -/
theorem refusedCommandOnlyReplies : Obligations.RefusedCommandOnlyReplies := by
  intro s i c rest k h hrow hk
  obtain ⟨act, hact⟩ := commandOf_checked hrow (s.setInbound rest)
  rw [checksOf_setInbound] at hact
  rw [exec_row hrow]
  refine run_takeHead_quiet h hrow ?_ h.quiet.1 h.quiet.2.1
  rw [hact, checked_of_some hk, answer_setInbound h]
  rfl

/-- Settles O26: both rows reply UNKNOWN without a check of their own. -/
theorem unknownCommandsRefused : Obligations.UnknownCommandsRefused := by
  intro s c rest h
  refine ⟨fun hk => ?kind, fun hk ht => ?table⟩
  case kind =>
    show s.run (State.takeHead isUnrecognised _) = _
    have hp : isUnrecognised c = true := by simpa [isUnrecognised] using hk
    exact run_takeHead_quiet h hp (buildReply_setInbound h _) h.quiet.1 h.quiet.2.1
  case table =>
    show s.run (State.takeHead isUnknownTable _) = _
    have hp : isUnknownTable c = true := by simpa [isUnknownTable, hk] using ht
    refine run_takeHead_quiet h hp ?_ h.quiet.1 h.quiet.2.1
    rw [answer_setInbound h, hk]

/-- The order of a rank list is that of the live fields, which do not hold the inbound queue. -/
theorem insertRanked_setInbound (s : State) (rest : List Cmd) (v : Nat) :
    (s.setInbound rest).insertRanked v = s.insertRanked v := by
  funext a l
  induction l with
  | nil => rfl
  | cons b l ih =>
    show (if s.ranksBefore v a b then _ else b :: (s.setInbound rest).insertRanked v a l) = _
    rw [ih]
    rfl

theorem rankData_setInbound (s : State) (rest : List Cmd) (v : Nat) : (s.setInbound rest).rankData v = s.rankData v := by
  have hlist : (s.setInbound rest).rankList v = s.rankList v := by
    unfold State.rankList
    rw [insertRanked_setInbound]
    rfl
  unfold State.rankData
  rw [hlist]
  rfl

/-- Settles O11: the effect of a reading command is its reply alone, and what it reads is not the inbound queue. -/
theorem readingCommandsReply : Obligations.ReadingCommandsReply := by
  intro s c rest h
  have settle (i : Instr) (d : State → ReplyData) (ha : s.accepts c i)
      (hc : commandOf i c (s.setInbound rest) = (s.setInbound rest).checked c (s.checksOf c i)
        (fun s => s.answer c .done 0 (d s))) :
      exec i s = .next ((s.setInbound rest).withReply (doneReply c (d (s.setInbound rest)))) :=
    exec_accepted_quiet h ha hc (answer_setInbound h _ _ _) h.quiet.1 h.quiet.2.1
  exact ⟨fun ha => settle .readEntry (fun s => .bytes (s.entryBytes c.table c.index)) ha rfl,
    fun ha => rankData_setInbound s rest c.index ▸ settle .readRank (fun s => .read (.rank (s.rankData c.index))) ha rfl,
    fun ha => settle .readLane (fun s => .read (s.lanePart c.index (c.operand 0))) ha rfl,
    fun ha => settle .readCensus (fun s => .read (.census (s.censusRec c.index))) ha rfl,
    fun ha => settle .readIndications
      (fun s => .read (.indications (s.indData (c.operand 0) (sourceRange (c.operand 0)) c.index))) ha rfl⟩

end Sys2Proof.Proofs
end

section
/-! SUPPORT. The proofs of the obligations about the writes that hand nothing on: TUNER, OUTPUT, STEP, SETTINGS, POOL
(R18 to R23, R74, R75). -/

namespace Sys2Proof.Proofs
open Sys2Proof Sys2Proof.Machine Sys2Proof.Laws

set_option Elab.async false

theorem storeOutput_of_stays {s : State} {o : Nat} {new : OutputRec}
    (h : (s.outputRec o).enabled = false ∨ new.enabled = true) : s.storeOutput o new = s.putOutputRec o new := by
  have hstay : ((s.outputRec o).enabled && !new.enabled) = false := by rcases h with h | h <;> simp [h]
  simp only [State.storeOutput, hstay, Bool.false_eq_true, if_false]

theorem storeOutput_of_disabled {s : State} {o : Nat} {new : OutputRec}
    (h : (s.outputRec o).enabled = true ∧ new.enabled = false) :
    s.storeOutput o new = (s.putOutputRec o new).disableOutput o := by
  simp only [State.storeOutput, h.1, h.2, Bool.not_false, Bool.and_self, if_true]

/-- Settles O12: each of these writes stores its entry and replies, and only the disabling of an output does more. -/
theorem plainWritesStore : Obligations.PlainWritesStore := by
  intro s c rest h
  have settle (i : Instr) (store : State → State) (clamped : Bool) (entry : List Byte) (ha : s.accepts c i)
      (hc : commandOf i c (s.setInbound rest) = (s.setInbound rest).checked c (s.checksOf c i)
        (fun u => (store u).answerStored c clamped entry)) {t : State} (ht : store (s.setInbound rest) = t)
      (hm : t.mgmt = s.mgmt) (hq : t.notices = s.notices ∧ t.settled = s.settled) :
      exec i s = .next (t.withReply (storedReply c clamped entry)) :=
    exec_accepted_quiet h ha hc (by rw [ht]; exact answer_room _ _ _ _ _ (by rw [hm]; exact h.room))
      (hq.1.trans h.quiet.1) (hq.2.trans h.quiet.2.1)
  have output {t : State} (ha : s.accepts c .writeEntryOutput)
      (ht : (s.setInbound rest).storeOutput c.index (readOutput c.operands) = t) (hm : t.mgmt = s.mgmt)
      (hq : t.notices = s.notices ∧ t.settled = s.settled) :=
    settle .writeEntryOutput (fun u => u.storeOutput c.index (readOutput c.operands))
      (!decide (valueOf ((c.operands.drop 2).take 4) = (readOutput c.operands).rate)) (outputBytes (readOutput c.operands))
      ha rfl ht hm hq
  refine ⟨fun ha => ?tuner, fun ha hstay => ?stays, fun ha hoff => ?disabled, fun ha => ?step⟩
  case tuner =>
    exact settle .writeEntryTuner (fun u => u.putTunerRec c.index (readTuner c.operands)) _ _ ha rfl rfl rfl ⟨rfl, rfl⟩
  case stays => exact output ha (storeOutput_of_stays hstay) rfl ⟨rfl, rfl⟩
  case disabled => exact output ha (storeOutput_of_disabled hoff) rfl ⟨rfl, rfl⟩
  case step => exact settle .writeEntryStep (fun u => u.putStep c.index (readStep c.operands)) _ _ ha rfl rfl rfl ⟨rfl, rfl⟩

/-- Settles O13: the settings are the only table that changes, and the reply joins the list under the old identifier. -/
theorem settingsWriteKeepsMask : Obligations.SettingsWriteKeepsMask := by
  intro s c rest h ha
  have hexec := exec_accepted_quiet h ha (act := fun u => (u.putSettings (readSettings s.settings.mask c.operands)).buildReply
      s.settings.replyId (storedReply c (settingsClamped c.operands) (settingsBytes (readSettings s.settings.mask c.operands))))
    rfl (if_pos h.room) h.quiet.1 h.quiet.2.1
  exact ⟨_, hexec, rfl, rfl, rfl, rfl⟩

/-! ## The byte pool -/

/-- A run of bytes stored in the pool changes the pool alone. -/
theorem storePool_eq (s : State) (off : Nat) (bs : List Byte) :
    s.storePool off bs = s.setTables { s.tables with pool := (s.storePool off bs).tables.pool } := by
  induction bs generalizing s off with
  | nil => rfl
  | cons x xs ih => exact ih (s.putPoolByte off x) (off + 1)

theorem poolByte_putPoolByte {s : State} (h : Tab.wf (0 : Byte) s.tables.pool = true) (i j : Nat) (x : Byte) :
    (s.putPoolByte i x).poolByte j = if j = i then x else s.poolByte j := by
  split
  · next e => subst e; exact tab_get_set_same _ _ 0 _ _ h
  · next e => exact tab_get_set_other _ _ _ _ _ e

/-- A run of bytes stored in the pool is read back at its offsets, and every other offset reads as before. -/
theorem poolByte_storePool {s : State} (h : Tab.wf (0 : Byte) s.tables.pool = true) (off : Nat) (bs : List Byte) (j : Nat) :
    (s.storePool off bs).poolByte j = if off ≤ j ∧ j < off + bs.length then bs.getD (j - off) 0 else s.poolByte j := by
  induction bs generalizing s off with
  | nil => rw [if_neg (by simp)]; rfl
  | cons x xs ih =>
    show ((s.putPoolByte off x).storePool (off + 1) xs).poolByte j = _
    rw [ih (tab_wf_set _ _ _ _ h), poolByte_putPoolByte h, List.length_cons]
    by_cases hin : off + 1 ≤ j ∧ j < off + 1 + xs.length
    · obtain ⟨k, hk⟩ : ∃ k, j - off = k + 1 := ⟨j - off - 1, by omega⟩
      rw [if_pos hin, if_pos (by omega), hk, List.getD_cons_succ, show j - (off + 1) = k by omega]
    · rw [if_neg hin]
      by_cases hj : j = off
      · rw [if_pos hj, if_pos (by omega), hj, Nat.sub_self, List.getD_cons_zero]
      · rw [if_neg hj, if_neg (by omega)]

/-- The operands of a whole packet are as many as its operand length says, up to the end of the packet. -/
theorem operands_length {c : Cmd} (hw : c.bytes.length = 188) (hl : c.len ≤ 177) : c.operands.length = c.len := by
  simp [Cmd.operands, hw, hl]

/-- A check that stands among checks that all pass does not fail. -/
theorem passes_of_mem {l : List Check} (h : firstFailing l = none) {k : Check} (hk : k ∈ l) : k.fails = false := by
  simpa using List.find?_eq_none.mp h k hk

theorem len_of_writePool {s : State} {c : Cmd} (ha : s.accepts c .writeEntryPool) : c.len = 16 := by
  have hlen := passes_of_mem ha.2 (k := rangeCheck (!decide (c.len = 16)) 0) List.mem_cons_self
  simpa [rangeCheck] using hlen

/-- Settles O14: the chunk is stored byte by byte in the canonical pool, which the reply does not touch. -/
theorem poolWriteStoresChunk : Obligations.PoolWriteStoresChunk := by
  intro s c rest hcan h ha
  have hlen : c.operands.length = 16 := by
    have hc := len_of_writePool ha
    rw [operands_length h.whole (by omega), hc]
  have hpool : Tab.wf (0 : Byte) s.tables.pool = true := hcan.tables.2.2.2.2.2.2
  let u := (s.setInbound rest).storePool (16 * c.index) c.operands
  have hu : u = (s.setInbound rest).setTables { s.tables with pool := u.tables.pool } := storePool_eq _ _ _
  have hread : ∀ j, u.poolByte j = _ := poolByte_storePool (s := s.setInbound rest) hpool (16 * c.index) c.operands
  have hexec := exec_accepted_quiet h ha (act := fun u => (u.storePool (16 * c.index) c.operands).answerStored c false c.operands)
    rfl (answer_room u _ _ _ _ (by rw [hu]; exact h.room)) (by rw [hu]; exact h.quiet.1) (by rw [hu]; exact h.quiet.2.1)
  refine ⟨_, hexec, fun k hk => ?inside, fun j hj => ?outside, ?frame⟩
  case inside =>
    refine (hread _).trans ?_
    rw [if_pos (by omega), Nat.add_sub_cancel_left]
  case outside =>
    refine (hread j).trans ?_
    rw [if_neg (by omega)]
    rfl
  case frame => exact congrArg (fun t : State => t.withReply (storedReply c false c.operands)) hu

end Sys2Proof.Proofs
end

section
/-! SUPPORT. The encoding of table entries in bytes, and the bounds of the clamped fields (R4, R5, Table 75). -/

namespace Sys2Proof.Proofs
open Sys2Proof Sys2Proof.Machine Sys2Proof.Laws

set_option Elab.async false

/-! ## Clamped fields -/

theorem le_clamp (lo hi x : Nat) : lo ≤ clamp lo hi x := Nat.le_max_left _ _

theorem clamp_le {lo hi : Nat} (h : lo ≤ hi) (x : Nat) : clamp lo hi x ≤ hi := Nat.max_le.mpr ⟨h, Nat.min_le_left _ _⟩

/-- A value within the bounds is stored as written (R5). -/
theorem clamp_of_mem {lo hi x : Nat} (hl : lo ≤ x) (hh : x ≤ hi) : clamp lo hi x = x := by
  unfold clamp
  omega

/-- Rounding and bounds together leave a whole number of 100 ms, as both bounds are (R21). -/
theorem windowLength_mod (x : Nat) : windowLength x % 100 = 0 := by
  unfold windowLength clamp
  omega

theorem stepTime_wait (x : Nat) : 1 ≤ stepTime .wait x ∧ stepTime .wait x ≤ 1000 := ⟨le_clamp _ _ _, clamp_le (by omega) _⟩

theorem stepTime_poll (x : Nat) : 10 ≤ stepTime .poll x ∧ stepTime .poll x ≤ 8000 := ⟨le_clamp _ _ _, clamp_le (by omega) _⟩

/-- Settles O31: every field in question is a `clamp`, or for a step's time value a `stepTime`, of what the bytes carry. -/
theorem clampedFieldsInRange : Obligations.ClampedFieldsInRange := by
  intro bs
  have within (lo hi i : Nat) (h : lo ≤ hi) : lo ≤ clamp lo hi (fieldAt bs i) ∧ clamp lo hi (fieldAt bs i) ≤ hi :=
    ⟨le_clamp _ _ _, clamp_le h _⟩
  refine ⟨?service, within 1 16 _ (by omega), ?tuner, ⟨le_clamp _ _ _, clamp_le (by omega) _⟩, ?step, fun m => ?settings⟩
  case service =>
    exact ⟨clamp_le (by omega) _, le_clamp _ _ _, clamp_le (by omega) _, le_clamp _ _ _, clamp_le (by omega) _,
      clamp_le (by omega) _, within 10 7200 _ (by omega)⟩
  case tuner => exact ⟨le_clamp _ _ _, clamp_le (by omega) _, within 1000 30000 _ (by omega)⟩
  case step =>
    refine ⟨clamp_le (by omega) _, clamp_le (by omega) _, le_clamp _ _ _, clamp_le (by omega) _, fun hk => ?_, fun hk => ?_⟩
    · have ht : (readStep bs).time = stepTime .wait (fieldAt bs 6) := congrArg (stepTime · _) hk
      exact ht ▸ stepTime_wait _
    · have ht : (readStep bs).time = stepTime .poll (fieldAt bs 6) := congrArg (stepTime · _) hk
      exact ht ▸ stepTime_poll _
  case settings =>
    exact ⟨⟨le_clamp _ _ _, clamp_le (by omega) _, windowLength_mod _⟩, within 2 8 _ (by omega), within 2 6 _ (by omega),
      within 1 65535 _ (by omega), within 1 32 _ (by omega), clamp_le (by omega) _, within 1 8 _ (by omega),
      within 1 255 _ (by omega), within 8 255 _ (by omega), within 200 5000 _ (by omega), within 2 600 _ (by omega),
      within 2 50 _ (by omega)⟩

/-! ## Two-byte fields: the first of the bytes is read, or passed over -/

theorem fieldAt_zero {x : Nat} (hx : x < 65536) (tail : List Byte) : fieldAt (field x ++ tail) 0 = x := by
  show (x / 256 % 256) % 2 ^ 8 * 256 + x % 256 % 2 ^ 8 = x
  omega

theorem fieldAt_succ (x : Nat) (tail : List Byte) (i : Nat) : fieldAt (field x ++ tail) (i + 1) = fieldAt tail i := rfl

theorem fieldsAt_succ (x : Nat) (tail : List Byte) (i n : Nat) :
    fieldsAt (field x ++ tail) (i + 1) n = fieldsAt tail i n := by
  refine List.map_congr_left (fun j _ => ?_)
  rw [Nat.add_right_comm, fieldAt_succ]

/-- A run of fields is passed over. -/
theorem fieldAt_flatMap {xs : List Nat} {n : Nat} (hn : xs.length = n) (tail : List Byte) (i : Nat) :
    fieldAt (xs.flatMap field ++ tail) (i + n) = fieldAt tail i := by
  subst hn
  induction xs with
  | nil => rfl
  | cons x xs ih => rw [List.flatMap_cons, List.append_assoc, List.length_cons, ← Nat.add_assoc, fieldAt_succ, ih]

theorem fieldsAt_flatMap {xs : List Nat} {n : Nat} (hn : xs.length = n) (tail : List Byte) (i m : Nat) :
    fieldsAt (xs.flatMap field ++ tail) (i + n) m = fieldsAt tail i m := by
  refine List.map_congr_left (fun j _ => ?_)
  rw [Nat.add_right_comm, fieldAt_flatMap hn]

/-- A run of fields reads back as the values it carries. -/
theorem fieldsAt_zero {xs : List Nat} {n : Nat} (hn : xs.length = n) (hx : ∀ x ∈ xs, x < 65536) (tail : List Byte) :
    fieldsAt (xs.flatMap field ++ tail) 0 n = xs := by
  subst hn
  induction xs with
  | nil => rfl
  | cons x xs ih =>
    have hhead := fieldAt_zero (hx x List.mem_cons_self) (xs.flatMap field ++ tail)
    have htail := ih (fun y hy => hx y (List.mem_cons_of_mem _ hy))
    rw [List.flatMap_cons, List.append_assoc, List.length_cons, fieldsAt, List.range_succ_eq_map, List.map_cons, List.map_map,
      hhead]
    refine congrArg (x :: ·) (Eq.trans (List.map_congr_left (fun j _ => ?_)) htail)
    show fieldAt _ (0 + (j + 1)) = _
    rw [← Nat.add_assoc, fieldAt_succ]

/-! ## Codes -/

@[simp] theorem yesNo_eq_zero (b : Bool) : decide (yesNo b = 0) = b := by cases b <;> rfl

@[simp] theorem actCode_eq_one (b : Bool) : decide (actCode b = 1) = b := by cases b <;> rfl

@[simp] theorem ringOfCode_code (r : Ring) : Ring.ofCode r.code = r := by cases r <;> rfl

@[simp] theorem syncModeOfCode_code (m : SyncMode) : (if m.code = 1 then SyncMode.bit else .packet) = m := by cases m <;> rfl

@[simp] theorem busClockOfCode_code (k : BusClock) : (if k.code = 1 then BusClock.khz400 else .khz100) = k := by
  cases k <;> rfl

@[simp] theorem stepKindOfCode_code (k : StepKind) : StepKind.ofCode k.code = k := by cases k <;> rfl

@[simp] theorem captureOfCode_code (k : Capture) : Capture.ofCode k.code = k := by cases k <;> rfl

theorem yesNo_le (b : Bool) : yesNo b ≤ 1 := by cases b <;> decide

theorem actCode_le (b : Bool) : actCode b ≤ 1 := by cases b <;> decide

theorem ringCode_le (r : Ring) : r.code ≤ 2 := by cases r <;> decide

theorem roleCode_le (r : Role) : r.code ≤ 2 := by cases r <;> decide

theorem syncModeCode_le (m : SyncMode) : m.code ≤ 1 := by cases m <;> decide

theorem busClockCode_le (k : BusClock) : k.code ≤ 1 := by cases k <;> decide

theorem stepKindCode_le (k : StepKind) : k.code ≤ 4 := by cases k <;> decide

theorem captureCode_le (k : Capture) : k.code ≤ 1 := by cases k <;> decide

/-- An optional index below the code of the absent value reads back. -/
theorem optOf_optCode {x : Option Nat} (h : ∀ y, x = some y → y < 65535) : optOf (optCode x) = x := by
  cases x with
  | none => rfl
  | some y => exact if_neg (Nat.ne_of_lt (h y rfl))

theorem optCode_le {x : Option Nat} (h : ∀ y, x = some y → y < 65535) : optCode x ≤ 65535 := by
  cases x with
  | none => exact Nat.le_refl _
  | some y => exact Nat.le_of_lt (h y rfl)

/-- Yes and no survive their encoding. -/
theorem map_yesNo (l : List Bool) : (l.map yesNo).map (fun x => decide (x = 0)) = l := by
  rw [List.map_map]
  exact (List.map_congr_left (fun b _ => yesNo_eq_zero b)).trans (List.map_id l)

/-! ## Entries -/

theorem readService_serviceBytes {r : Service} (h : r.inRange) : readService (serviceBytes r) = r := by
  obtain ⟨ho, hc1, hc8, hids, hid, hreq, hkey, hh, hd1, hd15, hf1, hf8, hfl, hs1, hs2⟩ := h
  have hreq' : (r.required.map yesNo).length = 8 := by simpa using hreq
  have hidBytes : ∀ x ∈ r.outIds, x < 65536 := fun x hx => by have := hid x hx; omega
  have hreqBytes : ∀ x ∈ r.required.map yesNo, x < 65536 := by
    intro x hx
    obtain ⟨b, _, rfl⟩ := List.mem_map.mp hx
    have := yesNo_le b
    omega
  have := yesNo_le r.enabled
  have := yesNo_le r.fastFailover
  have := actCode_le r.act
  simp (disch := omega) only [readService, serviceBytes, List.flatMap_append, List.flatMap_cons, List.flatMap_nil,
    List.append_assoc, List.nil_append, fieldAt_zero, fieldAt_succ, fieldsAt_succ, fieldAt_flatMap hids, fieldAt_flatMap hreq',
    fieldsAt_flatMap hids, fieldsAt_zero hids hidBytes, fieldsAt_zero hreq' hreqBytes, map_yesNo, yesNo_eq_zero,
    actCode_eq_one, clamp_of_mem]

theorem readCopy_copyBytes {r : CopyRec} (h : r.inRange) : readCopy (copyBytes r) = r := by
  obtain ⟨hm, hlen, hsrc⟩ := h
  have hsrcBytes : ∀ x ∈ r.src, x < 65536 := fun x hx => by have := hsrc x hx; omega
  have := yesNo_le r.defined
  simp only [localMux] at hm
  have hsrcField := fieldsAt_zero hlen hsrcBytes []
  rw [List.append_nil] at hsrcField
  simp (disch := omega) only [readCopy, copyBytes, List.flatMap_append, List.flatMap_cons, List.flatMap_nil, List.append_assoc,
    List.nil_append, fieldAt_zero, fieldAt_succ, fieldsAt_succ, hsrcField, yesNo_eq_zero]

theorem readMux_muxBytes {r : MuxRec} (h : r.inRange) : readMux (muxBytes r) = r := by
  obtain ⟨hfeed, hhead, hd1, hd16, hlen, hsig⟩ := h
  have hsigBytes : ∀ x ∈ r.sigs, x < 65536 := fun x hx => by have := hsig x hx; omega
  have := yesNo_le r.defined
  have := ringCode_le r.ring
  have hsigField := fieldsAt_zero rfl hsigBytes []
  rw [List.append_nil] at hsigField
  simp (disch := omega) only [readMux, sigCount, muxBytes, List.flatMap_append, List.flatMap_cons, List.flatMap_nil,
    List.append_assoc, List.nil_append, fieldAt_zero, fieldAt_succ, fieldsAt_succ, hsigField, yesNo_eq_zero,
    ringOfCode_code, clamp_of_mem]

theorem readTuner_tunerBytes (k : Role) {r : TunerRec} (h : r.inRange) : readTuner (tunerBytes k r) = r := by
  obtain ⟨hbus, hlow, hhigh, hmeas, hrel, ha1, ha2, hr1, hr2⟩ := h
  have hrel' : ∀ y, r.release = some y → y < 65535 := fun y hy => by have := hrel y hy; omega
  have := roleCode_le k
  have := optCode_le hrel'
  have := r.reach.isLt
  simp (disch := omega) only [readTuner, tunerBytes, List.flatMap_cons, fieldAt_zero, fieldAt_succ, optOf_optCode hrel',
    clamp_of_mem, BitVec.ofNat_toNat, BitVec.setWidth_eq]

theorem valueOf_bytesOf_four {x : Nat} (h : x < 4294967296) : valueOf (bytesOf 4 x) = x := by
  simp [valueOf, bytesOf]
  omega

theorem readOutput_outputBytes {r : OutputRec} (h : r.inRange) : readOutput (outputBytes r) = r := by
  obtain ⟨hlow, hhigh⟩ := h
  have hen := fieldAt_zero (x := yesNo r.enabled) (by have := yesNo_le r.enabled; omega) (bytesOf 4 r.rate)
  have hrate : ((outputBytes r).drop 2).take 4 = bytesOf 4 r.rate := rfl
  simp (disch := omega) only [readOutput, hrate, valueOf_bytesOf_four, clamp_of_mem]
  simp only [outputBytes, hen, yesNo_eq_zero]

theorem windowLength_of_mem {x : Nat} (hl : 500 ≤ x) (hh : x ≤ 4000) (hm : x % 100 = 0) : windowLength x = x := by
  rw [windowLength, Nat.div_mul_cancel (Nat.dvd_of_mod_eq_zero hm), clamp_of_mem hl hh]

theorem readSettings_settingsBytes {r : Settings} (h : r.inRange) : readSettings r.mask (settingsBytes r) = r := by
  obtain ⟨⟨hw1, hw2, hw⟩, hlock, hloss, hexc, hwei, hshift, hshare, hmin, hper, hcut, hretry, hpoll, hmg, hrp, hin⟩ := h
  have := syncModeCode_le r.syncMode
  have := busClockCode_le r.busClock
  simp (disch := omega) only [readSettings, settingsBytes, List.flatMap_cons, List.append_assoc, fieldAt_zero, fieldAt_succ,
    syncModeOfCode_code, busClockOfCode_code, clamp_of_mem, windowLength_of_mem]

theorem readStep_stepBytes {r : Step} (h : r.inRange) : readStep (stepBytes r) = r := by
  obtain ⟨haddr, hbyte, hc1, hc32, htime, htmax, hnext⟩ := h
  have := stepKindCode_le r.kind
  have := captureCode_le r.capture
  have := optCode_le hnext
  have := r.mask.isLt
  have := r.want.isLt
  simp (disch := omega) only [readStep, stepBytes, List.flatMap_cons, fieldAt_zero, fieldAt_succ, optOf_optCode hnext,
    clamp_of_mem, stepKindOfCode_code, captureOfCode_code, htime, BitVec.ofNat_toNat, BitVec.setWidth_eq]

/-- Settles O30, table by table. -/
theorem entryCodecsAgree : Obligations.EntryCodecsAgree :=
  ⟨fun _ => readService_serviceBytes, fun _ => readCopy_copyBytes, fun _ => readMux_muxBytes,
    fun k _ => readTuner_tunerBytes k, fun _ => readOutput_outputBytes, fun _ => readSettings_settingsBytes,
    fun _ => readStep_stepBytes⟩

end Sys2Proof.Proofs
end

section
/-! SUPPORT. The soft reset of the blocks (R178): each block's reset in closed form, and what then reads back. -/

namespace Sys2Proof.Proofs
open Sys2Proof Sys2Proof.Machine Sys2Proof.Laws

set_option Elab.async false

/-! ## Tables written index by index -/

/-- The table with the entries below `n` rewritten, in ascending order. -/
@[irreducible] def rewriteBelow {α : Type} [DecidableEq α] (d : α) (g : Nat → α → α) (n : Nat) (t : Tab α) : Tab α :=
  (List.range n).foldl (fun t i => Tab.set d t i (g i (Tab.get d t i))) t

section rewrite
variable {α : Type} [DecidableEq α] {d : α} {g : Nat → α → α} {t : Tab α}

theorem rewriteBelow_zero : rewriteBelow d g 0 t = t := by
  unfold rewriteBelow
  rfl

theorem rewriteBelow_succ (n : Nat) : rewriteBelow d g (n + 1) t =
    Tab.set d (rewriteBelow d g n t) n (g n (Tab.get d (rewriteBelow d g n t) n)) := by
  simp only [rewriteBelow, List.range_succ, List.foldl_append, List.foldl_cons, List.foldl_nil]

theorem rewriteBelow_wf (h : Tab.wf d t = true) (n : Nat) : Tab.wf d (rewriteBelow d g n t) = true := by
  unfold rewriteBelow
  exact foldl_keeps (fun t => Tab.wf d t = true) _ (fun _ _ ht => tab_wf_set _ _ _ _ ht) _ _ h

theorem get_rewriteBelow (h : Tab.wf d t = true) (n j : Nat) :
    Tab.get d (rewriteBelow d g n t) j = if j < n then g j (Tab.get d t j) else Tab.get d t j := by
  induction n with
  | zero => rw [rewriteBelow_zero, if_neg (Nat.not_lt_zero j)]
  | succ n ih =>
    rw [rewriteBelow_succ]
    by_cases hj : j = n
    · subst hj
      rw [tab_get_set_same _ _ 0 _ _ (rewriteBelow_wf h _), ih, if_neg (by omega), if_pos (by omega)]
    · rw [tab_get_set_other _ _ _ _ _ hj, ih]
      simp only [show j < n + 1 ↔ j < n by omega]

theorem get_rewriteBelow_lt (h : Tab.wf d t = true) {n j : Nat} (hj : j < n) :
    Tab.get d (rewriteBelow d g n t) j = g j (Tab.get d t j) := (get_rewriteBelow h n j).trans (if_pos hj)

theorem get_rewriteBelow_ge (h : Tab.wf d t = true) {n j : Nat} (hj : n ≤ j) :
    Tab.get d (rewriteBelow d g n t) j = Tab.get d t j := (get_rewriteBelow h n j).trans (if_neg (Nat.not_lt.mpr hj))

omit [DecidableEq α] in
/-- An entry of a table some of whose entries are left out reads as before when its index keeps it. -/
theorem get_filter_of_keeps {p : Nat × α → Bool} {i : Nat} (h : ∀ v, p (i, v) = true) :
    Tab.get d (t.filter p) i = Tab.get d t i := by
  induction t with
  | nil => rfl
  | cons e t ih =>
    obtain ⟨k, v⟩ := e
    by_cases hk : k = i
    · subst hk
      rw [List.filter_cons_of_pos (h v)]
      simp only [Tab.get, if_true]
    · by_cases hp : p (k, v) = true
      · rw [List.filter_cons_of_pos hp]
        simp only [Tab.get, hk, if_false, ih]
      · rw [List.filter_cons_of_neg hp]
        simp only [Tab.get, hk, if_false, ih]

/-- A flag that reads set stands in the table. -/
theorem mem_of_get_true {t : Tab Bool} {i : Nat} (h : Tab.get false t i = true) : (i, true) ∈ t := by
  induction t with
  | nil => cases h
  | cons e t ih =>
    obtain ⟨k, v⟩ := e
    simp only [Tab.get] at h
    split at h
    · next hk => rw [hk, h]; exact List.mem_cons_self
    · exact List.mem_cons_of_mem _ (ih h)

end rewrite

/-! ## The blocks -/

/-- The soft reset of the tuner buses changes the buses alone. -/
theorem resetBuses_frame (l : List Nat) (s : State) :
    l.foldl State.resetBus s = s.setBuses (l.foldl State.resetBus s).buses := by
  induction l generalizing s with
  | nil => rfl
  | cons b l ih => exact ih (s.resetBus b)

/-- A tuner bus after its soft reset holds nothing that is to run (R89). -/
theorem resetBuses_empty {s : State} (h : s.Canonical) (n : Nat) : ∀ b, b < n →
    (((List.range n).foldl State.resetBus s).bus b).run = none ∧ (((List.range n).foldl State.resetBus s).bus b).queue = [] ∧
      (((List.range n).foldl State.resetBus s).bus b).deferred = [] := by
  induction n with
  | zero => exact fun b hb => absurd hb (Nat.not_lt_zero b)
  | succ n ih =>
    intro b hb
    let u := (List.range n).foldl State.resetBus s
    have hu : u.Canonical := Reach.keeps (fl := false) (w := 2) (fun _ _ p hc => p.canonical hc)
      (reach_foldl _ _ (fun _ _ hr => reach_resetBus hr _) .refl) h
    rw [List.range_succ, List.foldl_append]
    show ((u.resetBus n).bus b).run = none ∧ ((u.resetBus n).bus b).queue = [] ∧ ((u.resetBus n).bus b).deferred = []
    by_cases hbn : b = n
    · subst hbn
      have hget : (u.resetBus b).bus b = _ := tab_get_set_same _ _ 0 _ _ hu.buses
      rw [hget]
      exact ⟨rfl, rfl, rfl⟩
    · have hget : (u.resetBus n).bus b = u.bus b := tab_get_set_other _ _ _ _ _ hbn
      rw [hget]
      exact ih b (by omega)

/-- The record of a tuner after its soft reset (R106). -/
def resetTuner (s : State) (t : Nat) : Tuner := { state := if s.role t = .off then .off else .free }

theorem resetLanes_eq (s : State) (n : Nat) : (List.range n).foldl State.resetLane s =
    { s with framers := rewriteBelow {} (fun _ _ => {}) n s.framers, trackers := rewriteBelow {} (fun _ _ => {}) n s.trackers,
             qmLanes := rewriteBelow {} (fun _ _ => {}) n s.qmLanes,
             tuners := rewriteBelow {} (fun t _ => resetTuner s t) n s.tuners } := by
  induction n with
  | zero => simp only [rewriteBelow_zero]; rfl
  | succ n ih =>
    rw [List.range_succ, List.foldl_append, ih]
    simp only [rewriteBelow_succ]
    rfl

theorem resetOutputs_eq (s : State) (n : Nat) : (List.range n).foldl State.resetOutput s =
    s.setOuts (rewriteBelow {} (fun _ q => { port := q.port, periodStart := s.now }) n s.outs) := by
  induction n with
  | zero => simp only [rewriteBelow_zero]; rfl
  | succ n ih =>
    rw [List.range_succ, List.foldl_append, ih]
    simp only [rewriteBelow_succ]
    rfl

/-- The part after the soft reset of its blocks, field by field (R178). -/
theorem resetBlocks_eq (s : State) : s.resetBlocks =
    { s with
      notices := [], buses := ((List.range 4).foldl State.resetBus s).buses
      framers := rewriteBelow {} (fun _ _ => {}) 16 s.framers
      trackers := Tab.set {} (rewriteBelow {} (fun _ _ => {}) 16 s.trackers) insertionLane { entries := s.buildEntries localMux }
      qmLanes := rewriteBelow {} (fun _ _ => {}) 16 s.qmLanes
      tuners := rewriteBelow {} (fun t _ => resetTuner s t) 16 s.tuners
      mismatch := [], hostQueue := [], sched := {}, clock := { secs := 0, since := s.now }, lives := [], ranks := []
      gates := [], cuts := []
      outs := rewriteBelow {} (fun _ q => { port := q.port, periodStart := s.now }) 4 s.outs
      inds := { latched := [], status := s.keptStatus }, mgmt := { list := s.mgmt.replies } } := by
  have hbuses := resetBuses_frame (List.range 4) s
  generalize ((List.range 4).foldl State.resetBus s).buses = bs at hbuses ⊢
  simp only [State.resetBlocks, hbuses, resetLanes_eq, resetOutputs_eq, State.resetLocalTracker, State.resetMgmt,
    State.putTracker, State.setBuses, State.setTrackers, State.setMismatch, State.setHostQueue, State.setSched,
    State.setClock, State.setLives, State.setRanks, State.setGates, State.setCuts, State.setOuts, State.setInds,
    State.setMgmt, State.setNotices]
  rfl

/-! ## The status values that stand -/

theorem indKey_lane16 {k : SourceKind} {i : Nat} {kd kd' : Kind} (h : indKey k i kd = indKey .lane 16 kd') (hi : i < 65536) :
    k = .lane ∧ i = 16 ∧ kd.code = kd'.code := by
  have hkind (x : Kind) : x.code < 32 := by cases x <;> decide
  have hk := hkind kd
  have hk' := hkind kd'
  have hsrc : 1 ≤ k.code := by cases k <;> decide
  have hkey : (k.code * 65536 + i) * 32 + kd.code = (1 * 65536 + 16) * 32 + kd'.code := h
  have hcode : k.code = 1 := by omega
  refine ⟨?_, by omega, by omega⟩
  cases k
  case lane => rfl
  all_goals exact absurd hcode (by decide)

/-- DEGRADED and PERSISTENT of lane 16 are the only status values of a named source that a soft reset leaves set (R178). -/
theorem keptStatus_lane16 {s : State} {k : SourceKind} {i : Nat} {kd : Kind}
    (h : Tab.get false s.keptStatus (indKey k i kd) = true) :
    k = .lane ∧ i = 16 ∧ (kd = .degraded ∨ kd = .persistent) ∨ 65536 ≤ i := by
  rcases Nat.lt_or_ge i 65536 with hi | hi
  · refine .inl ?_
    have hmem := (List.mem_filter.mp (mem_of_get_true h)).2
    rcases (Bool.or_eq_true _ _).mp hmem with hkey | hkey
    · obtain ⟨hk, hi16, hcode⟩ := indKey_lane16 (of_decide_eq_true hkey) hi
      refine ⟨hk, hi16, .inl ?_⟩
      cases kd
      case degraded => rfl
      all_goals exact absurd hcode (by decide)
    · obtain ⟨hk, hi16, hcode⟩ := indKey_lane16 (of_decide_eq_true hkey) hi
      refine ⟨hk, hi16, .inr ?_⟩
      cases kd
      case persistent => rfl
      all_goals exact absurd hcode (by decide)
  · exact .inr hi

/-- Those two status values stand as they were (R178). -/
theorem keptStatus_stands (s : State) {kd : Kind} (h : kd = .degraded ∨ kd = .persistent) :
    Tab.get false s.keptStatus (indKey .lane 16 kd) = s.statusValue .lane 16 kd := by
  refine get_filter_of_keeps (fun v => ?_)
  rcases h with rfl | rfl <;> rfl

/-- Settles O24: the reset of the blocks in closed form, read back table by table. -/
theorem softResetClearsTheBlocks : Obligations.SoftResetClearsTheBlocks := by
  intro s c rest hcan h ha
  let u := s.setInbound rest
  have hu : u.Canonical := { hcan with }
  have hexec := exec_accepted_quiet h ha (act := fun u => u.resetBlocks.setResetting (some c)) rfl rfl
    (by rw [resetBlocks_eq]; rfl) (by rw [resetBlocks_eq]; exact h.quiet.2.1)
  rw [resetBlocks_eq] at hexec
  refine ⟨_, hexec, rfl, rfl, rfl, rfl, rfl, rfl, rfl, fun k i kd hst => keptStatus_lane16 (s := s) hst, ?degraded, ?persistent,
    rfl, rfl, rfl, rfl, rfl, rfl, rfl, rfl, rfl, rfl, fun n hn => ⟨?framer, ?tracker, ?lane, ?tuner⟩, ?framer16, ?lane16,
    ?tracker16, fun o ho => ?out, fun b hb => ?bus, rfl, rfl, rfl⟩
  case degraded => exact keptStatus_stands u (.inl rfl)
  case persistent => exact keptStatus_stands u (.inr rfl)
  case framer => exact get_rewriteBelow_lt (g := fun _ _ => ({} : Framer)) hu.framers hn
  case tracker =>
    refine (tab_get_set_other _ _ _ _ _ (Nat.ne_of_lt hn)).trans ?_
    exact get_rewriteBelow_lt (g := fun _ _ => ({} : Tracker)) hu.trackers hn
  case lane => exact get_rewriteBelow_lt (g := fun _ _ => ({} : QmLane)) hu.qmLanes hn
  case tuner => exact get_rewriteBelow_lt (g := fun t _ => resetTuner u t) hu.tuners hn
  case framer16 => exact get_rewriteBelow_ge (g := fun _ _ => ({} : Framer)) hu.framers (Nat.le_refl 16)
  case lane16 => exact get_rewriteBelow_ge (g := fun _ _ => ({} : QmLane)) hu.qmLanes (Nat.le_refl 16)
  case tracker16 => exact tab_get_set_same _ _ 0 _ _ (rewriteBelow_wf hu.trackers 16)
  case out =>
    exact get_rewriteBelow_lt (g := fun _ (q : OutState) => { port := q.port, periodStart := u.now }) hu.outs ho
  case bus => exact resetBuses_empty hu 4 b hb

end Sys2Proof.Proofs
end

section
/-! SUPPORT. The proof of the obligation about PIN and UNPIN (R145, R146). -/

namespace Sys2Proof.Proofs
open Sys2Proof Sys2Proof.Machine Sys2Proof.Laws

set_option Elab.async false

/-! ## Two writes at one index -/

theorem tab_set_first {α : Type} [DecidableEq α] (d : α) {t : Tab α} {i : Nat} (h : Tab.wfFrom d (i + 1) t = true) (v : α) :
    Tab.set d t i v = if v = d then t else (i, v) :: t := by
  cases t with
  | nil => rfl
  | cons e t =>
    obtain ⟨k, w⟩ := e
    simp only [Tab.wfFrom, Bool.and_eq_true, decide_eq_true_eq] at h
    simp only [Tab.set, if_pos (show i < k by omega)]

/-- The second of two writes at one index is all that stands. -/
theorem tab_set_set {α : Type} [DecidableEq α] (d : α) {t : Tab α} {lo : Nat} (h : Tab.wfFrom d lo t = true) (i : Nat)
    (x y : α) : Tab.set d (Tab.set d t i x) i y = Tab.set d t i y := by
  induction t generalizing lo with
  | nil => by_cases hx : x = d <;> simp [Tab.set, hx]
  | cons e t ih =>
    obtain ⟨k, w⟩ := e
    simp only [Tab.wfFrom, Bool.and_eq_true, decide_eq_true_eq] at h
    obtain ⟨⟨hlo, hw⟩, ht⟩ := h
    rcases Nat.lt_trichotomy i k with hik | hik | hik
    · by_cases hx : x = d <;> simp [Tab.set, hik, hx]
    · subst hik
      by_cases hx : x = d
      · simp only [Tab.set, Nat.lt_irrefl, if_false, if_true, hx]
        exact tab_set_first d ht y
      · simp [Tab.set, hx]
    · simp only [Tab.set, if_neg (show ¬ i < k by omega), if_neg (show i ≠ k by omega), ih ht]

theorem putRank_putRank {s : State} (h : s.Canonical) (v : Nat) (j k : Ranking) :
    (s.putRank v j).putRank v k = s.putRank v k :=
  congrArg s.setRanks (tab_set_set ({} : Ranking) h.ranks v j k)

theorem rank_putRank_same {s : State} (h : s.Canonical) (v : Nat) (k : Ranking) : (s.putRank v k).rank v = k :=
  tab_get_set_same _ _ 0 _ _ h.ranks

theorem rank_putRank_other (s : State) {u v : Nat} (h : u ≠ v) (k : Ranking) : (s.putRank v k).rank u = s.rank u :=
  tab_get_set_other _ _ _ _ _ h

theorem floor_putFloor_same {s : State} (h : Tab.wf 150 s.floors = true) (v x : Nat) : (s.putFloor v x).floor v = x :=
  tab_get_set_same _ _ 0 _ _ h

/-! ## Evaluations that change nothing -/

/-- While a service is CUTTING it is not evaluated (R135). -/
theorem evaluate_of_cutting {s : State} {v : Nat} (h : (s.rank v).cutting = true) (g : Trigger) : s.evaluate v g = s := by
  show State.evaluateN (5 + 1) v g s = s
  simp only [State.evaluateN, h, Bool.or_true, if_true]

/-- A disabled service is not evaluated (R135). -/
theorem evaluate_of_disabled {s : State} {v : Nat} (h : (s.service v).enabled = false) (g : Trigger) : s.evaluate v g = s := by
  show State.evaluateN (5 + 1) v g s = s
  simp only [State.evaluateN, h, Bool.not_false, Bool.true_or, if_true]

/-- An evaluation makes a decision unless the judgement of its first steps has begun a cut (R135). -/
theorem evaluate_eq {s : State} {v : Nat} (he : (s.service v).enabled = true) (hc : (s.rank v).cutting = false) (g : Trigger) :
    ∃ fail : State → State, s.evaluate v g =
      let s1 := ((s.putFloor v (s.service v).floor).judgeDegraded v).refile fail v
      if (s1.rank v).cutting then s1 else s1.makeDecision fail v g := by
  refine ⟨fun s => State.evaluateN 5 v .other (s.barTarget v), ?_⟩
  show State.evaluateN (5 + 1) v g s = _
  simp only [State.evaluateN, he, hc, Bool.not_true, Bool.or_self, Bool.false_eq_true, if_false]

theorem belowFloor_eq_false {s : State} {v : Nat}
    (h : ∀ sel q, (s.rank v).selected = some sel → (s.liveOf v sel).q = some q → s.floor v ≤ q) : s.belowFloor v = false := by
  unfold State.belowFloor
  split
  · rfl
  · next sel hsel =>
    split
    · rfl
    · next q hq => simpa using h sel q hsel hq

/-- A service that is not below its floor, and was not, is judged without a change (R146). -/
theorem judgeDegraded_of_not_below {s : State} {v : Nat} (h : s.belowFloor v = false) :
    s.judgeDegraded v = s.putRank v { s.rank v with degraded := false } := by
  simp only [State.judgeDegraded, h, Bool.false_eq_true, if_false]

theorem refile_of_no_target {fail : State → State} {s : State} {v : Nat} (h : (s.rank v).target = none) :
    s.refile fail v = s := by
  unfold State.refile
  split
  · next hslot => rw [h] at hslot; cases hslot
  · rfl

/-- A service pinned to its selected copy, without a target, keeps it (R137, case 1). -/
theorem makeDecision_of_pin_selected {fail : State → State} {s : State} {v p : Nat} (hpin : (s.rank v).pin = some p)
    (hsel : (s.rank v).selected = some p) (htgt : (s.rank v).target = none) (g : Trigger) : s.makeDecision fail v g = s := by
  simp only [State.makeDecision, hpin, State.decidePinned, hsel, htgt, if_true, reduceCtorEq, if_false, State.dropTarget]

/-- The evaluation of a service pinned to its selected copy, without a target and not below its floor, brings the floor in
force and does nothing else (R145, R146). -/
theorem evaluate_of_pin_selected {s : State} (hcan : s.Canonical) {v p : Nat} (he : (s.service v).enabled = true) {k : Ranking}
    (hk : k.cutting = false ∧ k.pin = some p ∧ k.selected = some p ∧ k.target = none ∧ k.degraded = false)
    (hq : ∀ q, (s.liveOf v p).q = some q → (s.service v).floor ≤ q) (g : Trigger) :
    (s.putRank v k).evaluate v g = (s.putRank v k).putFloor v (s.service v).floor := by
  obtain ⟨hcut, hpin, hsel, htgt, hdeg⟩ := hk
  let u := (s.putRank v k).putFloor v (s.service v).floor
  have hrank : u.rank v = k := rank_putRank_same hcan v k
  have hfloor : u.floor v = (s.service v).floor := floor_putFloor_same (s := s.putRank v k) hcan.floors v _
  have hbelow : u.belowFloor v = false := by
    refine belowFloor_eq_false (fun sel q hs hl => ?_)
    rw [hrank, hsel] at hs
    cases hs
    exact hfloor ▸ hq q hl
  have hsame : ({ k with degraded := false } : Ranking) = k := by rw [← hdeg]
  have hjudge : u.judgeDegraded v = u := by
    rw [judgeDegraded_of_not_below hbelow, hrank, hsame]
    exact congrArg (fun t : State => t.putFloor v (s.service v).floor) (putRank_putRank hcan v k k)
  obtain ⟨fail, heval⟩ := evaluate_eq (s := s.putRank v k) he (by rw [rank_putRank_same hcan]; exact hcut) g
  refine heval.trans ?_
  have hrefile : (u.judgeDegraded v).refile fail v = u := by rw [hjudge, refile_of_no_target (by rw [hrank, htgt])]
  show (if (((u.judgeDegraded v).refile fail v).rank v).cutting then (u.judgeDegraded v).refile fail v
    else ((u.judgeDegraded v).refile fail v).makeDecision fail v g) = u
  rw [hrefile, hrank, hcut]
  exact makeDecision_of_pin_selected (by rw [hrank, hpin]) (by rw [hrank, hsel]) (by rw [hrank, htgt]) g

/-! ## The target of an UNPIN -/

/-- An index that does not read as the default is listed. -/
theorem exists_entry_of_get_ne {α : Type} {d : α} {t : Tab α} {i : Nat} (h : Tab.get d t i ≠ d) : ∃ e ∈ t, e.1 = i := by
  induction t with
  | nil => exact absurd rfl h
  | cons e t ih =>
    obtain ⟨k, w⟩ := e
    by_cases hk : k = i
    · exact ⟨(k, w), List.mem_cons_self, hk⟩
    · simp only [Tab.get, hk, if_false] at h
      obtain ⟨e, he, hi⟩ := ih h
      exact ⟨e, List.mem_cons_of_mem _ he, hi⟩

theorem claims_putRank_other (s : State) {u v : Nat} (h : u ≠ v) (k : Ranking) : (s.putRank v k).claims u = s.claims u := by
  show (if (s.service u).enabled then
    ((((s.putRank v k).rank u).selected.toList ++ ((s.putRank v k).rank u).target.toList).map (s.copyMux u)).filter _
    else []) = _
  rw [rank_putRank_other s h]
  rfl

theorem claimCount_eq_zero {s : State} {x : Nat} (h : ∀ u, x ∉ s.claims u) : s.claimCount x = 0 := by
  rw [State.claimCount, List.length_eq_zero_iff, List.filter_eq_nil_iff]
  intro e _
  simpa using h e.1

/-- A service that claims a multiplex has a ranking record in use, so its claim counts. -/
theorem claimCount_ne_zero {s : State} {x v : Nat} (h : x ∈ s.claims v) : s.claimCount x ≠ 0 := by
  have hne : s.rank v ≠ {} := by
    intro he
    rw [State.claims, he] at h
    split at h <;> simp at h
  have hmem : ∃ e ∈ s.ranks, e.1 = v := exists_entry_of_get_ne hne
  obtain ⟨e, he, rfl⟩ := hmem
  rw [State.claimCount, ← Nat.pos_iff_ne_zero, List.length_pos_iff_exists_mem]
  exact ⟨e, List.mem_filter.mpr ⟨he, by simpa using h⟩⟩

/-- What a service whose target is dropped claims: the multiplex of its selected copy (R134). -/
theorem claims_of_no_target {s : State} {v : Nat} (h : (s.rank v).target = none) {x : Nat} :
    x ∈ s.claims v ↔ (s.service v).enabled = true ∧ (∃ sel, (s.rank v).selected = some sel ∧ s.copyMux v sel = x) ∧
      x ≠ localMux := by
  unfold State.claims
  split
  · next he =>
    cases hs : (s.rank v).selected with
    | none => simp [h]
    | some sel =>
      simp only [h, he, Option.toList_some, Option.toList_none, List.append_nil, List.map_cons, List.map_nil,
        List.mem_filter, List.mem_singleton, decide_eq_true_eq, Option.some.injEq, exists_eq_left', true_and]
      exact and_congr_left' eq_comm
  · next he => simp [he]

/-- Of the claims that a service held, only that on its dropped target's multiplex falls, and with it the host request for
that multiplex: nothing hosts it and no other service claims it (R100, R134, R138). -/
theorem dropTarget_withdraws {s : State} (hcan : s.Canonical) {v p x : Nat} (he : (s.service v).enabled = true)
    (htgt : (s.rank v).target = some p) (hx : s.copyMux v p = x) (hloc : x ≠ localMux) (hhost : s.hosted x = false)
    (hsel : ∀ sel, (s.rank v).selected = some sel → s.copyMux v sel ≠ x) (hother : ∀ u, u ≠ v → x ∉ s.claims u) :
    s.dropTarget v = (s.putRank v { s.rank v with target := none, filing := none }).dropRequest x := by
  let t := s.putRank v { s.rank v with target := none, filing := none }
  have hrank : t.rank v = { s.rank v with target := none, filing := none } := rank_putRank_same hcan v _
  have hzero : t.claimCount x = 0 := by
    refine claimCount_eq_zero (fun u hu => ?_)
    by_cases huv : u = v
    · subst huv
      obtain ⟨-, ⟨sel, hs, hm⟩, -⟩ := (claims_of_no_target (by rw [hrank])).mp hu
      rw [hrank] at hs
      exact hsel sel hs hm
    · exact hother u huv (claims_putRank_other s huv _ ▸ hu)
  have hgone : t.claimGone x = t.dropRequest x := by
    have hnone : s.hostOf x = none := by simpa [State.hosted] using hhost
    have hnone : t.hostOf x = none := hnone
    simp only [State.claimGone, hnone]
  have hclaims : s.claims v = ((s.rank v).selected.toList.map (s.copyMux v)).filter (· ≠ localMux) ++ [x] := by
    simp [State.claims, he, htgt, hx, hloc]
  have hkeep : ∀ y ∈ ((s.rank v).selected.toList.map (s.copyMux v)).filter (· ≠ localMux), t.claimCount y ≠ 0 := by
    intro y hy
    refine claimCount_ne_zero (v := v) ((claims_of_no_target (by rw [hrank])).mpr ⟨he, ?_⟩)
    rw [hrank]
    cases hs : (s.rank v).selected with
    | none => simp [hs] at hy
    | some sel => simp [hs] at hy; exact ⟨⟨sel, rfl, hy.1.symm⟩, hy.2⟩
  have hfold : ∀ l : List Nat, (∀ y ∈ l, t.claimCount y ≠ 0) → State.settleClaims (l ++ [x]) t = t.dropRequest x := by
    intro l hl
    induction l with
    | nil => simp only [State.settleClaims, List.nil_append, List.foldl_cons, List.foldl_nil, hzero, if_true, hgone]
    | cons y l ih =>
      have hy := hl y List.mem_cons_self
      have htail := ih (fun z hz => hl z (List.mem_cons_of_mem _ hz))
      simp only [State.settleClaims] at htail ⊢
      simp only [List.cons_append, List.foldl_cons, if_neg hy, htail]
  simp only [State.dropTarget, htgt, State.putClaims]
  rw [hclaims]
  exact hfold _ hkeep

theorem unpinCopy_of_no_pin {s : State} {v : Nat} (h : (s.rank v).pin = none) : s.unpinCopy v = s := by
  simp only [State.unpinCopy, h]

/-- An UNPIN that drops no target clears the pin and evaluates the service (R145). -/
theorem unpinCopy_of_kept {s : State} {v p : Nat} (hpin : (s.rank v).pin = some p)
    (h : ¬((s.rank v).target = some p ∧ (s.rank v).cutting = false)) :
    s.unpinCopy v = (s.putRank v { s.rank v with pin := none }).evaluate v .other := by
  simp only [State.unpinCopy, hpin, if_neg h]

/-- An UNPIN that drops the pinned copy as target withdraws its host request, when nothing else claims it (R145, R138). -/
theorem unpinCopy_of_dropped {s : State} (hcan : s.Canonical) {v p x : Nat} (hpin : (s.rank v).pin = some p)
    (htgt : (s.rank v).target = some p) (hcut : (s.rank v).cutting = false) (he : (s.service v).enabled = true)
    (hx : s.copyMux v p = x) (hloc : x ≠ localMux) (hhost : s.hosted x = false)
    (hsel : ∀ sel, (s.rank v).selected = some sel → s.copyMux v sel ≠ x) (hother : ∀ u, u ≠ v → x ∉ s.claims u) :
    s.unpinCopy v =
      ((s.putRank v { s.rank v with pin := none, target := none, filing := none }).dropRequest x).evaluate v .other := by
  let t := s.putRank v { s.rank v with pin := none }
  have ht : t.Canonical := { hcan with ranks := tab_wf_set _ _ _ _ hcan.ranks }
  have hrank : t.rank v = { s.rank v with pin := none } := rank_putRank_same hcan v _
  have hdrop := dropTarget_withdraws ht he (by rw [hrank]; exact htgt) hx hloc hhost (by rw [hrank]; exact hsel)
    (fun u hu => by rw [claims_putRank_other s hu]; exact hother u hu)
  rw [hrank, putRank_putRank hcan] at hdrop
  simp only [State.unpinCopy, hpin]
  rw [if_pos ⟨htgt, hcut⟩, hdrop]

/-! ## The commands -/

theorem enabled_of_pin {s : State} {c : Cmd} (h : s.accepts c .pin) : (s.service c.index).enabled = true := by
  have hlast := passes_of_mem h.2 (k := { fails := !((s.service c.index).enabled &&
    (s.copy (copyIndex c.index (c.operand 0))).defined), outcome := .unknown, detail := 0 }) (by simp [State.checksOf])
  simp only [Bool.not_eq_false', Bool.and_eq_true] at hlast
  exact hlast.1

theorem enabled_of_unpin {s : State} {c : Cmd} (h : s.accepts c .unpin) : (s.service c.index).enabled = true := by
  have hlast := passes_of_mem h.2 (k := { fails := !(s.service c.index).enabled, outcome := .unknown, detail := 0 })
    (by simp [State.checksOf])
  simpa using hlast

/-- An evaluation that asks for a cut or changes the ranking record alone hands nothing on. -/
theorem quiet_of_decided {s t : State} {v : Nat} (h : ∃ k, s.RankOnly t v k ∨ ∃ y, s.CutAsked t v y k) :
    t.mgmt = s.mgmt ∧ t.notices = s.notices ∧ t.settled = s.settled := by
  obtain ⟨k, ⟨-, -, ht⟩ | ⟨y, -, -, -, ht⟩⟩ := h
  all_goals rw [ht]; exact ⟨rfl, rfl, rfl⟩

/-- Settles O20: the six cases of R145, each by what its evaluation does. -/
theorem pinAndUnpin : Obligations.PinAndUnpin := by
  intro s c rest hcan h
  let u := s.setInbound rest
  have hu : u.Canonical := { hcan with }
  have settle {i : Instr} {effect : State → State} (ha : s.accepts c i)
      (hc : commandOf i c u = u.checked c (s.checksOf c i) (fun w => (effect w).answer c .done 0 (.bytes []))) {t : State}
      (ht : effect u = t) (hq : t.mgmt = s.mgmt ∧ t.notices = s.notices ∧ t.settled = s.settled) :
      exec i s = .next (t.withReply (doneReply c (.bytes []))) :=
    exec_accepted_quiet h ha hc (by rw [ht]; exact answer_room _ _ _ _ _ (by rw [hq.1]; exact h.room))
      (hq.2.1.trans h.quiet.1) (hq.2.2.trans h.quiet.2.1)
  have pin {t : State} (ha : s.accepts c .pin) := settle (i := .pin) (t := t) ha (commandPin_eq c u)
  have unpin {t : State} (ha : s.accepts c .unpin) := settle (i := .unpin) (t := t) ha (commandUnpin_eq c u)
  refine ⟨fun ha hcut => ?pinCutting, fun ha hcut hsel htgt hdeg hq => ?pinSelected, fun s1 t ha hcut hs1 ht hdec => ?pinDecided,
    fun ha hpin => ?unpinNone, fun ha hcut hpin => ?unpinCutting, fun p x s1 t ha hcut hpin hx hs1 ht hdec => ?unpinDecided⟩
  case pinCutting =>
    refine pin ha (evaluate_of_cutting ?_ _) ⟨rfl, rfl, rfl⟩
    rw [rank_putRank_same hu]
    exact hcut
  case pinSelected =>
    exact pin ha (evaluate_of_pin_selected hu (enabled_of_pin ha) (k := { s.rank c.index with pin := some (c.operand 0) })
      ⟨hcut, rfl, hsel, htgt, hdeg⟩ hq _) ⟨rfl, rfl, rfl⟩
  case pinDecided =>
    have hquiet := quiet_of_decided hdec
    rw [hs1] at hquiet
    exact pin ha (by rw [ht, hs1]; rfl) hquiet
  case unpinNone =>
    have hstand : u.unpinCopy c.index = u := unpinCopy_of_no_pin hpin
    exact unpin ha hstand ⟨rfl, rfl, rfl⟩
  case unpinCutting =>
    obtain ⟨p, hp⟩ := Option.ne_none_iff_exists'.mp hpin
    refine unpin ha ((unpinCopy_of_kept (s := u) hp (fun hboth => ?_)).trans (evaluate_of_cutting ?_ _)) ⟨rfl, rfl, rfl⟩
    · exact absurd (hboth.2.symm.trans hcut) (by decide)
    · rw [rank_putRank_same hu]
      exact hcut
  case unpinDecided =>
    have hquiet := quiet_of_decided hdec
    rcases hs1 with ⟨htgt, hs1⟩ | ⟨htgt, hloc, hhost, hsel, hother, hs1⟩
    · rw [hs1] at hquiet
      refine unpin ha ((unpinCopy_of_kept (s := u) hpin (fun hboth => htgt hboth.1)).trans ?_) hquiet
      rw [ht, hs1]
      rfl
    · rw [hs1] at hquiet
      refine unpin ha ((unpinCopy_of_dropped hu hpin htgt hcut (enabled_of_unpin ha) hx.symm hloc hhost hsel hother).trans ?_)
        hquiet
      rw [ht, hs1]
      rfl

end Sys2Proof.Proofs
end

section
/-! SUPPORT. What the hand-overs of a table write leave as it was, and the proofs of the obligations about the COPY and
MULTIPLEX writes (R12, R14, R16, R17). -/

namespace Sys2Proof.Proofs
open Sys2Proof Sys2Proof.Machine Sys2Proof.Laws

set_option Elab.async false

/-! ## The frame of the hand-overs -/

/-- What no hand-over changes: the loaded tables, the inbound queue, the waiting replies, and the rest of a command's frame. -/
structure HandOverFrame (s t : State) : Prop where
  tables : t.tables = s.tables
  inbound : t.inbound = s.inbound
  replies : t.mgmt.replies = s.mgmt.replies
  command : s.CommandFrame t

theorem HandOverFrame.refl (s : State) : HandOverFrame s s := ⟨rfl, rfl, rfl, rfl, rfl, rfl, rfl, rfl, rfl⟩

theorem HandOverFrame.trans {s t u : State} (h : HandOverFrame s t) (h' : HandOverFrame t u) : HandOverFrame s u := by
  obtain ⟨hp, hn, hc, hl, hprot, hr⟩ := h.command
  obtain ⟨hp', hn', hc', hl', hprot', hr'⟩ := h'.command
  exact ⟨h'.tables.trans h.tables, h'.inbound.trans h.inbound, h'.replies.trans h.replies, hp'.trans hp, hn'.trans hn,
    hc'.trans hc, hl'.trans hl, hprot'.trans hprot, hr'.trans hr⟩

theorem handOverFrame_of_prim {fl : Bool} {w : Nat} {s t : State} (p : Prim fl w s t) (hw : w ≤ 1) : HandOverFrame s t := by
  cases p with
  | mgmt m _ hr => exact ⟨rfl, rfl, hr.resolve_left (by omega), rfl, rfl, rfl, rfl, rfl, rfl⟩
  | life h => omega
  | now h => omega
  | tables h => omega
  | clock h => omega
  | inbound h => omega
  | resetting h => omega
  | noMismatch h => omega
  | noLives h => omega
  | noRanks h => omega
  | noGates h => omega
  | noCuts h => omega
  | prot h => omega
  | _ => exact ⟨rfl, rfl, rfl, rfl, rfl, rfl, rfl, rfl, rfl⟩

/-- A chain of updates that hand-overs may make keeps the frame. -/
theorem handOverFrame_of_reach {fl : Bool} {w : Nat} {s t : State} (h : Reach fl w s t) (hw : w ≤ 1) : HandOverFrame s t :=
  h.keeps (P := HandOverFrame s) (fun _ _ p hs => hs.trans (handOverFrame_of_prim p hw)) (.refl s)

section stored
variable {s : State} {c : Cmd} {rest : List Cmd}

/-- An accepted write of a table entry: its effect on the loaded tables is `T`, all else of it lies within what hand-overs may
change, and then come the reply and the hand-overs. -/
theorem exec_stored (h : s.Ready c rest) {i : Instr} (ha : s.accepts c i) {store : State → State} {clamped : Bool}
    {entry : List Byte}
    (hc : commandOf i c (s.setInbound rest) = (s.setInbound rest).checked c (s.checksOf c i)
      (fun u => (store u).answerStored c clamped entry))
    {T : Tables} (hT : T.settings = s.settings)
    (hstore : Reach false 1 ((s.setInbound rest).setTables T) (store (s.setInbound rest))) :
    ∃ t, exec i s = .next t ∧
      t = (State.drain Config.handOverFuel
        ((store (s.setInbound rest)).withReply (storedReply c clamped entry))).setSettled [] ∧
      t.tables = T ∧ t.mgmt.replies = s.mgmt.replies ++ [.reply s.settings.replyId (storedReply c clamped entry)] ∧
      t.inbound = rest ∧ s.CommandFrame t := by
  have hframe := handOverFrame_of_reach hstore (Nat.le_refl 1)
  have hanswer : (store (s.setInbound rest)).answerStored c clamped entry =
      (store (s.setInbound rest)).withReply (storedReply c clamped entry) :=
    answer_room _ _ _ _ _ (by rw [hframe.replies]; exact h.room)
  have hexec : exec i s = .next ((State.drain Config.handOverFuel
      ((store (s.setInbound rest)).answerStored c clamped entry)).setSettled []) := exec_accepted h ha hc
  rw [hanswer] at hexec
  clear hanswer hc
  generalize store (s.setInbound rest) = v at *
  have hdrain := handOverFrame_of_reach (fl := false) (w := 1)
    (reach_drain Config.handOverFuel (by omega) (fun e => by cases e) (.refl (s := v.withReply (storedReply c clamped entry))))
    (Nat.le_refl 1)
  have hreplyId : v.settings.replyId = s.settings.replyId := by rw [State.settings, hframe.tables]; exact congrArg _ hT
  refine ⟨_, hexec, rfl, ?_⟩
  obtain ⟨hp, hn, hcl, hl, hprot, hr⟩ := hframe.command
  obtain ⟨hp', hn', hcl', hl', hprot', hr'⟩ := hdrain.command
  refine ⟨hdrain.tables.trans hframe.tables, ?_, hdrain.inbound.trans hframe.inbound, hp'.trans hp, hn'.trans hn,
    hcl'.trans hcl, hl'.trans hl, hprot'.trans hprot, hr'.trans hr⟩
  refine hdrain.replies.trans ?_
  simp only [State.withReply, State.setMgmt_mgmt, Mgmt.replies, List.filter_append, hreplyId]
  exact congrArg (· ++ _) hframe.replies

end stored

/-! ## The frame of the track lists, the indications and the sweep sets -/

/-- `t` is `s` but for the track lists, the ranking records, the indications, of which no latched flag is cleared, and the
lists of the Management Unit. -/
structure SideFrame (s t : State) : Prop where
  eq : t = { s with trackers := t.trackers, ranks := t.ranks, inds := t.inds, mgmt := t.mgmt }
  latched : ∀ k i kd, s.latched k i kd = true → t.latched k i kd = true

theorem SideFrame.refl (s : State) : SideFrame s s := ⟨rfl, fun _ _ _ h => h⟩

theorem SideFrame.trans {s t u : State} (h : SideFrame s t) (h' : SideFrame t u) : SideFrame s u :=
  ⟨h'.eq.trans (by rw [h.eq]), fun k i kd hl => h'.latched k i kd (h.latched k i kd hl)⟩

theorem SideFrame.ite {s t u : State} {b : Prop} [Decidable b] (ht : SideFrame s t) (hu : SideFrame s u) :
    SideFrame s (if b then t else u) := by
  split
  · exact ht
  · exact hu

theorem sideFrame_foldl {α : Type} (l : List α) {f : State → α → State} (hf : ∀ u a, SideFrame u (f u a)) (s : State) :
    SideFrame s (l.foldl f s) :=
  foldl_keeps (SideFrame s) f (fun _ a hb => hb.trans (hf _ a)) l s (.refl s)

theorem sideFrame_setMgmt (s : State) (m : Mgmt) : SideFrame s (s.setMgmt m) := ⟨rfl, fun _ _ _ h => h⟩

theorem sideFrame_putTracker (s : State) (n : Nat) (x : Tracker) : SideFrame s (s.putTracker n x) := ⟨rfl, fun _ _ _ h => h⟩

theorem sideFrame_putRank (s : State) (v : Nat) (k : Ranking) : SideFrame s (s.putRank v k) := ⟨rfl, fun _ _ _ h => h⟩

theorem sideFrame_buildReport (s : State) : SideFrame s s.buildReport := .ite (.refl s) (sideFrame_setMgmt s _)

theorem sideFrame_offerRecord (s : State) (r : EventRecord) : SideFrame s (s.offerRecord r) :=
  .ite (.refl s) (.ite ((sideFrame_setMgmt s _).trans (sideFrame_buildReport _)) (sideFrame_setMgmt s _))

/-- A flag that is set in a table stays set when another, or the same, is set. -/
theorem get_set_true {t : Tab Bool} {j : Nat} (h : Tab.get false t j = true) (i : Nat) :
    Tab.get false (Tab.set false t i true) j = true := by
  by_cases hj : j = i
  · rw [hj]
    exact tab_get_set_ne _ _ _ _ (by decide)
  · rw [tab_get_set_other _ _ _ _ _ hj, h]

theorem sideFrame_raise (s : State) (k : SourceKind) (i : Nat) (kd : Kind) (val : Bool) : SideFrame s (s.raise k i kd val) :=
  .ite ⟨rfl, fun _ _ _ h => h⟩
    (.trans
      (t := s.setInds { latched := Tab.set false s.inds.latched (indKey k i kd) true,
                        status := Tab.set false s.inds.status (indKey k i kd) val })
      ⟨rfl, fun _ _ _ h => get_set_true h _⟩ (sideFrame_offerRecord _ _))

theorem sideFrame_raiseOn (s : State) (x : Nat) (kd : Kind) : SideFrame s (s.raiseOn x kd) :=
  .ite (sideFrame_raise s _ _ _ _) (sideFrame_raise s _ _ _ _)

/-! ## Track lists -/

theorem sideFrame_putEntries (s : State) (n : Nat) (es : List TrackEntry) : SideFrame s (s.putEntries n es) :=
  sideFrame_putTracker s n _

theorem sideFrame_removeOn (s : State) (x i : Nat) : SideFrame s (s.removeOn x i) := by
  unfold State.removeOn
  split
  · exact .refl s
  · exact sideFrame_putEntries s _ _

theorem sideFrame_mergeOn (s : State) (x i : Nat) : SideFrame s (s.mergeOn x i) := by
  unfold State.mergeOn
  split
  · exact .refl s
  · exact .ite ((sideFrame_putEntries s _ _).trans (sideFrame_raiseOn _ _ _)) (sideFrame_putEntries s _ _)

theorem sideFrame_followSignatures (s : State) (x : Nat) (old : List Nat) : SideFrame s (s.followSignatures x old) := by
  unfold State.followSignatures
  split
  · exact .refl s
  · exact .ite ((sideFrame_putEntries s _ _).trans (sideFrame_raiseOn _ _ _)) (sideFrame_putEntries s _ _)

theorem sideFrame_rebuildLocal (s : State) : SideFrame s s.rebuildLocal :=
  .ite (sideFrame_putEntries s _ _) ((sideFrame_putEntries s _ _).trans (sideFrame_raiseOn _ _ _))

theorem sideFrame_retrack (s : State) (old new : CopyRec) (i : Nat) : SideFrame s (s.retrack old new i) := by
  have hremove (u : State) : SideFrame u (if old.defined && !decide (old.mux = localMux) then u.removeOn old.mux i else u) :=
    .ite (sideFrame_removeOn u _ _) (.refl u)
  have hmerge (u : State) : SideFrame u (if new.defined && !decide (new.mux = localMux) then u.mergeOn new.mux i else u) :=
    .ite (sideFrame_mergeOn u _ _) (.refl u)
  have hboth := (hremove s).trans (hmerge _)
  exact .ite (hboth.trans (sideFrame_rebuildLocal _)) hboth

theorem sideFrame_leaveSweeps (s : State) (x : Nat) : SideFrame s (s.leaveSweeps x) := by
  refine sideFrame_foldl _ (fun u v => ?_) s
  exact .ite (.ite ((sideFrame_putRank u _ _).trans (sideFrame_raise _ _ _ _ _)) (sideFrame_putRank u _ _)) (.refl u)

/-! ## COPY -/

/-- A COPY write changes its entry alone; all else of it lies within what hand-overs may change (R14). -/
theorem storeCopy_reach {s : State} (hcan : s.Canonical) (i : Nat) (new : CopyRec) :
    ∃ copies : Tab CopyRec, (∀ j, Tab.get {} copies j = if j = i then new else s.copy j) ∧
      Reach false 1 (s.setTables { s.tables with copies := copies }) (s.storeCopy i new) := by
  by_cases hnew : new = s.copy i
  · refine ⟨s.tables.copies, fun j => ?_, ?_⟩
    · split
      · next hj => rw [hj, hnew]; rfl
      · rfl
    · have hstand : s.storeCopy i new = s := if_pos hnew
      rw [hstand]
      exact .refl
  · refine ⟨Tab.set {} s.tables.copies i new, fun j => ?_, ?_⟩
    · split
      · next hj => rw [hj]; exact tab_get_set_same _ _ 0 _ _ hcan.tables.2.1
      · next hj => exact tab_get_set_other _ _ _ _ _ hj
    · have hstore : s.storeCopy i new = (State.retrack (if resetsLive (s.service (i / 4)).comps (s.copy i) new then
          (s.putCopy i new).putLive i {} else s.putCopy i new) (s.copy i) new i).evaluate (i / 4) .other := if_neg hnew
      rw [hstore]
      have hlive : Reach false 1 (s.putCopy i new) (if resetsLive (s.service (i / 4)).comps (s.copy i) new then
          (s.putCopy i new).putLive i {} else s.putCopy i new) :=
        reach_ite (Reach.refl.step (.live (by omega) i {} (fun _ _ => live_default_ok))) .refl
      exact reach_evaluate (reach_retrack hlive _ _ _) _ _

theorem resetsLive_self (k : Nat) (r : CopyRec) : resetsLive k r r = false := by simp [resetsLive]

/-- In a disabled service a COPY write does nothing but store the entry, reset the live fields when the reception changes, and
lead the track lists (R14). -/
theorem storeCopy_of_disabled {s : State} (hcan : s.Canonical) {i : Nat} (new : CopyRec)
    (hdis : (s.service (i / 4)).enabled = false) :
    (s.storeCopy i new).notices = s.notices ∧ ∀ j, (s.storeCopy i new).live j =
      if j = i ∧ resetsLive (s.service (i / 4)).comps (s.copy i) new = true then {} else s.live j := by
  by_cases hnew : new = s.copy i
  · have hstand : s.storeCopy i new = s := if_pos hnew
    rw [hstand, hnew, resetsLive_self]
    exact ⟨rfl, fun j => by simp⟩
  · let u := if resetsLive (s.service (i / 4)).comps (s.copy i) new then (s.putCopy i new).putLive i {} else s.putCopy i new
    have hframe := sideFrame_retrack u (s.copy i) new i
    have hservice : ((u.retrack (s.copy i) new i).service (i / 4)).enabled = false := by
      rw [hframe.eq]
      show (u.service (i / 4)).enabled = false
      unfold u
      split <;> exact hdis
    have hstore : s.storeCopy i new = u.retrack (s.copy i) new i :=
      (if_neg hnew).trans (evaluate_of_disabled hservice _)
    rw [hstore, hframe.eq]
    refine ⟨?_, fun j => ?_⟩
    · show u.notices = _
      unfold u
      split <;> rfl
    · show u.live j = _
      unfold u
      split
      · next hreset =>
        simp only [hreset, and_true]
        split
        · next hj => rw [hj]; exact tab_get_set_same _ _ 0 _ _ hcan.lives
        · next hj => exact tab_get_set_other _ _ _ _ _ hj
      · next hreset => rw [if_neg (fun hboth => hreset hboth.2)]; rfl

/-- Settles O16: the entry and the frame from the chain of updates, the live fields from the disabled service's quiet write. -/
theorem copyWriteStoresEntry : Obligations.CopyWriteStoresEntry := by
  intro s c rest hcan h ha
  have hu : (s.setInbound rest).Canonical := { hcan with }
  obtain ⟨copies, hread, hreach⟩ := storeCopy_reach hu c.index (readCopy c.operands)
  obtain ⟨t, hexec, ht, htables, hreplies, hinbound, hframe⟩ := exec_stored h ha
    (store := fun u => u.storeCopy c.index (readCopy c.operands)) rfl (T := { s.tables with copies := copies }) rfl hreach
  refine ⟨t, hexec, fun i => ?entry, by rw [htables], hreplies, hinbound, hframe, fun hdis i => ?live⟩
  case entry =>
    show Tab.get {} t.tables.copies i = _
    rw [htables]
    exact hread i
  case live =>
    obtain ⟨hquiet, hlive⟩ := storeCopy_of_disabled hu (readCopy c.operands) hdis
    rw [ht, drain_nil]
    · exact hlive i
    · exact hquiet.trans h.quiet.1

/-! ## MULTIPLEX -/

theorem storeMux_reach {s : State} (hcan : s.Canonical) (x : Nat) (new : MuxRec) :
    (∀ y, Tab.get {} (Tab.set {} s.tables.muxes x new) y = if y = x then new else s.mux y) ∧
      Reach false 1 (s.putMux x new) (s.storeMux x new) := by
  refine ⟨fun y => ?_, ?_⟩
  · split
    · next hy => rw [hy]; exact tab_get_set_same _ _ 0 _ _ hcan.tables.2.2.1
    · next hy => exact tab_get_set_other _ _ _ _ _ hy
  · have hundef : Reach false 1 (s.putMux x new) (if (s.mux x).defined && !new.defined then (s.putMux x new).undefineMux x
        else s.putMux x new) :=
      reach_ite (reach_dropUrgent (reach_putCensusRec (reach_putMismatched .refl x false) x none
        (fun _ _ e => by cases e)) x) .refl
    have hfollow := reach_ite (b := new.sigs = (s.mux x).sigs) hundef (reach_followSignatures hundef x (s.mux x).sigs)
    exact reach_ite (reach_post hfollow _) hfollow

/-- The multiplex has no census record and no mismatch status, and no tuner waits for a pick. -/
structure Undefined (x : Nat) (s : State) : Prop where
  census : s.censusRec x = none
  mismatch : s.mismatched x = false
  noPicks : s.NoPicks

theorem Undefined.of_side {x : Nat} {s t : State} (h : Undefined x s) (ht : SideFrame s t) : Undefined x t := by
  rw [ht.eq]
  exact ⟨h.census, h.mismatch, h.noPicks⟩

theorem tryPicks_of_noPicks {s : State} (h : s.NoPicks) : s.tryPicks = s := by
  have hfold : ∀ l : List Nat, (∀ t ∈ l, s.pickable t = false) →
      l.foldl (fun s t => if s.pickable t then State.tryPick t 129 [] s else s) s = s := by
    intro l hl
    induction l with
    | nil => rfl
    | cons t l ih =>
      rw [List.foldl_cons, hl t List.mem_cons_self]
      exact ih (fun u hu => hl u (List.mem_cons_of_mem _ hu))
  exact hfold _ (fun t ht => h t (List.mem_range.mp ht))

/-- With no tuner to pick for, a waiting try of picks changes nothing. -/
theorem Undefined.drain_pickTry {x : Nat} {s : State} (h : Undefined x s) (hn : s.notices = [.pickTry]) (n : Nat) :
    Undefined x (State.drain (n + 1) s) := by
  rw [drain_cons _ _ _ _ hn]
  show Undefined x (State.drain n (s.setNotices []).tryPicks)
  rw [tryPicks_of_noPicks (s := s.setNotices []) h.noPicks, drain_nil _ _ rfl]
  exact ⟨h.census, h.mismatch, h.noPicks⟩

/-- The notice that a multiplex has left the urgent list reaches the sweep sets alone. -/
theorem Undefined.drain_dropped {x : Nat} {s : State} (h : Undefined x s) (hn : s.notices = [.dropped x, .pickTry]) (n : Nat) :
    Undefined x (State.drain (n + 2) s) := by
  rw [drain_cons _ _ _ _ hn]
  have hframe := sideFrame_leaveSweeps (s.setNotices [.pickTry]) x
  have hrest : Undefined x (s.setNotices [.pickTry]) := ⟨h.census, h.mismatch, h.noPicks⟩
  exact (hrest.of_side hframe).drain_pickTry (by rw [hframe.eq]; rfl) n

/-- What undefining a multiplex clears, and what it hands on (R52, R69, R111). -/
theorem undefineMux_undefined {s : State} (hcensus : Tab.wf none s.censusRecs = true) (hmismatch : Tab.wf false s.mismatch = true)
    (h : s.NoPicks) (hn : s.notices = []) (x : Nat) :
    Undefined x (s.undefineMux x) ∧ ((s.undefineMux x).notices = [] ∨ (s.undefineMux x).notices = [.dropped x]) := by
  have hcleared : Undefined x ((s.putMismatched x false).putCensusRec x none) :=
    ⟨tab_get_set_same _ _ 0 _ _ hcensus, tab_get_set_same _ _ 0 _ _ hmismatch, h⟩
  unfold State.undefineMux State.dropUrgent
  split
  · refine ⟨⟨hcleared.census, hcleared.mismatch, hcleared.noPicks⟩, .inr ?_⟩
    show s.notices ++ [.dropped x] = _
    rw [hn]
    rfl
  · exact ⟨hcleared, .inl hn⟩

/-- A write that undefines a multiplex clears its records, and hands on a try of picks (R17, R113). -/
theorem storeMux_of_undefines {s : State} (hcan : s.Canonical) (h : s.NoPicks) (hn : s.notices = []) {x : Nat} {new : MuxRec}
    (hold : (s.mux x).defined = true) (hnew : new.defined = false) : Undefined x (s.storeMux x new) ∧
      ((s.storeMux x new).notices = [.pickTry] ∨ (s.storeMux x new).notices = [.dropped x, .pickTry]) := by
  obtain ⟨hund, hnotices⟩ := undefineMux_undefined (s := s.putMux x new) hcan.censusRecs hcan.mismatch h hn x
  let u := (s.putMux x new).undefineMux x
  let t := if new.sigs = (s.mux x).sigs then u else u.followSignatures x (s.mux x).sigs
  have hframe : SideFrame u t := .ite (.refl u) (sideFrame_followSignatures u _ _)
  have hstore : s.storeMux x new = t.post .pickTry := by
    have hwakes : wakesPicks (s.mux x) new = true := by simp [wakesPicks, hold, hnew]
    simp only [State.storeMux, hwakes, hold, hnew, Bool.not_false, Bool.and_self, if_true]
    rfl
  have ht := hund.of_side hframe
  have htn : t.notices = u.notices := by rw [hframe.eq]
  rw [hstore]
  refine ⟨⟨ht.census, ht.mismatch, ht.noPicks⟩, ?_⟩
  rw [State.post, State.setNotices_notices, htn]
  exact hnotices.imp (fun e => by rw [e]; rfl) (fun e => by rw [e]; rfl)

/-- Settles O17: the entry and the frame from the chain of updates, the cleared records by taking the hand-overs. -/
theorem multiplexWriteStoresEntry : Obligations.MultiplexWriteStoresEntry := by
  intro s c rest hcan h ha
  have hu : (s.setInbound rest).Canonical := { hcan with }
  obtain ⟨hread, hreach⟩ := storeMux_reach hu c.index (readMux c.operands)
  obtain ⟨t, hexec, ht, htables, hreplies, hinbound, hframe⟩ := exec_stored h ha
    (store := fun u => u.storeMux c.index (readMux c.operands)) rfl
    (T := { s.tables with muxes := Tab.set {} s.tables.muxes c.index (readMux c.operands) }) rfl hreach
  refine ⟨t, hexec, fun x => ?entry, by rw [htables], hreplies, hinbound, hframe, fun hpicks hold hnew => ?undefined⟩
  case entry =>
    show Tab.get {} t.tables.muxes x = _
    rw [htables]
    exact hread x
  case undefined =>
    obtain ⟨hund, hnotices⟩ := storeMux_of_undefines hu hpicks h.quiet.1 hold hnew
    have hreply : Undefined c.index (((s.setInbound rest).storeMux c.index (readMux c.operands)).withReply (storedReply c
        (!decide (fieldAt c.operands 3 = (readMux c.operands).dwell)) (muxBytes (readMux c.operands)))) :=
      ⟨hund.census, hund.mismatch, hund.noPicks⟩
    have hdrain := hnotices.elim (fun hn => hreply.drain_pickTry hn 99999) (fun hn => hreply.drain_dropped hn 99998)
    rw [ht]
    exact ⟨hdrain.census, hdrain.mismatch⟩

end Sys2Proof.Proofs
end

section
/-! SUPPORT. What the Tuner Bus Controller, the Quality Monitor, the Tuner Pool Manager and the Scan Scheduler leave as it
was: the loaded tables, the ranking records, the gates and the cut records; no latched flag is cleared, and no cut is done. -/

namespace Sys2Proof.Proofs
open Sys2Proof Sys2Proof.Machine Sys2Proof.Laws

set_option Elab.async false

/-- `t` has the loaded tables, ranking records, gates and cut records of `s`, and every latched flag of `s`; no cut done waits
in it that does not wait in `s`. -/
structure PoolFrame (s t : State) : Prop where
  tables : t.tables = s.tables
  ranks : t.ranks = s.ranks
  gates : t.gates = s.gates
  cuts : t.cuts = s.cuts
  latched : ∀ k i kd, s.latched k i kd = true → t.latched k i kd = true
  noCutDone : ∀ v slot, .cutDone v slot ∈ t.notices → .cutDone v slot ∈ s.notices

theorem PoolFrame.refl (s : State) : PoolFrame s s := ⟨rfl, rfl, rfl, rfl, fun _ _ _ h => h, fun _ _ h => h⟩

section pool
variable {s t : State}

theorem PoolFrame.trans {u : State} (h : PoolFrame s t) (h' : PoolFrame t u) : PoolFrame s u :=
  ⟨h'.tables.trans h.tables, h'.ranks.trans h.ranks, h'.gates.trans h.gates, h'.cuts.trans h.cuts,
    fun k i kd hl => h'.latched k i kd (h.latched k i kd hl), fun v slot hn => h.noCutDone v slot (h'.noCutDone v slot hn)⟩

/-- A change of any field that the frame does not name. -/
theorem PoolFrame.same {u : State} (h : PoolFrame s t) (htables : u.tables = t.tables := by rfl)
    (hranks : u.ranks = t.ranks := by rfl) (hgates : u.gates = t.gates := by rfl) (hcuts : u.cuts = t.cuts := by rfl)
    (hlatched : u.inds.latched = t.inds.latched := by rfl) (hnotices : u.notices = t.notices := by rfl) : PoolFrame s u :=
  h.trans ⟨htables, hranks, hgates, hcuts, fun _ _ _ hl => by rw [State.latched, hlatched]; exact hl,
    fun _ _ hn => hnotices ▸ hn⟩

theorem PoolFrame.ite {b : Prop} [Decidable b] {u v : State} (hu : PoolFrame s u) (hv : PoolFrame s v) :
    PoolFrame s (if b then u else v) := by
  split
  · exact hu
  · exact hv

theorem poolFrame_foldl {α : Type} (l : List α) {f : State → α → State}
    (hf : ∀ u a, PoolFrame s u → PoolFrame s (f u a))
    (h : PoolFrame s t) : PoolFrame s (l.foldl f t) :=
  foldl_keeps (PoolFrame s) f hf l t h

theorem poolFrame_post (h : PoolFrame s t) (n : Notice) (hn : ∀ v slot, n ≠ .cutDone v slot := by intro _ _ e; cases e) :
    PoolFrame s (t.post n) := by
  refine h.trans ⟨rfl, rfl, rfl, rfl, fun _ _ _ hl => hl, fun v slot hm => ?_⟩
  rcases List.mem_append.mp hm with hm | hm
  · exact hm
  · exact absurd (List.mem_singleton.mp hm).symm (hn v slot)

/-- An operation that touches the indications without clearing a latched flag, and the lists of the Management Unit. -/
theorem poolFrame_of_side {u : State} (h : PoolFrame s t) (hside : SideFrame t u) (hranks : u.ranks = t.ranks) :
    PoolFrame s u := by
  refine h.trans ⟨?_, hranks, ?_, ?_, hside.latched, fun _ _ hn => ?_⟩
  · rw [hside.eq]
  · rw [hside.eq]
  · rw [hside.eq]
  · rw [hside.eq] at hn; exact hn

/-- A chain of level 0 leaves the ranking records as they are. -/
theorem ranks_of_reach {u v : State} (h : Reach false 0 u v) : v.ranks = u.ranks := by
  refine h.keeps (P := fun w => w.ranks = u.ranks) (fun a b p e => ?_) rfl
  cases p with
  | rank hw => omega
  | noRanks hw => omega
  | _ => exact e

theorem poolFrame_raise (h : PoolFrame s t) (k i kd val) : PoolFrame s (t.raise k i kd val) :=
  poolFrame_of_side h (sideFrame_raise t k i kd val) (ranks_of_reach (reach_raise .refl k i kd val))

theorem poolFrame_raiseOn (h : PoolFrame s t) (x kd) : PoolFrame s (t.raiseOn x kd) :=
  .ite (poolFrame_raise h _ _ _ _) (poolFrame_raise h _ _ _ _)

/-! ## Identifier Tracker -/

theorem poolFrame_buildTracker (h : PoolFrame s t) (n x) : PoolFrame s (t.buildTracker n x) :=
  .ite h.same (poolFrame_raiseOn h.same _ _)

theorem poolFrame_closeCensus (h : PoolFrame s t) (n x) : PoolFrame s (t.closeCensus n x) := by
  unfold State.closeCensus
  dsimp only
  split
  · exact h.same
  · exact .ite h.same (poolFrame_raiseOn h.same _ _)

/-! ## Tuner Bus Controller -/

theorem poolFrame_placeDeferred (h : PoolFrame s t) (b) : PoolFrame s (t.placeDeferred b) :=
  poolFrame_foldl _ (fun _ _ hu => .ite hu.same hu.same) h.same

theorem poolFrame_startNext (h : PoolFrame s t) (b) : PoolFrame s (t.startNext b) := by
  unfold State.startNext
  refine .ite ?_ h
  split
  · exact h
  · exact .ite (poolFrame_post h.same _) h.same

theorem poolFrame_kick (h : PoolFrame s t) : PoolFrame s t.kick :=
  poolFrame_foldl _ (fun _ _ hu => poolFrame_placeDeferred hu _) (poolFrame_foldl _ (fun _ _ hu => poolFrame_startNext hu _)
    (poolFrame_foldl _ (fun _ _ hu => poolFrame_placeDeferred hu _) h))

theorem poolFrame_endRun (h : PoolFrame s t) (b o) : PoolFrame s (t.endRun b o) := by
  unfold State.endRun
  split
  · exact h
  · exact poolFrame_kick (poolFrame_post (.ite (poolFrame_raise h.same _ _ _ _) h.same) _)

theorem poolFrame_endFailing (h : PoolFrame s t) (b) : PoolFrame s (t.endFailing b) := by
  unfold State.endFailing
  split
  · exact h
  · split
    · exact h
    · exact poolFrame_endRun h _ _

theorem poolFrame_defer (h : PoolFrame s t) (b d) : PoolFrame s (t.defer b d) := by
  unfold State.defer
  split <;> exact h.same

theorem poolFrame_requestRun (h : PoolFrame s t) (n p x) : PoolFrame s (t.requestRun n p x) := by
  unfold State.requestRun
  dsimp only
  split
  · exact h.same
  · split
    · exact poolFrame_defer h _ _
    · exact .ite (poolFrame_kick h.same) (poolFrame_defer h _ _)

theorem poolFrame_withdrawRun (h : PoolFrame s t) (n p) : PoolFrame s (t.withdrawRun n p) := by
  unfold State.withdrawRun
  split
  · exact poolFrame_post h.same _
  · split
    · exact poolFrame_kick (poolFrame_post h.same _)
    · split
      · exact h.same
      · exact h

/-! ## Quality Monitor -/

theorem poolFrame_completeReport (h : PoolFrame s t) (r) : PoolFrame s (t.completeReport r) := poolFrame_post h _

theorem poolFrame_completeHeld (h : PoolFrame s t) (n) : PoolFrame s (t.completeHeld n) := by
  unfold State.completeHeld
  dsimp only
  split
  · exact h
  · exact poolFrame_completeReport h.same _

theorem poolFrame_completeFresh (h : PoolFrame s t) (n m) : PoolFrame s (t.completeFresh n m) := by
  unfold State.completeFresh
  dsimp only
  split
  · exact h
  · exact poolFrame_completeReport h.same _

theorem poolFrame_measureOutcome (h : PoolFrame s t) (n o m) : PoolFrame s (t.measureOutcome n o m) := by
  unfold State.measureOutcome
  refine .ite h.same ?_
  dsimp only
  split
  · exact poolFrame_completeFresh h.same _ _
  · exact poolFrame_completeHeld h.same _

theorem poolFrame_qmEnd (h : PoolFrame s t) (n) : PoolFrame s (t.qmEnd n) :=
  have h1 := (poolFrame_completeHeld h n).same
  .ite (poolFrame_withdrawRun h1 _ _) h1

theorem poolFrame_laneIdle (h : PoolFrame s t) (n) : PoolFrame s (t.laneIdle n) := poolFrame_qmEnd h.same n

theorem poolFrame_laneHunt (h : PoolFrame s t) (n x) : PoolFrame s (t.laneHunt n x) := poolFrame_buildTracker h.same n x

/-! ## Tuner Pool Manager -/

theorem poolFrame_fileHost (h : PoolFrame s t) (x) : PoolFrame s (t.fileHost x) := by
  unfold State.fileHost
  split
  · exact poolFrame_raise h _ _ _ _
  · exact .ite h (poolFrame_post h.same _)
  · exact h

theorem poolFrame_claimGone (h : PoolFrame s t) (x) : PoolFrame s (t.claimGone x) := by
  unfold State.claimGone
  split
  · exact h.same
  · exact .ite (poolFrame_post h _) h

theorem poolFrame_settleClaims (h : PoolFrame s t) (l) : PoolFrame s (t.settleClaims l) :=
  poolFrame_foldl _ (fun _ _ hu => .ite (poolFrame_claimGone hu _) hu) h

theorem poolFrame_beginTune (h : PoolFrame s t) (n x k) : PoolFrame s (t.beginTune n x k) := poolFrame_requestRun h.same _ _ _

theorem poolFrame_enterFree (h : PoolFrame s t) (n) : PoolFrame s (t.enterFree n) := by
  unfold State.enterFree
  dsimp only
  split
  · exact h.same
  · exact poolFrame_post h.same _
  · split
    · exact poolFrame_post h.same _
    · exact .ite (poolFrame_post (poolFrame_beginTune h.same _ _ _) _) (poolFrame_post h.same _)

theorem poolFrame_tellFailure (h : PoolFrame s t) (n x k c) : PoolFrame s (t.tellFailure n x k c) := by
  unfold State.tellFailure
  split
  · exact poolFrame_post h _
  · exact poolFrame_post h _
  · exact poolFrame_post (poolFrame_raise h _ _ _ _) _
  · exact h

theorem poolFrame_failTune (h : PoolFrame s t) (n c) : PoolFrame s (t.failTune n c) :=
  have hraised := poolFrame_raise (poolFrame_laneIdle h n) _ _ _ _
  poolFrame_post (poolFrame_enterFree (poolFrame_tellFailure hraised.same _ _ _ _) _) _

theorem poolFrame_endWinding (h : PoolFrame s t) (n p) : PoolFrame s (t.endWinding n p) :=
  .ite h.same (poolFrame_enterFree h.same _)

theorem poolFrame_tunerOutcome (h : PoolFrame s t) (n p o) : PoolFrame s (t.tunerOutcome n p o) :=
  .ite (poolFrame_endWinding h _ _) (.ite (.ite (poolFrame_laneHunt h.same _ _) (poolFrame_failTune h _ _)) h)

theorem poolFrame_beginHosting (h : PoolFrame s t) (n) : PoolFrame s (t.beginHosting n) := h.same

theorem poolFrame_windDown (h : PoolFrame s t) (n b) : PoolFrame s (t.windDown n b) := by
  have h1 : PoolFrame s (t.putTuner n { t.tuner n with
      mux := none, work := none, acquire := none, relock := none, windTune := b, windRelease := (t.tunerRec n).release.isSome,
      state := if (b || (t.tunerRec n).release.isSome) = true then .releasing else (t.tuner n).state }) := h.same
  have h2 := PoolFrame.ite (b := b = true) (poolFrame_withdrawRun h1 n .tune) h1
  have h3 := PoolFrame.ite (b := (t.tunerRec n).release.isSome = true) (poolFrame_requestRun h2 n .release 0) h2
  exact .ite h3 (poolFrame_enterFree h3 n)

theorem poolFrame_release (h : PoolFrame s t) (n r) : PoolFrame s (t.release n r) := by
  unfold State.release
  have h1 : PoolFrame s (if (t.tuner n).state = TunerState.tuning then t else t.laneIdle n) := .ite h (poolFrame_laneIdle h n)
  refine poolFrame_post (poolFrame_windDown (PoolFrame.same (t := match (t.tuner n).mux with
    | some x => if t.hosts n x then (if (t.tuner n).state = TunerState.tuning then t else t.laneIdle n).post (.unhosted x)
      else (if (t.tuner n).state = TunerState.tuning then t else t.laneIdle n)
    | none => (if (t.tuner n).state = TunerState.tuning then t else t.laneIdle n)) ?_) _ _) _
  split
  · exact .ite (poolFrame_post h1 _) h1
  · exact h1

theorem poolFrame_endVisit (h : PoolFrame s t) (n o) : PoolFrame s (t.endVisit n o) := by
  unfold State.endVisit
  split
  · exact h
  · exact poolFrame_post h.same _

theorem poolFrame_visitStopped (h : PoolFrame s t) (n o) : PoolFrame s (t.visitStopped n o) :=
  poolFrame_post (poolFrame_endVisit h n o) _

theorem poolFrame_swap (h : PoolFrame s t) (x a l) : PoolFrame s (t.swap x a l) := by
  have hscan : PoolFrame s (((t.dropRequest x).visitStopped a .promoted).putRole a .live) :=
    (poolFrame_visitStopped (t := t.dropRequest x) h.same a .promoted).same
  have hhost := poolFrame_post (poolFrame_beginHosting hscan a) (.hosted x)
  exact poolFrame_post (.ite (poolFrame_enterFree hhost.same _) (poolFrame_release hhost _ _)) _

theorem poolFrame_serveByTune (h : PoolFrame s t) (x l) : PoolFrame s (t.serveByTune x l) := by
  refine .ite (poolFrame_beginTune h.same l x .host) (.ite ?_ ?_)
  · exact (poolFrame_release (t := t.markRequest x true) h.same l .live).same
  · exact poolFrame_release h.same _ _

theorem poolFrame_serveOne (h : PoolFrame s t) (x a) : PoolFrame s (t.serveOne x a) := by
  cases a with
  | unreachable => exact poolFrame_post (poolFrame_raise h.same _ _ _ _) _
  | swap a l => exact poolFrame_swap h _ _ _
  | tune l => exact poolFrame_serveByTune h _ _
  | waits => exact h

theorem poolFrame_serve (n : Nat) : ∀ {t : State}, PoolFrame s t → PoolFrame s (State.serve n t) := by
  induction n with
  | zero => exact fun h => h
  | succ n ih =>
    intro t h
    simp only [State.serve]
    split
    · exact h
    · exact ih (poolFrame_serveOne h _ _)

/-! ## Scan Scheduler -/

theorem poolFrame_takePick (h : PoolFrame s t) (n x p) : PoolFrame s (t.takePick n x p) := by
  have htune := poolFrame_beginTune h n x .visit
  unfold State.takePick
  generalize t.beginTune n x .visit = u at htune ⊢
  exact htune.same

theorem poolFrame_tryPick (h : PoolFrame s t) (n k : Nat) (l : List Nat) : PoolFrame s (State.tryPick n k l t) := by
  induction k generalizing l with
  | zero => exact h
  | succ k ih =>
    simp only [State.tryPick]
    split
    · exact h
    · split
      · exact poolFrame_takePick h _ _ _
      · exact h
      · exact ih _

theorem poolFrame_tryPicks (h : PoolFrame s t) : PoolFrame s t.tryPicks :=
  poolFrame_foldl _ (fun _ _ hu => .ite (poolFrame_tryPick hu _ _ _) hu) h

theorem poolFrame_placeUrgent (h : PoolFrame s t) (x) : PoolFrame s (t.placeUrgent x).1 := by
  unfold State.placeUrgent
  split
  · exact h
  · split
    · exact poolFrame_raise h _ _ _ _
    · split
      · exact poolFrame_raise h _ _ _ _
      · exact h.same

theorem poolFrame_sweepRequest (h : PoolFrame s t) (l) : PoolFrame s (t.sweepRequest l).1 := by
  have hplaced : PoolFrame s (l.foldl (fun (a : State × List Nat) x =>
      let p := a.1.placeUrgent x
      (p.1, if p.2 then a.2 ++ [x] else a.2)) (t, [])).1 :=
    foldl_keeps (fun p : State × List Nat => PoolFrame s p.1) _ (fun _ a hp => poolFrame_placeUrgent hp a) l (t, []) h
  exact .ite (poolFrame_post hplaced _) hplaced

theorem poolFrame_dropUrgent (h : PoolFrame s t) (x) : PoolFrame s (t.dropUrgent x) := .ite (poolFrame_post h.same _) h

theorem poolFrame_pruneUrgent (h : PoolFrame s t) : PoolFrame s t.pruneUrgent :=
  poolFrame_foldl _ (fun _ _ hu => poolFrame_raise (poolFrame_dropUrgent hu _) _ _ _ _) h

theorem poolFrame_completeVisit (h : PoolFrame s t) (n x) : PoolFrame s (t.completeVisit n x) :=
  poolFrame_post (poolFrame_endVisit (poolFrame_release (poolFrame_closeCensus h _ _) _ _) _ _) _

theorem poolFrame_schReport (h : PoolFrame s t) (r) : PoolFrame s (t.schReport r) := by
  unfold State.schReport
  split
  · exact h
  · exact .ite (.ite (poolFrame_completeVisit h.same _ _) h.same) h

theorem poolFrame_visitObserving (h : PoolFrame s t) (n) : PoolFrame s (t.visitObserving n) := by
  unfold State.visitObserving
  split
  · exact h.same
  · exact h

theorem poolFrame_visitFails (h : PoolFrame s t) (n x c) : PoolFrame s (t.visitFails n x c) :=
  poolFrame_post (poolFrame_endVisit (poolFrame_post h _) _ _) _

end pool

end Sys2Proof.Proofs
end

section
/-! SUPPORT. A service that is disabled, or has no copy selected: what no operation of the Ranking Engine and no hand-over
changes of it (R135 to R142). -/

namespace Sys2Proof.Proofs
open Sys2Proof Sys2Proof.Machine Sys2Proof.Laws

set_option Elab.async false

/-- A ranking record with nothing selected, no pin, no challenge and no sweep. -/
def Unselected (k : Ranking) : Prop :=
  k.selected = none ∧ k.pin = none ∧ k.challenger = none ∧ k.challenges = 0 ∧ k.sweep = []

theorem unselected_default : Unselected {} := ⟨rfl, rfl, rfl, rfl, rfl⟩

/-- A service `v`, enabled or not as `en` says, to which no selection comes: until a cut is done it stays without a selected
copy, and while it is disabled without ranking record, gate and cut record. With `l`, its CUT_CANCELLED is latched. -/
structure Unserved (v : Nat) (en l : Bool) (s : State) : Prop where
  enabled : (s.service v).enabled = en
  ranksWf : Tab.wf ({} : Ranking) s.ranks = true
  cutsWf : Tab.wf none s.cuts = true
  rank : Unselected (s.rank v)
  off : en = false → s.rank v = {} ∧ s.gate v = none ∧ s.cut v = none
  cancelled : l = true → s.latched .service v .cutCancelled = true
  noCutDone : ∀ slot, .cutDone v slot ∉ s.notices

section unserved
variable {v : Nat} {en l : Bool} {t : State}

/-! ## What the updates of State keep -/

theorem Unserved.of_pool {u : State} (h : Unserved v en l t) (hp : PoolFrame t u) : Unserved v en l u where
  enabled := by rw [State.service, hp.tables]; exact h.enabled
  ranksWf := hp.ranks ▸ h.ranksWf
  cutsWf := hp.cuts ▸ h.cutsWf
  rank := by rw [State.rank, hp.ranks]; exact h.rank
  off := by rw [State.rank, State.gate, State.cut, hp.ranks, hp.gates, hp.cuts]; exact h.off
  cancelled := fun hl => hp.latched _ _ _ (h.cancelled hl)
  noCutDone := fun slot hn => h.noCutDone slot (hp.noCutDone v slot hn)

theorem Unserved.ite {b : Prop} [Decidable b] {u w : State} (hu : b → Unserved v en l u) (hw : ¬b → Unserved v en l w) :
    Unserved v en l (if b then u else w) := by
  split
  · next hb => exact hu hb
  · next hb => exact hw hb

/-- A ranking record may change when it is another service's, or when the service is enabled and stays without a selected
copy. -/
theorem unserved_putRank (h : Unserved v en l t) (u : Nat) {k : Ranking} (hk : u = v → en = true ∧ Unselected k) :
    Unserved v en l (t.putRank u k) := by
  have hwf : Tab.wf ({} : Ranking) (t.putRank u k).ranks = true := tab_wf_set _ _ _ _ h.ranksWf
  by_cases huv : u = v
  · subst huv
    obtain ⟨hen, hun⟩ := hk rfl
    have hrank : (t.putRank u k).rank u = k := tab_get_set_same _ _ 0 _ _ h.ranksWf
    exact ⟨h.enabled, hwf, h.cutsWf, by rw [hrank]; exact hun, (fun hoff => by rw [hen] at hoff; cases hoff), h.cancelled,
      h.noCutDone⟩
  · have hrank : (t.putRank u k).rank v = t.rank v := rank_putRank_other t (Ne.symm huv) k
    exact ⟨h.enabled, hwf, h.cutsWf, by rw [hrank]; exact h.rank, (fun hoff => by rw [hrank]; exact h.off hoff), h.cancelled,
      h.noCutDone⟩

/-- The record of an enabled service changes in a field that has no part in the selection. -/
theorem unserved_putSame (h : Unserved v en l t) (u : Nat) {k : Ranking} (he : u = v → en = true)
    (hk : Unselected (t.rank u) → Unselected k) : Unserved v en l (t.putRank u k) :=
  unserved_putRank h u (fun huv => ⟨he huv, hk (huv ▸ h.rank)⟩)

theorem unserved_putCut (h : Unserved v en l t) (u : Nat) (c : Option Cut) (hc : u = v → en = true ∨ c = none) :
    Unserved v en l (t.putCut u c) := by
  refine ⟨h.enabled, h.ranksWf, tab_wf_set _ _ _ _ h.cutsWf, h.rank, fun hoff => ?_, h.cancelled, h.noCutDone⟩
  obtain ⟨hrank, hgate, hcut⟩ := h.off hoff
  refine ⟨hrank, hgate, ?_⟩
  by_cases huv : u = v
  · rcases hc huv with he | hnone
    · rw [hoff] at he; cases he
    · subst huv
      exact (tab_get_set_same _ _ 0 _ _ h.cutsWf).trans hnone
  · exact (tab_get_set_other _ _ _ _ _ (Ne.symm huv)).trans hcut

theorem unserved_raise (h : Unserved v en l t) (k i kd val) : Unserved v en l (t.raise k i kd val) :=
  h.of_pool (poolFrame_raise (.refl t) k i kd val)

theorem unserved_foldl {α : Type} (as : List α) {f : State → α → State}
    (hf : ∀ u a, Unserved v en l u → Unserved v en l (f u a)) (h : Unserved v en l t) : Unserved v en l (as.foldl f t) :=
  foldl_keeps (Unserved v en l) f hf as t h

/-- A service with a selected copy is another one. -/
theorem Unserved.ne_of_selected {u slot : Nat} (h : Unserved v en l t) (hs : (t.rank u).selected = some slot) : u ≠ v := by
  rintro rfl
  rw [h.rank.1] at hs
  cases hs

theorem Unserved.enabled_of {u : Nat} (h : Unserved v en l t) (he : (t.service u).enabled = true) : u = v → en = true := by
  rintro rfl
  exact h.enabled.symm.trans he

/-! ## Degradation, sweeps, observations (R126, R146, R147) -/

theorem unserved_startSweep (h : Unserved v en l t) {u : Nat} (hu : u ≠ v) : Unserved v en l (t.startSweep u) :=
  have h1 := unserved_putRank (h.of_pool (poolFrame_sweepRequest (.refl t) (t.sweepMuxes u))) u (fun e => absurd e hu)
  .ite (fun _ => unserved_raise h1 _ _ _ _) (fun _ => h1)

theorem unserved_leaveSweep (h : Unserved v en l t) (x u) : Unserved v en l (t.leaveSweep x u) := by
  refine .ite (fun hin => ?_) (fun _ => h)
  have hu : u ≠ v := by
    rintro rfl
    rw [h.rank.2.2.2.2] at hin
    cases hin
  have h1 := unserved_putRank h u (k := { t.rank u with sweep := (t.rank u).sweep.filter (fun y => !decide (y = x)) })
    (fun e => absurd e hu)
  exact .ite (fun _ => unserved_raise h1 _ _ _ _) (fun _ => h1)

theorem unserved_leaveSweeps (h : Unserved v en l t) (x) : Unserved v en l (t.leaveSweeps x) :=
  unserved_foldl _ (fun _ _ hu => unserved_leaveSweep hu _ _) h

theorem selected_of_belowFloor {s : State} {u : Nat} (h : s.belowFloor u = true) :
    ∃ slot, (s.rank u).selected = some slot := by
  unfold State.belowFloor at h
  split at h
  · cases h
  · next slot hs => exact ⟨slot, hs⟩

theorem unserved_judgeDegraded (h : Unserved v en l t) {u : Nat} (he : u = v → en = true) :
    Unserved v en l (t.judgeDegraded u) := by
  refine .ite (fun hbelow => .ite (fun _ => h) (fun _ => ?_)) (fun _ => unserved_putSame h u he (fun hk => hk))
  obtain ⟨slot, hsel⟩ := selected_of_belowFloor hbelow
  have hu := h.ne_of_selected hsel
  have h1 := unserved_raise (unserved_putRank h u (k := { t.rank u with degraded := true }) (fun e => absurd e hu))
    .service u .liveDegraded true
  exact .ite (fun _ => unserved_startSweep h1 hu) (fun _ => h1)

theorem unserved_putLive (h : Unserved v en l t) (i x) : Unserved v en l (t.putLive i x) :=
  h.of_pool (PoolFrame.refl t).same

theorem unserved_observe (h : Unserved v en l t) (i x) : Unserved v en l (t.observe i x) := by
  have h1 := unserved_putLive h i ((t.live i).observe t.settings.shift t.clock.secs x)
  exact .ite (fun hsel => unserved_judgeDegraded h1 (fun e => absurd e (h1.ne_of_selected hsel))) (fun _ => h1)

/-! ## Targets (R138) -/

theorem unserved_putClaims (h : Unserved v en l t) {u : Nat} {k : Ranking} (hk : u = v → en = true ∧ Unselected k) :
    Unserved v en l (t.putClaims u k) :=
  (unserved_putRank h u hk).of_pool (poolFrame_settleClaims (.refl _) _)

theorem unserved_dropTarget (h : Unserved v en l t) {u : Nat} (he : u = v → en = true) :
    Unserved v en l (t.dropTarget u) := by
  unfold State.dropTarget
  split
  · exact h
  · exact unserved_putClaims h (fun e => ⟨he e, e ▸ h.rank⟩)

theorem unserved_askCut (h : Unserved v en l t) {u : Nat} (he : u = v → en = true) (n) : Unserved v en l (t.askCut u n) :=
  unserved_putCut (unserved_putSame h u (k := { t.rank u with cutting := true, filing := none }) he (fun hk => hk)) u _
    (fun e => .inl (he e))

section fail
variable {fail : State → State} {u : Nat} (hf : ∀ {w : State}, Unserved v en l w → Unserved v en l (fail w))
include hf

theorem unserved_fileTarget (h : Unserved v en l t) (he : u = v → en = true) (n) :
    Unserved v en l (t.fileTarget fail u n) := by
  have h1 := h.of_pool (poolFrame_fileHost (.refl t) (t.copyMux u n))
  unfold State.fileTarget
  dsimp only
  split
  · exact unserved_askCut h1 he _
  · exact unserved_putSame h1 u he (fun hk => hk)
  · exact unserved_putSame h1 u he (fun hk => hk)
  · exact hf h1
  · exact unserved_putSame h1 u he (fun hk => hk)

theorem unserved_targetCopy (h : Unserved v en l t) (he : u = v → en = true) (n) :
    Unserved v en l (t.targetCopy fail u n) := by
  have h1 := unserved_dropTarget h he
  have h2 := unserved_putSame h1 u (k := { (t.dropTarget u).rank u with target := some n, filing := none }) he (fun hk => hk)
  exact .ite (fun _ => unserved_askCut h2 he _) (fun _ => unserved_fileTarget hf h2 he _)

/-! ## Decisions (R136, R137) -/

/-- A challenge needs a selected copy, so the service is another one. -/
theorem unserved_challenge (h : Unserved v en l t) (hu : u ≠ v) (n g) : Unserved v en l (t.challenge fail u n g) := by
  unfold State.challenge
  dsimp only
  split
  · exact unserved_putRank h u (fun e => absurd e hu)
  · exact .ite
      (fun _ => unserved_targetCopy hf (unserved_putRank h u (fun e => absurd e hu)) (fun e => absurd e hu) _)
      (fun _ => unserved_putRank h u (fun e => absurd e hu))

theorem unserved_decidePinned (h : Unserved v en l t) (he : u = v → en = true) (p) :
    Unserved v en l (t.decidePinned fail u p) :=
  have hdrop := unserved_dropTarget h he
  .ite (fun _ => .ite (fun _ => h) (fun _ => hdrop)) (fun _ => .ite (fun _ => hdrop) (fun _ => .ite (fun _ => h)
    (fun _ => unserved_targetCopy hf h he _)))

theorem unserved_decideFree (h : Unserved v en l t) (he : u = v → en = true) (g) :
    Unserved v en l (t.decideFree fail u g) := by
  unfold State.decideFree
  split
  · next sel hsel =>
    refine .ite (fun _ => ?_) (fun _ => unserved_challenge hf h (h.ne_of_selected hsel) _ _)
    split
    · exact unserved_targetCopy hf h he _
    · exact h
  · split
    · exact unserved_targetCopy hf h he _
    · exact h

theorem unserved_makeDecision (h : Unserved v en l t) (he : u = v → en = true) (g) :
    Unserved v en l (t.makeDecision fail u g) := by
  unfold State.makeDecision
  split
  · exact unserved_decidePinned hf h he _
  · split
    · exact .ite (fun _ => h) (fun _ => unserved_decideFree hf (unserved_dropTarget h he) he _)
    · exact unserved_decideFree hf h he _

theorem unserved_refile (h : Unserved v en l t) (he : u = v → en = true) : Unserved v en l (t.refile fail u) := by
  unfold State.refile
  split
  · exact unserved_fileTarget hf h he _
  · exact h

end fail

/-! ## Evaluations (R135, R140) -/

theorem unserved_barTarget (h : Unserved v en l t) {u : Nat} (he : u = v → en = true) : Unserved v en l (t.barTarget u) := by
  unfold State.barTarget
  split
  · exact h
  · exact unserved_dropTarget (unserved_observe (unserved_putLive h _ _) _ _) he

theorem unserved_evaluateN (n : Nat) :
    ∀ {t : State}, Unserved v en l t → ∀ u g, Unserved v en l (State.evaluateN n u g t) := by
  induction n with
  | zero => exact fun h _ _ => h
  | succ n ih =>
    intro t h u g
    simp only [State.evaluateN]
    refine .ite (fun _ => h) (fun hrun => ?_)
    have henabled : (t.service u).enabled = true := by
      cases he : (t.service u).enabled
      · simp [he] at hrun
      · rfl
    have he := h.enabled_of henabled
    have hf {w : State} (hw : Unserved v en l w) : Unserved v en l (State.evaluateN n u .other (w.barTarget u)) :=
      ih (unserved_barTarget hw he) _ _
    have hfloor : Unserved v en l (t.putFloor u (t.service u).floor) := h.of_pool (PoolFrame.refl t).same
    have h1 := unserved_refile hf (unserved_judgeDegraded hfloor he) he
    exact .ite (fun _ => h1) (fun _ => unserved_makeDecision hf h1 he g)

theorem unserved_evaluate (h : Unserved v en l t) (u g) : Unserved v en l (t.evaluate u g) := unserved_evaluateN 6 h u g

theorem enabled_of_awaits {s : State} {x u : Nat} (h : s.awaits x u = true) : (s.service u).enabled = true := by
  simp only [State.awaits, Bool.and_eq_true, decide_eq_true_eq] at h
  cases he : (s.service u).enabled
  · simp [State.svcState, he] at h
  · rfl

theorem unserved_reHostFailed (h : Unserved v en l t) (x) : Unserved v en l (t.reHostFailed x) :=
  unserved_foldl _ (fun _ _ hu => .ite
    (fun haw => unserved_evaluate (unserved_barTarget hu (hu.enabled_of (enabled_of_awaits haw))) _ _) (fun _ => hu)) h

theorem unserved_reHosted (h : Unserved v en l t) (x) : Unserved v en l (t.reHosted x) := by
  refine unserved_leaveSweeps (unserved_foldl _ (fun u w hu => ?_) h) _
  split
  · exact .ite (fun haw => unserved_askCut hu (hu.enabled_of (enabled_of_awaits haw)) _) (fun _ => hu)
  · exact hu

/-! ## The ends of cuts, unhosting (R141, R142, R160) -/

theorem enabled_of_endingTaken {s : State} {u : Nat} (h : s.endingTaken u = true) : (s.service u).enabled = true := by
  simp only [State.endingTaken, Bool.and_eq_true] at h
  exact h.1

/-- The end of another service's cut. -/
theorem unserved_reCutDone (h : Unserved v en l t) {u : Nat} (hu : u ≠ v) (n) : Unserved v en l (t.reCutDone u n) := by
  have hne {p : Prop} : u = v → p := fun e => absurd e hu
  exact .ite (fun _ => .ite
    (fun _ => unserved_evaluate (unserved_judgeDegraded (unserved_raise (unserved_putClaims h hne) _ _ _ _) hne) _ _)
    (fun _ => unserved_evaluate (unserved_raise (unserved_putClaims h hne) _ _ _ _) _ _)) (fun _ => h)

theorem unserved_reCutCancelled (h : Unserved v en l t) (u) : Unserved v en l (t.reCutCancelled u) :=
  .ite (fun hend => unserved_evaluate (unserved_putClaims h
    (fun e => ⟨h.enabled_of (enabled_of_endingTaken hend) e, e ▸ h.rank⟩)) _ _) (fun _ => h)

theorem unserved_deselect (h : Unserved v en l t) {u : Nat} (hu : u ≠ v) : Unserved v en l (t.deselect u) :=
  unserved_raise (unserved_putClaims h (fun e => absurd e hu)) _ _ _ _

theorem unserved_reUnhosted (h : Unserved v en l t) (x) : Unserved v en l (t.reUnhosted x) := by
  refine unserved_foldl _ (fun _ _ hu => unserved_evaluate hu _ _) ?_
  have hne : ∀ u ∈ t.rankedServices.filter (t.selectedOn x), u ≠ v := by
    intro u hu
    obtain ⟨slot, hsel, -⟩ := (Option.any_eq_true _ _).mp (List.mem_filter.mp hu).2
    exact h.ne_of_selected hsel
  exact List.foldlRecOn _ _ h (fun w hw u hu => unserved_deselect hw (hne u hu))

theorem unserved_cancelCut (h : Unserved v en l t) (u b) : Unserved v en l (t.cancelCut u b) := by
  have h1 := unserved_raise (unserved_putCut h u none (fun _ => .inr rfl)) .service u .cutCancelled true
  exact .ite (fun _ => h1.of_pool (poolFrame_post (.refl _) _)) (fun _ => h1)

theorem unserved_oaUnhosted (h : Unserved v en l t) (x) : Unserved v en l (t.oaUnhosted x) := by
  refine unserved_foldl _ (fun w u hw => ?_) h
  split
  · next c hc =>
    have he : u = v → en = true := by
      rintro rfl
      cases en with
      | true => rfl
      | false => rw [(hw.off rfl).2.2] at hc; cases hc
    refine .ite (fun _ => unserved_cancelCut hw _ _) (fun _ => ?_)
    split
    · exact .ite (fun _ => unserved_putCut hw u _ (fun e => .inl (he e))) (fun _ => hw)
    · exact hw
  · exact hw

/-! ## Reports and zero-window notices (R123, R129) -/

theorem unserved_evaluateTouched (h : Unserved v en l t) (is) : Unserved v en l (t.evaluateTouched is) :=
  unserved_foldl _ (fun _ _ hu => unserved_evaluate hu _ _) h

theorem unserved_pairFold {α β : Type} (as : List α) {f : State × β → α → State × β} {b : β}
    (hf : ∀ p a, Unserved v en l p.1 → Unserved v en l (f p a).1) (h : Unserved v en l t) :
    Unserved v en l (as.foldl f (t, b)).1 :=
  foldl_keeps (fun p : State × β => Unserved v en l p.1) f hf as (t, b) h

theorem unserved_reReport (h : Unserved v en l t) (r) : Unserved v en l (t.reReport r) := by
  refine unserved_evaluateTouched (unserved_pairFold _ (fun p c hp => ?_) h) _
  unfold State.scoreLine
  split
  · exact unserved_observe hp _ _
  · exact hp

theorem unserved_deliverReport (h : Unserved v en l t) (r b) : Unserved v en l (t.deliverReport r b) :=
  have h1 := unserved_reReport h r
  .ite (fun _ => h1.of_pool (poolFrame_schReport (.refl _) r)) (fun _ => h1)

theorem unserved_reZeroWindow (h : Unserved v en l t) (x is) : Unserved v en l (t.reZeroWindow x is) := by
  refine unserved_evaluateTouched (unserved_pairFold _ (fun p c hp => ?_) h) _
  split
  · exact unserved_observe hp _ _
  · exact hp

/-! ## Hand-overs -/

theorem unserved_takeNotice (h : Unserved v en l t) (n : Notice) (hn : ∀ slot, n ≠ .cutDone v slot) :
    Unserved v en l (t.takeNotice n) := by
  cases n with
  | runDone a p o m =>
    exact .ite (fun _ => h.of_pool (poolFrame_measureOutcome (.refl t) a o m))
      (fun _ => h.of_pool (poolFrame_tunerOutcome (.refl t) a p o))
  | checkEnd b => exact h.of_pool (poolFrame_endFailing (.refl t) b)
  | hosted x => exact (unserved_reHosted h x).of_pool (poolFrame_tryPicks (poolFrame_dropUrgent (.refl _) x))
  | hostFailed x c => exact unserved_reHostFailed h x
  | unhosted x => exact (unserved_reUnhosted (unserved_oaUnhosted h x) x).of_pool (poolFrame_tryPicks (.refl _))
  | observing a => exact h.of_pool (poolFrame_visitObserving (.refl t) a)
  | visitFailed a x c => exact h.of_pool (poolFrame_visitFails (.refl t) a x c)
  | scanFree a => exact h.of_pool (poolFrame_tryPicks (.refl t))
  | roleChanged => exact h.of_pool (poolFrame_tryPicks (poolFrame_pruneUrgent (.refl t)))
  | serveTry => exact h.of_pool (poolFrame_serve serveFuel (.refl t))
  | pickTry => exact h.of_pool (poolFrame_tryPicks (.refl t))
  | report r b => exact unserved_deliverReport h r b
  | zeroWindow x is => exact unserved_reZeroWindow h x is
  | visitEnd a x o => exact unserved_leaveSweeps h x
  | dropped x => exact unserved_leaveSweeps h x
  | cutDone u slot => exact unserved_reCutDone h (fun e => hn slot (by rw [e])) slot
  | cutCancelled u => exact unserved_reCutCancelled h u

/-- No hand-over brings a service a selected copy, but the end of its own cut. -/
theorem unserved_drain (n : Nat) : ∀ {t : State}, Unserved v en l t → Unserved v en l (State.drain n t) := by
  induction n with
  | zero => exact fun h => h
  | succ n ih =>
    intro t h
    simp only [State.drain]
    split
    · exact h
    · next a rest hnotices =>
      have hrest : Unserved v en l (t.setNotices rest) :=
        ⟨h.enabled, h.ranksWf, h.cutsWf, h.rank, h.off, h.cancelled,
          fun slot hm => h.noCutDone slot (hnotices ▸ List.mem_cons_of_mem _ hm)⟩
      exact ih (unserved_takeNotice hrest a (fun slot e => h.noCutDone slot (by rw [hnotices, e]; exact List.mem_cons_self)))

end unserved

end Sys2Proof.Proofs
end

section
/-! SUPPORT. The proof of the obligation about the SERVICE write (R7, R144, R160). -/

namespace Sys2Proof.Proofs
open Sys2Proof Sys2Proof.Machine Sys2Proof.Laws

set_option Elab.async false

/-- The state in which a changed SERVICE record is stored and the track lists follow it (R46, R55). -/
def serviceStored (s : State) (v : Nat) (new : Service) : State :=
  if new.comps = (s.service v).comps then s.putService v new else (s.putService v new).retrackService v

theorem sideFrame_serviceStored (s : State) (v : Nat) (new : Service) :
    SideFrame (s.putService v new) (serviceStored s v new) :=
  .ite (.refl _) (sideFrame_foldl _ (fun u i => sideFrame_retrack u (u.copy i) (u.copy i) i) _)

theorem reach_serviceStored {w : Nat} (s : State) (v : Nat) (new : Service) :
    Reach false w (s.putService v new) (serviceStored s v new) :=
  reach_ite .refl (reach_foldl _ _ (fun _ _ hu => reach_retrack hu _ _ _) .refl)

theorem poolFrame_serviceStored (s : State) (v : Nat) (new : Service) :
    PoolFrame (s.putService v new) (serviceStored s v new) :=
  poolFrame_of_side (.refl _) (sideFrame_serviceStored s v new) (ranks_of_reach (reach_serviceStored s v new))

theorem service_serviceStored {s : State} (hcan : s.Canonical) (v : Nat) (new : Service) :
    (serviceStored s v new).service v = new := by
  rw [State.service, (poolFrame_serviceStored s v new).tables]
  exact tab_get_set_same _ _ 0 _ _ hcan.tables.1

theorem notices_serviceStored (s : State) (v : Nat) (new : Service) : (serviceStored s v new).notices = s.notices := by
  rw [(sideFrame_serviceStored s v new).eq]
  rfl

theorem storeService_of_disables {s : State} {v : Nat} {new : Service} (hold : (s.service v).enabled = true)
    (hnew : new.enabled = false) : s.storeService v new = (serviceStored s v new).disableService v (s.claims v) := by
  have hne : new ≠ s.service v := fun e => by rw [← e, hnew] at hold; cases hold
  simp only [State.storeService, if_neg hne, hold, hnew, Bool.not_false, Bool.and_self, if_true, serviceStored]

theorem storeService_of_enables {s : State} {v : Nat} {new : Service} (hold : (s.service v).enabled = false)
    (hnew : new.enabled = true) : s.storeService v new = ((serviceStored s v new).putRank v {}).evaluate v .other := by
  have hne : new ≠ s.service v := fun e => by rw [← e, hnew] at hold; cases hold
  simp only [State.storeService, if_neg hne, hold, hnew, Bool.not_false, Bool.not_true, Bool.and_self, Bool.false_eq_true,
    if_true, if_false, serviceStored]

theorem storeService_of_stands {s : State} {v : Nat} {new : Service} (hne : new ≠ s.service v)
    (h : new.enabled = (s.service v).enabled) : s.storeService v new = (serviceStored s v new).evaluate v .other := by
  simp only [State.storeService, if_neg hne, h, Bool.and_not_self, Bool.not_and_self, Bool.false_eq_true, if_false,
    serviceStored]

/-- A SERVICE write changes its entry alone; all else of it lies within what hand-overs may change (R7). -/
theorem storeService_reach {s : State} (hcan : s.Canonical) (v : Nat) (new : Service) :
    ∃ services : Tab Service, (∀ u, Tab.get {} services u = if u = v then new else s.service u) ∧
      Reach false 1 (s.setTables { s.tables with services := services }) (s.storeService v new) := by
  by_cases hnew : new = s.service v
  · refine ⟨s.tables.services, fun u => ?_, ?_⟩
    · split
      · next hu => rw [hu, hnew]; rfl
      · rfl
    · have hstand : s.storeService v new = s := if_pos hnew
      rw [hstand]
      exact .refl
  · refine ⟨Tab.set {} s.tables.services v new, fun u => ?_, ?_⟩
    · split
      · next hu => rw [hu]; exact tab_get_set_same _ _ 0 _ _ hcan.tables.1
      · next hu => exact tab_get_set_other _ _ _ _ _ hu
    · have hstored : Reach false 1 (s.putService v new) (serviceStored s v new) := reach_serviceStored s v new
      show Reach false 1 (s.putService v new) _
      by_cases hsame : new.enabled = (s.service v).enabled
      · rw [storeService_of_stands hnew hsame]
        exact reach_evaluate hstored _ _
      · cases hold : (s.service v).enabled with
        | false =>
          rw [storeService_of_enables hold (by simpa [hold] using hsame)]
          exact reach_evaluate (reach_putRank hstored v {} (fun _ => rank_default_ok)) _ _
        | true =>
          rw [storeService_of_disables hold (by simpa [hold] using hsame)]
          exact reach_settleClaims (reach_putRank (reach_oaDisable hstored v) v {} (fun _ => rank_default_ok)) _

/-! ## Disabling (R144, R160) -/

theorem latched_raise (s : State) (k : SourceKind) (i : Nat) (kd : Kind) (val : Bool) :
    (s.raise k i kd val).latched k i kd = true := by
  unfold State.raise
  split
  · next hset => exact hset
  · exact (sideFrame_offerRecord _ _).latched k i kd (tab_get_set_ne _ _ _ _ (by decide))

/-- A service whose ranking record is cleared has no selected copy. -/
theorem unserved_of_cleared {s : State} {v : Nat} {l : Bool} (hranks : Tab.wf ({} : Ranking) s.ranks = true)
    (hcuts : Tab.wf none s.cuts = true) (hoff : (s.service v).enabled = false → s.gate v = none ∧ s.cut v = none)
    (hl : l = true → s.latched .service v .cutCancelled = true) (hn : ∀ slot, .cutDone v slot ∉ s.notices) :
    Unserved v (s.service v).enabled l (s.putRank v {}) := by
  have hrank : (s.putRank v {}).rank v = {} := tab_get_set_same _ _ 0 _ _ hranks
  exact ⟨rfl, tab_wf_set _ _ _ _ hranks, hcuts, by rw [hrank]; exact unselected_default,
    fun hen => ⟨hrank, hoff hen⟩, hl, hn⟩

/-- The OA closes the gate of a disabled service and removes its cut record with CUT_CANCELLED (R160). -/
theorem unserved_oaDisable {s : State} {v : Nat} (hranks : Tab.wf ({} : Ranking) s.ranks = true)
    (hgates : Tab.wf none s.gates = true) (hcuts : Tab.wf none s.cuts = true) (hen : (s.service v).enabled = false)
    (hn : s.notices = []) : Unserved v false (s.cut v).isSome ((s.oaDisable v).putRank v {}) := by
  have hnone : ∀ slot, .cutDone v slot ∉ s.notices := by rw [hn]; exact fun _ => List.not_mem_nil
  have hgate : (s.putGate v none).gate v = none := tab_get_set_same _ _ 0 _ _ hgates
  cases hcut : (s.cut v).isSome with
  | false =>
    have hstood : s.cut v = none := by simpa using hcut
    have hdisable : s.oaDisable v = s.putGate v none := if_neg (by rw [hcut]; decide)
    rw [hdisable]
    have h := unserved_of_cleared (s := s.putGate v none) (v := v) (l := false) hranks hcuts
      (fun _ => ⟨hgate, hstood⟩) (fun e => by cases e) hnone
    rw [show ((s.putGate v none).service v).enabled = false from hen] at h
    exact h
  | true =>
    let w := (s.putGate v none).putCut v none
    have hdisable : s.oaDisable v = w.raise .service v .cutCancelled := if_pos hcut
    have hpool := poolFrame_raise (.refl w) .service v .cutCancelled true
    have hservice : ((w.raise .service v .cutCancelled).service v).enabled = false := by
      rw [State.service, hpool.tables]; exact hen
    have hw : w.cut v = none := tab_get_set_same _ _ 0 _ _ hcuts
    have h := unserved_of_cleared (s := w.raise .service v .cutCancelled) (v := v) (l := true)
      (hpool.ranks ▸ hranks) (hpool.cuts ▸ tab_wf_set _ _ _ _ hcuts)
      (fun _ => ⟨by rw [State.gate, hpool.gates]; exact hgate, by rw [State.cut, hpool.cuts]; exact hw⟩)
      (fun _ => latched_raise _ _ _ _ _) (fun slot hm => hnone slot (hpool.noCutDone v slot hm))
    rw [hservice] at h
    rw [hdisable]
    exact h

/-- Disabling a service clears its records, and its CUT_CANCELLED is latched when a cut stood. -/
theorem unserved_of_disables {s : State} (hcan : s.Canonical) (hn : s.notices = []) {v : Nat} {new : Service}
    (hold : (s.service v).enabled = true) (hnew : new.enabled = false) :
    Unserved v false (s.cut v).isSome (s.storeService v new) := by
  have hpool := poolFrame_serviceStored s v new
  have h := unserved_oaDisable (s := serviceStored s v new) (v := v) (hpool.ranks ▸ hcan.ranks) (hpool.gates ▸ hcan.gates)
    (hpool.cuts ▸ hcan.cuts) (by rw [service_serviceStored hcan, hnew]) ((notices_serviceStored s v new).trans hn)
  have hcut : (serviceStored s v new).cut v = s.cut v := by rw [State.cut, hpool.cuts]; rfl
  rw [hcut] at h
  rw [storeService_of_disables hold hnew]
  exact h.of_pool (poolFrame_settleClaims (.refl _) _)

/-! ## Enabling (R144) -/

/-- The evaluation of a service with an empty record, none of whose copies can be chosen, leaves the record empty (R137). -/
theorem evaluate_of_unchoosable {s : State} {v : Nat} (hwf : Tab.wf ({} : Ranking) s.ranks = true)
    (he : (s.service v).enabled = true) (hrank : s.rank v = {}) (hno : ∀ slot, s.choosable v slot = false) (g : Trigger) :
    (s.evaluate v g).rank v = {} ∧ (s.evaluate v g).notices = s.notices := by
  let u := s.putFloor v (s.service v).floor
  let w := u.putRank v {}
  have hu : u.rank v = {} := hrank
  have hw : w.rank v = {} := tab_get_set_same _ _ 0 _ _ hwf
  obtain ⟨fail, heval⟩ := evaluate_eq he (by rw [hrank]) g
  have hbelow : u.belowFloor v = false := belowFloor_eq_false (fun sel q hs => by rw [hu] at hs; cases hs)
  have hjudge : (u.judgeDegraded v).refile fail v = w := by
    rw [judgeDegraded_of_not_below hbelow, hu]
    exact refile_of_no_target (s := w) (by rw [hw])
  have hfind : (w.rankList v).find? (w.choosable v) = none :=
    List.find?_eq_none.mpr (fun slot _ => by rw [show w.choosable v slot = false from hno slot]; decide)
  have hdecide : w.makeDecision fail v g = w := by
    simp only [State.makeDecision, hw, State.decideFree, hfind]
  have hresult : s.evaluate v g = w := by
    refine heval.trans ?_
    show (if (((u.judgeDegraded v).refile fail v).rank v).cutting then (u.judgeDegraded v).refile fail v
      else ((u.judgeDegraded v).refile fail v).makeDecision fail v g) = w
    rw [hjudge, hdecide, ite_self]
  rw [hresult]
  exact ⟨hw, rfl⟩

section enable
variable {s : State} {v : Nat} {new : Service}

/-- Enabling a service starts from an empty record and selects nothing. -/
theorem unserved_of_enables (hcan : s.Canonical) (hn : s.notices = []) (hold : (s.service v).enabled = false)
    (hnew : new.enabled = true) : Unserved v true false (s.storeService v new) := by
  have hpool := poolFrame_serviceStored s v new
  have hen : ((serviceStored s v new).service v).enabled = true := by rw [service_serviceStored hcan, hnew]
  have h := unserved_of_cleared (s := serviceStored s v new) (v := v) (l := false) (hpool.ranks ▸ hcan.ranks)
    (hpool.cuts ▸ hcan.cuts) (fun hoff => by rw [hen] at hoff; cases hoff) (fun e => by cases e)
    (fun slot hm => by rw [notices_serviceStored, hn] at hm; exact List.not_mem_nil hm)
  rw [hen] at h
  rw [storeService_of_enables hold hnew]
  exact unserved_evaluate h v .other

theorem storeService_of_unchoosable (hcan : s.Canonical) (hn : s.notices = []) (hold : (s.service v).enabled = false)
    (hnew : new.enabled = true) (hno : ∀ slot, s.choosable v slot = false) :
    (s.storeService v new).rank v = {} ∧ (s.storeService v new).notices = [] := by
  have hwf : Tab.wf ({} : Ranking) (serviceStored s v new).ranks = true :=
    (poolFrame_serviceStored s v new).ranks ▸ hcan.ranks
  have hchoosable : ∀ slot, (serviceStored s v new).choosable v slot = false := by
    rw [(sideFrame_serviceStored s v new).eq]
    exact hno
  have hen : ((serviceStored s v new).service v).enabled = true := by rw [service_serviceStored hcan, hnew]
  obtain ⟨hrank, hnone⟩ := evaluate_of_unchoosable (s := (serviceStored s v new).putRank v {}) (v := v)
    (tab_wf_set _ _ _ _ hwf) hen (tab_get_set_same _ _ 0 _ _ hwf) hchoosable .other
  rw [storeService_of_enables hold hnew]
  exact ⟨hrank, hnone.trans ((notices_serviceStored s v new).trans hn)⟩

end enable

theorem unserved_withReply {s : State} {v : Nat} {en l : Bool} (h : Unserved v en l s) (r : Reply) :
    Unserved v en l (s.withReply r) :=
  h.of_pool (PoolFrame.refl s).same

theorem unserved_setSettled {s : State} {v : Nat} {en l : Bool} (h : Unserved v en l s) (x : List (Nat × Purpose)) :
    Unserved v en l (s.setSettled x) :=
  h.of_pool (PoolFrame.refl s).same

theorem rank_of_quiet {s : State} (h : s.notices = []) (n : Nat) (r : Reply) (v : Nat) :
    ((State.drain n (s.withReply r)).setSettled []).rank v = s.rank v := by
  rw [drain_nil n (s.withReply r) h]
  rfl

/-- Settles O15: the entry and the frame from the chain of updates; what disabling and enabling leave stands through the
hand-overs, none of which brings the service a selected copy. -/
theorem serviceWriteStoresEntry : Obligations.ServiceWriteStoresEntry := by
  intro s c rest hcan h ha
  have hu : (s.setInbound rest).Canonical := { hcan with }
  obtain ⟨services, hread, hreach⟩ := storeService_reach hu c.index (readService c.operands)
  obtain ⟨t, hexec, ht, htables, hreplies, hinbound, hframe⟩ := exec_stored h ha
    (store := fun u => u.storeService c.index (readService c.operands)) rfl
    (T := { s.tables with services := services }) rfl hreach
  have hstands {en l : Bool}
      (hstored : Unserved c.index en l ((s.setInbound rest).storeService c.index (readService c.operands))) :
      Unserved c.index en l t := by
    rw [ht]
    exact unserved_setSettled (unserved_drain Config.handOverFuel (unserved_withReply hstored _)) []
  refine ⟨t, hexec, fun v => ?entry, by rw [htables], hreplies, hinbound, hframe, fun hold hnew => ?disabled,
    fun hold hnew => ?enabled⟩
  case entry =>
    show Tab.get {} t.tables.services v = _
    rw [htables]
    exact hread v
  case disabled =>
    have hoff := hstands (unserved_of_disables hu h.quiet.1 hold hnew)
    obtain ⟨hrank, hgate, hcut⟩ := hoff.off rfl
    have hclaims : t.claims c.index = [] := if_neg (by rw [hoff.enabled]; decide)
    exact ⟨hrank, hgate, hcut, hclaims, fun hstood => hoff.cancelled (Option.isSome_iff_ne_none.mpr hstood)⟩
  case enabled =>
    obtain ⟨hsel, hpin, hchallenger, hchallenges, hsweep⟩ := (hstands (unserved_of_enables hu h.quiet.1 hold hnew)).rank
    refine ⟨hsel, hpin, hchallenger, hchallenges, hsweep, fun hno => ?_⟩
    obtain ⟨hrank, hnotices⟩ := storeService_of_unchoosable (new := readService c.operands) hu h.quiet.1 hold hnew hno
    rw [ht, rank_of_quiet hnotices]
    exact hrank

end Sys2Proof.Proofs
end

section
/-! SUPPORT. What a byte does to a Lane Framer, and the proof of the obligation about sync bytes (R29 to R37). -/

namespace Sys2Proof.Proofs
open Sys2Proof Sys2Proof.Machine Sys2Proof.Laws

set_option Elab.async false

section search
variable {excl : Option Nat} {lockCount : Nat} {sr : Search} {b : Byte}

/-! ## One examined byte (R29, R30, R35) -/

theorem examine_of_candidate (hc : sr.cand = none) (h : b = 0x47 ∧ some (sr.next % 188) ≠ excl) :
    sr.examine excl lockCount b = .going { next := sr.next + 1, cand := some (sr.next, 1), buf := [b] } := by
  simp only [Search.examine, hc]
  exact if_pos h

theorem examine_of_no_candidate (hc : sr.cand = none) (h : ¬(b = 0x47 ∧ some (sr.next % 188) ≠ excl)) :
    sr.examine excl lockCount b = .going { next := sr.next + 1 } := by
  simp only [Search.examine, hc]
  exact if_neg h

variable {c k : Nat} (hc : sr.cand = some (c, k))
include hc

theorem examine_of_between (h : sr.next ≠ c + 188 * k) :
    sr.examine excl lockCount b = .going { sr with next := sr.next + 1, buf := sr.buf ++ [b] } := by
  simp only [Search.examine, hc]
  exact if_neg h

theorem examine_of_confirming (h : sr.next = c + 188 * k) (hk : k + 1 < lockCount) :
    sr.examine excl lockCount 0x47 =
      .going { next := sr.next + 1, cand := some (c, k + 1), buf := sr.buf ++ [0x47] } := by
  simp only [Search.examine, hc]
  exact (if_pos h).trans ((if_pos rfl).trans (if_neg (Nat.not_le.mpr hk)))

theorem examine_of_confirmed (h : sr.next = c + 188 * k) (hk : lockCount = k + 1) :
    sr.examine excl lockCount 0x47 = .found := by
  simp only [Search.examine, hc]
  exact (if_pos h).trans ((if_pos rfl).trans (if_pos (Nat.le_of_eq hk)))

theorem examine_of_rejected (h : sr.next = c + 188 * k) (hb : b ≠ 0x47) :
    sr.examine excl lockCount b = .again { next := c + 1 } (sr.buf.drop 1 ++ [b]) := by
  simp only [Search.examine, hc]
  exact (if_pos h).trans (if_neg hb)

end search

/-! ## A run of bytes -/

section run
variable {excl : Option Nat} {lockCount n : Nat} {sr sr' : Search} {b : Byte} {bs : List Byte}

theorem run_nil : Search.run excl lockCount n sr [] = .going sr := by cases n <;> rfl

theorem run_cons_going (h : sr.examine excl lockCount b = .going sr') :
    Search.run excl lockCount (n + 1) sr (b :: bs) = Search.run excl lockCount n sr' bs := by
  simp only [Search.run, h]

theorem run_cons_found (h : sr.examine excl lockCount b = .found) :
    Search.run excl lockCount (n + 1) sr (b :: bs) = .found sr.next bs := by
  simp only [Search.run, h]

theorem run_cons_again {more : List Byte} (h : sr.examine excl lockCount b = .again sr' more) :
    Search.run excl lockCount (n + 1) sr (b :: bs) = Search.run excl lockCount n sr' (more ++ bs) := by
  simp only [Search.run, h]

/-- A candidate waits for the byte 188 beyond its latest confirmation; the bytes before that are retained. -/
theorem run_between {c k : Nat} (hn : bs.length ≤ n) (hc : sr.cand = some (c, k)) (h : sr.next + bs.length ≤ c + 188 * k) :
    Search.run excl lockCount n sr bs = .going { sr with next := sr.next + bs.length, buf := sr.buf ++ bs } := by
  induction bs generalizing n sr with
  | nil => rw [run_nil, List.append_nil]; rfl
  | cons b bs ih =>
    obtain ⟨n, rfl⟩ : ∃ m, n = m + 1 := ⟨n - 1, by simp only [List.length_cons] at hn; omega⟩
    simp only [List.length_cons] at hn h ⊢
    have htail := ih (n := n) (sr := { sr with next := sr.next + 1, buf := sr.buf ++ [b] }) (by omega) hc (by
      show sr.next + 1 + bs.length ≤ _
      omega)
    rw [run_cons_going (examine_of_between hc (by omega)), htail]
    simp only [List.append_assoc, List.singleton_append, Nat.add_comm 1, Nat.add_assoc]

theorem searchOver_of_candidate {base : Nat} (h : b = 0x47 ∧ some (base % 188) ≠ excl) (bs : List Byte) :
    searchOver excl base (b :: bs) =
      { next := base + (bs.length + 1), cand := some (base, 1), buf := b :: bs } := by
  have hfirst : decide ((b :: bs).getD 0 0 = 0x47 ∧ some ((base + 0) % 188) ≠ excl) = true := decide_eq_true h
  simp only [searchOver, List.length_cons, List.range_succ_eq_map, List.find?_cons, hfirst]
  rfl

theorem searchOver_of_no_candidate {base : Nat} (h : ¬(b = 0x47 ∧ some (base % 188) ≠ excl)) (bs : List Byte) :
    searchOver excl base (b :: bs) = searchOver excl (base + 1) bs := by
  have hfirst : decide ((b :: bs).getD 0 0 = 0x47 ∧ some ((base + 0) % 188) ≠ excl) = false := decide_eq_false h
  simp only [searchOver, List.length_cons, List.range_succ_eq_map, List.find?_cons, hfirst, List.find?_map, Function.comp_def,
    Nat.succ_eq_add_one, List.getD_cons_succ, Nat.add_assoc, Nat.add_comm 1, Option.map_map, List.drop_succ_cons]

/-- A fresh search over a run of bytes too short to hold a candidate's next position, or without a 0x47 (R29, R35). -/
theorem run_fresh (hn : bs.length ≤ n) (h : bs.length ≤ 188 ∨ ∀ x ∈ bs, x ≠ 0x47) (base : Nat) :
    Search.run excl lockCount n { next := base } bs = .going (searchOver excl base bs) := by
  induction bs generalizing n base with
  | nil => exact run_nil
  | cons b bs ih =>
    obtain ⟨n, rfl⟩ : ∃ m, n = m + 1 := ⟨n - 1, by simp only [List.length_cons] at hn; omega⟩
    simp only [List.length_cons] at hn h
    by_cases hb : b = 0x47 ∧ some (base % 188) ≠ excl
    · have hlen : bs.length + 1 ≤ 188 := h.resolve_right (fun hno => hno b List.mem_cons_self hb.1)
      have htail := run_between (excl := excl) (lockCount := lockCount) (n := n) (bs := bs)
        (sr := { next := base + 1, cand := some (base, 1), buf := [b] }) (by omega) rfl (by
          show base + 1 + bs.length ≤ _
          omega)
      rw [run_cons_going (examine_of_candidate rfl hb), htail, searchOver_of_candidate hb]
      simp only [List.singleton_append, Nat.add_comm 1, Nat.add_assoc]
    · rw [run_cons_going (examine_of_no_candidate rfl hb), searchOver_of_no_candidate hb]
      exact ih (by omega) (h.imp (fun hlen => by omega) (fun hno x hx => hno x (List.mem_cons_of_mem _ hx))) (base + 1)

end run

/-! ## One byte, by the framer state (Table 20) -/

section take
variable {cfg : Settings} {f g : Framer} {b : Byte} {es : List FramerEvent} {sr : Search}

/-- A byte that leaves none behind it to be taken. -/
theorem take_of_takeOne (h : f.takeOne cfg b = { framer := g, events := es }) : f.take cfg b = (g, es) := by
  show Framer.takeMany cfg (9999999 + 1) f [b] = _
  simp only [Framer.takeMany, h, List.append_nil]

theorem takeOne_locked (hs : f.state = .locked) : f.takeOne cfg b = f.takeLocked cfg b := by
  simp only [Framer.takeOne, hs]

theorem takeOne_flywheel (hs : f.state = .flywheel) : f.takeOne cfg b = f.takeFlywheel cfg b := by
  simp only [Framer.takeOne, hs]

theorem takeOne_searching (hs : f.state = .hunt ∨ f.state = .verify) : f.takeOne cfg b = f.takeSearching cfg b := by
  rcases hs with hs | hs <;> simp only [Framer.takeOne, hs]

/-- What a bad sync byte counts is what `syncErrorOf` says (R37). -/
theorem syncError_eq (cfg : Settings) (b : Byte) :
    FramerEvent.syncError (syncErrorAmount cfg.syncMode b) = syncErrorOf cfg b := by
  unfold syncErrorAmount syncErrorOf
  cases cfg.syncMode <;> rfl

theorem take_of_search_going (hs : f.state = .hunt ∨ f.state = .verify)
    (h : Search.run none cfg.lockCount Config.searchFuel f.search [b] = .going sr) :
    f.take cfg b = ({ f with state := if sr.cand.isSome then .verify else .hunt, pos := f.pos + 1, search := sr }, []) := by
  refine take_of_takeOne ?_
  simp only [takeOne_searching hs, Framer.takeSearching, h]

/-- The one byte given to a search is examined, and the search goes on. -/
theorem run_one_going {excl : Option Nat} {lockCount : Nat} {sr' : Search} (h : sr.examine excl lockCount b = .going sr') :
    Search.run excl lockCount Config.searchFuel sr [b] = .going sr' :=
  (run_cons_going (n := 9999999) h).trans run_nil

theorem take_locked_good (hs : f.state = .locked) (hp : f.pkt = []) :
    f.take cfg 0x47 = ({ f with pos := f.pos + 1, pkt := [0x47] }, []) := by
  refine take_of_takeOne ?_
  rw [takeOne_locked hs]
  exact (if_pos hp).trans (if_pos rfl)

theorem take_locked_bad (hs : f.state = .locked) (hp : f.pkt = []) (hb : b ≠ 0x47) (hl : f.last.length = 188) :
    f.take cfg b =
      ({ f with state := .flywheel, pos := f.pos + 1, miss := 1,
                search := searchOver f.lockPhase (f.pos - 187) (f.last.drop 1 ++ [b]) }, [syncErrorOf cfg b]) := by
  have hlen : (f.last.drop 1 ++ [b]).length = 188 := by simp [hl]
  have hrun : Search.run f.lockPhase cfg.lockCount Config.searchFuel { next := f.pos - (packetLen - 1) }
      (f.last.drop 1 ++ [b]) = .going (searchOver f.lockPhase (f.pos - 187) (f.last.drop 1 ++ [b])) :=
    run_fresh (n := 10000000) (by omega) (.inl (by omega)) _
  refine take_of_takeOne ?_
  rw [takeOne_locked hs]
  refine (if_pos hp).trans ((if_neg hb).trans ?_)
  simp only [hrun, syncError_eq]

theorem take_locked_inside (hs : f.state = .locked) (hp : f.pkt ≠ []) (hl : f.pkt.length < 187) :
    f.take cfg b = ({ f with pos := f.pos + 1, pkt := f.pkt ++ [b] }, []) := by
  refine take_of_takeOne ?_
  rw [takeOne_locked hs]
  exact (if_neg hp).trans (if_pos (by simp [packetLen]; omega))

theorem take_locked_last (hs : f.state = .locked) (hl : f.pkt.length = 187) :
    f.take cfg b = (f.delivered b, [.packet (f.pkt ++ [b])]) := by
  have hp : f.pkt ≠ [] := fun e => by simp [e] at hl
  refine take_of_takeOne ?_
  rw [takeOne_locked hs]
  exact (if_neg hp).trans (if_neg (by simp [packetLen, hl]))

theorem take_flywheel_good (hs : f.state = .flywheel) (hph : some (f.pos % 188) = f.lockPhase) :
    f.take cfg 0x47 =
      ({ f with state := .locked, pos := f.pos + 1, miss := 0, search := {}, pkt := [0x47] }, []) := by
  refine take_of_takeOne ?_
  rw [takeOne_flywheel hs]
  exact (if_pos hph).trans (if_pos rfl)

theorem take_flywheel_loss (hs : f.state = .flywheel) (hph : some (f.pos % 188) = f.lockPhase) (hb : b ≠ 0x47)
    (hm : cfg.lossCount ≤ f.miss + 1) : f.take cfg b = (f.lose, [syncErrorOf cfg b, .loss]) := by
  refine take_of_takeOne ?_
  rw [takeOne_flywheel hs, ← syncError_eq]
  exact (if_pos hph).trans ((if_neg hb).trans (if_pos hm))

/-- The offline search at a lock-phase position: no candidate stands there, and none is due to be confirmed there (R35). -/
theorem examine_at_lockPhase {excl : Option Nat} {lockCount : Nat} (hph : some (sr.next % 188) = excl) (hb : b ≠ 0x47)
    (hcand : ∀ c k, sr.cand = some (c, k) → some (c % 188) ≠ excl) :
    sr.examine excl lockCount b =
      .going { sr with next := sr.next + 1, buf := if sr.cand.isSome then sr.buf ++ [b] else [] } := by
  cases hc : sr.cand with
  | none => exact examine_of_no_candidate hc (fun h => hb h.1)
  | some ck =>
    obtain ⟨c, k⟩ := ck
    have hnext : sr.next ≠ c + 188 * k := fun e => hcand c k hc (by rw [← hph, e, Nat.add_mul_mod_self_left])
    rw [examine_of_between hc hnext, hc]
    rfl

theorem take_flywheel_miss (hs : f.state = .flywheel) (hph : some (f.pos % 188) = f.lockPhase) (hb : b ≠ 0x47)
    (hm : f.miss + 1 < cfg.lossCount) (hnext : f.search.next = f.pos)
    (hcand : ∀ c k, f.search.cand = some (c, k) → some (c % 188) ≠ f.lockPhase) :
    f.take cfg b =
      ({ f with pos := f.pos + 1, miss := f.miss + 1,
                search := { f.search with next := f.pos + 1,
                                          buf := if f.search.cand.isSome then f.search.buf ++ [b] else [] } },
        [syncErrorOf cfg b]) := by
  have hrun := run_one_going (examine_at_lockPhase (lockCount := cfg.lockCount) (hnext ▸ hph) hb hcand)
  rw [hnext] at hrun
  refine take_of_takeOne ?_
  rw [takeOne_flywheel hs, ← syncError_eq]
  refine (if_pos hph).trans ((if_neg hb).trans ((if_neg (Nat.not_le.mpr hm)).trans ?_))
  simp only [Framer.takeOffline, hrun]

theorem take_hunt_candidate (hs : f.state = .hunt) (hc : f.search.cand = none) :
    f.take cfg 0x47 =
      ({ f with state := .verify, pos := f.pos + 1,
                search := { next := f.search.next + 1, cand := some (f.search.next, 1), buf := [0x47] } }, []) :=
  take_of_search_going (.inl hs) (run_one_going (examine_of_candidate hc ⟨rfl, by simp⟩))

theorem take_hunt_other (hs : f.state = .hunt) (hc : f.search.cand = none) (hb : b ≠ 0x47) :
    f.take cfg b = ({ f with pos := f.pos + 1, search := { next := f.search.next + 1 } }, []) := by
  rw [take_of_search_going (.inl hs) (run_one_going (examine_of_no_candidate hc (fun h => hb h.1))), ← hs]
  rfl

section verify
variable {c k : Nat} (hs : f.state = .verify) (hc : f.search.cand = some (c, k))
include hs hc

theorem take_verify_between (hn : f.search.next ≠ c + 188 * k) :
    f.take cfg b =
      ({ f with pos := f.pos + 1, search := { f.search with next := f.search.next + 1, buf := f.search.buf ++ [b] } },
        []) := by
  rw [take_of_search_going (.inr hs) (run_one_going (examine_of_between hc hn))]
  simp only [hc, hs, Option.isSome_some, if_true]

variable (hn : f.search.next = c + 188 * k)
include hn

theorem take_verify_confirming (hk : k + 1 < cfg.lockCount) :
    f.take cfg 0x47 =
      ({ f with pos := f.pos + 1,
                search := { next := f.search.next + 1, cand := some (c, k + 1), buf := f.search.buf ++ [0x47] } }, []) := by
  rw [take_of_search_going (.inr hs) (run_one_going (examine_of_confirming hc hn hk)), ← hs]
  rfl

theorem take_verify_rejected (hb : b ≠ 0x47) (hk : k ≤ 8) (hbuf : f.search.buf.length = 188 * k)
    (h : k = 1 ∨ ∀ x ∈ f.search.buf.drop 1, x ≠ 0x47) (hsr : sr = searchOver none (c + 1) (f.search.buf.drop 1 ++ [b])) :
    f.take cfg b =
      ({ f with state := if sr.cand.isSome then .verify else .hunt, pos := f.pos + 1, search := sr }, []) := by
  refine take_of_search_going (.inr hs) ?_
  have hlen : (f.search.buf.drop 1 ++ [b]).length ≤ 188 * k + 1 := by simp [hbuf]
  have hfew : (f.search.buf.drop 1 ++ [b]).length ≤ 188 ∨ ∀ x ∈ f.search.buf.drop 1 ++ [b], x ≠ 0x47 := by
    refine h.imp (fun h1 => ?_) (fun hno x hx => ?_)
    · simp [hbuf, h1]
    · rcases List.mem_append.mp hx with hx | hx
      · exact hno x hx
      · exact List.mem_singleton.mp hx ▸ hb
  refine (run_cons_again (n := 9999999) (examine_of_rejected hc hn hb)).trans ?_
  rw [List.append_nil, hsr]
  exact run_fresh (by omega) hfew (c + 1)

theorem take_verify_locks (hk : cfg.lockCount = k + 1) :
    f.take cfg 0x47 =
      ({ f with state := .locked, pos := f.search.next + 1, lockPhase := some (f.search.next % 188), miss := 0,
                prevPhase := some (f.search.next % 188), search := {}, pkt := [0x47], last := [] },
        [.lock f.prevPhase.isNone
          (decide (f.prevPhase ≠ none) && decide (f.prevPhase ≠ some (f.search.next % 188))) true]) := by
  have hrun : Search.run none cfg.lockCount Config.searchFuel f.search [0x47] = .found f.search.next [] :=
    run_cons_found (n := 9999999) (examine_of_confirmed hc hn hk)
  have hout : f.inLock = false := by simp [Framer.inLock, hs]
  refine take_of_takeOne ?_
  simp only [takeOne_searching (.inr hs), Framer.takeSearching, hrun, Framer.lockAt, Framer.enterLocked, hout, Bool.not_false]
  rfl

end verify

end take

/-- Settles O33: one lemma per framer state and judgement of the byte. -/
theorem syncBytesJudged : Obligations.SyncBytesJudged := by
  intro cfg f
  refine ⟨fun b hs hp => ?locked, fun b hs hph => ?flywheel, fun b hs hc => ?hunt, fun c k hs hc => ?verify⟩
  case locked =>
    exact ⟨fun hb => hb ▸ take_locked_good hs hp, fun hb hl _ => take_locked_bad hs hp hb hl⟩
  case flywheel =>
    exact ⟨fun hb => hb ▸ take_flywheel_good hs hph, fun hb hm hnext hcand => take_flywheel_miss hs hph hb hm hnext hcand,
      fun hb hm => take_flywheel_loss hs hph hb hm⟩
  case hunt =>
    exact ⟨fun hb => hb ▸ take_hunt_candidate hs hc, fun hb => take_hunt_other hs hc hb⟩
  case verify =>
    exact ⟨fun b hn => take_verify_between hs hc hn, fun hn => ⟨fun hk => take_verify_confirming hs hc hn hk,
      fun b sr hb hk hbuf h hsr => take_verify_rejected hs hc hn hb hk hbuf h hsr,
      fun hk => take_verify_locks hs hc hn hk⟩⟩

end Sys2Proof.Proofs
end

section
/-! SUPPORT. What a byte of a lane does to the part, the sorting of a delivered packet, and the proof of the obligation about
the bytes of a locked lane (R26, R47 to R54, R152). -/

namespace Sys2Proof.Proofs
open Sys2Proof Sys2Proof.Machine Sys2Proof.Laws

set_option Elab.async false

/-! ## Reads of a lane's records after a write -/

section reads
variable {s : State} {m n : Nat}

theorem framer_putFramer_same (h : Tab.wf ({} : Framer) s.framers = true) (n) (f) : (s.putFramer n f).framer n = f :=
  tab_get_set_same _ _ 0 _ _ h

theorem framer_putFramer_other (h : m ≠ n) (f) : (s.putFramer n f).framer m = s.framer m := tab_get_set_other _ _ _ _ _ h

theorem tracker_putTracker_same (h : Tab.wf ({} : Tracker) s.trackers = true) (n) (k) : (s.putTracker n k).tracker n = k :=
  tab_get_set_same _ _ 0 _ _ h

theorem qmLane_putQmLane_same (h : Tab.wf ({} : QmLane) s.qmLanes = true) (n) (q) : (s.putQmLane n q).qmLane n = q :=
  tab_get_set_same _ _ 0 _ _ h

theorem qmLane_putQmLane_other (h : m ≠ n) (q) : (s.putQmLane n q).qmLane m = s.qmLane m := tab_get_set_other _ _ _ _ _ h

theorem lifetime_putLifetime_same (h : Tab.wf ({} : Lifetime) s.lifetimes = true) (n) (l) :
    (s.putLifetime n l).lifetime n = l :=
  tab_get_set_same _ _ 0 _ _ h

theorem lifetime_putLifetime_other (h : m ≠ n) (l) : (s.putLifetime n l).lifetime m = s.lifetime m :=
  tab_get_set_other _ _ _ _ _ h

end reads

/-! ## The event -/

theorem notices_raise (s : State) (k i kd val) : (s.raise k i kd val).notices = s.notices := by
  rw [(sideFrame_raise s k i kd val).eq]

theorem settled_raise (s : State) (k i kd val) : (s.raise k i kd val).settled = s.settled := by
  rw [(sideFrame_raise s k i kd val).eq]

section event
variable {s t : State} {n : Nat} {b : Byte} {f : Framer} {es : List FramerEvent}

/-- A lane's byte changes its framer, and what the framer hands on is taken in order. -/
theorem laneByte_of_take (h : (s.framer n).take s.settings b = (f, es)) :
    State.laneByte n b s = es.foldl (State.takeFramerEvent n) (s.putFramer n f) := by
  simp only [State.laneByte, h]

/-- LANE_BYTE as a run of its effect, for a lane that exists. -/
theorem exec_laneByte (hn : n < 17) (b : Byte) (s : State) : exec (.laneByte n b) s = .next (s.act (State.laneByte n b)) :=
  if_pos hn

/-- A byte whose effect hands nothing on does that effect and nothing else. -/
theorem exec_laneByte_quiet (hq : s.Quiet) (hn : n < 17) (ht : State.laneByte n b s = t) (hnotices : t.notices = s.notices)
    (hsettled : t.settled = s.settled) : exec (.laneByte n b) s = .next t := by
  have ⟨hnone, hdone, _⟩ := hq
  rw [exec_laneByte hn, act_quiet _ _ hq (by rw [ht, hnotices, hnone]) (by rw [ht, hsettled, hdone]), ht]

/-- The byte that completes a packet delivers it, and the packet is counted and sorted (R32, R47, R61). -/
theorem laneByte_delivers (hs : (s.framer n).state = .locked) (hl : (s.framer n).pkt.length = 187) :
    State.laneByte n b s = (s.delivers n b).sortPacket n ((s.framer n).pkt ++ [b]) :=
  laneByte_of_take (take_locked_last hs hl)

end event

/-! ## The classes of Table 27 -/

section sort
variable {s : State} {n : Nat} {p : Packet}

theorem isCommand_iff : s.isCommand n p = true ↔
    n = 16 ∧ (Packet.ident p = s.settings.mgmtId ∨ Packet.ident p = s.settings.instId) := by
  simp only [State.isCommand, Bool.and_eq_true, Bool.or_eq_true, decide_eq_true_eq]
  rfl

theorem sortPacket_of_command (h : s.isCommand n p = true) : s.sortPacket n p = s.takeCommand p := if_pos h

variable (h : ¬s.isCommand n p = true)
include h

theorem sortPacket_of_null (hnull : Packet.ident p = nullId) : s.sortPacket n p = s := (if_neg h).trans (if_pos hnull)

variable (hnull : Packet.ident p ≠ nullId)
include hnull

theorem sortPacket_of_flagged (hf : Packet.flagged p = true) : s.sortPacket n p = s.offerAll n p :=
  (if_neg h).trans ((if_neg hnull).trans (if_pos hf))

theorem sortPacket_of_tracked (hf : Packet.flagged p = false) (ht : ∃ e ∈ (s.tracker n).entries, e.ident = Packet.ident p) :
    s.sortPacket n p = (s.countPacket n p).offerAll n p := by
  have hany : (s.tracker n).entries.any (fun e => decide (e.ident = Packet.ident p)) = true := by simpa using ht
  exact (if_neg h).trans ((if_neg hnull).trans ((if_neg (by simp [hf])).trans (if_pos hany)))

theorem sortPacket_of_unknown (hf : Packet.flagged p = false) (ht : ∀ e ∈ (s.tracker n).entries, e.ident ≠ Packet.ident p) :
    s.sortPacket n p = s.putTracker n ((s.tracker n).recordUnknown (Packet.ident p)) := by
  have hany : ¬(s.tracker n).entries.any (fun e => decide (e.ident = Packet.ident p)) = true := by simpa using ht
  exact (if_neg h).trans ((if_neg hnull).trans ((if_neg (by simp [hf])).trans (if_neg hany)))

end sort

section takeCommand
variable {s : State} {p : Packet}

theorem takeCommand_of_room (hf : Packet.flagged p = false) (hroom : s.inbound.length < 8) :
    s.takeCommand p = s.setInbound
      (s.inbound ++ [Cmd.mk (if Packet.ident p = s.settings.mgmtId then .property else .installer) p]) :=
  (if_neg (by simp [hf])).trans (if_pos hroom)

theorem takeCommand_of_flagged (hf : Packet.flagged p = true) : s.takeCommand p = s.raise .device 0 .commandCorrupt :=
  if_pos hf

end takeCommand

/-! ## Offers (R53, R152) -/

section offers
variable {s : State} {n : Nat} {p : Packet}

theorem offerAll_of_none (h : s.offersPackets n = false ∨ s.forwarding n p = []) : s.offerAll n p = s := by
  rcases h with h | h
  · exact if_neg (by simp [h])
  · show (if s.offersPackets n = true then (s.forwarding n p).foldl _ s else s) = s
    rw [h, List.foldl_nil, ite_self]

theorem offerAll_of_one {d : Binding} (ho : s.offersPackets n = true) (h : s.forwarding n p = [d]) :
    s.offerAll n p = s.offer p d.svc d.slot d.comp := by
  refine (if_pos ho).trans ?_
  show (s.forwarding n p).foldl _ s = _
  rw [h, List.foldl_cons, List.foldl_nil]

/-- The emitted copy's packet is admitted while no cut stands (Table 70). -/
theorem offer_of_emitted {v slot comp : Nat} (he : (s.service v).enabled = true) (hc : s.cut v = none)
    (hg : s.gate v = some slot) : s.offer p v slot comp = s.admitPacket v comp p := by
  simp only [State.offer, he, hc, hg, Bool.not_true, Bool.false_eq_true, if_false, if_true]

/-- An admitted packet hands nothing on (R153, R154). -/
theorem admitPacket_quiet (s : State) (v comp : Nat) (p : Packet) :
    (s.admitPacket v comp p).notices = s.notices ∧ (s.admitPacket v comp p).settled = s.settled := by
  unfold State.admitPacket
  dsimp only
  split
  · exact ⟨rfl, rfl⟩
  · split
    · exact ⟨rfl, rfl⟩
    · split
      · exact ⟨rfl, rfl⟩
      · exact ⟨notices_raise .., settled_raise ..⟩

/-- Counting a packet in its entry leaves the bindings at its identifier as they are. -/
theorem bindings_count (es : List TrackEntry) (p : Packet) :
    ((es.map (fun e => if e.ident = Packet.ident p then e.count p else e)).filter
        (fun e => decide (e.ident = Packet.ident p))).flatMap (·.bindings) =
      (es.filter (fun e => decide (e.ident = Packet.ident p))).flatMap (·.bindings) := by
  induction es with
  | nil => rfl
  | cons e es ih =>
    by_cases he : e.ident = Packet.ident p
    · have hcount : (e.count p).ident = Packet.ident p := he
      simp only [List.map_cons, he, if_true, List.filter_cons, hcount, decide_true, List.flatMap_cons, ih]
      rfl
    · simp only [List.map_cons, he, if_false, List.filter_cons, decide_false, Bool.false_eq_true, ih]

theorem forwarding_countPacket (h : Tab.wf ({} : Tracker) s.trackers = true) (n : Nat) (p : Packet) :
    (s.countPacket n p).forwarding n p = s.forwarding n p := by
  have hentries : ((s.countPacket n p).tracker n).entries =
      (s.tracker n).entries.map (fun e => if e.ident = Packet.ident p then e.count p else e) :=
    congrArg Tracker.entries (tracker_putTracker_same h n _)
  unfold State.forwarding
  rw [hentries, bindings_count]
  rfl

end offers

/-! ## The counts of a delivery (R61, R71) -/

theorem satAdd_of_room {cap a b : Nat} (h : a + b ≤ cap) : satAdd cap a b = a + b := Nat.min_eq_right h

theorem inWindow_of_window {q : QmLane} (hw : q.window ≠ none) (g : QmLane → QmLane) : q.inWindow g = g q :=
  if_pos (Option.isSome_iff_ne_none.mpr hw)

/-- The window of a lane counts a packet, below its limits (R61). -/
theorem inWindow_addPacket {q : QmLane} (hw : q.window ≠ none) (hp : q.p < 16777215) (he : q.e < 16777215) (flag : Bool) :
    q.inWindow (QmLane.addPacket flag) = { q with p := q.p + 1, e := q.e + if flag then 1 else 0 } := by
  have hflag : (if flag then 1 else 0) ≤ 1 := by split <;> omega
  have hp1 : q.p + 1 ≤ Config.max24 := hp
  have he1 : q.e + (if flag then 1 else 0) ≤ Config.max24 := Nat.le_trans (Nat.add_le_add_left hflag _) he
  have hsat : decide (q.p = Config.max24) = false := decide_eq_false (Nat.ne_of_lt hp)
  rw [inWindow_of_window hw, QmLane.addPacket, satAdd_of_room hp1, satAdd_of_room he1, hsat, Bool.or_false]

section delivers
variable {s : State} {n : Nat} {b : Byte} {p : Packet}

theorem qmLane_delivers (hcan : s.Canonical) (hp : p = (s.framer n).pkt ++ [b]) :
    (s.delivers n b).qmLane n = (s.qmLane n).inWindow (QmLane.addPacket (Packet.flagged p)) :=
  hp ▸ qmLane_putQmLane_same hcan.qmLanes n _

theorem lifetime_delivers (hcan : s.Canonical) (hp : p = (s.framer n).pkt ++ [b]) (hroom : (s.lifetime n).p < 4294967295)
    (hroom' : (s.lifetime n).e < 4294967295) :
    (s.delivers n b).lifetime n = { s.lifetime n with
      p := (s.lifetime n).p + 1, e := (s.lifetime n).e + if Packet.flagged p then 1 else 0 } := by
  have hflag : (if Packet.flagged p then 1 else 0) ≤ 1 := by split <;> omega
  refine (lifetime_putLifetime_same hcan.lifetimes n _).trans ?_
  show ({ s.lifetime n with p := satAdd 4294967295 (s.lifetime n).p 1, e := satAdd 4294967295 (s.lifetime n).e _ } :
    Lifetime) = _
  rw [← hp, satAdd_of_room (by omega), satAdd_of_room (by omega)]

theorem framer_delivers (hcan : s.Canonical) (hp : p = (s.framer n).pkt ++ [b]) :
    (s.delivers n b).framer n = { s.framer n with pos := (s.framer n).pos + 1, pkt := [], last := p } :=
  hp ▸ framer_putFramer_same hcan.framers n _

theorem delivers_other {m : Nat} (h : m ≠ n) : (s.delivers n b).framer m = s.framer m ∧
    (s.delivers n b).qmLane m = s.qmLane m ∧ (s.delivers n b).lifetime m = s.lifetime m :=
  ⟨framer_putFramer_other h _, qmLane_putQmLane_other h _, lifetime_putLifetime_other h _⟩

end delivers

/-- Settles O32: the byte joins the packet, or delivers it, and then the packet is sorted by the first class that fits it. -/
theorem lockedLaneTakesBytes : Obligations.LockedLaneTakesBytes := by
  intro s n b p hn hq hcan hs hp
  refine ⟨fun hne hl => ?inside, fun hl => ?last⟩
  case inside =>
    exact exec_laneByte_quiet hq hn (hp ▸ laneByte_of_take (take_locked_inside hs hne hl)) rfl rfl
  case last =>
    let u := s.delivers n b
    have sorted {t : State} (ht : u.sortPacket n p = t) (hnotices : t.notices = s.notices) (hsettled : t.settled = s.settled) :
        exec (.laneByte n b) s = .next t :=
      exec_laneByte_quiet hq hn ((laneByte_delivers hs hl).trans (hp ▸ ht)) hnotices hsettled
    refine ⟨fun hlane hnull hw hqp hqe hlp hle => ?null, fun hlane hid => ?command, fun hno hnull => ?other⟩
    case null =>
      have hcmd : ¬u.isCommand n p = true := fun h => hlane (isCommand_iff.mp h).1
      refine ⟨u, sorted (sortPacket_of_null hcmd hnull) rfl rfl, framer_delivers hcan hp, ?_, lifetime_delivers hcan hp hlp hle,
        fun m hm => delivers_other hm, rfl⟩
      rw [qmLane_delivers hcan hp, inWindow_addPacket hw hqp hqe]
    case command =>
      have hcmd : u.isCommand n p = true := isCommand_iff.mpr ⟨hlane, hid⟩
      refine ⟨fun hf hroom => ?_, fun hf => ?_⟩
      · exact sorted ((sortPacket_of_command hcmd).trans (takeCommand_of_room hf hroom)) rfl rfl
      · exact sorted ((sortPacket_of_command hcmd).trans (takeCommand_of_flagged hf)) (notices_raise ..) (settled_raise ..)
    case other =>
      have hcmd : ¬u.isCommand n p = true := fun h =>
        hno.elim (fun hlane => hlane (isCommand_iff.mp h).1) (fun hid => (isCommand_iff.mp h).2.elim hid.1 hid.2)
      have hcount : (u.countPacket n p).forwarding n p = s.forwarding n p := forwarding_countPacket (s := u) hcan.trackers n p
      refine ⟨fun hf hnone => ?flagged, fun hf ht => ⟨fun hnone => ?tracked, fun d ho hone he hc hg => ?offered⟩,
        fun hf ht => ?unknown⟩
      case flagged =>
        exact sorted ((sortPacket_of_flagged hcmd hnull hf).trans (offerAll_of_none hnone)) rfl rfl
      case tracked =>
        refine sorted ((sortPacket_of_tracked hcmd hnull hf ht).trans (offerAll_of_none ?_)) rfl rfl
        rw [hcount]
        exact hnone
      case offered =>
        obtain ⟨hnotices, hsettled⟩ := admitPacket_quiet (u.countPacket n p) d.svc d.comp p
        exact sorted ((sortPacket_of_tracked hcmd hnull hf ht).trans
          ((offerAll_of_one (s := u.countPacket n p) ho (hcount.trans hone)).trans (offer_of_emitted he hc hg))) hnotices hsettled
      case unknown =>
        exact sorted (sortPacket_of_unknown hcmd hnull hf ht) rfl rfl

end Sys2Proof.Proofs
end

section
/-! SUPPORT. The proof of the obligation about a lock and a loss as the blocks take them (R34, R39, R59, R62, R94 to R97). -/

namespace Sys2Proof.Proofs
open Sys2Proof Sys2Proof.Machine Sys2Proof.Laws

set_option Elab.async false

/-! ## Tuner records -/

theorem tuner_putTuner_same {s : State} (h : Tab.wf ({} : Tuner) s.tuners = true) (n : Nat) (r : Tuner) :
    (s.putTuner n r).tuner n = r :=
  tab_get_set_same _ _ 0 _ _ h

theorem tuner_putTuner_other {s : State} {m n : Nat} (h : m ≠ n) (r : Tuner) : (s.putTuner n r).tuner m = s.tuner m :=
  tab_get_set_other _ _ _ _ _ h

theorem hosted_of_hosts {s : State} {n x : Nat} (hn : n < 16) (h : s.hosts n x = true) : s.hosted x = true := by
  rw [State.hosted, State.hostOf, List.find?_isSome]
  exact ⟨n, List.mem_range.mpr hn, h⟩

/-! ## The first lock of a host tune -/

section lock
variable {s : State} {n x : Nat}

/-- A first lock of a lane 0–15 that ends its time out of lock, with no realignment (R31, R38). -/
theorem takeLock_first (hn : n ≠ 16) :
    s.takeLock n true false true = (((s.startWindow n).qmLock n true).tpmLock n true).firstLock n := by
  have hfirst : s.firstWindow n true = s.startWindow n := if_pos (decide_eq_true hn)
  simp only [State.takeLock, hfirst, if_true, Bool.false_eq_true, if_false]

/-- The first window starts in lock, so the in-lock condition adds nothing to it (R59, R62). -/
theorem qmLock_startWindow (h : Tab.wf ({} : QmLane) s.qmLanes = true) (n : Nat) :
    (s.startWindow n).qmLock n true = s.startWindow n := by
  have hq : (s.startWindow n).qmLane n = _ := qmLane_putQmLane_same h n _
  rw [State.qmLock, hq]
  exact congrArg s.setQmLanes (tab_set_set ({} : QmLane) h n _ _)

theorem tpmLock_of_not_observing (h : (s.tuner n).state ≠ .observing) (inLock : Bool) : s.tpmLock n inLock = s :=
  if_neg (fun hboth => h hboth.1)

/-- The tuner record of a host tune that has succeeded (R94, R96, R97). -/
def hostingTuner (s : State) (n : Nat) : Tuner :=
  { s.tuner n with state := .observing, acquire := none, relock := none, work := some .host,
                   relockLimit := (s.tunerRec n).relockLimit }

/-- The first lock of a host tune: the tuner hosts its multiplex, which is handed on (R91, R94, R96). -/
theorem firstLock_of_host (hcan : Tab.wf ({} : Tuner) s.tuners = true) (hs : (s.tuner n).state = .acquiring)
    (hw : (s.tuner n).work = some .host) (hx : (s.tuner n).mux = some x) (hf : (s.framer n).inLock = true) :
    s.firstLock n = ((s.putTuner n (hostingTuner s n)).post (.hosted x)).tryIfIdle n := by
  let u := s.putTuner n { s.tuner n with state := .observing, acquire := none }
  have hu : u.tuner n = _ := tuner_putTuner_same hcan n _
  have hlock : (u.framer n).inLock = true := hf
  have hbegin : u.beginHosting n = s.putTuner n (hostingTuner s n) := by
    rw [State.beginHosting, hu, hlock]
    exact congrArg s.setTuners (tab_set_set ({} : Tuner) hcan n _ _)
  have hmux : (s.tuner n).mux.getD 0 = x := by rw [hx]; rfl
  unfold State.firstLock
  dsimp only
  rw [if_pos hs]
  split
  · next hvisit => rw [hw] at hvisit; cases hvisit
  · rw [hmux]
    exact congrArg (fun t : State => (t.post (.hosted x)).tryIfIdle n) hbegin
  · next hother => exact absurd hw hother

/-- A hosting tuner whose multiplex nothing claims is a serving trigger (R101). -/
theorem tryIfIdle_of_idle (hrole : s.role n = .live) (ho : (s.tuner n).state = .observing) (hw : (s.tuner n).work = some .host)
    (hx : (s.tuner n).mux = some x) (hranks : s.ranks = []) : s.tryIfIdle n = s.post .serveTry := by
  have hclaims : s.claimCount x = 0 := by rw [State.claimCount, hranks]; rfl
  refine if_pos ?_
  simp only [State.idleHosted, hx, hrole, ho, hw, hclaims, decide_true, Bool.and_self]

end lock

/-! ## Hand-overs that find nothing to do -/

section handOvers
variable {s : State} {x : Nat}

theorem reHosted_of_no_ranks (h : s.ranks = []) (x : Nat) : s.reHosted x = s := by
  simp only [State.reHosted, State.leaveSweeps, State.rankedServices, h, List.map_nil, List.foldl_nil]

theorem dropUrgent_of_empty (h : s.sched.urgent = []) (x : Nat) : s.dropUrgent x = s := if_neg (by simp [h])

theorem serve_of_empty (h : s.hostQueue = []) (k : Nat) : State.serve k s = s := by
  cases k with
  | zero => rfl
  | succ k => simp only [State.serve, h, State.firstServed]

theorem setNotices_eq (h : s.notices = []) : s.setNotices [] = s := by
  cases s
  cases h
  rfl

/-- HOSTED and a try to serve, with no service ranked, no request waiting, and nothing for the SCH to drop or pick. -/
theorem drain_hosted (hn : s.notices = []) (hranks : s.ranks = []) (hurgent : s.sched.urgent = [])
    (hqueue : s.hostQueue = []) (hpicks : s.NoPicks) :
    State.drain Config.handOverFuel ((s.post (.hosted x)).post .serveTry) = s := by
  have htwo : ((s.post (.hosted x)).post .serveTry).notices = [.hosted x, .serveTry] := by
    show (s.notices ++ [_]) ++ [_] = _
    rw [hn]
    rfl
  let u := s.setNotices [.serveTry]
  have hhosted : u.takeNotice (.hosted x) = u := by
    show ((u.reHosted x).dropUrgent x).tryPicks = u
    rw [reHosted_of_no_ranks (s := u) hranks, dropUrgent_of_empty (s := u) hurgent, tryPicks_of_noPicks (s := u) hpicks]
  have hserve : (u.setNotices []).takeNotice .serveTry = s := 
    (serve_of_empty (s := s.setNotices []) hqueue _).trans (setNotices_eq hn)
  refine (drain_cons 99999 _ _ _ htwo).trans ?_
  show State.drain 99999 (u.takeNotice (.hosted x)) = s
  rw [hhosted]
  refine (drain_cons 99998 u _ _ rfl).trans ?_
  rw [hserve, drain_nil _ _ hn]

end handOvers

/-! ## A loss -/

section loss
variable {s : State} {n : Nat}

/-- The window state and the lifetime counters of a lane replaced. -/
def putCounts (s : State) (n : Nat) (q : QmLane) (l : Lifetime) : State := (s.putQmLane n q).putLifetime n l

/-- The window of a lane after a loss with its sync error; the locked spell has ended (R37, R39, R62). -/
def lostWindow (q : QmLane) (now y : Nat) : QmLane :=
  { q with y := min 16777215 (q.y + y), s := min 65535 (q.s + 1), lockSince := none, lockedMs := q.lockedUntil now }

/-- The lifetime counters of a lane after a loss with its sync error (R71). -/
def lostLifetime (l : Lifetime) (y : Nat) : Lifetime := { l with y := min 4294967295 (l.y + y), s := min 4294967295 (l.s + 1) }

theorem qmLane_putCounts (h : Tab.wf ({} : QmLane) s.qmLanes = true) (q : QmLane) (l : Lifetime) :
    (putCounts s n q l).qmLane n = q := qmLane_putQmLane_same h n q

theorem lifetime_putCounts (h : Tab.wf ({} : Lifetime) s.lifetimes = true) (q : QmLane) (l : Lifetime) :
    (putCounts s n q l).lifetime n = l := lifetime_putLifetime_same h n l

theorem qmSyncError_eq (hw : (s.qmLane n).window ≠ none) (y : Nat) : s.qmSyncError n y =
    putCounts s n { s.qmLane n with y := min 16777215 ((s.qmLane n).y + y) }
      { s.lifetime n with y := min 4294967295 ((s.lifetime n).y + y) } :=
  congrArg (fun q => putCounts s n q _) (inWindow_of_window hw _)

theorem qmLoss_eq (hw : (s.qmLane n).window ≠ none) : s.qmLoss n =
    putCounts s n { s.qmLane n with s := min 65535 ((s.qmLane n).s + 1) }
      { s.lifetime n with s := min 4294967295 ((s.lifetime n).s + 1) } :=
  congrArg (fun q => putCounts s n q _) (inWindow_of_window hw _)

theorem qmLock_eq_of_out (hw : (s.qmLane n).window ≠ none) : s.qmLock n false =
    s.putQmLane n { s.qmLane n with lockedMs := (s.qmLane n).lockedUntil s.now, lockSince := none } :=
  congrArg (s.putQmLane n) (inWindow_of_window hw _)

/-- A loss with its sync error, as the window and the lane count it, changes the records of that lane alone. -/
theorem countLoss (hlanes : Tab.wf ({} : QmLane) s.qmLanes = true) (hlives : Tab.wf ({} : Lifetime) s.lifetimes = true)
    (hw : (s.qmLane n).window ≠ none) (y : Nat) :
    ((s.qmSyncError n y).qmLoss n).qmLock n false =
      putCounts s n (lostWindow (s.qmLane n) s.now y) (lostLifetime (s.lifetime n) y) := by
  have hlane (q l) : (putCounts s n q l).qmLane n = q := qmLane_putCounts hlanes q l
  have hlife (q l) : (putCounts s n q l).lifetime n = l := lifetime_putCounts hlives q l
  have hwindow (q q' l) : (putCounts s n q l).putQmLane n q' = putCounts s n q' l :=
    congrArg (fun a => (s.setQmLanes a).putLifetime n l) (tab_set_set ({} : QmLane) hlanes n q q')
  have hagain (q q' l l') : putCounts (putCounts s n q l) n q' l' = putCounts s n q' l' :=
    calc putCounts (putCounts s n q l) n q' l'
        = (putCounts s n q' l).putLifetime n l' := congrArg (fun t : State => t.putLifetime n l') (hwindow q q' l)
      _ = putCounts s n q' l' :=
          congrArg (s.putQmLane n q').setLifetimes (tab_set_set ({} : Lifetime) hlives n l l')
  rw [qmSyncError_eq hw, qmLoss_eq (by rw [hlane]; exact hw), hlane, hlife, hagain,
    qmLock_eq_of_out (by rw [hlane]; exact hw), hlane, hwindow]
  rfl

/-- The relock timer of a hosting tuner starts when its lane leaves lock (R97). -/
theorem tpmLock_of_hosting (ho : (s.tuner n).state = .observing) (hw : (s.tuner n).work = some .host) :
    s.tpmLock n false =
      s.putTuner n { s.tuner n with relock := some { start := s.now, limit := (s.tuner n).relockLimit } } :=
  if_pos ⟨ho, hw⟩

theorem lossAlert_of_no_ranks (h : s.ranks = []) (n : Nat) : s.lossAlert n = s := by
  simp only [State.lossAlert, State.rankedServices, h, List.map_nil, List.foldl_nil]

theorem oaLoss_of_no_cuts (h : s.cuts = []) (n : Nat) : s.oaLoss n = s := by
  simp only [State.oaLoss, State.cutServices, h, List.map_nil, List.foldl_nil]

end loss

section lane
variable {s : State} {n x : Nat}

/-- The first lock of a lane whose LIVE tuner acquires for a host request, the framer's new state being `g`. -/
theorem exec_of_firstLock (hn : n < 16) (hq : s.Quiet) (hcan : s.Canonical) (hranks : s.ranks = [])
    (hx : (s.tuner n).mux = some x) (hw : (s.tuner n).work = some .host) (hs : (s.tuner n).state = .acquiring)
    (hrole : s.role n = .live) (hqueue : s.hostQueue = []) (hurgent : s.sched.urgent = []) (hpicks : s.NoPicks)
    {b : Byte} {g : Framer} (hg : g.state = .locked)
    (htake : (s.framer n).take s.settings b = (g, [.lock true false true])) :
    exec (.laneByte n b) s = .next (((s.putFramer n g).startWindow n).putTuner n (hostingTuner s n)) := by
  have ⟨hnone, hdone, _⟩ := hq
  let u := (s.putFramer n g).startWindow n
  let t := u.putTuner n (hostingTuner s n)
  have htuner : t.tuner n = hostingTuner s n := tuner_putTuner_same (s := u) hcan.tuners n _
  have hlock : (u.framer n).inLock = true := by
    have hf : u.framer n = g := framer_putFramer_same hcan.framers n g
    simp [Framer.inLock, hf, hg]
  have hpicked : t.NoPicks := by
    intro m hm
    by_cases hmn : m = n
    · have hlive : t.role m = .live := hmn ▸ hrole
      simp [State.pickable, hlive]
    · have hother : t.tuner m = s.tuner m := tuner_putTuner_other hmn _
      rw [State.pickable, hother]
      exact hpicks m hm
  have hspell : u.qmLock n true = u := qmLock_startWindow (s := s.putFramer n g) hcan.qmLanes n
  have htimer : u.tpmLock n true = u :=
    tpmLock_of_not_observing (s := u) (n := n) (show (s.tuner n).state ≠ .observing by rw [hs]; decide) true
  have heffect : State.laneByte n b s = (t.post (.hosted x)).post .serveTry :=
    calc State.laneByte n b s = ((u.qmLock n true).tpmLock n true).firstLock n :=
          (laneByte_of_take htake).trans (takeLock_first (by omega))
      _ = u.firstLock n := by rw [hspell, htimer]
      _ = (t.post (.hosted x)).tryIfIdle n := firstLock_of_host (s := u) hcan.tuners hs hw hx hlock
      _ = (t.post (.hosted x)).post .serveTry :=
          tryIfIdle_of_idle (s := t.post (.hosted x)) hrole (congrArg Tuner.state htuner) (congrArg Tuner.work htuner)
            ((congrArg Tuner.mux htuner).trans hx) hranks
  rw [exec_laneByte (by omega), State.act, wake_quiet s hq, heffect,
    drain_hosted (s := t) hnone hranks hurgent hqueue hpicked, setSettled_eq t hdone]

/-- A loss on the lane of a hosting tuner, with no service ranked and no cut standing (R39). -/
theorem exec_of_loss (hn : n < 17) (hq : s.Quiet) (hcan : s.Canonical) (hranks : s.ranks = []) (hcuts : s.cuts = [])
    (ho : (s.tuner n).state = .observing) (hw : (s.tuner n).work = some .host) (hwin : (s.qmLane n).window ≠ none)
    {b : Byte} {g : Framer} {y : Nat} (htake : (s.framer n).take s.settings b = (g, [.syncError y, .loss])) :
    exec (.laneByte n b) s =
      .next ((putCounts (s.putFramer n g) n (lostWindow (s.qmLane n) s.now y) (lostLifetime (s.lifetime n) y)).putTuner n
        { s.tuner n with relock := some { start := s.now, limit := (s.tuner n).relockLimit } }) := by
  let u := putCounts (s.putFramer n g) n (lostWindow (s.qmLane n) s.now y) (lostLifetime (s.lifetime n) y)
  let t := u.putTuner n { s.tuner n with relock := some { start := s.now, limit := (s.tuner n).relockLimit } }
  have hcount : (((s.putFramer n g).qmSyncError n y).qmLoss n).qmLock n false = u :=
    countLoss (s := s.putFramer n g) hcan.qmLanes hcan.lifetimes hwin y
  have htimer : u.tpmLock n false = t := tpmLock_of_hosting (s := u) ho hw
  have heffect : State.laneByte n b s = t :=
    calc State.laneByte n b s
        = ((((((s.putFramer n g).qmSyncError n y).qmLoss n).qmLock n false).tpmLock n false).lossAlert n).oaLoss n :=
          laneByte_of_take htake
      _ = (t.lossAlert n).oaLoss n := by rw [hcount, htimer]
      _ = t := by rw [lossAlert_of_no_ranks (s := t) hranks, oaLoss_of_no_cuts (s := t) hcuts]
  exact exec_laneByte_quiet hq hn heffect rfl rfl

end lane

/-- Settles O34: what the framer hands on, as the blocks take it, read back lane by lane. -/
theorem lockAndLossReachBlocks : Obligations.LockAndLossReachBlocks := by
  intro s n x hn hq hcan hranks hx hw
  refine ⟨fun c k hs hc hnext hlc hprev htuner hrole hqueue hurgent hpicks => ?lock,
    fun b hs hph hb hm htuner hcuts hwin => ?loss⟩
  case lock =>
    have htake := take_verify_locks (cfg := s.settings) hs hc hnext hlc
    rw [hprev] at htake
    let g : Framer := { s.framer n with
      state := .locked, pos := (s.framer n).search.next + 1, lockPhase := some ((s.framer n).search.next % 188), miss := 0,
      prevPhase := some ((s.framer n).search.next % 188), search := {}, pkt := [0x47], last := [] }
    let u := (s.putFramer n g).startWindow n
    let t := u.putTuner n (hostingTuner s n)
    have hexec : exec (.laneByte n 0x47) s = .next t :=
      exec_of_firstLock hn hq hcan hranks hx hw htuner hrole hqueue hurgent hpicks (g := g) rfl htake
    have hframer : t.framer n = g := framer_putFramer_same hcan.framers n g
    have htn : t.tuner n = hostingTuner s n := tuner_putTuner_same (s := u) hcan.tuners n _
    refine ⟨t, hexec, by rw [hframer], by rw [hframer], qmLane_putQmLane_same (s := s.putFramer n g) hcan.qmLanes n _, ?_, ?_,
      fun m hne => ⟨framer_putFramer_other hne g, qmLane_putQmLane_other hne _, tuner_putTuner_other hne _⟩, rfl⟩
    · simp only [htn, hostingTuner, hw]
    · have hlive : t.role n = .live := hrole
      refine hosted_of_hosts hn ?_
      simp [State.hosts, htn, hostingTuner, hlive, hx]
  case loss =>
    have htake := take_flywheel_loss (cfg := s.settings) hs hph hb hm
    let y := if s.settings.syncMode = .packet then 1 else popCount (b ^^^ 0x47)
    let f := s.putFramer n (s.framer n).lose
    let u := putCounts f n (lostWindow (s.qmLane n) s.now y) (lostLifetime (s.lifetime n) y)
    let r := { s.tuner n with relock := some { start := s.now, limit := (s.tuner n).relockLimit } }
    have hframer : (u.putTuner n r).framer n = (s.framer n).lose := framer_putFramer_same hcan.framers n _
    exact ⟨u.putTuner n r, y, exec_of_loss (by omega) hq hcan hranks hcuts htuner hw hwin htake, rfl, by rw [hframer]; rfl,
      qmLane_putCounts (s := f) hcan.qmLanes _ (lostLifetime (s.lifetime n) y),
      lifetime_putCounts (s := f) hcan.lifetimes (lostWindow (s.qmLane n) s.now y) _,
      tuner_putTuner_same (s := u) hcan.tuners n r, fun m hne => ⟨framer_putFramer_other hne _, qmLane_putQmLane_other hne _,
        tuner_putTuner_other hne r, lifetime_putLifetime_other hne _⟩, rfl⟩

end Sys2Proof.Proofs
end

section
/-! SUPPORT. The tuner buses when nothing waits on them: what a request for a run and the end of a run then do (R76, R77, R84,
R85). -/

namespace Sys2Proof.Proofs
open Sys2Proof Sys2Proof.Machine Sys2Proof.Laws

set_option Elab.async false

/-! ## Reads of a bus after a write -/

/-- A write of the value that stands at an index changes nothing, in a canonical table. -/
theorem tab_set_get {α : Type} [DecidableEq α] (d : α) {t : Tab α} {lo : Nat} (h : Tab.wfFrom d lo t = true) (i : Nat) :
    Tab.set d t i (Tab.get d t i) = t := by
  induction t generalizing lo with
  | nil => exact if_pos rfl
  | cons e t ih =>
    obtain ⟨k, w⟩ := e
    simp only [Tab.wfFrom, Bool.and_eq_true, decide_eq_true_eq] at h
    obtain ⟨⟨hlo, hw⟩, ht⟩ := h
    rcases Nat.lt_trichotomy i k with hik | hik | hik
    · simp only [Tab.set, Tab.get, if_pos hik, if_neg (show k ≠ i by omega),
        if_pos (tab_get_below d t (k + 1) i ht (by omega))]
    · subst hik
      simp [Tab.set, Tab.get, hw]
    · simp only [Tab.set, Tab.get, if_neg (show ¬ i < k by omega), if_neg (show i ≠ k by omega),
        if_neg (show k ≠ i by omega), ih ht]

section reads
variable {s : State} {b k : Nat}

theorem bus_putBus_same (h : Tab.wf ({} : Bus) s.buses = true) (b) (u) : (s.putBus b u).bus b = u :=
  tab_get_set_same _ _ 0 _ _ h

theorem bus_putBus_other (h : k ≠ b) (u) : (s.putBus b u).bus k = s.bus k := tab_get_set_other _ _ _ _ _ h

theorem putBus_putBus (h : Tab.wf ({} : Bus) s.buses = true) (b) (u v) : (s.putBus b u).putBus b v = s.putBus b v :=
  congrArg s.setBuses (tab_set_set ({} : Bus) h b u v)

theorem putBus_bus (h : Tab.wf ({} : Bus) s.buses = true) (b) : s.putBus b (s.bus b) = s :=
  congrArg s.setBuses (tab_set_get ({} : Bus) h b)

end reads

/-! ## Starting what waits -/

theorem foldl_of_fixed {α β : Type} {f : β → α → β} {x : β} {l : List α} (h : ∀ a ∈ l, f x a = x) : l.foldl f x = x := by
  induction l with
  | nil => rfl
  | cons a l ih =>
    rw [List.foldl_cons, h a List.mem_cons_self]
    exact ih (fun c hc => h c (List.mem_cons_of_mem _ hc))

/-- A fold whose only move is made at `k`. -/
theorem foldl_of_one {α β : Type} {f : β → α → β} {x y : β} {k : α} {l : List α} (hl : l.Nodup) (hk : k ∈ l)
    (hx : ∀ a ∈ l, a ≠ k → f x a = x) (hmove : f x k = y) (hy : ∀ a ∈ l, a ≠ k → f y a = y) : l.foldl f x = y := by
  obtain ⟨l1, l2, rfl⟩ := List.append_of_mem hk
  obtain ⟨-, hl2, hdisj⟩ := List.nodup_append.mp hl
  have hne1 : ∀ a ∈ l1, a ≠ k := fun a ha => hdisj a ha k List.mem_cons_self
  have hne2 : ∀ a ∈ l2, a ≠ k := fun a ha e => (List.nodup_cons.mp hl2).1 (e ▸ ha)
  rw [List.foldl_append, foldl_of_fixed (fun a ha => hx a (List.mem_append_left _ ha) (hne1 a ha)), List.foldl_cons, hmove]
  exact foldl_of_fixed (fun a ha => hy a (List.mem_append_right _ (List.mem_cons_of_mem _ ha)) (hne2 a ha))

section kick
variable {s : State} {b : Nat}

theorem placeDeferred_of_none (hwf : Tab.wf ({} : Bus) s.buses = true) (h : (s.bus b).deferred = []) :
    s.placeDeferred b = s := by
  have hsame : s.putBus b { s.bus b with deferred := [] } = s := by
    rw [← h]
    exact putBus_bus hwf b
  rw [State.placeDeferred, h, hsame, List.foldl_nil]

theorem startNext_of_empty (h : (s.bus b).queue = []) : s.startNext b = s := by
  simp only [State.startNext, h, ite_self]

theorem startNext_of_busy (h : (s.bus b).state ≠ .idle) : s.startNext b = s := if_neg (fun hboth => h hboth.1)

/-- A step that passes its checks becomes the current step of the run (R77, R79, R80). -/
theorem enterStep_of_enterable {r : Run} {i : Nat} (h : s.enterable r i) : s.enterStep r i = (s.entered r i, none) := by
  obtain ⟨hsteps, hi, hkind, hrange⟩ := h
  have hcap : ¬ Config.stepCap ≤ r.steps := Nat.not_le.mpr hsteps
  have hpool : ¬(((s.step i).kind = .write ∨ (s.step i).kind = .read) ∧
      4095 < (s.step i).byteOff + (s.step i).count - 1) := fun hboth => Nat.not_lt.mpr (hrange hboth.1) hboth.2
  unfold State.enterStep
  dsimp only
  rw [if_neg hcap, if_neg (Nat.not_lt.mpr hi), if_neg hkind, if_neg hpool]
  rfl

theorem startNext_of_ready {r : Run} {rest : List Run} (hready : s.busReady b) (hqueue : (s.bus b).queue = r :: rest)
    (hfail : r.failing = none) (henter : s.enterable r r.head) :
    s.startNext b = s.putBus b { s.bus b with
      state := .running, run := some (s.entered { r with clock := s.settings.busClock } r.head), queue := rest } := by
  obtain ⟨hidle, hfinished⟩ := hready
  have henters : s.enterStep { r with clock := s.settings.busClock } r.head = _ := enterStep_of_enterable henter
  simp only [State.startNext, hidle, hfinished, hqueue, henters, and_self, if_true, Option.isSome_none, Bool.false_and,
    Bool.false_eq_true, if_false]
  simp only [State.entered, hfail]

/-- No request is deferred on any bus. -/
def NoneDeferred (s : State) : Prop := ∀ k, k < 4 → (s.bus k).deferred = []

theorem placeAll_of_noneDeferred (hwf : Tab.wf ({} : Bus) s.buses = true) (h : NoneDeferred s) :
    (List.range 4).foldl State.placeDeferred s = s :=
  foldl_of_fixed (fun k hk => placeDeferred_of_none hwf (h k (List.mem_range.mp hk)))

/-- Nothing starts while every bus is busy or has nothing queued. -/
theorem kick_of_still (hwf : Tab.wf ({} : Bus) s.buses = true) (hdef : NoneDeferred s)
    (h : ∀ k, k < 4 → (s.bus k).queue = [] ∨ (s.bus k).state ≠ .idle) : s.kick = s := by
  have hstart : (List.range 4).foldl State.startNext s = s := foldl_of_fixed (fun k hk =>
    (h k (List.mem_range.mp hk)).elim startNext_of_empty startNext_of_busy)
  simp only [State.kick, placeAll_of_noneDeferred hwf hdef, hstart]

theorem kick_of_quietBuses (hwf : Tab.wf ({} : Bus) s.buses = true) (h : s.QuietBuses) : s.kick = s :=
  kick_of_still hwf (fun k hk => (h k hk).2) (fun k hk => .inl (h k hk).1)

theorem quietBuses_putBus (hwf : Tab.wf ({} : Bus) s.buses = true) (h : s.QuietBuses) {u : Bus} (hqueue : u.queue = [])
    (hdeferred : u.deferred = []) (b : Nat) : (s.putBus b u).QuietBuses := by
  intro k hk
  by_cases hkb : k = b
  · rw [hkb, bus_putBus_same hwf]
    exact ⟨hqueue, hdeferred⟩
  · rw [bus_putBus_other hkb]
    exact h k hk

/-! ## A request for a run -/

variable {n x : Nat} {p : Purpose}

theorem findBus_none {f : Bus → Bool} (h : ∀ k, k < 4 → f (s.bus k) = false) : s.findBus f = none :=
  List.find?_eq_none.mpr (fun k hk => by simp [h k (List.mem_range.mp hk)])

/-- A request of which no run is queued or runs joins the empty queue of its tuner's bus (R84, R85). -/
theorem requestRun_of_new (hq : s.QuietBuses) (hruns : ∀ k, k < 4 → (s.bus k).runs n p = false)
    (hb : (s.tunerRec n).bus < 4) :
    s.requestRun n p x = (s.putBus (s.tunerRec n).bus
      { s.bus (s.tunerRec n).bus with queue := [s.newRun n p x] }).kick := by
  have hqueue := (hq _ hb).1
  have hqueues : s.findBus (fun u => u.queues n p) = none := findBus_none (fun k hk => by simp [Bus.queues, (hq k hk).1])
  have hrunning : s.findBus (fun u => u.runs n p) = none := findBus_none hruns
  have hjoin : joinQueue (s.newRun n p x) [] = [s.newRun n p x] := by simp [joinQueue]
  have hroom : (s.bus (s.newRun n p x).bus).queue.length < Config.busQueueCap := by
    rw [show (s.bus (s.newRun n p x).bus).queue = [] from hqueue]
    decide
  unfold State.requestRun
  dsimp only
  rw [hqueues, hrunning]
  dsimp only
  rw [if_pos hroom, State.enqueue, show (s.bus (s.newRun n p x).bus).queue = [] from hqueue, hjoin]
  rfl

theorem noneDeferred_putBus (hwf : Tab.wf ({} : Bus) s.buses = true) (hq : s.QuietBuses) {u : Bus} (hu : u.deferred = []) :
    NoneDeferred (s.putBus b u) := by
  intro k hk
  by_cases hkb : k = b
  · rw [hkb, bus_putBus_same hwf, hu]
  · rw [bus_putBus_other hkb]
    exact (hq k hk).2

/-- On a bus that is not IDLE a requested run waits in the queue (R84). -/
theorem requestRun_of_busy (hwf : Tab.wf ({} : Bus) s.buses = true) (hq : s.QuietBuses)
    (hruns : ∀ k, k < 4 → (s.bus k).runs n p = false) (hb : (s.tunerRec n).bus < 4)
    (hbusy : (s.bus (s.tunerRec n).bus).state ≠ .idle) :
    s.requestRun n p x =
      s.putBus (s.tunerRec n).bus { s.bus (s.tunerRec n).bus with queue := [s.newRun n p x] } := by
  rw [requestRun_of_new hq hruns hb]
  refine kick_of_still (tab_wf_set _ _ _ _ hwf) (noneDeferred_putBus hwf hq (hq _ hb).2) (fun k hk => ?_)
  by_cases hkb : k = (s.tunerRec n).bus
  · rw [hkb, bus_putBus_same hwf]
    exact .inr hbusy
  · rw [bus_putBus_other hkb]
    exact .inl (hq k hk).1

/-- On an IDLE bus a requested run starts at once, at its first step (R77, R84). -/
theorem requestRun_of_ready (hwf : Tab.wf ({} : Bus) s.buses = true) (hq : s.QuietBuses)
    (hruns : ∀ k, k < 4 → (s.bus k).runs n p = false) (hb : (s.tunerRec n).bus < 4)
    (hready : s.busReady (s.tunerRec n).bus) (henter : s.enterable (s.newRun n p x) (s.headFor n p x)) :
    s.requestRun n p x = s.putBus (s.tunerRec n).bus { s.bus (s.tunerRec n).bus with
      state := .running,
      run := some (s.entered { s.newRun n p x with clock := s.settings.busClock } (s.headFor n p x)) } := by
  let k := (s.tunerRec n).bus
  let waiting := s.putBus k { s.bus k with queue := [s.newRun n p x] }
  let started := s.putBus k { s.bus k with
    state := .running, run := some (s.entered { s.newRun n p x with clock := s.settings.busClock } (s.headFor n p x)) }
  obtain ⟨hqueue, hdeferred⟩ := hq k hb
  have hbus : waiting.bus k = { s.bus k with queue := [s.newRun n p x] } := bus_putBus_same hwf k _
  have hstart : waiting.startNext k = started := by
    have hready' : waiting.busReady k := by
      rw [State.busReady, hbus]
      exact hready
    rw [startNext_of_ready (r := s.newRun n p x) (rest := []) hready' (by rw [hbus]) rfl henter, hbus]
    refine (putBus_putBus hwf k _ _).trans ?_
    rw [← hqueue]
    rfl
  have hothers (u : Bus) : ∀ j ∈ List.range 4, j ≠ k → (s.putBus k u).startNext j = s.putBus k u := fun j hj hjk =>
    startNext_of_empty (by rw [bus_putBus_other hjk]; exact (hq j (List.mem_range.mp hj)).1)
  have hstarts : (List.range 4).foldl State.startNext waiting = started :=
    foldl_of_one List.nodup_range (List.mem_range.mpr hb) (hothers _) hstart (hothers _)
  rw [requestRun_of_new hq hruns hb]
  show waiting.kick = started
  simp only [State.kick, placeAll_of_noneDeferred (s := waiting) (tab_wf_set _ _ _ _ hwf)
    (noneDeferred_putBus hwf hq hdeferred), hstarts]
  exact placeAll_of_noneDeferred (s := started) (tab_wf_set _ _ _ _ hwf) (noneDeferred_putBus hwf hq hdeferred)

end kick

end Sys2Proof.Proofs
end

section
/-! SUPPORT. What the end of a run hands on, and the taking of hand-overs that find nothing to do (R76, R78 to R80, R83,
R87). -/

namespace Sys2Proof.Proofs
open Sys2Proof Sys2Proof.Machine Sys2Proof.Laws

set_option Elab.async false

/-! ## Fields that the writes of single records leave as they are -/

section frames
variable (s : State) (n : Nat)

@[simp] theorem putBus_frame (u) : (s.putBus n u).notices = s.notices ∧ (s.putBus n u).settled = s.settled ∧
    (s.putBus n u).hostQueue = s.hostQueue ∧ (s.putBus n u).ranks = s.ranks := ⟨rfl, rfl, rfl, rfl⟩

@[simp] theorem putTuner_frame (r) : (s.putTuner n r).notices = s.notices ∧ (s.putTuner n r).settled = s.settled ∧
    (s.putTuner n r).hostQueue = s.hostQueue ∧ (s.putTuner n r).ranks = s.ranks := ⟨rfl, rfl, rfl, rfl⟩

@[simp] theorem putFramer_frame (f) : (s.putFramer n f).notices = s.notices ∧ (s.putFramer n f).settled = s.settled ∧
    (s.putFramer n f).hostQueue = s.hostQueue ∧ (s.putFramer n f).ranks = s.ranks := ⟨rfl, rfl, rfl, rfl⟩

@[simp] theorem putTracker_frame (k) : (s.putTracker n k).notices = s.notices ∧ (s.putTracker n k).settled = s.settled ∧
    (s.putTracker n k).hostQueue = s.hostQueue ∧ (s.putTracker n k).ranks = s.ranks := ⟨rfl, rfl, rfl, rfl⟩

@[simp] theorem putQmLane_frame (q) : (s.putQmLane n q).notices = s.notices ∧ (s.putQmLane n q).settled = s.settled ∧
    (s.putQmLane n q).hostQueue = s.hostQueue ∧ (s.putQmLane n q).ranks = s.ranks := ⟨rfl, rfl, rfl, rfl⟩

end frames

/-- The writes of single records and fields, with the field that each writes spelled out. -/
theorem writes_eq (s : State) :
    (∀ b u, s.putBus b u = { s with buses := Tab.set {} s.buses b u }) ∧
    (∀ n r, s.putTuner n r = { s with tuners := Tab.set {} s.tuners n r }) ∧
    (∀ n f, s.putFramer n f = { s with framers := Tab.set {} s.framers n f }) ∧
    (∀ n k, s.putTracker n k = { s with trackers := Tab.set {} s.trackers n k }) ∧
    (∀ n q, s.putQmLane n q = { s with qmLanes := Tab.set {} s.qmLanes n q }) ∧
    (∀ x, s.setTables x = { s with tables := x }) ∧
    (∀ i, s.setInds i = { s with inds := i }) ∧
    ∀ m, s.setMgmt m = { s with mgmt := m } :=
  ⟨fun _ _ => rfl, fun _ _ => rfl, fun _ _ => rfl, fun _ _ => rfl, fun _ _ => rfl, fun _ => rfl, fun _ => rfl, fun _ => rfl⟩

/-! ## Indications -/

theorem offerRecord_frame (s : State) (r : EventRecord) : ∃ m, s.offerRecord r = s.setMgmt m := by
  unfold State.offerRecord
  split
  · exact ⟨s.mgmt, rfl⟩
  · split
    · unfold State.buildReport
      split
      · exact ⟨_, rfl⟩
      · exact ⟨_, rfl⟩
    · exact ⟨_, rfl⟩

/-- A raise changes the indications and the lists of the Management Unit alone (R172, R175, R176). -/
theorem raise_frame (s : State) (k i kd val) : ∃ x m, s.raise k i kd val = (s.setInds x).setMgmt m := by
  let told : Indications := { s.inds with status := Tab.set false s.inds.status (indKey k i kd) val }
  let latched : Indications := { told with latched := Tab.set false s.inds.latched (indKey k i kd) true }
  by_cases h : s.latched k i kd
  · exact ⟨told, s.mgmt, if_pos h⟩
  · obtain ⟨m, hoffer⟩ := offerRecord_frame (s.setInds latched)
      { source := k, index := i, kind := kd, status := val, stamp := s.clock.secs }
    exact ⟨latched, m, (if_neg h).trans hoffer⟩

/-- A raise sets its latched flag and clears none (R172). -/
theorem raise_latches (s : State) (k i kd val) : ∃ x m, s.raise k i kd val = (s.setInds x).setMgmt m ∧
    Tab.get false x.latched (indKey k i kd) = true ∧
    ∀ k' i' kd', s.latched k' i' kd' = true → Tab.get false x.latched (indKey k' i' kd') = true := by
  obtain ⟨x, m, hraise⟩ := raise_frame s k i kd val
  have hset := latched_raise s k i kd val
  have hkept := (sideFrame_raise s k i kd val).latched
  rw [hraise] at hset hkept
  exact ⟨x, m, hraise, hset, hkept⟩

theorem raiseOn_frame (s : State) (x kd) : ∃ i m, s.raiseOn x kd = (s.setInds i).setMgmt m := by
  unfold State.raiseOn
  split
  · exact raise_frame ..
  · exact raise_frame ..

/-! ## Hand-overs that find nothing to do -/

theorem post_of_none {s : State} (h : s.notices = []) (a : Notice) : s.post a = s.setNotices [a] := by
  rw [State.post, h]
  rfl

/-- A hand-over that changes nothing, whatever waits behind it. -/
def FindsNothing (s : State) (a : Notice) : Prop := ∀ rest, (s.setNotices rest).takeNotice a = s.setNotices rest

section handOvers
variable {s u v : State} {a : Notice} {l : List Notice}

theorem findsNothing_serveTry (h : s.hostQueue = []) : FindsNothing s .serveTry :=
  fun rest => serve_of_empty (s := s.setNotices rest) h _

theorem findsNothing_hostFailed (h : s.ranks = []) (x c) : FindsNothing s (.hostFailed x c) := fun rest => by
  show (s.setNotices rest).reHostFailed x = s.setNotices rest
  simp only [State.reHostFailed, State.rankedServices, State.setNotices_ranks, h, List.map_nil, List.foldl_nil]

/-- A report without lines scores no copy (R123). -/
theorem reReport_of_no_lines {r : Report} (h : r.lines = []) : s.reReport r = s := by
  simp only [State.reReport, h, List.foldl_nil, State.evaluateTouched, touched]

theorem findsNothing_report {r : Report} (h : r.lines = []) : FindsNothing s (.report r false) :=
  fun _ => reReport_of_no_lines h

theorem drain_findsNothing (hl : ∀ a ∈ l, FindsNothing s a) {k : Nat} (hk : l.length ≤ k) :
    State.drain k (s.setNotices l) = s.setNotices [] := by
  induction l generalizing k with
  | nil => exact drain_nil k _ rfl
  | cons a l ih =>
    obtain ⟨k, rfl⟩ : ∃ j, k = j + 1 := ⟨k - 1, by simp only [List.length_cons] at hk; omega⟩
    have htake : ((s.setNotices (a :: l)).setNotices l).takeNotice a = s.setNotices l := hl a List.mem_cons_self l
    rw [drain_cons k _ a l rfl, htake]
    exact ih (fun c hc => hl c (List.mem_cons_of_mem _ hc)) (by simpa using hk)

/-- A command that hands one notice on, whose taking hands on only what finds nothing to do. -/
theorem act_handsOn {f : State → State} (hq : s.Quiet) (hf : f s = u.post a) (hu : u.notices = [])
    (htake : u.takeNotice a = v.setNotices l) (hl : ∀ a ∈ l, FindsNothing v a) (hlen : l.length ≤ 9)
    (hv : v.notices = []) (hsettled : v.settled = []) : s.act f = v := by
  have hone : (u.post a).notices = [a] := by rw [State.post, State.setNotices_notices, hu]; rfl
  have hrest : (u.post a).setNotices [] = u := setNotices_eq hu
  unfold State.act
  rw [wake_quiet s hq, hf]
  show (State.drain (99999 + 1) (u.post a)).setSettled [] = v
  rw [drain_cons _ _ a [] hone, hrest, htake, drain_findsNothing hl (by omega), setNotices_eq hv, setSettled_eq v hsettled]

/-- A command that hands one notice on, whose taking hands nothing on. -/
theorem act_handsOn_once {f : State → State} (hq : s.Quiet) (hf : f s = u.post a) (hu : u.notices = [])
    (htake : u.takeNotice a = v) (hv : v.notices = []) (hsettled : v.settled = []) : s.act f = v :=
  act_handsOn (l := []) hq hf hu (htake.trans (setNotices_eq hv).symm) (by simp) (by simp) hv hsettled

end handOvers

/-! ## The end of a run -/

/-- BUS_FAULT is raised on the tuner of a run that fails by a missing acknowledge or a stall (R87). -/
def afterFault (s : State) (n : Nat) (o : RunOutcome) : State :=
  if o = .ackFail ∨ o = .busStall then s.raise .tuner n .busFault else s

theorem afterFault_frame (s : State) (n o) : ∃ x m, afterFault s n o = (s.setInds x).setMgmt m := by
  unfold afterFault
  split
  · exact raise_frame ..
  · exact ⟨s.inds, s.mgmt, rfl⟩

section ends
variable {s : State} {b : Nat} {u : Bus} {r : Run} {c : Current}

/-- A run that is not withdrawn ends while nothing waits on any bus: its outcome is handed on, and no run starts
(R76, R83, R84). -/
theorem endRun_putBus (hwf : Tab.wf ({} : Bus) s.buses = true) (hq : s.QuietBuses) (hrun : u.run = some r)
    (hqueue : u.queue = []) (hdeferred : u.deferred = []) (hkeep : r.withdrawn = false) (o : RunOutcome) :
    (s.putBus b u).endRun b o =
      (afterFault (s.putBus b { u with run := none, state := if o = .busStall then .recovering else .idle }) r.tuner o).post
        (.runDone r.tuner r.purpose o (if o = .done then r.margin else none)) := by
  let ended := s.putBus b { u with run := none, state := if o = .busStall then .recovering else .idle }
  have hbus : (s.putBus b u).bus b = u := bus_putBus_same hwf b u
  have hputs : (s.putBus b u).putBus b { u with run := none, state := if o = .busStall then .recovering else .idle } =
      ended := putBus_putBus hwf b _ _
  let told := (afterFault ended r.tuner o).post (.runDone r.tuner r.purpose o (if o = .done then r.margin else none))
  have hkick : told.kick = told := by
    obtain ⟨x, m, hfault⟩ := afterFault_frame ended r.tuner o
    simp only [told, hfault]
    exact kick_of_quietBuses (tab_wf_set _ _ b _ hwf) (quietBuses_putBus
      (u := { u with run := none, state := if o = .busStall then .recovering else .idle }) hwf hq hqueue hdeferred b)
  rw [State.endRun, hbus, hrun]
  simp only [hkeep, Bool.false_eq_true, if_false, hputs]
  exact hkick

theorem executing_current {k : StepKind} {ph : StepPhase} (h : s.executing b k ph = some (r, c)) : r.current = some c := by
  unfold State.executing at h
  rw [executing_run h] at h
  grind

/-- The last step of a run that is not withdrawn ends the run DONE (R77). -/
theorem stepDone_last (hrun : (s.bus b).run = some r) (hkeep : r.withdrawn = false) (hcur : r.current = some c)
    (hlast : c.step.next = none) : s.stepDone b = s.endRun b .done := by
  simp only [State.stepDone, hrun, hkeep, hcur, hlast, Bool.false_eq_true, if_false]

/-- A bus whose run has ended after a transfer, with no stall (R76, R83). -/
def endedBus (u : Bus) (x : Transfer) : Bus := { u with state := .idle, run := none, lastTransfer := some x }

/-- The transfer of a WRITE step that has put `k` bytes on the lines (R78, R79). -/
def sentTransfer (s : State) (r : Run) (c : Current) (k : Nat) : Transfer :=
  { addr := transferAddr r c.step, read := false, bytes := s.sentTo c k }

variable (hwf : Tab.wf ({} : Bus) s.buses = true) (hb : b < 4) (hq : s.QuietBuses) (hkeep : r.withdrawn = false)
include hwf hb hq hkeep

/-- The last step of a run is a WRITE step whose bytes are all acknowledged (R76, R79). -/
theorem endWrite_allAcked_last (hex : s.executing b .write .transfer = some (r, c)) (hlast : c.step.next = none) :
    s.endWrite b .allAcked = (s.putBus b (endedBus (s.bus b) (sentTransfer s r c c.step.count))).post
      (.runDone r.tuner r.purpose .done r.margin) := by
  have ⟨hqueue, hdeferred⟩ := hq b hb
  let u := { s.bus b with lastTransfer := some (sentTransfer s r c c.step.count) }
  have hrun : ((s.putBus b u).bus b).run = some r := by
    rw [bus_putBus_same hwf]
    exact executing_run hex
  simp only [State.endWrite, hex]
  show (s.putBus b u).stepDone b = _
  rw [stepDone_last hrun hkeep (executing_current hex) hlast,
    endRun_putBus (u := u) hwf hq (executing_run hex) hqueue hdeferred hkeep]
  rfl

/-- A WRITE step whose address is not acknowledged ends the run ACK_FAIL (R79, R87). -/
theorem endWrite_noAddress (hex : s.executing b .write .transfer = some (r, c)) (hnone : c.bytes = []) :
    s.endWrite b .noAddress =
      ((s.putBus b (endedBus (s.bus b) (sentTransfer s r c 0))).raise .tuner r.tuner .busFault).post
        (.runDone r.tuner r.purpose .ackFail none) := by
  have ⟨hqueue, hdeferred⟩ := hq b hb
  let u := { s.bus b with lastTransfer := some (sentTransfer s r c 0) }
  simp only [State.endWrite, hex]
  rw [if_pos hnone]
  show (s.putBus b u).endRun b .ackFail = _
  rw [endRun_putBus (u := u) hwf hq (executing_run hex) hqueue hdeferred hkeep]
  rfl

omit hwf hb hq hkeep in
theorem storePool_putBus (off : Nat) (bs : List Byte) :
    (s.putBus b u).storePool off bs = (s.storePool off bs).putBus b u := by
  induction bs generalizing s off with
  | nil => rfl
  | cons x xs ih => exact ih (s := s.putPoolByte off x) (off + 1)

/-- The last step of a run is a READ step that receives its last bytes: they reach the pool, and the margin is handed on
where the step captures it (R76, R80). -/
theorem endRead_received_last (hex : s.executing b .read .transfer = some (r, c)) (hlast : c.step.next = none)
    {bs : List Byte} (hlen : c.bytes.length + bs.length = c.step.count) :
    s.endRead b (.received bs) = ((s.storeReceived c bs).putBus b
      (endedBus (s.bus b) { addr := transferAddr r c.step, read := true, bytes := c.bytes ++ bs })).post
        (.runDone r.tuner r.purpose .done (captured r c.step (c.bytes ++ bs))) := by
  have ⟨hqueue, hdeferred⟩ := hq b hb
  let stored := s.storeReceived c bs
  let noted := { s.bus b with
    lastTransfer := some { addr := transferAddr r c.step, read := true, bytes := c.bytes ++ bs } }
  let read := { r with margin := captured r c.step (c.bytes ++ bs) }
  have hbuses : stored.buses = s.buses := by
    show (s.storePool _ bs).buses = s.buses
    rw [storePool_eq]
    rfl
  have hwf' : Tab.wf ({} : Bus) stored.buses = true := hbuses ▸ hwf
  have hq' : stored.QuietBuses := fun k hk => by
    rw [State.bus, hbuses]
    exact hq k hk
  have hnoted : (s.putBus b noted).storeReceived c bs = stored.putBus b noted := storePool_putBus _ _
  have hbus : (stored.putBus b noted).bus b = noted := bus_putBus_same hwf' b _
  have hread : ((stored.putBus b { noted with run := some read }).bus b).run = some read := by rw [bus_putBus_same hwf']
  have hcur : r.current = some c := executing_current hex
  simp only [State.endRead, hex]
  rw [if_pos hlen]
  show (((s.putBus b noted).storeReceived c bs).putBus b
    { ((s.putBus b noted).storeReceived c bs).bus b with run := some read }).stepDone b = _
  rw [hnoted, hbus, putBus_putBus hwf', stepDone_last (r := read) hread hkeep hcur hlast,
    endRun_putBus (u := { noted with run := some read }) (r := read) hwf' hq' rfl hqueue hdeferred hkeep]
  rfl

end ends

end Sys2Proof.Proofs
end

section
/-! SUPPORT. What the requester of a run does with its outcome, and the proof of the obligation about run outcomes (R65, R80,
R87, R93 to R95). -/

namespace Sys2Proof.Proofs
open Sys2Proof Sys2Proof.Machine Sys2Proof.Laws

set_option Elab.async false

/-! ## A tuner whose TUNE run ends -/

section tune
variable {s : State} {n : Nat}

theorem buildTracker_frame (s : State) (n x : Nat) :
    ∃ i m, s.buildTracker n x = ((s.putTracker n { entries := s.buildEntries x }).setInds i).setMgmt m := by
  unfold State.buildTracker
  dsimp only
  split
  · exact ⟨s.inds, s.mgmt, rfl⟩
  · exact raiseOn_frame _ _ _

/-- The tuner of a TUNE run that is DONE acquires (R93). -/
def acquiringTuner (s : State) (n : Nat) : Tuner :=
  { s.tuner n with state := .acquiring, acquire := some { start := s.now, limit := (s.tunerRec n).acquireLimit } }

theorem tunerOutcome_of_tuned (hs : (s.tuner n).state = .tuning) :
    s.tunerOutcome n .tune .done = (s.putTuner n (acquiringTuner s n)).laneHunt n ((s.tuner n).mux.getD 0) := by
  unfold State.tunerOutcome
  dsimp only
  rw [if_neg (fun h => by rw [hs] at h; cases h.1), if_pos ⟨hs, rfl⟩, if_pos rfl]
  rfl

theorem tunerOutcome_of_failed (hs : (s.tuner n).state = .tuning) {o : RunOutcome} (ho : o ≠ .done) :
    s.tunerOutcome n .tune o = s.failTune n (.run o) := by
  unfold State.tunerOutcome
  dsimp only
  rw [if_neg (fun h => by rw [hs] at h; cases h.1), if_pos ⟨hs, rfl⟩, if_neg ho]

/-- The end of an observation that no window has started leaves the monitor as it is (R60). -/
theorem qmEnd_of_empty (hwf : Tab.wf ({} : QmLane) s.qmLanes = true) (h : s.qmLane n = {}) : s.qmEnd n = s := by
  have hput : s.putQmLane n {} = s := h ▸ congrArg s.setQmLanes (tab_set_get ({} : QmLane) hwf n)
  have hheld : s.completeHeld n = s := by simp only [State.completeHeld, h]
  simp only [State.qmEnd, hheld, h, Bool.or_self, Bool.false_eq_true, if_false, hput]

/-- The record of a LIVE tuner whose host tune has failed (R94, R95). -/
def failedTuner (r : Tuner) : Tuner :=
  { r with state := .free, mux := none, work := none, acquire := none, relock := none }

/-- A LIVE tuner with no request committed that enters FREE (R95, R101). -/
theorem enterFree_of_live (hrole : s.role n = .live) (hcommitted : (s.tuner n).committed = none) :
    s.enterFree n = (s.putTuner n { s.tuner n with state := .free }).post .serveTry := by
  simp only [State.enterFree, hrole, hcommitted]

theorem enterFree_of_off (hrole : s.role n = .off) (hcommitted : (s.tuner n).committed = none) :
    s.enterFree n = s.putTuner n { s.tuner n with state := .off } := by
  simp only [State.enterFree, hrole, hcommitted]

/-- A host tune on a lane that has observed nothing fails: the lane is IDLE, TUNE_FAILED is raised, the tuner is FREE, and
the failure and two tries to serve are handed on (R94, R95, R101). -/
theorem failTune_of_host (hcan : Tab.wf ({} : Tuner) s.tuners = true) (hlanes : Tab.wf ({} : QmLane) s.qmLanes = true)
    (hn : s.notices = []) (hw : (s.tuner n).work = some .host) (hrole : s.role n = .live)
    (hcommitted : (s.tuner n).committed = none) (hlane : s.qmLane n = {}) (e : FailCause) :
    s.failTune n e = ((((s.putFramer n {}).putTracker n {}).raise .tuner n .tuneFailed).putTuner n
      (failedTuner (s.tuner n))).setNotices [.hostFailed ((s.tuner n).mux.getD 0) e, .serveTry, .serveTry] := by
  let idle := (s.putFramer n {}).putTracker n {}
  have hidle : s.laneIdle n = idle := qmEnd_of_empty (s := idle) hlanes hlane
  obtain ⟨x, m, hraise⟩ := raise_frame idle .tuner n .tuneFailed true
  let raised := (idle.setInds x).setMgmt m
  let cleared : Tuner := { s.tuner n with mux := none, work := none, acquire := none, relock := none }
  let told := (raised.putTuner n cleared).post (.hostFailed ((s.tuner n).mux.getD 0) e)
  have htuner : told.tuner n = cleared := tuner_putTuner_same (s := raised) hcan n cleared
  have hputs : told.putTuner n (failedTuner (s.tuner n)) =
      (raised.putTuner n (failedTuner (s.tuner n))).post (.hostFailed ((s.tuner n).mux.getD 0) e) :=
    congrArg (fun t => ((raised.setTuners t).post (.hostFailed ((s.tuner n).mux.getD 0) e)))
      (tab_set_set ({} : Tuner) hcan n _ _)
  have hfree : told.enterFree n = (told.putTuner n (failedTuner (s.tuner n))).post .serveTry := by
    rw [enterFree_of_live (s := told) hrole (by rw [htuner]; exact hcommitted), htuner]
    rfl
  have hcause : (raised.putTuner n cleared).tellFailure n ((s.tuner n).mux.getD 0) (s.tuner n).work e = told := by
    rw [hw]
    rfl
  have hfail : s.failTune n e = (told.enterFree n).post .serveTry := by
    unfold State.failTune
    simp only [hidle, hraise]
    exact congrArg (fun t : State => (t.enterFree n).post .serveTry) hcause
  show s.failTune n e = ((idle.raise .tuner n .tuneFailed).putTuner n _).setNotices _
  rw [hfail, hfree, hputs, hraise, post_of_none (s := raised.putTuner n _) hn]
  rfl

end tune

/-! ## A tuner whose RELEASE run ends -/

section release
variable {s : State} {n : Nat}

theorem putTuner_putTuner (h : Tab.wf ({} : Tuner) s.tuners = true) (n) (r r') :
    (s.putTuner n r).putTuner n r' = s.putTuner n r' :=
  congrArg s.setTuners (tab_set_set ({} : Tuner) h n r r')

/-- The record of an OFF or LIVE tuner whose last winding-down item was its RELEASE run (R95). -/
def releasedTuner (s : State) (n : Nat) : Tuner :=
  { s.tuner n with windRelease := false, state := if s.role n = .off then .off else .free }

/-- The last winding-down item of a tuner with no request committed ends: an OFF tuner is OFF; a LIVE one is FREE, and a try
to serve is handed on (R95, R101). -/
theorem tunerOutcome_of_released (hcan : Tab.wf ({} : Tuner) s.tuners = true) (hs : (s.tuner n).state = .releasing)
    (hrelease : (s.tuner n).windRelease = true) (htune : (s.tuner n).windTune = false)
    (hcommitted : (s.tuner n).committed = none) (hrole : s.role n = .off ∨ s.role n = .live) (o : RunOutcome) :
    s.tunerOutcome n .release o = if s.role n = .off then s.putTuner n (releasedTuner s n)
      else (s.putTuner n (releasedTuner s n)).post .serveTry := by
  let u := s.putTuner n { s.tuner n with windRelease := false }
  have htuner : u.tuner n = _ := tuner_putTuner_same hcan n _
  have hcommitted' : (u.tuner n).committed = none := htuner ▸ hcommitted
  have hends : s.tunerOutcome n .release o = u.enterFree n := by
    unfold State.tunerOutcome
    dsimp only
    rw [if_pos ⟨hs, .inr ⟨rfl, hrelease⟩⟩]
    exact if_neg (by simp [htune])
  rw [hends]
  rcases hrole with hoff | hlive
  · rw [enterFree_of_off (s := u) hoff hcommitted', htuner, if_pos hoff]
    refine (putTuner_putTuner hcan n _ _).trans ?_
    simp only [releasedTuner, hoff, if_true]
  · have hnot : s.role n ≠ .off := by rw [hlive]; decide
    rw [enterFree_of_live (s := u) hlive hcommitted', htuner, if_neg hnot]
    refine congrArg (fun t : State => t.post .serveTry) ((putTuner_putTuner hcan n _ _).trans ?_)
    simp only [releasedTuner, hnot, if_false]

end release

/-! ## A lane whose MEASURE run ends -/

section measure
variable {s : State} {n : Nat} {d : Report}

theorem putQmLane_putQmLane (h : Tab.wf ({} : QmLane) s.qmLanes = true) (n) (q q') :
    (s.putQmLane n q).putQmLane n q' = s.putQmLane n q' :=
  congrArg s.setQmLanes (tab_set_set ({} : QmLane) h n q q')

/-- A completed report of a tuner that is not SCAN goes to the RE alone (R70). -/
theorem reportsToSch_of_not_scan (h : s.role d.lane ≠ .scan) : s.reportsToSch d = false := by
  simp [State.reportsToSch, h]

theorem completeReport_of_not_scan (h : s.role d.lane ≠ .scan) : s.completeReport d = s.post (.report d false) := by
  rw [State.completeReport, reportsToSch_of_not_scan h]

/-- The window state of a lane whose pending report has completed with a margin (R65). -/
def freshLane (q : QmLane) (m : Nat) : QmLane :=
  { q with pending := none, outstanding := false, lastFresh := some m, hold := 0 }

/-- The window state of a lane whose pending report has completed under the hold rule (R65). -/
def heldLane (q : QmLane) : QmLane := { q with pending := none, outstanding := false, hold := min 255 (q.hold + 1) }

variable (hcan : Tab.wf ({} : QmLane) s.qmLanes = true) (hawaited : (s.qmLane n).awaited = false)
  (hpending : (s.qmLane n).pending = some d) (hrole : s.role d.lane ≠ .scan)
include hcan hawaited hpending hrole

theorem measureOutcome_of_margin (m : Nat) :
    s.measureOutcome n .done (some m) = (s.putQmLane n (freshLane (s.qmLane n) m)).post
      (.report { d with margin := m, marginState := .fresh } false) := by
  let u := s.putQmLane n { s.qmLane n with outstanding := false }
  have hlane : u.qmLane n = _ := qmLane_putQmLane_same hcan n _
  have hputs (q : QmLane) : u.putQmLane n q = s.putQmLane n q := putQmLane_putQmLane hcan n _ q
  have houtcome : s.measureOutcome n .done (some m) = u.completeFresh n m := if_neg (by simp [hawaited])
  simp only [houtcome, State.completeFresh, hlane, hpending, hputs]
  exact completeReport_of_not_scan (s := s.putQmLane n _) (d := { d with margin := m, marginState := .fresh }) hrole

theorem measureOutcome_of_failed {o : RunOutcome} (ho : o ≠ .done) (margin : Option Nat) :
    s.measureOutcome n o margin = (s.putQmLane n (heldLane (s.qmLane n))).post
      (.report ((s.qmLane n).heldReport d) false) := by
  let u := s.putQmLane n { s.qmLane n with outstanding := false }
  have hlane : u.qmLane n = _ := qmLane_putQmLane_same hcan n _
  have hputs (q : QmLane) : u.putQmLane n q = s.putQmLane n q := putQmLane_putQmLane hcan n _ q
  have houtcome : s.measureOutcome n o margin = u.completeHeld n := by
    refine (if_neg (by simp [hawaited])).trans ?_
    cases o
    case done => exact absurd rfl ho
    all_goals rfl
  simp only [houtcome, State.completeHeld, hlane, hpending, hputs]
  exact completeReport_of_not_scan (s := s.putQmLane n _) (d := (s.qmLane n).heldReport d) hrole

end measure

/-! ## The outcome reaches the requester (R76) -/

theorem takeNotice_runDone_measure (s : State) (n o m) :
    s.takeNotice (.runDone n .measure o m) = s.measureOutcome n o m := rfl

theorem takeNotice_runDone_tuner {p : Purpose} (hp : p ≠ .measure) (s : State) (n o m) :
    s.takeNotice (.runDone n p o m) = s.tunerOutcome n p o := if_neg hp

/-! ## The events -/

section events
variable {s : State} {b : Nat} {r : Run} {c : Current}

theorem exec_writeStep (hb : b < 4) (a : WriteAnswer) (s : State) :
    exec (.writeStep b a) s = .next (s.act (fun s => s.endWrite b a)) := if_pos hb

theorem exec_readStep (hb : b < 4) (a : ReadAnswer) (s : State) :
    exec (.readStep b a) s = .next (s.act (fun s => s.endRead b a)) := if_pos hb

variable (hb : b < 4) (hq : s.Quiet) (hcan : s.Canonical) (hbuses : s.QuietBuses) (hkeep : r.withdrawn = false)
include hb hq hcan hbuses hkeep

/-- A TUNE run ends DONE: the tuner acquires, and its lane hunts with the track list built (R76, R93). -/
theorem exec_tuneDone (hex : s.executing b .write .transfer = some (r, c)) (hlast : c.step.next = none)
    (hp : r.purpose = .tune) (hs : (s.tuner r.tuner).state = .tuning) :
    ∃ i m, exec (.writeStep b .allAcked) s = .next ((((((s.putBus b
      (endedBus (s.bus b) (sentTransfer s r c c.step.count))).putTuner r.tuner (acquiringTuner s r.tuner)).putFramer r.tuner
      Framer.hunting).putTracker r.tuner { entries := s.buildEntries ((s.tuner r.tuner).mux.getD 0) }).setInds i).setMgmt m) := by
  have ⟨hnone, hsettled, _⟩ := hq
  let u := s.putBus b (endedBus (s.bus b) (sentTransfer s r c c.step.count))
  obtain ⟨i, m, hbuild⟩ := buildTracker_frame
    ((u.putTuner r.tuner (acquiringTuner s r.tuner)).putFramer r.tuner Framer.hunting) r.tuner ((s.tuner r.tuner).mux.getD 0)
  have heffect := endWrite_allAcked_last hcan.buses hb hbuses hkeep hex hlast
  have htake := (takeNotice_runDone_tuner (p := .tune) (by decide) u r.tuner .done r.margin).trans
    ((tunerOutcome_of_tuned (s := u) hs).trans hbuild)
  rw [hp] at heffect
  exact ⟨i, m, (exec_writeStep hb _ s).trans (congrArg _
    (act_handsOn_once (u := u) hq heffect hnone htake (by simp [hnone]) (by simp [hsettled])))⟩

/-- A TUNE run for a host request fails on a LIVE tuner whose lane has observed nothing: BUS_FAULT and TUNE_FAILED are raised,
and the tuner is FREE (R87, R94, R95). -/
theorem exec_tuneFailed (hex : s.executing b .write .transfer = some (r, c)) (hbytes : c.bytes = []) (hp : r.purpose = .tune)
    (hs : (s.tuner r.tuner).state = .tuning) (hw : (s.tuner r.tuner).work = some .host) (hrole : s.role r.tuner = .live)
    (hcommitted : (s.tuner r.tuner).committed = none) (hlane : s.qmLane r.tuner = {}) (hqueue : s.hostQueue = [])
    (hranks : s.ranks = []) :
    exec (.writeStep b .noAddress) s = .next ((((((s.putBus b (endedBus (s.bus b) (sentTransfer s r c 0))).raise .tuner
      r.tuner .busFault).putFramer r.tuner {}).putTracker r.tuner {}).raise .tuner r.tuner .tuneFailed).putTuner r.tuner
        (failedTuner (s.tuner r.tuner))) := by
  have ⟨hnone, hsettled, _⟩ := hq
  have heffect := endWrite_noAddress hcan.buses hb hbuses hkeep hex hbytes
  obtain ⟨i, m, hfault⟩ := raise_frame (s.putBus b (endedBus (s.bus b) (sentTransfer s r c 0))) .tuner r.tuner .busFault true
  rw [hfault] at heffect ⊢
  rw [hp] at heffect
  let u := ((s.putBus b (endedBus (s.bus b) (sentTransfer s r c 0))).setInds i).setMgmt m
  have htake := (takeNotice_runDone_tuner (p := .tune) (by decide) u r.tuner .ackFail none).trans
    ((tunerOutcome_of_failed (s := u) hs (by decide)).trans
      (failTune_of_host (s := u) hcan.tuners hcan.qmLanes hnone hw hrole hcommitted hlane _))
  obtain ⟨i', m', hfailed⟩ := raise_frame ((u.putFramer r.tuner {}).putTracker r.tuner {}) .tuner r.tuner .tuneFailed true
  rw [hfailed] at htake ⊢
  refine (exec_writeStep hb _ s).trans (congrArg _
    (act_handsOn (u := u) hq heffect hnone htake ?_ (by simp) (by simp [u, hnone]) (by simp [u, hsettled])))
  have hserve (v : State) (hv : v.hostQueue = s.hostQueue) : FindsNothing v .serveTry :=
    findsNothing_serveTry (hv.trans hqueue)
  exact List.forall_mem_cons.mpr ⟨findsNothing_hostFailed (by simp [u, hranks]) _ _,
    List.forall_mem_cons.mpr ⟨hserve _ (by simp [u]), List.forall_mem_singleton.mpr (hserve _ (by simp [u]))⟩⟩

/-- The last winding-down item of an OFF tuner, or of a LIVE one with no request waiting, ends (R95, R101). -/
theorem exec_releaseDone (hex : s.executing b .write .transfer = some (r, c)) (hlast : c.step.next = none)
    (hp : r.purpose = .release) (hs : (s.tuner r.tuner).state = .releasing) (hrelease : (s.tuner r.tuner).windRelease = true)
    (htune : (s.tuner r.tuner).windTune = false) (hcommitted : (s.tuner r.tuner).committed = none)
    (hrole : s.role r.tuner = .off ∨ (s.role r.tuner = .live ∧ s.hostQueue = [])) :
    exec (.writeStep b .allAcked) s = .next ((s.putBus b (endedBus (s.bus b) (sentTransfer s r c c.step.count))).putTuner
      r.tuner (releasedTuner s r.tuner)) := by
  have ⟨hnone, hsettled, _⟩ := hq
  let u := s.putBus b (endedBus (s.bus b) (sentTransfer s r c c.step.count))
  have heffect := endWrite_allAcked_last hcan.buses hb hbuses hkeep hex hlast
  rw [hp] at heffect
  have houtcome := tunerOutcome_of_released (s := u) hcan.tuners hs hrelease htune hcommitted
    (hrole.imp_right And.left) .done
  have htake := (takeNotice_runDone_tuner (p := .release) (by decide) u r.tuner .done r.margin).trans houtcome
  refine (exec_writeStep hb _ s).trans (congrArg _ ?_)
  rcases hrole with hoff | ⟨hlive, hqueue⟩
  · rw [if_pos (show u.role r.tuner = .off from hoff)] at htake
    exact act_handsOn_once (u := u) hq heffect hnone htake (by simp [hnone]) (by simp [hsettled])
  · rw [if_neg (show ¬ u.role r.tuner = .off from fun h => by cases hlive.symm.trans h),
      post_of_none (by simp [u, hnone])] at htake
    exact act_handsOn (u := u) hq heffect hnone htake
      (List.forall_mem_singleton.mpr (findsNothing_serveTry (by simp [hqueue]))) (by simp) (by simp [hnone])
      (by simp [hsettled])

section measured
variable {d : Report} (hp : r.purpose = .measure) (hawaited : (s.qmLane r.tuner).awaited = false)
  (hpending : (s.qmLane r.tuner).pending = some d) (hlines : d.lines = []) (hrole : s.role d.lane ≠ .scan)
include hp hawaited hpending hlines hrole

/-- A MEASURE run ends DONE with a margin: the pending report completes with it (R65, R80). -/
theorem exec_measureDone (hex : s.executing b .read .transfer = some (r, c)) (hlast : c.step.next = none)
    {bs : List Byte} (hlen : c.bytes.length + bs.length = c.step.count) {m : Nat}
    (hmargin : captured r c.step (c.bytes ++ bs) = some m) :
    exec (.readStep b (.received bs)) s = .next (((s.storeReceived c bs).putBus b
      (endedBus (s.bus b) { addr := transferAddr r c.step, read := true, bytes := c.bytes ++ bs })).putQmLane r.tuner
        (freshLane (s.qmLane r.tuner) m)) := by
  have ⟨hnone, hsettled, _⟩ := hq
  have heffect := endRead_received_last hcan.buses hb hbuses hkeep hex hlast hlen
  rw [hp, hmargin, State.storeReceived, storePool_eq] at heffect
  rw [State.storeReceived, storePool_eq]
  let u := (s.setTables { s.tables with pool := (s.storePool (c.step.byteOff + c.bytes.length) bs).tables.pool }).putBus b
    (endedBus (s.bus b) { addr := transferAddr r c.step, read := true, bytes := c.bytes ++ bs })
  have htake := (takeNotice_runDone_measure u r.tuner .done (some m)).trans
    (measureOutcome_of_margin (s := u) hcan.qmLanes hawaited hpending hrole m)
  rw [post_of_none (by simp [u, hnone])] at htake
  exact (exec_readStep hb _ s).trans (congrArg _ (act_handsOn (u := u) hq heffect (by simp [u, hnone]) htake
    (List.forall_mem_singleton.mpr (findsNothing_report hlines)) (by simp) (by simp [hnone]) (by simp [hsettled])))

/-- A MEASURE run fails: BUS_FAULT is raised, and the pending report completes under the hold rule (R65, R87). -/
theorem exec_measureFailed (hex : s.executing b .write .transfer = some (r, c)) (hbytes : c.bytes = []) :
    exec (.writeStep b .noAddress) s = .next (((s.putBus b (endedBus (s.bus b) (sentTransfer s r c 0))).raise .tuner
      r.tuner .busFault).putQmLane r.tuner (heldLane (s.qmLane r.tuner))) := by
  have ⟨hnone, hsettled, _⟩ := hq
  have heffect := endWrite_noAddress hcan.buses hb hbuses hkeep hex hbytes
  obtain ⟨i, m, hfault⟩ := raise_frame (s.putBus b (endedBus (s.bus b) (sentTransfer s r c 0))) .tuner r.tuner .busFault true
  rw [hfault] at heffect ⊢
  rw [hp] at heffect
  let u := ((s.putBus b (endedBus (s.bus b) (sentTransfer s r c 0))).setInds i).setMgmt m
  have htake := (takeNotice_runDone_measure u r.tuner .ackFail none).trans
    (measureOutcome_of_failed (s := u) hcan.qmLanes hawaited hpending hrole (by decide) none)
  rw [post_of_none (by simp [u, hnone])] at htake
  exact (exec_writeStep hb _ s).trans (congrArg _ (act_handsOn (u := u) hq heffect hnone htake
    (List.forall_mem_singleton.mpr (findsNothing_report hlines)) (by simp) (by simp [hnone]) (by simp [hsettled])))

end measured

end events

/-- Settles O46: the run's outcome is the one hand-over, and what its requester hands on finds nothing to do. -/
theorem runOutcomesReachRequesters : Obligations.RunOutcomesReachRequesters := by
  intro s b n r c hb hq hcan hbuses hn hkeep hlast
  subst hn
  refine ⟨fun hex hp hs => ⟨?tuneDone, fun hw hrole hcommitted hlane hqueue hranks hbytes => ?tuneFailed⟩,
    fun d x hp hawaited hpending hlines hrole => ⟨fun hex hcount hbytes hmargin => ?measureDone,
      fun hex hbytes => ?measureFailed⟩,
    fun hex hp hs hrelease htune hcommitted hrole => ?releaseDone⟩
  case tuneDone =>
    obtain ⟨i, m, hexec⟩ := exec_tuneDone hb hq hcan hbuses hkeep hex hlast hp hs
    simp only [writes_eq] at hexec
    have hbus := tab_get_set_same ({} : Bus) s.buses 0 b (endedBus (s.bus b) (sentTransfer s r c c.step.count)) hcan.buses
    exact ⟨_, hexec, congrArg Bus.state hbus, congrArg Bus.run hbus, tab_get_set_same _ _ 0 _ _ hcan.tuners,
      tab_get_set_same _ _ 0 _ _ hcan.framers, tab_get_set_same _ _ 0 _ _ hcan.trackers,
      fun k hk => ⟨tab_get_set_other _ _ _ _ _ hk, tab_get_set_other _ _ _ _ _ hk, tab_get_set_other _ _ _ _ _ hk⟩,
      fun k hk => tab_get_set_other _ _ _ _ _ hk, rfl⟩
  case tuneFailed =>
    let ended := s.putBus b (endedBus (s.bus b) (sentTransfer s r c 0))
    have hexec := exec_tuneFailed hb hq hcan hbuses hkeep hex hbytes hp hs hw hrole hcommitted hlane hqueue hranks
    obtain ⟨i, m, hfault, hbusFault, -⟩ := raise_latches ended .tuner r.tuner .busFault true
    let idle := (((ended.setInds i).setMgmt m).putFramer r.tuner {}).putTracker r.tuner {}
    have hidle : idle.latched .tuner r.tuner .busFault = true := by
      simp only [idle, State.latched, writes_eq]
      exact hbusFault
    obtain ⟨i', m', hfailed, htuneFailed, hkept⟩ := raise_latches idle .tuner r.tuner .tuneFailed true
    rw [hfault, hfailed] at hexec
    simp only [idle, ended, writes_eq] at hexec
    have hbus := tab_get_set_same ({} : Bus) s.buses 0 b (endedBus (s.bus b) (sentTransfer s r c 0)) hcan.buses
    exact ⟨_, hexec, congrArg Bus.state hbus, congrArg Bus.run hbus, tab_get_set_same _ _ 0 _ _ hcan.tuners, htuneFailed,
      hkept .tuner r.tuner .busFault hidle,
      tab_get_set_same _ _ 0 _ _ hcan.framers, tab_get_set_same _ _ 0 _ _ hcan.trackers,
      fun k hk => ⟨tab_get_set_other _ _ _ _ _ hk, tab_get_set_other _ _ _ _ _ hk, tab_get_set_other _ _ _ _ _ hk⟩, rfl⟩
  case measureDone =>
    have hexec := exec_measureDone hb hq hcan hbuses hkeep hp hawaited hpending hlines hrole hex hlast (bs := [x])
      (by simp [hbytes, hcount]) (by simp only [captured, hmargin, hbytes, if_true]; rfl)
    have ⟨_, _, _, _, _, _, hcanPool⟩ := hcan.tables
    have hpool : Tab.get 0 (s.storePool (c.step.byteOff + c.bytes.length) [x]).tables.pool c.step.byteOff = x := by
      refine (poolByte_storePool hcanPool _ _ _).trans ?_
      simp [hbytes]
    rw [State.storeReceived, storePool_eq] at hexec
    simp only [writes_eq] at hexec
    have hbus := tab_get_set_same ({} : Bus) s.buses 0 b
      (endedBus (s.bus b) { addr := transferAddr r c.step, read := true, bytes := c.bytes ++ [x] }) hcan.buses
    exact ⟨_, hexec, congrArg Bus.state hbus, congrArg Bus.run hbus, tab_get_set_same _ _ 0 _ _ hcan.qmLanes, hpool,
      fun k hk => tab_get_set_other _ _ _ _ _ hk, rfl⟩
  case measureFailed =>
    have hexec := exec_measureFailed hb hq hcan hbuses hkeep hp hawaited hpending hlines hrole hex hbytes
    let ended := s.putBus b (endedBus (s.bus b) (sentTransfer s r c 0))
    obtain ⟨i, m, hfault, hbusFault, -⟩ := raise_latches ended .tuner r.tuner .busFault true
    rw [hfault] at hexec
    simp only [ended, writes_eq] at hexec
    exact ⟨_, hexec, tab_get_set_same _ _ 0 _ _ hcan.qmLanes, hbusFault, fun k hk => tab_get_set_other _ _ _ _ _ hk, rfl⟩
  case releaseDone =>
    have hexec := exec_releaseDone hb hq hcan hbuses hkeep hex hlast hp hs hrelease htune hcommitted hrole
    simp only [writes_eq] at hexec
    have hbus := tab_get_set_same ({} : Bus) s.buses 0 b (endedBus (s.bus b) (sentTransfer s r c c.step.count)) hcan.buses
    exact ⟨_, hexec, congrArg Bus.state hbus, congrArg Bus.run hbus, tab_get_set_same _ _ 0 _ _ hcan.tuners,
      fun k hk => tab_get_set_other _ _ _ _ _ hk, fun k hk => tab_get_set_other _ _ _ _ _ hk, rfl⟩

end Sys2Proof.Proofs
end

section
/-! SUPPORT. The expiry of a window on a tuner's lane, and the proof of the obligation about it (R59, R63 to R66, R84). -/

namespace Sys2Proof.Proofs
open Sys2Proof Sys2Proof.Machine Sys2Proof.Laws

set_option Elab.async false

/-! ## The judgement of an expired window -/

/-- `t` is `s` but for what the judgement of lane `n`'s expired window may change: that lane's status and tracker, the census
records, the mismatch statuses, the indications and the lists of the Management Unit (R51, R63, R68, R69). -/
structure LaneJudged (n : Nat) (s t : State) : Prop where
  eq : t = { s with trackers := t.trackers, censusRecs := t.censusRecs, qmLanes := t.qmLanes, mismatch := t.mismatch,
                    inds := t.inds, mgmt := t.mgmt }
  lane : t.qmLane n = { s.qmLane n with degraded := (t.qmLane n).degraded, degCount := (t.qmLane n).degCount }
  others : ∀ m, m ≠ n → t.qmLane m = s.qmLane m ∧ t.tracker m = s.tracker m
  wf : Tab.wf ({} : QmLane) t.qmLanes = true

section judged
variable {s t : State} {n : Nat}

theorem tracker_putTracker_other {k : Nat} (h : k ≠ n) (x) : (s.putTracker n x).tracker k = s.tracker k :=
  tab_get_set_other _ _ _ _ _ h

theorem LaneJudged.refl (h : Tab.wf ({} : QmLane) s.qmLanes = true) (n : Nat) : LaneJudged n s s :=
  ⟨rfl, rfl, fun _ _ => ⟨rfl, rfl⟩, h⟩

theorem LaneJudged.ite {c : Prop} [Decidable c] {u v : State} (hu : LaneJudged n s u) (hv : LaneJudged n s v) :
    LaneJudged n s (if c then u else v) := by
  split
  · exact hu
  · exact hv

theorem laneJudged_raise (h : LaneJudged n s t) (k i kd val) : LaneJudged n s (t.raise k i kd val) := by
  obtain ⟨x, m, hraise⟩ := raise_frame t k i kd val
  rw [hraise]
  exact ⟨congrArg (fun u : State => (u.setInds x).setMgmt m) h.eq, h.lane, h.others, h.wf⟩

theorem laneJudged_putTracker (h : LaneJudged n s t) (k) : LaneJudged n s (t.putTracker n k) :=
  ⟨congrArg (fun u : State => u.setTrackers (Tab.set {} t.trackers n k)) h.eq, h.lane,
    fun m hm => ⟨(h.others m hm).1, (tracker_putTracker_other hm k).trans (h.others m hm).2⟩, h.wf⟩

theorem laneJudged_putCensusRec (h : LaneJudged n s t) (x r) : LaneJudged n s (t.putCensusRec x r) :=
  ⟨congrArg (fun u : State => u.setCensusRecs (Tab.set none t.censusRecs x r)) h.eq, h.lane, h.others, h.wf⟩

theorem laneJudged_putMismatched (h : LaneJudged n s t) (x b) : LaneJudged n s (t.putMismatched x b) :=
  ⟨congrArg (fun u : State => u.setMismatch (Tab.set false t.mismatch x b)) h.eq, h.lane, h.others, h.wf⟩

theorem laneJudged_putStatus (h : LaneJudged n s t) (bad : Bool) (count : Nat) :
    LaneJudged n s (t.putQmLane n { t.qmLane n with degraded := bad, degCount := count }) := by
  refine ⟨congrArg (fun u : State => u.setQmLanes (Tab.set {} t.qmLanes n
    { t.qmLane n with degraded := bad, degCount := count })) h.eq, ?_, fun m hm => ?_, tab_wf_set _ _ _ _ h.wf⟩
  · rw [qmLane_putQmLane_same h.wf, h.lane]
  · exact ⟨(qmLane_putQmLane_other hm _).trans (h.others m hm).1, (h.others m hm).2⟩

/-! ## The steps of the expiry -/

theorem laneJudged_judgeStatus (h : LaneJudged n s t) (bad : Bool) : LaneJudged n s (t.judgeStatus n bad) := by
  unfold State.judgeStatus
  dsimp only
  split
  · have hput := laneJudged_putStatus h true (min 4 ((t.qmLane n).degCount + 1))
    have hraise := LaneJudged.ite (c := (t.qmLane n).degraded = true) hput (laneJudged_raise hput .lane n .degraded true)
    exact .ite (laneJudged_raise hraise _ _ _ _) hraise
  · have hput := laneJudged_putStatus h false 0
    have hraise := LaneJudged.ite (c := (t.qmLane n).degraded = true) (laneJudged_raise hput .lane n .degraded false) hput
    exact .ite (laneJudged_raise hraise _ _ _ _) hraise

theorem laneJudged_judgeMismatch (h : LaneJudged n s t) (x p flag) : LaneJudged n s (t.judgeMismatch x p flag) :=
  .ite h (laneJudged_raise (laneJudged_putMismatched h x flag) _ _ _ _)

theorem laneJudged_closeCensus (h : LaneJudged n s t) (x) : LaneJudged n s (t.closeCensus n x) := by
  have hclosed (k r) : LaneJudged n s ((t.putTracker n k).putCensusRec x r) :=
    laneJudged_putCensusRec (laneJudged_putTracker h k) x r
  unfold State.closeCensus
  dsimp only
  split
  · exact hclosed _ _
  · exact .ite (hclosed _ _) (.ite (laneJudged_raise (hclosed _ _) _ _ _ _) (laneJudged_raise (hclosed _ _) _ _ _ _))

/-- Steps 2 to 4 judge the lane; step 5 starts its next window and files the report (R63). -/
theorem closeWindow_eq (h : Tab.wf ({} : QmLane) s.qmLanes = true) (n : Nat) :
    ∃ v, LaneJudged n s v ∧ s.closeWindow n = (v.nextWindow n).fileReport n (s.formReport n) := by
  have hstatus := laneJudged_judgeStatus (laneJudged_putTracker (.refl h n) (s.tracker n).nextWindow)
    (degradedWindow s.settings.excess (s.formReport n).e (s.formReport n).y (s.formReport n).l)
  have hmismatch := laneJudged_judgeMismatch hstatus (s.formReport n).mux (s.formReport n).p (s.formReport n).mismatch
  exact ⟨_, .ite (laneJudged_closeCensus hmismatch _) hmismatch, rfl⟩

/-- The window state of a tuner's lane that has filed its report and started its next window (R59, R63, R64). -/
def filedLane (q : QmLane) (now len : Nat) (r : Report) : QmLane :=
  { q with window := some (now, len), seq := (q.seq + 1) % 65536, p := 0, e := 0, y := 0, s := 0, r := 0, lockedMs := 0,
           lockSince := q.lockSince.map (fun _ => now), sat := false, pending := some r, outstanding := true }

/-- The state whose lane has filed its report and started its next window. -/
def filed (s : State) (n : Nat) (r : Report) : State := s.putQmLane n (filedLane (s.qmLane n) s.now s.settings.winLen r)

/-- The report of a tuner's lane becomes pending, and a MEASURE run is requested where none is outstanding (R64). -/
theorem fileReport_nextWindow (h : Tab.wf ({} : QmLane) s.qmLanes = true) (hn : n < 16) (r : Report) :
    (s.nextWindow n).fileReport n r =
      if (s.qmLane n).outstanding then filed s n r else (filed s n r).requestRun n .measure 0 := by
  have hlane : (s.nextWindow n).qmLane n = _ := qmLane_putQmLane_same h n _
  have hputs (q : QmLane) : (s.nextWindow n).putQmLane n q = s.putQmLane n q := putQmLane_putQmLane h n _ q
  unfold State.fileReport
  rw [if_neg (show ¬ n = insertionLane from Nat.ne_of_lt hn)]
  simp only [hlane, hputs]
  rfl

/-- A judged lane that has filed its report: what changed field by field, and what the lanes then hold. -/
theorem filed_frame {v : State} (h : LaneJudged n s v) (r : Report) :
    ∃ trackers censusRecs lanes mismatch inds mgmt bad count,
      filed v n r = { s with trackers := trackers, censusRecs := censusRecs, qmLanes := lanes, mismatch := mismatch,
                             inds := inds, mgmt := mgmt } ∧
      Tab.get {} lanes n =
        filedLane { s.qmLane n with degraded := bad, degCount := count } s.now s.settings.winLen r ∧
      ∀ m, m ≠ n → Tab.get {} lanes m = s.qmLane m ∧ Tab.get {} trackers m = s.tracker m := by
  have hnow : v.now = s.now := (congrArg State.now h.eq).trans rfl
  have hsettings : v.settings = s.settings := (congrArg State.settings h.eq).trans rfl
  refine ⟨v.trackers, v.censusRecs, Tab.set {} v.qmLanes n (filedLane (v.qmLane n) v.now v.settings.winLen r), v.mismatch,
    v.inds, v.mgmt, (v.qmLane n).degraded, (v.qmLane n).degCount, ?_, ?_, fun m hm => ?_⟩
  · exact congrArg (fun u : State => u.setQmLanes (Tab.set {} v.qmLanes n (filedLane (v.qmLane n) v.now v.settings.winLen r)))
      h.eq
  · rw [tab_get_set_same _ _ 0 _ _ h.wf, ← h.lane, hnow, hsettings]
  · exact ⟨(tab_get_set_other _ _ _ _ _ hm).trans (h.others m hm).1, (h.others m hm).2⟩

end judged

/-! ## The older report -/

section older
variable {s : State} {n a len : Nat}

/-- The window states `lanes` once an older pending report of lane `n`, if any, has completed: only that lane's pending report
and hold count may differ, and the figures of its window stand (R63, R65, R66). -/
structure Delivered (s : State) (n hold : Nat) (lanes : Tab QmLane) : Prop where
  eq : s.deliverHeld n = s.setQmLanes lanes
  wf : Tab.wf ({} : QmLane) lanes = true
  lane : ∃ pending, Tab.get {} lanes n = { s.qmLane n with pending := pending, hold := hold }
  others : ∀ m, m ≠ n → Tab.get {} lanes m = s.qmLane m
  figures : (s.setQmLanes lanes).formReport n = s.formReport n

theorem delivered_of_none (hwf : Tab.wf ({} : QmLane) s.qmLanes = true) (h : (s.qmLane n).pending = none) :
    Delivered s n (s.qmLane n).hold s.qmLanes := by
  refine ⟨?_, hwf, ⟨(s.qmLane n).pending, rfl⟩, fun _ _ => rfl, rfl⟩
  simp only [State.deliverHeld, h]
  rfl

/-- An older report without lines, of a tuner that is not SCAN, completes under the hold rule, and nothing else comes of it
(R65, R66, R70). -/
theorem delivered_of_plain (hwf : Tab.wf ({} : QmLane) s.qmLanes = true) {r : Report}
    (h : (s.qmLane n).pending = some r) (hlines : r.lines = []) (hrole : s.role r.lane ≠ .scan) :
    Delivered s n (min 255 ((s.qmLane n).hold + 1)) (Tab.set {} s.qmLanes n (s.qmLane n).afterHeld) := by
  have hlane : (s.putQmLane n (s.qmLane n).afterHeld).qmLane n = _ := qmLane_putQmLane_same hwf n _
  refine ⟨?_, tab_wf_set _ _ _ _ hwf, ⟨none, hlane⟩, fun m hm => tab_get_set_other _ _ _ _ _ hm, ?_⟩
  · simp only [State.deliverHeld, h, reportsToSch_of_not_scan hrole]
    exact reReport_of_no_lines hlines
  · show (s.putQmLane n (s.qmLane n).afterHeld).formReport n = _
    unfold State.formReport
    simp only [hlane]
    rfl

/-- A window expires, an older report not ending it: the lane is judged, its report filed and its next window started. -/
theorem expireWindow_eq {u : State} (hwin : (s.qmLane n).window = some (a, len)) (hn : n < 16)
    (hheld : (s.reach (a + len)).deliverHeld n = u) (hkept : (u.qmLane n).window = some (a, len))
    (hwf : Tab.wf ({} : QmLane) u.qmLanes = true) :
    ∃ v, LaneJudged n u v ∧ s.expireWindow n = if (u.qmLane n).outstanding then filed v n (u.formReport n)
      else (filed v n (u.formReport n)).requestRun n .measure 0 := by
  obtain ⟨v, hjudged, hclose⟩ := closeWindow_eq hwf n
  refine ⟨v, hjudged, ?_⟩
  have hout : (v.qmLane n).outstanding = (u.qmLane n).outstanding := by rw [hjudged.lane]
  rw [← hout, ← fileReport_nextWindow hjudged.wf hn, ← hclose]
  simp only [State.expireWindow, hwin, hheld]
  exact if_pos hkept

theorem exec_windowExpiry_quiet {t : State} (hq : s.Quiet) (hn : n < 17) (ht : s.expireWindow n = t) (hnone : t.notices = [])
    (hsettled : t.settled = []) : exec (.windowExpiry n) s = .next t := by
  have hexec : exec (.windowExpiry n) s = .next (s.act (fun s => s.expireWindow n)) := if_pos hn
  rw [hexec, act_quiet _ _ hq (by rw [ht, hnone]) (by rw [ht, hsettled]), ht]

end older

/-! ## The MEASURE run -/

section request
variable {s : State} {n x : Nat} {p : Purpose}

/-- What the buses hold after a request for a run on a bus with nothing queued: on a busy bus the run waits, on an IDLE one
it has started (R77, R84). -/
def Requested (s : State) (n : Nat) (p : Purpose) (x : Nat) (buses : Tab Bus) : Prop :=
  (∀ k, k ≠ (s.tunerRec n).bus → Tab.get {} buses k = s.bus k) ∧
  ((s.bus (s.tunerRec n).bus).state ≠ .idle → Tab.get {} buses (s.tunerRec n).bus =
    { s.bus (s.tunerRec n).bus with queue := [s.newRun n p x] }) ∧
  (s.busReady (s.tunerRec n).bus → Tab.get {} buses (s.tunerRec n).bus = { s.bus (s.tunerRec n).bus with
    state := .running,
    run := some (s.entered { s.newRun n p x with clock := s.settings.busClock } (s.headFor n p x)) })

/-- A request for a run, made in a state `u` with the tables, the buses and the clock of `s`. -/
theorem requestRun_requested (hwf : Tab.wf ({} : Bus) s.buses = true) (hq : s.QuietBuses)
    (hruns : ∀ k, k < 4 → (s.bus k).runs n p = false) (hb : (s.tunerRec n).bus < 4)
    (hbus : (s.bus (s.tunerRec n).bus).state ≠ .idle ∨
      (s.busReady (s.tunerRec n).bus ∧ s.enterable (s.newRun n p x) (s.headFor n p x)))
    {u : State} (htables : u.tables = s.tables) (hbuses : u.buses = s.buses) (hnow : u.now = s.now) :
    ∃ buses, u.requestRun n p x = u.setBuses buses ∧ Requested s n p x buses := by
  obtain ⟨⟩ := u
  dsimp only at htables hbuses hnow
  subst htables hbuses hnow
  rcases hbus with hbusy | ⟨hready, henter⟩
  · exact ⟨_, requestRun_of_busy hwf hq hruns hb hbusy, fun k hk => tab_get_set_other _ _ _ _ _ hk,
      fun _ => tab_get_set_same _ _ 0 _ _ hwf, fun h => absurd h.1 hbusy⟩
  · exact ⟨_, requestRun_of_ready hwf hq hruns hb hready henter, fun k hk => tab_get_set_other _ _ _ _ _ hk,
      fun h => absurd hready.1 h, fun _ => tab_get_set_same _ _ 0 _ _ hwf⟩

end request

section expiry
variable {s : State} {n a len hold : Nat} {lanes : Tab QmLane}

/-- The window of a tuner's lane expires: the lane holds its filed report and its next window, and the buses hold a MEASURE run
where none was outstanding (R63, R64). -/
theorem expireWindow_files (hn : n < 16) (hwin : (s.qmLane n).window = some (a, len))
    (hdelivered : Delivered (s.reach (a + len)) n hold lanes)
    (hrequest : ∀ u : State, u.tables = s.tables → u.buses = s.buses → u.now = max s.now (a + len) →
      (s.qmLane n).outstanding = false → ∃ buses, u.requestRun n .measure 0 = u.setBuses buses ∧
        Requested (s.reach (a + len)) n .measure 0 buses) :
    ∃ trackers censusRecs lanes' buses mismatch inds mgmt bad count,
      s.expireWindow n = { s with now := max s.now (a + len), trackers := trackers, censusRecs := censusRecs,
                                  qmLanes := lanes', buses := buses, mismatch := mismatch, inds := inds, mgmt := mgmt } ∧
      Tab.get {} lanes' n = filedLane { s.qmLane n with hold := hold, degraded := bad, degCount := count }
        (max s.now (a + len)) s.settings.winLen ((s.reach (a + len)).formReport n) ∧
      (∀ m, m ≠ n → Tab.get {} lanes' m = s.qmLane m ∧ Tab.get {} trackers m = s.tracker m) ∧
      ((s.qmLane n).outstanding = true → buses = s.buses) ∧
      ((s.qmLane n).outstanding = false → Requested (s.reach (a + len)) n .measure 0 buses) := by
  obtain ⟨pending, hlane⟩ := hdelivered.lane
  let u := (s.reach (a + len)).setQmLanes lanes
  have hlane' : u.qmLane n = { s.qmLane n with pending := pending, hold := hold } := hlane
  obtain ⟨v, hjudged, hexpire⟩ := expireWindow_eq (u := u) hwin hn hdelivered.eq (by rw [hlane']; exact hwin) hdelivered.wf
  obtain ⟨trackers, censusRecs, lanes', mismatch, inds, mgmt, bad, count, hfiled, hfiledLane, hothers⟩ :=
    filed_frame hjudged (u.formReport n)
  rw [hlane', hdelivered.figures] at hfiledLane
  have hothers' (m : Nat) (hm : m ≠ n) : Tab.get {} lanes' m = s.qmLane m ∧ Tab.get {} trackers m = s.tracker m :=
    ⟨(hothers m hm).1.trans (hdelivered.others m hm), (hothers m hm).2⟩
  rw [hlane', hfiled] at hexpire
  cases hout : (s.qmLane n).outstanding with
  | true =>
    refine ⟨trackers, censusRecs, lanes', s.buses, mismatch, inds, mgmt, bad, count, ?_, hfiledLane, hothers', fun _ => rfl,
      nofun⟩
    exact hexpire.trans (if_pos hout)
  | false =>
    obtain ⟨buses, hstart, hrequested⟩ := hrequest { u with
      trackers := trackers, censusRecs := censusRecs, qmLanes := lanes', mismatch := mismatch, inds := inds, mgmt := mgmt }
      rfl rfl rfl hout
    refine ⟨trackers, censusRecs, lanes', buses, mismatch, inds, mgmt, bad, count, ?_, hfiledLane, hothers',
      nofun, fun _ => hrequested⟩
    exact (hexpire.trans (if_neg (by simp [hout]))).trans hstart

end expiry

/-- Settles O38: the lane is judged, its report is filed, and a run is requested where none is outstanding. -/
theorem windowExpiryFilesReport : Obligations.WindowExpiryFilesReport := by
  intro s n a len hn hq hcan hwin hbuses hold run hcase hrun
  have ⟨hnone, hsettled, _⟩ := hq
  have hrequest (hout : run = true) (u : State) (htables : u.tables = s.tables) (hb : u.buses = s.buses)
      (hnow : u.now = max s.now (a + len)) : ∃ buses, u.requestRun n .measure 0 = u.setBuses buses ∧
        Requested (s.reach (a + len)) n .measure 0 buses := by
    obtain ⟨hruns, hbus, hlt⟩ := hrun hout
    exact requestRun_requested (s := s.reach (a + len)) hcan.buses hbuses hruns hlt hbus htables hb hnow
  obtain ⟨lanes, hdelivered, hout⟩ : ∃ lanes, Delivered (s.reach (a + len)) n hold lanes ∧ (s.qmLane n).outstanding = !run := by
    rcases hcase with ⟨hpending, hout, rfl, rfl⟩ | ⟨⟨r, hpending, hlines, hrole⟩, hout, rfl, rfl⟩
    · exact ⟨_, delivered_of_none (s := s.reach (a + len)) hcan.qmLanes hpending, hout⟩
    · exact ⟨_, delivered_of_plain (s := s.reach (a + len)) hcan.qmLanes hpending hlines hrole, hout⟩
  obtain ⟨trackers, censusRecs, lanes', buses, mismatch, inds, mgmt, bad, count, hexpire, hlane, hothers, hstand, hrequested⟩ :=
    expireWindow_files hn hwin hdelivered (fun u ht hb hnow h => hrequest (by simpa [hout] using h) u ht hb hnow)
  refine ⟨_, exec_windowExpiry_quiet hq (by omega) hexpire hnone hsettled, congrArg QmLane.pending hlane,
    congrArg QmLane.outstanding hlane, congrArg QmLane.hold hlane, (congrArg QmLane.lastFresh hlane).trans rfl,
    congrArg QmLane.window hlane, congrArg QmLane.seq hlane, congrArg QmLane.p hlane, congrArg QmLane.e hlane,
    congrArg QmLane.y hlane, congrArg QmLane.s hlane, congrArg QmLane.r hlane, hothers,
    fun h => hstand (by simp [hout, h]), fun h => hrequested (by simp [hout, h]), rfl⟩

end Sys2Proof.Proofs
end

section
/-! SUPPORT. The steps of a run that goes on: what an event of its bus then changes, and the proofs of the obligations about
the steps that move on, the READ step and the POLL step (R75, R77 to R82). -/

namespace Sys2Proof.Proofs
open Sys2Proof Sys2Proof.Machine Sys2Proof.Laws

set_option Elab.async false

/-! ## A change of one bus -/

/-- `t` is `s` with bus `b` replaced by `u`. -/
def BusBecomes (s t : State) (b : Nat) (u : Bus) : Prop :=
  t.bus b = u ∧ (∀ k, k ≠ b → t.bus k = s.bus k) ∧ t = { s with buses := t.buses }

section becomes
variable {s t : State} {b : Nat} {u v : Bus} {r : Run} {c : Current} {i : Nat}

theorem bus_putBus_of_run (hrun : u.run = some r) (s : State) (b : Nat) : (s.putBus b u).bus b = u :=
  tab_get_set_ne _ _ _ _ (by rintro rfl; cases hrun)

theorem busBecomes_putBus (hrun : u.run = some r) : BusBecomes s (s.putBus b u) b u :=
  ⟨bus_putBus_of_run hrun s b, fun _ hk => bus_putBus_other hk u, rfl⟩

theorem BusBecomes.putBus (h : BusBecomes s t b u) (hrun : v.run = some r) : BusBecomes s (t.putBus b v) b v := by
  obtain ⟨-, hothers, heq⟩ := h
  exact ⟨bus_putBus_of_run hrun t b, fun k hk => (bus_putBus_other hk v).trans (hothers k hk),
    (congrArg (fun w : State => w.setBuses (Tab.set {} t.buses b v)) heq).trans rfl⟩

/-- An event whose effect hands nothing on does that effect and nothing else. -/
theorem exec_of_effect {e : Instr} {f : State → State} (hexec : exec e s = .next (s.act f)) (hq : s.Quiet) (ht : f s = t)
    (hnotices : t.notices = []) (hsettled : t.settled = []) : exec e s = .next t := by
  rw [hexec, act_quiet f s hq (by rw [ht, hnotices]) (by rw [ht, hsettled]), ht]

/-- An event that changes one bus of `s₀`, which is `s` but for the clock or the byte pool. -/
theorem exec_busBecomes {e : Instr} {f : State → State} {s₀ : State} (hexec : exec e s = .next (s.act f)) (hq : s.Quiet)
    (h : BusBecomes s₀ (f s) b u) (hnotices : s₀.notices = s.notices) (hsettled : s₀.settled = s.settled) :
    exec e s = .next (f s) := by
  have ⟨hnone, hdone, _⟩ := hq
  obtain ⟨-, -, heq⟩ := h
  exact exec_of_effect hexec hq rfl ((congrArg State.notices heq).trans (hnotices.trans hnone))
    ((congrArg State.settled heq).trans (hsettled.trans hdone))

/-! ## The next step of a run (R77) -/

/-- The current step completed, and the run goes on to a step that passes its checks. -/
theorem stepDone_next (hrun : (s.bus b).run = some r) (hkeep : r.withdrawn = false) (hcur : r.current = some c)
    (hnext : c.step.next = some i) (henter : s.enterable r i) :
    s.stepDone b = s.putBus b { s.bus b with run := some (s.entered r i) } := by
  simp only [State.stepDone, hrun, hkeep, hcur, hnext, Bool.false_eq_true, if_false, State.goTo,
    enterStep_of_enterable henter]

/-- Where the bus stands at the end of a step, it has the next one entered. -/
theorem BusBecomes.stepDone (h : BusBecomes s t b u) (hrun : u.run = some r) (hkeep : r.withdrawn = false)
    (hcur : r.current = some c) (hnext : c.step.next = some i) (henter : s.enterable r i) :
    BusBecomes s (t.stepDone b) b { u with run := some (s.entered r i) } := by
  have ⟨hbus, _, heq⟩ := h
  have henter' : t.enterable r i := by
    rw [heq]
    exact henter
  have hentered : t.entered r i = s.entered r i := (congrArg (fun w : State => w.entered r i) heq).trans rfl
  rw [stepDone_next (hbus.symm ▸ hrun) hkeep hcur hnext henter', hbus, hentered]
  exact h.putBus rfl

end becomes

/-! ## Events of a bus -/

section events
variable {b : Nat} (hb : b < 4) (s : State)
include hb

theorem exec_pollRead (a : Option Byte) : exec (.pollRead b a) s = .next (s.act (fun s => s.endPollRead b a)) := if_pos hb

theorem exec_pollIntervalExpiry : exec (.pollIntervalExpiry b) s = .next (s.act (fun s => s.nextPollRead b)) := if_pos hb

theorem exec_pollTimeValueExpiry : exec (.pollTimeValueExpiry b) s = .next (s.act (fun s => s.endPollTime b)) := if_pos hb

theorem exec_waitStepExpiry : exec (.waitStepExpiry b) s = .next (s.act (fun s => s.endWait b)) := if_pos hb

end events

section steps
variable {s : State} {b i : Nat} {r : Run} {c : Current}

/-- The run and the step that execute on a bus: what was asked for, in a run whose checks have not failed (R77, R78). -/
theorem executing_spec {k : StepKind} {ph : StepPhase} (h : s.executing b k ph = some (r, c)) :
    r.failing = none ∧ c.step.kind = k ∧ c.phase = ph := by
  have hrun := executing_run h
  have hcur := executing_current h
  simp only [State.executing, hrun, hcur] at h
  obtain ⟨⟨hfail, hkind, hphase, -⟩, -⟩ := Option.ite_none_right_eq_some.mp h
  exact ⟨hfail, hkind, hphase⟩

/-- Only the step that executes is of its kind and phase. -/
theorem executing_other {k k' : StepKind} {ph ph' : StepPhase} (h : s.executing b k ph = some (r, c))
    (hne : k ≠ k' ∨ ph ≠ ph') : s.executing b k' ph' = none := by
  obtain ⟨-, hkind, hphase⟩ := executing_spec h
  have hnot : ¬(c.step.kind = k' ∧ c.phase = ph') := by
    rintro ⟨hk, hp⟩
    exact hne.elim (fun h => h (hkind.symm.trans hk)) (fun h => h (hphase.symm.trans hp))
  simp only [State.executing, executing_run h, executing_current h]
  exact if_neg (fun hall => hnot ⟨hall.2.1, hall.2.2.1⟩)

/-- The executing run with its current step replaced. -/
theorem busBecomes_putCurrent (s : State) (b : Nat) (r : Run) (c : Current) :
    BusBecomes s (s.putCurrent b r c) b { s.bus b with run := some { r with current := some c } } :=
  busBecomes_putBus rfl

/-- The two-wire lines of a bus whose step executes carried a transfer (R78). -/
theorem busBecomes_noteTransfer {k : StepKind} {ph : StepPhase} (h : s.executing b k ph = some (r, c)) (x : Transfer) :
    BusBecomes s (s.noteTransfer b x) b { s.bus b with lastTransfer := some x } :=
  busBecomes_putBus (r := r) (executing_run h)

/-! ## WRITE and WAIT steps (R79, R82) -/

theorem endWrite_bytesPut (hex : s.executing b .write .transfer = some (r, c)) {n : Nat}
    (hn : c.bytes.length + n ≤ c.step.count) : BusBecomes s (s.endWrite b (.bytesPut n)) b { s.bus b with
      run := some { r with current := some { c with
        bytes := c.bytes ++ s.poolBytes (c.step.byteOff + c.bytes.length) n } } } := by
  have hsent : s.sentTo c (c.bytes.length + n) = c.bytes ++ s.poolBytes (c.step.byteOff + c.bytes.length) n := by
    rw [State.sentTo, Nat.add_sub_cancel_left]
  simp only [State.endWrite, hex, if_pos hn, hsent]
  exact busBecomes_putCurrent s b r _

variable (hkeep : r.withdrawn = false) (hnext : c.step.next = some i) (henter : s.enterable r i)
include hkeep hnext henter

theorem endWrite_allAcked_next (hex : s.executing b .write .transfer = some (r, c)) :
    BusBecomes s (s.endWrite b .allAcked) b { s.bus b with
      run := some (s.entered r i), lastTransfer := some (sentTransfer s r c c.step.count) } := by
  simp only [State.endWrite, hex]
  exact (busBecomes_noteTransfer hex (sentTransfer s r c c.step.count)).stepDone (executing_run hex) hkeep
    (executing_current hex) hnext henter

theorem endWait_next (hex : s.executing b .wait .pause = some (r, c)) :
    BusBecomes (s.reach (c.since + c.step.time)) (s.endWait b) b { s.bus b with
      run := some ((s.reach (c.since + c.step.time)).entered r i) } := by
  simp only [State.endWait, hex]
  rw [stepDone_next (s := s.reach _) (executing_run hex) hkeep (executing_current hex) hnext henter]
  exact busBecomes_putBus rfl

/-! ## A satisfied POLL step (R81) -/

theorem endPollRead_satisfied (hex : s.executing b .poll .transfer = some (r, c)) {x : Byte}
    (hx : x &&& c.step.mask = c.step.want) : BusBecomes s (s.endPollRead b (some x)) b { s.bus b with
      run := some (s.entered r i),
      lastTransfer := some { addr := transferAddr r c.step, read := true, bytes := [x] } } := by
  have hsat : satisfies c.step x = true := decide_eq_true hx
  simp only [State.endPollRead, hex, hsat, if_true]
  exact (busBecomes_noteTransfer hex _).stepDone (executing_run hex) hkeep (executing_current hex) hnext henter

end steps

/-- Settles O42: the transfer or the clock is noted, and the step that follows passes its checks. -/
theorem stepsMoveOn : Obligations.StepsMoveOn := by
  intro s b i r c hb hq hkeep hnext henter
  refine ⟨fun hex => ⟨fun n hn => ?bytesPut, ?allAcked⟩, fun x hex hx => ?poll, fun hex => ?wait⟩
  case bytesPut =>
    have h := endWrite_bytesPut hex hn
    exact ⟨_, exec_busBecomes (exec_writeStep hb _ s) hq h rfl rfl, h⟩
  case allAcked =>
    have h := endWrite_allAcked_next hkeep hnext henter hex
    exact ⟨_, exec_busBecomes (exec_writeStep hb _ s) hq h rfl rfl, h⟩
  case poll =>
    have h := endPollRead_satisfied hkeep hnext henter hex hx
    exact ⟨_, exec_busBecomes (exec_pollRead hb s _) hq h rfl rfl, h⟩
  case wait =>
    have h := endWait_next hkeep hnext henter hex
    exact ⟨_, exec_busBecomes (exec_waitStepExpiry hb s) hq h rfl rfl, h⟩

/-! ## A POLL step that is not satisfied (R81) -/

section poll
variable {s : State} {b : Nat} {r : Run} {c : Current}

theorem act_of_quiet (hq : s.Quiet) (f : State → State) :
    s.act f = (State.drain Config.handOverFuel (f s)).setSettled [] := by
  rw [State.act, wake_quiet s hq]

/-- A bus that changes without a failing run coming to it leaves the part quiet. -/
theorem BusBecomes.quiet {t : State} {u : Bus} (h : BusBecomes s t b u) (hq : s.Quiet) (hrun : u.run = some r)
    (hfail : r.failing = none) : t.Quiet := by
  obtain ⟨hbus, hothers, heq⟩ := h
  obtain ⟨hnone, hdone, hfailing⟩ := hq
  refine ⟨(congrArg State.notices heq).trans hnone, (congrArg State.settled heq).trans hdone, fun k hk => ?_⟩
  by_cases hkb : k = b
  · simp [State.failingRun, hkb, hbus, hrun, hfail]
  · rw [State.failingRun, hothers k hkb]
    exact hfailing k hk

/-- A read that does not satisfy its step, while the time value has not run out. -/
theorem endPollRead_pauses (hex : s.executing b .poll .transfer = some (r, c)) {x : Byte}
    (hx : x &&& c.step.mask ≠ c.step.want) (htime : c.timedOut = false) :
    BusBecomes s (s.endPollRead b (some x)) b { s.bus b with
      run := some { r with current := some { c with phase := .pause } },
      lastTransfer := some { addr := transferAddr r c.step, read := true, bytes := [x] } } := by
  have hsat : satisfies c.step x = false := decide_eq_false hx
  have hnoted := busBecomes_noteTransfer hex { addr := transferAddr r c.step, read := true, bytes := [x] }
  simp only [State.endPollRead, hex, hsat, htime, Bool.false_eq_true, if_false, State.putCurrent, Option.toList_some,
    hnoted.1]
  exact hnoted.putBus rfl

/-- A read that does not satisfy its step, the time value having run out during it. -/
theorem endPollRead_timedOut (hex : s.executing b .poll .transfer = some (r, c)) {x : Byte}
    (hx : x &&& c.step.mask ≠ c.step.want) (htime : c.timedOut = true) :
    s.endPollRead b (some x) =
      (s.noteTransfer b { addr := transferAddr r c.step, read := true, bytes := [x] }).endRun b .pollTimeout := by
  have hsat : satisfies c.step x = false := decide_eq_false hx
  simp only [State.endPollRead, hex, hsat, htime, Bool.false_eq_true, if_false, if_true, Option.toList_some]

theorem nextPollRead_begins (hex : s.executing b .poll .pause = some (r, c))
    (htime : max s.now (c.readSince + c.interval) < c.since + c.step.time) :
    BusBecomes (s.reach (c.readSince + c.interval)) (s.nextPollRead b) b { s.bus b with
      run := some { r with
        current := some { c with phase := .transfer, readSince := max s.now (c.readSince + c.interval) } } } := by
  have hnow : (s.reach (c.readSince + c.interval)).now < c.since + c.step.time := htime
  simp only [State.nextPollRead, hex, if_pos hnow]
  exact busBecomes_putCurrent (s.reach _) b r _

theorem nextPollRead_of_late (hex : s.executing b .poll .pause = some (r, c))
    (htime : c.since + c.step.time ≤ max s.now (c.readSince + c.interval)) : s.nextPollRead b = s := by
  have hnow : ¬ (s.reach (c.readSince + c.interval)).now < c.since + c.step.time := Nat.not_lt.mpr htime
  simp only [State.nextPollRead, hex, if_neg hnow]

theorem endPollTime_in_read (hex : s.executing b .poll .transfer = some (r, c)) :
    BusBecomes (s.reach (c.since + c.step.time)) (s.endPollTime b) b { s.bus b with
      run := some { r with current := some { c with timedOut := true } } } := by
  have hpause : s.executing b .poll .pause = none := executing_other hex (.inr (by decide))
  simp only [State.endPollTime, hpause, hex]
  exact busBecomes_putCurrent (s.reach _) b r _

end poll

/-- Settles O44: each event by the phase of the step and by whether the time value has run out. -/
theorem pollPausesAndRepeats : Obligations.PollPausesAndRepeats := by
  intro s b r c hb hq
  refine ⟨fun x hex hx => ⟨fun htime => ?pauses, fun htime => ?timedOut⟩,
    fun hex => ⟨fun htime => ?begins, fun htime => ?late⟩, fun hex => ?timeRunsOut⟩
  case pauses =>
    have h := endPollRead_pauses hex hx htime
    exact ⟨_, exec_busBecomes (exec_pollRead hb s _) hq h rfl rfl, h⟩
  case timedOut =>
    have ⟨hfail, _, _⟩ := executing_spec hex
    have hnoted := busBecomes_noteTransfer hex { addr := transferAddr r c.step, read := true, bytes := [x] }
    rw [exec_pollRead hb, act_of_quiet hq, endPollRead_timedOut hex hx htime]
    exact congrArg _ (act_of_quiet (hnoted.quiet hq (executing_run hex) hfail)
      (fun u => u.endRun b .pollTimeout)).symm
  case begins =>
    have h := nextPollRead_begins hex htime
    exact ⟨_, exec_busBecomes (exec_pollIntervalExpiry hb s) hq h rfl rfl, h⟩
  case late =>
    have ⟨hnone, hdone, _⟩ := hq
    exact exec_of_effect (exec_pollIntervalExpiry hb s) hq (nextPollRead_of_late hex htime) hnone hdone
  case timeRunsOut =>
    have h := endPollTime_in_read hex
    exact ⟨_, exec_busBecomes (exec_pollTimeValueExpiry hb s) hq h rfl rfl, h⟩

/-! ## READ steps (R80) -/

section read
variable {s t : State} {b i : Nat} {r : Run} {c : Current} {bs : List Byte} {u : Bus}

theorem storeReceived_eq (s : State) (c : Current) (bs : List Byte) :
    s.storeReceived c bs = s.setTables { s.tables with pool := (s.storeReceived c bs).tables.pool } := storePool_eq s _ bs

/-- A READ step's bytes are stored, and its bus changes: what the pool and the buses then hold (R75, R80). -/
theorem stored_of_busBecomes (hpool : Tab.wf (0 : Byte) s.tables.pool = true) (h : BusBecomes (s.storeReceived c bs) t b u) :
    (∀ k, k < bs.length → t.poolByte (c.step.byteOff + c.bytes.length + k) = bs.getD k 0) ∧
    (∀ j, j < c.step.byteOff + c.bytes.length ∨ c.step.byteOff + c.bytes.length + bs.length ≤ j →
      t.poolByte j = s.poolByte j) ∧
    t.bus b = u ∧ (∀ k, k ≠ b → t.bus k = s.bus k) ∧
    t = { s with buses := t.buses, tables := { s.tables with pool := t.tables.pool } } := by
  obtain ⟨hbus, hothers, heq⟩ := h
  have hstored := storeReceived_eq s c bs
  have htables : t.tables = (s.storeReceived c bs).tables := (congrArg State.tables heq).trans rfl
  have hread (j : Nat) : t.poolByte j = _ :=
    (congrArg (fun x : Tables => Tab.get (0 : Byte) x.pool j) htables).trans (poolByte_storePool hpool _ bs j)
  refine ⟨fun k hk => ?_, fun j hj => ?_, hbus, fun k hk => ?_, ?_⟩
  · rw [hread, if_pos (by omega), Nat.add_sub_cancel_left]
  · rw [hread, if_neg (by omega)]
  · rw [hothers k hk, hstored]
    rfl
  · rw [htables]
    exact heq.trans ((congrArg (fun w : State => w.setBuses t.buses) hstored).trans rfl)

theorem endRead_bytesIn (hex : s.executing b .read .transfer = some (r, c))
    (hlen : c.bytes.length + bs.length ≤ c.step.count) :
    BusBecomes (s.storeReceived c bs) (s.endRead b (.bytesIn bs)) b { s.bus b with
      run := some { r with current := some { c with bytes := c.bytes ++ bs } } } := by
  have hbus : (s.storeReceived c bs).bus b = s.bus b := by
    rw [storeReceived_eq]
    rfl
  simp only [State.endRead, hex, if_pos hlen, ← hbus]
  exact busBecomes_putCurrent _ b r _

/-- The margin that a run has after a READ step whose bytes have all come: the last of them, where the step captures it. -/
theorem captured_eq {st : Step} (hcount : 1 ≤ st.count) (hlen : bs.length = st.count) (r : Run) :
    captured r st bs = if st.capture = .margin then some (bs.getD (st.count - 1) 0).toNat else r.margin := by
  have hlast : bs[st.count - 1]? = some (bs.getD (st.count - 1) 0) := by
    rw [List.getD_eq_getElem?_getD, List.getElem?_eq_getElem (by omega)]
    rfl
  rw [captured, List.getLast?_eq_getElem?, hlen, hlast]
  rfl

theorem endRead_received_next (hex : s.executing b .read .transfer = some (r, c))
    (hlen : c.bytes.length + bs.length = c.step.count) (hkeep : r.withdrawn = false) (hnext : c.step.next = some i)
    (henter : s.enterable r i) :
    BusBecomes (s.storeReceived c bs) (s.endRead b (.received bs)) b { s.bus b with
      run := some (s.entered (Run.withMargin r (captured r c.step (c.bytes ++ bs))) i),
      lastTransfer := some { addr := transferAddr r c.step, read := true, bytes := c.bytes ++ bs } } := by
  let noted : Bus := { s.bus b with
    lastTransfer := some { addr := transferAddr r c.step, read := true, bytes := c.bytes ++ bs } }
  let read := Run.withMargin r (captured r c.step (c.bytes ++ bs))
  let stored := s.storeReceived c bs
  have hstored : stored = s.setTables { s.tables with pool := stored.tables.pool } := storeReceived_eq s c bs
  have henter' : stored.enterable read i := by
    rw [hstored]
    exact henter
  have hentered : stored.entered read i = s.entered read i := by
    rw [hstored]
    rfl
  have hnoted : BusBecomes stored (stored.putBus b noted) b noted := busBecomes_putBus (r := r) (executing_run hex)
  have hcommute :
      (s.noteTransfer b { addr := transferAddr r c.step, read := true, bytes := c.bytes ++ bs }).storeReceived c bs =
        stored.putBus b noted := storePool_putBus _ _
  simp only [State.endRead, hex, if_pos hlen, hcommute, hnoted.1]
  rw [← hentered]
  exact (hnoted.putBus (v := { noted with run := some read }) rfl).stepDone (r := read) rfl hkeep
    (executing_current (r := r) hex) hnext henter'

end read

/-- Settles O43: the bytes reach the pool at their offsets, and the bus alone changes besides. -/
theorem readStepStoresBytes : Obligations.ReadStepStoresBytes := by
  intro s b i r c bs hb hq hcan hex hcount hkeep hnext henter
  have ⟨_, _, _, _, _, _, hpool⟩ := hcan.tables
  have hstored := storeReceived_eq s c bs
  have hnotices : (s.storeReceived c bs).notices = s.notices := (congrArg State.notices hstored).trans rfl
  have hsettled : (s.storeReceived c bs).settled = s.settled := (congrArg State.settled hstored).trans rfl
  refine ⟨fun hlen => ?bytesIn, fun hlen => ?received⟩
  case bytesIn =>
    have h := endRead_bytesIn hex hlen
    exact ⟨_, exec_busBecomes (exec_readStep hb _ s) hq h hnotices hsettled, stored_of_busBecomes hpool h⟩
  case received =>
    have h := endRead_received_next hex hlen hkeep hnext henter
    rw [captured_eq hcount (by rw [List.length_append, hlen])] at h
    exact ⟨_, exec_busBecomes (exec_readStep hb _ s) hq h hnotices hsettled, stored_of_busBecomes hpool h⟩

end Sys2Proof.Proofs
end

section
/-! SUPPORT. The end of a MEASURE run that its requester has withdrawn, the recovery of a bus, and the queueing by class: the
proofs of the obligations about failed steps and about recovering buses (R77, R79, R81, R83, R84, R86, R87). -/

namespace Sys2Proof.Proofs
open Sys2Proof Sys2Proof.Machine Sys2Proof.Laws

set_option Elab.async false

/-! ## Recovery (R83) -/

section recovery
variable {s : State} {b : Nat}

theorem exec_recovery (hb : b < 4) {e : Instr} (he : e = .recoveryEnd b ∨ e = .recoveryAbandon b) (s : State) :
    exec e s = .next (s.act (fun s => s.leaveRecovery b)) := by
  rcases he with rfl | rfl <;> exact if_pos hb

/-- A bus as it leaves RECOVERING (R83). -/
def recoveredBus (u : Bus) : Bus := { u with state := .idle, finishing := false, tail := none }

/-- A bus leaves RECOVERING while nothing waits on any bus: no run starts. -/
theorem leaveRecovery_of_quietBuses (hwf : Tab.wf ({} : Bus) s.buses = true) (hb : b < 4) (hbuses : s.QuietBuses)
    (hstate : (s.bus b).state = .recovering) : s.leaveRecovery b = s.putBus b (recoveredBus (s.bus b)) := by
  have ⟨hqueue, hdeferred⟩ := hbuses b hb
  have hkick : (s.putBus b (recoveredBus (s.bus b))).kick = s.putBus b (recoveredBus (s.bus b)) :=
    kick_of_quietBuses (tab_wf_set _ _ _ _ hwf)
      (quietBuses_putBus (u := recoveredBus (s.bus b)) hwf hbuses hqueue hdeferred b)
  exact (if_pos hstate).trans hkick

end recovery

/-! ## Classes (R84) -/

section classes
variable {r : Run} {q1 q2 : List Run}

theorem classOne_iff : r.classOne = true ↔ r.purpose ≠ .measure := by simp [Run.classOne]

theorem joinQueue_of_classOne (h1 : ∀ x ∈ q1, x.purpose ≠ .measure) (h2 : ∀ x ∈ q2, x.purpose = .measure)
    (hr : r.purpose ≠ .measure) : joinQueue r (q1 ++ q2) = q1 ++ [r] ++ q2 := by
  have hfirst : (q1 ++ q2).filter Run.classOne = q1 := by
    rw [List.filter_append, List.filter_eq_self.mpr (fun x hx => classOne_iff.mpr (h1 x hx)),
      List.filter_eq_nil_iff.mpr (fun x hx => fun hone => classOne_iff.mp hone (h2 x hx)), List.append_nil]
  have hsecond : (q1 ++ q2).filter (fun x => !x.classOne) = q2 := by
    rw [List.filter_append, List.filter_eq_nil_iff.mpr (fun x hx => by simp [classOne_iff.mpr (h1 x hx)]),
      List.filter_eq_self.mpr (fun x hx => by simp [Run.classOne, h2 x hx]), List.nil_append]
  rw [joinQueue, if_pos (classOne_iff.mpr hr), hfirst, hsecond]

theorem joinQueue_of_classTwo (hr : r.purpose = .measure) (q : List Run) : joinQueue r q = q ++ [r] :=
  if_neg (fun hone => classOne_iff.mp hone hr)

end classes

/-- Settles O47: nothing waits, so nothing starts; a queue of class 1 runs and then class 2 runs is split at the join. -/
theorem busesRecoverAndQueue : Obligations.BusesRecoverAndQueue := by
  refine ⟨fun s b hb hq hcan hstate hbuses e he => ?recovers, fun r q1 q2 h1 h2 =>
    ⟨joinQueue_of_classOne h1 h2, fun hr => joinQueue_of_classTwo hr _⟩⟩
  have ⟨hnone, hsettled, _⟩ := hq
  have hleave := leaveRecovery_of_quietBuses hcan.buses hb hbuses hstate
  exact ⟨_, exec_of_effect (exec_recovery hb he s) hq hleave hnone hsettled, bus_putBus_same hcan.buses b _,
    fun k hk => bus_putBus_other hk _, rfl⟩

/-! ## The end of a run that is only awaited (R60, R86) -/

/-- The run of bus `b` is a MEASURE run `r` whose requester only waits for its end; nothing waits on any bus, and no hand-over
waits. -/
structure AwaitedRun (s : State) (b : Nat) (r : Run) : Prop where
  canBuses : Tab.wf ({} : Bus) s.buses = true
  canLanes : Tab.wf ({} : QmLane) s.qmLanes = true
  quietBuses : s.QuietBuses
  notices : s.notices = []
  settled : s.settled = []
  run : (s.bus b).run = some r
  purpose : r.purpose = .measure
  awaited : (s.qmLane r.tuner).awaited = true

section awaited
variable {s t : State} {b : Nat} {r : Run} {c : Current} {e : Instr} {f : State → State} {o : RunOutcome}

/-- An awaited run at a later instant. -/
theorem AwaitedRun.reach (h : AwaitedRun s b r) (t : Nat) : AwaitedRun (s.reach t) b r :=
  ⟨h.canBuses, h.canLanes, h.quietBuses, h.notices, h.settled, h.run, h.purpose, h.awaited⟩

theorem bus_noteTransfer (h : AwaitedRun s b r) (x : Transfer) :
    (s.noteTransfer b x).bus b = { s.bus b with lastTransfer := some x } := bus_putBus_same h.canBuses b _

theorem AwaitedRun.noteTransfer (h : AwaitedRun s b r) (hb : b < 4) (x : Transfer) :
    AwaitedRun (s.noteTransfer b x) b r := by
  have ⟨hqueue, hdeferred⟩ := h.quietBuses b hb
  have hrun : ((s.noteTransfer b x).bus b).run = some r := by
    rw [bus_noteTransfer h]
    exact h.run
  exact ⟨tab_wf_set _ _ _ _ h.canBuses, h.canLanes,
    quietBuses_putBus (u := { s.bus b with lastTransfer := some x }) h.canBuses h.quietBuses hqueue hdeferred b,
    h.notices, h.settled, hrun, h.purpose, h.awaited⟩

/-- A bus whose run has ended: RECOVERING after a stall, IDLE otherwise (R83). -/
def freedBus (u : Bus) (o : RunOutcome) : Bus :=
  { u with run := none, state := if o = .busStall then .recovering else .idle }

/-- The outcome of an ended run is handed on, and no run starts; a run that was withdrawn ends ABORTED (R76, R83, R86). -/
theorem endRun_handsOn (h : AwaitedRun s b r) (hb : b < 4) (o : RunOutcome) :
    ∃ out margin, s.endRun b o =
      (afterFault (s.putBus b (freedBus (s.bus b) o)) r.tuner o).post (.runDone r.tuner .measure out margin) := by
  have ⟨hqueue, hdeferred⟩ := h.quietBuses b hb
  let out := if r.withdrawn then RunOutcome.aborted else o
  let margin := if out = .done then r.margin else none
  let freed := s.putBus b (freedBus (s.bus b) o)
  have hkick : ((afterFault freed r.tuner o).post (.runDone r.tuner r.purpose out margin)).kick =
      (afterFault freed r.tuner o).post (.runDone r.tuner r.purpose out margin) := by
    obtain ⟨x, m, hfault⟩ := afterFault_frame freed r.tuner o
    rw [hfault]
    exact kick_of_quietBuses (tab_wf_set _ _ b _ h.canBuses)
      (quietBuses_putBus (u := freedBus (s.bus b) o) h.canBuses h.quietBuses hqueue hdeferred b)
  refine ⟨out, margin, ?_⟩
  rw [State.endRun, h.run, ← h.purpose]
  exact hkick

/-- The wait for a run is over, whatever its outcome (R60). -/
theorem measureOutcome_of_awaited {n : Nat} (h : (s.qmLane n).awaited = true) (o : RunOutcome) (m : Option Nat) :
    s.measureOutcome n o m = s.putQmLane n { s.qmLane n with awaited := false } := if_pos h

/-- An event that ends an awaited run: the bus is freed, BUS_FAULT is raised where the outcome asks for it, and the wait is
over. -/
theorem exec_endsAwaited (hq : s.Quiet) (hexec : exec e s = .next (s.act f)) (h : AwaitedRun t b r) (hb : b < 4)
    (hends : f s = t.endRun b o) :
    exec e s = .next ((afterFault (t.putBus b (freedBus (t.bus b) o)) r.tuner o).putQmLane r.tuner
      { t.qmLane r.tuner with awaited := false }) := by
  obtain ⟨out, margin, hpost⟩ := endRun_handsOn h hb o
  obtain ⟨x, m, hfault⟩ := afterFault_frame (t.putBus b (freedBus (t.bus b) o)) r.tuner o
  rw [hfault] at hpost ⊢
  let u := ((t.putBus b (freedBus (t.bus b) o)).setInds x).setMgmt m
  have htake : u.takeNotice (.runDone r.tuner .measure out margin) = _ :=
    (takeNotice_runDone_measure u r.tuner out margin).trans (measureOutcome_of_awaited (s := u) h.awaited out margin)
  exact hexec.trans (congrArg _ (act_handsOn_once (u := u) hq (hends.trans hpost) h.notices htake h.notices h.settled))

/-- A stall or a missing acknowledge ends an awaited run: BUS_FAULT is latched on its tuner (R83, R87). -/
theorem exec_endsAwaited_fault (hq : s.Quiet) (hexec : exec e s = .next (s.act f)) (h : AwaitedRun t b r) (hb : b < 4)
    (hends : f s = t.endRun b o) (ho : o = .ackFail ∨ o = .busStall) : ∃ v, exec e s = .next v ∧
      v.bus b = freedBus (t.bus b) o ∧ v.latched .tuner r.tuner .busFault = true ∧ (v.qmLane r.tuner).awaited = false ∧
      (∀ k, k ≠ b → v.bus k = t.bus k) ∧
      v = { t with buses := v.buses, qmLanes := v.qmLanes, inds := v.inds, mgmt := v.mgmt } := by
  have hend := exec_endsAwaited hq hexec h hb hends
  obtain ⟨x, m, hfault, hlatched, -⟩ := raise_latches (t.putBus b (freedBus (t.bus b) o)) .tuner r.tuner .busFault true
  rw [afterFault, if_pos ho, hfault] at hend
  exact ⟨_, hend, bus_putBus_same h.canBuses b _, hlatched,
    congrArg QmLane.awaited (tab_get_set_same _ _ 0 _ _ h.canLanes), fun k hk => bus_putBus_other hk _, rfl⟩

/-- An awaited run ends otherwise: no indication is raised (R87). -/
theorem exec_endsAwaited_plain (hq : s.Quiet) (hexec : exec e s = .next (s.act f)) (h : AwaitedRun t b r) (hb : b < 4)
    (hends : f s = t.endRun b o) (hack : o ≠ .ackFail) (hstall : o ≠ .busStall) : ∃ v, exec e s = .next v ∧
      v.bus b = { t.bus b with state := .idle, run := none } ∧ (v.qmLane r.tuner).awaited = false ∧
      (∀ k, k ≠ b → v.bus k = t.bus k) ∧ v = { t with buses := v.buses, qmLanes := v.qmLanes } := by
  have hend := exec_endsAwaited hq hexec h hb hends
  rw [afterFault, if_neg (by simp [hack, hstall]), freedBus, if_neg hstall] at hend
  exact ⟨_, hend, bus_putBus_same h.canBuses b _, congrArg QmLane.awaited (tab_get_set_same _ _ 0 _ _ h.canLanes),
    fun k hk => bus_putBus_other hk _, rfl⟩

/-! ## The events that end a run (R77, R79, R81, R83) -/

theorem exec_busStall (hb : b < 4) (bs : List Byte) (s : State) :
    exec (.busStall b bs) s = .next (s.act (fun s => s.stall b bs)) := if_pos hb

theorem stall_in_write (hex : s.executing b .write .transfer = some (r, c)) (bs : List Byte) :
    s.stall b bs = s.endRun b .busStall := by
  have hread : s.executing b .read .transfer = none := executing_other hex (.inl (by decide))
  have htransfer : s.transferring b = true := by simp [State.transferring, hex]
  simp only [State.stall, htransfer, if_true, hread]

theorem endWrite_noAddress_eq (hex : s.executing b .write .transfer = some (r, c)) (hnone : c.bytes = []) :
    s.endWrite b .noAddress = (s.noteTransfer b (sentTransfer s r c 0)).endRun b .ackFail := by
  simp only [State.endWrite, hex]
  exact if_pos hnone

theorem endPollTime_between_reads (hex : s.executing b .poll .pause = some (r, c)) :
    s.endPollTime b = (s.reach (c.since + c.step.time)).endRun b .pollTimeout := by
  simp only [State.endPollTime, hex]

/-- The checks of R77 refuse a step past the 64th and a next step that is no step. -/
theorem enterStep_refused {i : Nat} (h : 64 ≤ r.steps ∨ 511 < i ∨ (s.step i).kind = .none) :
    ∃ o, s.enterStep r i = (r, some o) ∧ (o = .loopLimit ∨ o = .range) := by
  unfold State.enterStep
  dsimp only
  by_cases hsteps : Config.stepCap ≤ r.steps
  · exact ⟨.loopLimit, if_pos hsteps, .inl rfl⟩
  · have hrange : 511 < i ∨ (s.step i).kind = .none := h.resolve_left hsteps
    rw [if_neg hsteps]
    by_cases hi : 511 < i
    · exact ⟨.range, if_pos hi, .inr rfl⟩
    · rw [if_neg hi]
      exact ⟨.range, if_pos (hrange.resolve_left hi), .inr rfl⟩

/-- The current step completed, and the step that follows is refused, or the run was withdrawn (R77, R86). -/
theorem stepDone_refused (h : AwaitedRun s b r) (hcur : r.current = some c) {i : Nat} (hnext : c.step.next = some i)
    (hrefused : 64 ≤ r.steps ∨ 511 < i ∨ (s.step i).kind = .none) :
    ∃ o, s.stepDone b = s.endRun b o ∧ o ≠ .ackFail ∧ o ≠ .busStall := by
  cases hw : r.withdrawn with
  | true => exact ⟨.aborted, by simp only [State.stepDone, h.run, hw, if_true], by decide, by decide⟩
  | false =>
    obtain ⟨o, henter, ho⟩ := enterStep_refused hrefused
    have hsame : s.putBus b { s.bus b with run := some r } = s := by
      rw [← h.run]
      exact putBus_bus h.canBuses b
    refine ⟨o, ?_, by rcases ho with rfl | rfl <;> decide, by rcases ho with rfl | rfl <;> decide⟩
    simp only [State.stepDone, h.run, hw, hcur, hnext, Bool.false_eq_true, if_false, State.goTo, henter, hsame]

theorem endWait_eq (hex : s.executing b .wait .pause = some (r, c)) :
    s.endWait b = (s.reach (c.since + c.step.time)).stepDone b := by
  simp only [State.endWait, hex]

end awaited

/-- Settles O45: each event ends the run, and its outcome reaches a requester that only waited for it. -/
theorem failedStepsEndTheRun : Obligations.FailedStepsEndTheRun := by
  intro s b r c hb hq hcan hp hawaited hbuses
  have ⟨hnone, hsettled, _⟩ := hq
  have start {k : StepKind} {ph : StepPhase} (hex : s.executing b k ph = some (r, c)) : AwaitedRun s b r :=
    ⟨hcan.buses, hcan.qmLanes, hbuses, hnone, hsettled, executing_run hex, hp, hawaited⟩
  refine ⟨fun hex => ?stall, fun hex hbytes => ?noAddress, fun hex => ?pollTime, fun i hex hnext hrefused => ?badStep⟩
  case stall =>
    exact exec_endsAwaited_fault hq (exec_busStall hb [] s) (start hex) hb (stall_in_write hex []) (.inr rfl)
  case noAddress =>
    let x := sentTransfer s r c 0
    have hx : x = { addr := (r.base + c.step.addrOff) % 128, read := false, bytes := [] } := by
      simp only [x, sentTransfer, State.sentTo, hbytes]
      rfl
    obtain ⟨t, hexec, hbus, hlatched, hlane, hothers, heq⟩ := exec_endsAwaited_fault hq (exec_writeStep hb .noAddress s)
      ((start hex).noteTransfer hb x) hb (endWrite_noAddress_eq hex hbytes) (.inl rfl)
    rw [bus_noteTransfer (start hex), hx] at hbus
    exact ⟨t, hexec, hbus, hlatched, hlane, fun k hk => (hothers k hk).trans (bus_putBus_other hk _), heq⟩
  case pollTime =>
    exact exec_endsAwaited_plain hq (exec_pollTimeValueExpiry hb s) ((start hex).reach _) hb
      (endPollTime_between_reads hex) (by decide) (by decide)
  case badStep =>
    have hreached := (start hex).reach (c.since + c.step.time)
    obtain ⟨o, hends, hack, hstall⟩ := stepDone_refused hreached (executing_current hex) hnext hrefused
    exact exec_endsAwaited_plain hq (exec_waitStepExpiry hb s) hreached hb ((endWait_eq hex).trans hends) hack hstall

end Sys2Proof.Proofs
end

section
/-! SUPPORT. The proof of the obligation about an expired relock timer (R59, R60, R77, R84, R92, R97). -/

namespace Sys2Proof.Proofs
open Sys2Proof Sys2Proof.Machine Sys2Proof.Laws

set_option Elab.async false

section relock
variable {s : State} {n x : Nat} {m : Timer}

/-- The end of an observation with no report pending and no MEASURE run outstanding keeps only the wait for a run that an
earlier observation has withdrawn (R60). -/
theorem qmEnd_of_no_report (hpending : (s.qmLane n).pending = none) (hout : (s.qmLane n).outstanding = false) :
    s.qmEnd n = s.putQmLane n { awaited := (s.qmLane n).awaited } := by
  have hheld : s.completeHeld n = s := by simp only [State.completeHeld, hpending]
  simp only [State.qmEnd, hheld, hout, Bool.or_false, Bool.false_eq_true, if_false]

theorem laneIdle_of_no_report (hpending : (s.qmLane n).pending = none) (hout : (s.qmLane n).outstanding = false) :
    s.laneIdle n = ((s.putFramer n {}).putTracker n {}).putQmLane n { awaited := (s.qmLane n).awaited } :=
  qmEnd_of_no_report (s := (s.putFramer n {}).putTracker n {}) hpending hout

/-- The record of a tuner that tunes again to the multiplex it hosts (R92, R97). -/
def retuningTuner (r : Tuner) (x : Nat) : Tuner :=
  { r with state := .tuning, mux := some x, work := some .retune, acquire := none, relock := none }

/-- The relock timer of a hosting tuner expires: the observation ends, and the tuner tunes again (R92, R97). -/
theorem relockExpires_of_hosting (hobs : (s.tuner n).state = .observing) (hwork : (s.tuner n).work = some .host)
    (hmux : (s.tuner n).mux = some x) (htimer : (s.tuner n).relock = some m) :
    s.relockExpires n = (((s.reach (m.start + m.limit)).raise .tuner n .retuned).laneIdle n).beginTune n x .retune := by
  simp only [State.relockExpires, htimer, hmux]
  exact if_pos ⟨hobs, hwork⟩

theorem exec_relockTimerExpiry (hn : n < 16) (s : State) :
    exec (.relockTimerExpiry n) s = .next (s.act (fun s => s.relockExpires n)) := if_pos hn

end relock

/-- Settles O41: RETUNED is raised, the lane is IDLE, and the request for the TUNE run finds its bus ready. -/
theorem relockTimerRetunes : Obligations.RelockTimerRetunes := by
  intro s n x m hn hq hcan hobs hwork hmux htimer hpending hout hb hbuses hruns hready henter
  have ⟨hnone, hsettled, _⟩ := hq
  let reached := s.reach (m.start + m.limit)
  obtain ⟨i, g, hraise, hlatched, -⟩ := raise_latches reached .tuner n .retuned true
  let raised := (reached.setInds i).setMgmt g
  let idle := ((raised.putFramer n {}).putTracker n {}).putQmLane n { awaited := (s.qmLane n).awaited }
  let tuned := idle.putTuner n (retuningTuner (s.tuner n) x)
  have hidle : raised.laneIdle n = idle := laneIdle_of_no_report (s := raised) hpending hout
  obtain ⟨buses, hrequest, hothers, -, hstarted⟩ := requestRun_requested (s := reached) (p := .tune) (x := x) hcan.buses
    hbuses hruns hb (.inr ⟨hready, henter⟩) (u := tuned) rfl rfl rfl
  have hexpire : s.relockExpires n = tuned.setBuses buses := by
    rw [relockExpires_of_hosting hobs hwork hmux htimer, hraise, hidle]
    exact hrequest
  simp only [tuned, idle, raised, reached, writes_eq, State.reach, State.setNow, State.setBuses] at hexpire
  exact ⟨_, exec_of_effect (exec_relockTimerExpiry hn s) hq hexpire hnone hsettled,
    tab_get_set_same _ _ 0 _ _ hcan.tuners, tab_get_set_same _ _ 0 _ _ hcan.framers,
    tab_get_set_same _ _ 0 _ _ hcan.trackers, tab_get_set_same _ _ 0 _ _ hcan.qmLanes, hlatched, hstarted hready, hothers,
    fun k hk => ⟨tab_get_set_other _ _ _ _ _ hk, tab_get_set_other _ _ _ _ _ hk, tab_get_set_other _ _ _ _ _ hk,
      tab_get_set_other _ _ _ _ _ hk⟩, rfl⟩

end Sys2Proof.Proofs
end

section
/-! SUPPORT. The proof of the obligation about the completion of the soft reset (R89, R122, R178). -/

namespace Sys2Proof.Proofs
open Sys2Proof Sys2Proof.Machine Sys2Proof.Laws

set_option Elab.async false

section complete
variable {s : State} {c : Cmd}

theorem busesSettled_iff : s.busesSettled = true ↔
    ∀ b, b < 4 → (s.bus b).finishing = false ∨ (s.bus b).state ≠ .recovering := by
  have hbus (u : Bus) : (!(u.finishing && decide (u.state = .recovering))) = true ↔
      u.finishing = false ∨ u.state ≠ .recovering := by
    cases u.finishing <;> simp
  simp only [State.busesSettled, List.all_eq_true, List.mem_range, hbus]

theorem completeReset_of_recovering (hc : s.resetting = some c) (h : s.busesSettled = false) : s.completeReset = s := by
  simp only [State.completeReset, hc, h, Bool.false_eq_true, if_false]

/-- A bus that has finished what a soft reset found on it (R89). -/
def finishedBus (u : Bus) : Bus := { u with finishing := false, tail := none }

theorem busesFinished_eq (s : State) (n : Nat) : (List.range n).foldl State.busFinished s =
    s.setBuses (rewriteBelow {} (fun _ => finishedBus) n s.buses) := by
  induction n with
  | zero => rw [rewriteBelow_zero]; rfl
  | succ n ih =>
    rw [List.range_succ, List.foldl_append, ih, rewriteBelow_succ]
    rfl

/-- The part when every bus has finished and the command SOFT_RESET has ended (R89, R178). -/
def resetEnded (s : State) : State :=
  (s.setResetting none).setBuses (rewriteBelow {} (fun _ => finishedBus) 4 s.buses)

theorem bus_resetEnded (hwf : Tab.wf ({} : Bus) s.buses = true) :
    (∀ b, b < 4 → (resetEnded s).bus b = finishedBus (s.bus b)) ∧ ∀ b, 4 ≤ b → (resetEnded s).bus b = s.bus b :=
  ⟨fun _ hb => get_rewriteBelow_lt hwf hb, fun _ hb => get_rewriteBelow_ge hwf hb⟩

/-- With nothing waiting on any bus, the completion builds the reply and lets the SCH try picks (R122, R178). -/
theorem completeReset_of_settled (hwf : Tab.wf ({} : Bus) s.buses = true) (hc : s.resetting = some c)
    (h : s.busesSettled = true) (hbuses : s.QuietBuses) (hroom : s.mgmt.replies.length < 16) :
    s.completeReset = ((resetEnded s).withReply (doneReply c (.bytes []))).post .pickTry := by
  have hquiet : (resetEnded s).QuietBuses := fun b hb => by
    rw [(bus_resetEnded hwf).1 b hb]
    exact hbuses b hb
  have hkick : (resetEnded s).kick = resetEnded s := kick_of_quietBuses (rewriteBelow_wf hwf 4) hquiet
  have hended : ((List.range 4).foldl State.busFinished s).setResetting none = resetEnded s := by
    rw [busesFinished_eq]
    rfl
  simp only [State.completeReset, hc, h, if_true, hended, hkick]
  exact congrArg (fun t : State => t.post .pickTry) (answer_room (resetEnded s) c .done 0 (.bytes []) hroom)

theorem exec_softResetComplete (s : State) : exec .softResetComplete s = .next (s.act State.completeReset) := rfl

end complete

/-- Settles O25: by whether a finishing bus is RECOVERING; the try of picks, the one hand-over, finds no tuner to pick for. -/
theorem softResetCompletes : Obligations.SoftResetCompletes := by
  intro s c hq hcan hc
  have ⟨hnone, hdone, _⟩ := hq
  refine ⟨fun ⟨b, hb, hfinishing, hstate⟩ => ?recovering, fun hall hbuses hroom hpicks => ?settled⟩
  case recovering =>
    have hstays : s.completeReset = s := completeReset_of_recovering hc (Bool.eq_false_iff.mpr fun hsettled =>
      (busesSettled_iff.mp hsettled b hb).elim (fun h => by simp [hfinishing] at h) (fun h => h hstate))
    exact exec_of_effect (exec_softResetComplete s) hq hstays hnone hdone
  case settled =>
    let t := (resetEnded s).withReply (doneReply c (.bytes []))
    have heffect : s.completeReset = t.post .pickTry :=
      completeReset_of_settled hcan.buses hc (busesSettled_iff.mpr hall) hbuses hroom
    have hact : s.act State.completeReset = t :=
      act_handsOn_once (u := t) hq heffect hnone (tryPicks_of_noPicks (s := t) hpicks) hnone hdone
    obtain ⟨hbelow, habove⟩ := bus_resetEnded hcan.buses
    exact ⟨t, (exec_softResetComplete s).trans (congrArg _ hact), hbelow, habove, rfl⟩

end Sys2Proof.Proofs
end

section
/-! SUPPORT. What a step is made of, and the proof of the obligation about occupants (R92). -/

namespace Sys2Proof.Proofs
open Sys2Proof Sys2Proof.Machine Sys2Proof.Laws

set_option Elab.async false

section step
variable {s t : State}

/-- A step is a power-on reset, or a chain of primitive updates on the state whose front command has left the queue. -/
theorem step_cases (h : step s = .next t) :
    t = { State.reset with pending := s.pending.tail } ∨
      Reach false 3 (s.setPending s.pending.tail) t := by
  unfold step at h
  split at h
  · next hnone =>
    cases h
    rw [hnone, List.tail_nil, ← hnone]
    exact .inr (reach_act _ (fun hu => hu.step (.now (by omega) _)) nofun)
  · next i rest hfront =>
    rw [hfront]
    by_cases hreset : i = .powerOnReset
    · subst hreset
      cases h
      exact .inl rfl
    · exact .inr (reach_exec i hreset (fun _ => Nat.le_refl 3) (by omega) nofun h)

theorem canonical_of_reach {fl : Bool} {w : Nat} (h : Reach fl w s t) (hcan : s.Canonical) : t.Canonical :=
  h.keeps (fun _ _ p hu => p.canonical hu) hcan

theorem canonical_setPending (h : s.Canonical) (l : List Instr) : (s.setPending l).Canonical := { h with }

theorem oneOccupant_of_no_tuners (h : s.tuners = []) : s.OneOccupant := by
  intro x a b _ _ ha
  have hnone : s.occupies a x = false := by
    rw [occupies_eq, State.tuner, h]
    exact holds_default x
  exact absurd (hnone.symm.trans ha) (by decide)

/-- A chain of primitive updates keeps one occupant per multiplex, its tables being canonical all along. -/
theorem oneOccupant_of_reach {fl : Bool} {w : Nat} (h : Reach fl w s t) (hcan : s.Canonical) (hone : s.OneOccupant) :
    t.OneOccupant :=
  (h.keeps (P := fun u => u.Canonical ∧ u.OneOccupant) (fun _ _ p hu => ⟨p.canonical hu.1, p.oneOccupant hu.1 hu.2⟩)
    ⟨hcan, hone⟩).2

end step

/-- Settles O6: a power-on reset leaves no tuner record, and every other step is a chain of primitive updates. -/
theorem oneOccupantKept : Obligations.OneOccupantKept := by
  intro s t hcan hone hstep
  rcases step_cases hstep with hreset | hreach
  · exact oneOccupant_of_no_tuners (by rw [hreset]; rfl)
  · exact oneOccupant_of_reach hreach (canonical_setPending hcan _) hone

end Sys2Proof.Proofs
end

section
/-! SUPPORT. What leaves a tuner as it was: the operations of the Tuner Bus Controller, the Quality Monitor, the Ranking Engine
and the Output Assembler, and those of the Tuner Pool Manager and the Scan Scheduler that act on another tuner. -/

namespace Sys2Proof.Proofs
open Sys2Proof Sys2Proof.Machine Sys2Proof.Laws

set_option Elab.async false

/-- `t` has tuner `n` as `s` has it: its role and record, the framer of its lane, its visit and the outcome of its last. -/
structure TunerKept (n : Nat) (s t : State) : Prop where
  role : t.role n = s.role n
  tuner : t.tuner n = s.tuner n
  framer : t.framer n = s.framer n
  visit : t.visit n = s.visit n
  lastOutcome : t.lastOutcome n = s.lastOutcome n

theorem TunerKept.refl (n : Nat) (s : State) : TunerKept n s s := ⟨rfl, rfl, rfl, rfl, rfl⟩

section kept
variable {n m : Nat} {s t : State}

theorem TunerKept.trans {u : State} (h : TunerKept n s t) (h' : TunerKept n t u) : TunerKept n s u :=
  ⟨h'.role.trans h.role, h'.tuner.trans h.tuner, h'.framer.trans h.framer, h'.visit.trans h.visit,
    h'.lastOutcome.trans h.lastOutcome⟩

/-- A change of any field that holds nothing of a tuner. -/
theorem TunerKept.same {u : State} (h : TunerKept n s t) (hroles : u.roles = t.roles := by rfl)
    (htuners : u.tuners = t.tuners := by rfl) (hframers : u.framers = t.framers := by rfl)
    (hvisits : u.sched.visits = t.sched.visits := by rfl)
    (hlast : u.sched.lastOutcome = t.sched.lastOutcome := by rfl) : TunerKept n s u :=
  h.trans ⟨by rw [State.role, hroles]; rfl, by rw [State.tuner, htuners]; rfl, by rw [State.framer, hframers]; rfl,
    by rw [State.visit, hvisits]; rfl, by rw [State.lastOutcome, hlast]; rfl⟩

theorem tunerKept_post (h : TunerKept n s t) (a : Notice) : TunerKept n s (t.post a) := h.same

theorem TunerKept.ite {b : Prop} [Decidable b] {u v : State} (hu : TunerKept n s u) (hv : TunerKept n s v) :
    TunerKept n s (if b then u else v) := by
  split
  · exact hu
  · exact hv

theorem tunerKept_foldl {α : Type} (l : List α) {f : State → α → State}
    (hf : ∀ u a, TunerKept n s u → TunerKept n s (f u a)) (h : TunerKept n s t) : TunerKept n s (l.foldl f t) :=
  foldl_keeps (TunerKept n s) f hf l t h

/-- A fold that carries something beside the state. -/
theorem tunerKept_pairFold {α β : Type} (l : List α) {f : State × β → α → State × β} {b : β}
    (hf : ∀ p a, TunerKept n s p.1 → TunerKept n s (f p a).1) (h : TunerKept n s t) : TunerKept n s (l.foldl f (t, b)).1 :=
  foldl_keeps (fun p : State × β => TunerKept n s p.1) f hf l (t, b) h

theorem tunerKept_raise (h : TunerKept n s t) (k i kd val) : TunerKept n s (t.raise k i kd val) := by
  obtain ⟨x, g, hraise⟩ := raise_frame t k i kd val
  rw [hraise]
  exact h.same

theorem tunerKept_raiseOn (h : TunerKept n s t) (x kd) : TunerKept n s (t.raiseOn x kd) :=
  .ite (tunerKept_raise h _ _ _ _) (tunerKept_raise h _ _ _ _)

/-! ## Writes of another tuner -/

theorem tunerKept_putTuner (h : TunerKept n s t) (hm : n ≠ m) (r) : TunerKept n s (t.putTuner m r) :=
  h.trans ⟨rfl, tab_get_set_other _ _ _ _ _ hm, rfl, rfl, rfl⟩

theorem tunerKept_putRole (h : TunerKept n s t) (hm : n ≠ m) (r) : TunerKept n s (t.putRole m r) :=
  h.trans ⟨tab_get_set_other _ _ _ _ _ hm, rfl, rfl, rfl, rfl⟩

theorem tunerKept_putFramer (h : TunerKept n s t) (hm : n ≠ m) (f) : TunerKept n s (t.putFramer m f) :=
  h.trans ⟨rfl, rfl, tab_get_set_other _ _ _ _ _ hm, rfl, rfl⟩

theorem tunerKept_putVisit (h : TunerKept n s t) (hm : n ≠ m) (v) : TunerKept n s (t.putVisit m v) :=
  h.trans ⟨rfl, rfl, rfl, tab_get_set_other _ _ _ _ _ hm, rfl⟩

theorem tunerKept_putLastOutcome (h : TunerKept n s t) (hm : n ≠ m) (o) : TunerKept n s (t.putLastOutcome m o) :=
  h.trans ⟨rfl, rfl, rfl, rfl, tab_get_set_other _ _ _ _ _ hm⟩

/-! ## Tuner Bus Controller -/

theorem tunerKept_placeDeferred (h : TunerKept n s t) (b) : TunerKept n s (t.placeDeferred b) :=
  tunerKept_foldl _ (fun _ _ hu => .ite hu.same hu.same) h.same

theorem tunerKept_startNext (h : TunerKept n s t) (b) : TunerKept n s (t.startNext b) := by
  unfold State.startNext
  refine .ite ?_ h
  split
  · exact h
  · exact .ite h.same h.same

theorem tunerKept_kick (h : TunerKept n s t) : TunerKept n s t.kick :=
  tunerKept_foldl _ (fun _ _ hu => tunerKept_placeDeferred hu _) (tunerKept_foldl _ (fun _ _ hu => tunerKept_startNext hu _)
    (tunerKept_foldl _ (fun _ _ hu => tunerKept_placeDeferred hu _) h))

theorem tunerKept_endRun (h : TunerKept n s t) (b o) : TunerKept n s (t.endRun b o) := by
  unfold State.endRun
  split
  · exact h
  · exact tunerKept_kick (tunerKept_post (.ite (tunerKept_raise h.same _ _ _ _) h.same) _)

theorem tunerKept_endFailing (h : TunerKept n s t) (b) : TunerKept n s (t.endFailing b) := by
  unfold State.endFailing
  split
  · exact h
  · split
    · exact h
    · exact tunerKept_endRun h _ _

theorem tunerKept_defer (h : TunerKept n s t) (b d) : TunerKept n s (t.defer b d) := by
  unfold State.defer
  split <;> exact h.same

theorem tunerKept_requestRun (h : TunerKept n s t) (k p x) : TunerKept n s (t.requestRun k p x) := by
  unfold State.requestRun
  dsimp only
  split
  · exact h.same
  · split
    · exact tunerKept_defer h _ _
    · exact .ite (tunerKept_kick h.same) (tunerKept_defer h _ _)

theorem tunerKept_withdrawRun (h : TunerKept n s t) (k p) : TunerKept n s (t.withdrawRun k p) := by
  unfold State.withdrawRun
  split
  · exact h.same
  · split
    · exact tunerKept_kick h.same
    · split
      · exact h.same
      · exact h

/-! ## Quality Monitor and Identifier Tracker -/

theorem tunerKept_completeHeld (h : TunerKept n s t) (k) : TunerKept n s (t.completeHeld k) := by
  unfold State.completeHeld
  dsimp only
  split
  · exact h
  · exact h.same

theorem tunerKept_completeFresh (h : TunerKept n s t) (k g) : TunerKept n s (t.completeFresh k g) := by
  unfold State.completeFresh
  dsimp only
  split
  · exact h
  · exact h.same

theorem tunerKept_measureOutcome (h : TunerKept n s t) (k o g) : TunerKept n s (t.measureOutcome k o g) := by
  unfold State.measureOutcome
  refine .ite h.same ?_
  dsimp only
  split
  · exact tunerKept_completeFresh h.same _ _
  · exact tunerKept_completeHeld h.same _

theorem tunerKept_qmEnd (h : TunerKept n s t) (k) : TunerKept n s (t.qmEnd k) :=
  have hended := (tunerKept_completeHeld h k).same
  .ite (tunerKept_withdrawRun hended _ _) hended

theorem tunerKept_buildTracker (h : TunerKept n s t) (k x) : TunerKept n s (t.buildTracker k x) :=
  .ite h.same (tunerKept_raiseOn h.same _ _)

theorem tunerKept_closeCensus (h : TunerKept n s t) (k x) : TunerKept n s (t.closeCensus k x) := by
  unfold State.closeCensus
  dsimp only
  split
  · exact h.same
  · exact .ite h.same (tunerKept_raiseOn h.same _ _)

/-! ## The host request queue and the urgent list -/

theorem tunerKept_fileHost (h : TunerKept n s t) (x) : TunerKept n s (t.fileHost x) := by
  unfold State.fileHost
  split
  · exact tunerKept_raise h _ _ _ _
  · exact .ite h h.same
  · exact h

theorem tunerKept_settleClaims (h : TunerKept n s t) (l) : TunerKept n s (t.settleClaims l) := by
  refine tunerKept_foldl _ (fun u x hu => .ite ?_ hu) h
  unfold State.claimGone
  split
  · exact hu.same
  · exact .ite hu.same hu

theorem tunerKept_tellFailure (h : TunerKept n s t) (k x w c) : TunerKept n s (t.tellFailure k x w c) := by
  unfold State.tellFailure
  split
  · exact h.same
  · exact h.same
  · exact (tunerKept_raise h _ _ _ _).same
  · exact h

theorem tunerKept_placeUrgent (h : TunerKept n s t) (x) : TunerKept n s (t.placeUrgent x).1 := by
  unfold State.placeUrgent
  split
  · exact h
  · split
    · exact tunerKept_raise h _ _ _ _
    · split
      · exact tunerKept_raise h _ _ _ _
      · exact h.same

theorem tunerKept_sweepRequest (h : TunerKept n s t) (l) : TunerKept n s (t.sweepRequest l).1 := by
  have hplaced := tunerKept_pairFold (b := ([] : List Nat)) l
    (f := fun a x => ((a.1.placeUrgent x).1, if (a.1.placeUrgent x).2 then a.2 ++ [x] else a.2))
    (fun _ a hp => tunerKept_placeUrgent hp a) h
  exact .ite hplaced.same hplaced

theorem tunerKept_dropUrgent (h : TunerKept n s t) (x) : TunerKept n s (t.dropUrgent x) := .ite h.same h

theorem tunerKept_pruneUrgent (h : TunerKept n s t) : TunerKept n s t.pruneUrgent :=
  tunerKept_foldl _ (fun _ _ hu => tunerKept_raise (tunerKept_dropUrgent hu _) _ _ _ _) h

/-! ## Ranking Engine -/

theorem tunerKept_startSweep (h : TunerKept n s t) (v) : TunerKept n s (t.startSweep v) :=
  have hasked := (tunerKept_sweepRequest h (t.sweepMuxes v)).same
  .ite (tunerKept_raise hasked _ _ _ _) hasked

theorem tunerKept_leaveSweeps (h : TunerKept n s t) (x) : TunerKept n s (t.leaveSweeps x) :=
  tunerKept_foldl _ (fun _ _ hu => .ite (.ite (tunerKept_raise hu.same _ _ _ _) hu.same) hu) h

theorem tunerKept_judgeDegraded (h : TunerKept n s t) (v) : TunerKept n s (t.judgeDegraded v) := by
  refine .ite (.ite h ?_) h.same
  have hraised := tunerKept_raise (t := t.putRank v { t.rank v with degraded := true }) h.same .service v .liveDegraded true
  exact .ite (tunerKept_startSweep hraised v) hraised

theorem tunerKept_observe (h : TunerKept n s t) (i w) : TunerKept n s (t.observe i w) :=
  .ite (tunerKept_judgeDegraded h.same _) h.same

theorem tunerKept_putClaims (h : TunerKept n s t) (v k) : TunerKept n s (t.putClaims v k) := tunerKept_settleClaims h.same _

theorem tunerKept_dropTarget (h : TunerKept n s t) (v) : TunerKept n s (t.dropTarget v) := by
  unfold State.dropTarget
  split
  · exact h
  · exact tunerKept_putClaims h _ _

section decision
variable {fail : State → State} (hfail : ∀ {u : State}, TunerKept n s u → TunerKept n s (fail u))
include hfail

theorem tunerKept_fileTarget (h : TunerKept n s t) (v c) : TunerKept n s (t.fileTarget fail v c) := by
  have hfiled := tunerKept_fileHost h (t.copyMux v c)
  unfold State.fileTarget
  dsimp only
  split
  · exact hfiled.same
  · exact hfiled.same
  · exact hfiled.same
  · exact hfail hfiled
  · exact hfiled.same

theorem tunerKept_targetCopy (h : TunerKept n s t) (v c) : TunerKept n s (t.targetCopy fail v c) :=
  have htargeted := (tunerKept_dropTarget h v).same
  .ite htargeted.same (tunerKept_fileTarget hfail htargeted v c)

theorem tunerKept_challenge (h : TunerKept n s t) (v c g) : TunerKept n s (t.challenge fail v c g) := by
  unfold State.challenge
  dsimp only
  split
  · exact h.same
  · exact .ite (tunerKept_targetCopy hfail h.same _ _) h.same

theorem tunerKept_decideFree (h : TunerKept n s t) (v g) : TunerKept n s (t.decideFree fail v g) := by
  unfold State.decideFree
  split
  · split
    · split
      · exact tunerKept_targetCopy hfail h _ _
      · exact h
    · exact tunerKept_challenge hfail h _ _ _
  · split
    · exact tunerKept_targetCopy hfail h _ _
    · exact h

theorem tunerKept_makeDecision (h : TunerKept n s t) (v g) : TunerKept n s (t.makeDecision fail v g) := by
  unfold State.makeDecision
  split
  · exact .ite (.ite h (tunerKept_dropTarget h v)) (.ite (tunerKept_dropTarget h v)
      (.ite h (tunerKept_targetCopy hfail h _ _)))
  · split
    · exact .ite h (tunerKept_decideFree hfail (tunerKept_dropTarget h v) _ _)
    · exact tunerKept_decideFree hfail h _ _

theorem tunerKept_refile (h : TunerKept n s t) (v) : TunerKept n s (t.refile fail v) := by
  unfold State.refile
  split
  · exact tunerKept_fileTarget hfail h _ _
  · exact h

end decision

theorem tunerKept_barTarget (h : TunerKept n s t) (v) : TunerKept n s (t.barTarget v) := by
  unfold State.barTarget
  split
  · exact h
  · exact tunerKept_dropTarget (tunerKept_observe h.same _ _) v

theorem tunerKept_evaluateN (k v : Nat) : ∀ {g : Trigger} {t : State}, TunerKept n s t →
    TunerKept n s (State.evaluateN k v g t) := by
  induction k with
  | zero => exact fun h => h
  | succ k ih =>
    intro g t h
    have hfail : ∀ {u : State}, TunerKept n s u → TunerKept n s (State.evaluateN k v .other (u.barTarget v)) :=
      fun hu => ih (tunerKept_barTarget hu v)
    have hfiled := tunerKept_refile hfail (tunerKept_judgeDegraded (t := t.putFloor v (t.service v).floor) h.same v) v
    exact .ite h (.ite hfiled (tunerKept_makeDecision hfail hfiled v g))

theorem tunerKept_evaluate (h : TunerKept n s t) (v g) : TunerKept n s (t.evaluate v g) := tunerKept_evaluateN 6 v h

theorem tunerKept_evaluateTouched (h : TunerKept n s t) (l) : TunerKept n s (t.evaluateTouched l) :=
  tunerKept_foldl _ (fun _ _ hu => tunerKept_evaluate hu _ _) h

theorem tunerKept_reHostFailed (h : TunerKept n s t) (x) : TunerKept n s (t.reHostFailed x) :=
  tunerKept_foldl _ (fun _ _ hu => .ite (tunerKept_evaluate (tunerKept_barTarget hu _) _ _) hu) h

theorem tunerKept_reHosted (h : TunerKept n s t) (x) : TunerKept n s (t.reHosted x) := by
  refine tunerKept_leaveSweeps (tunerKept_foldl _ (fun u v hu => ?_) h) x
  split
  · exact .ite hu.same hu
  · exact hu

theorem tunerKept_reCutDone (h : TunerKept n s t) (v c) : TunerKept n s (t.reCutDone v c) :=
  .ite (.ite (tunerKept_evaluate (tunerKept_judgeDegraded (tunerKept_raise (tunerKept_putClaims h _ _) _ _ _ _) _) _ _)
    (tunerKept_evaluate (tunerKept_raise (tunerKept_putClaims h _ _) _ _ _ _) _ _)) h

theorem tunerKept_reCutCancelled (h : TunerKept n s t) (v) : TunerKept n s (t.reCutCancelled v) :=
  .ite (tunerKept_evaluate (tunerKept_putClaims h _ _) _ _) h

theorem tunerKept_reUnhosted (h : TunerKept n s t) (x) : TunerKept n s (t.reUnhosted x) :=
  tunerKept_foldl _ (fun _ _ hu => tunerKept_evaluate hu _ _)
    (tunerKept_foldl _ (fun _ _ hu => tunerKept_raise (tunerKept_putClaims hu _ _) _ _ _ _) h)

theorem tunerKept_reReport (h : TunerKept n s t) (r) : TunerKept n s (t.reReport r) := by
  refine tunerKept_evaluateTouched (tunerKept_pairFold _ (fun p c hp => ?_) h) _
  unfold State.scoreLine
  split
  · exact tunerKept_observe hp _ _
  · exact hp

theorem tunerKept_reZeroWindow (h : TunerKept n s t) (x l) : TunerKept n s (t.reZeroWindow x l) := by
  refine tunerKept_evaluateTouched (tunerKept_pairFold _ (fun p i hp => ?_) h) _
  split
  · exact tunerKept_observe hp _ _
  · exact hp

/-! ## Output Assembler -/

theorem tunerKept_cancelCut (h : TunerKept n s t) (v b) : TunerKept n s (t.cancelCut v b) :=
  have hraised := tunerKept_raise (t := t.putCut v none) h.same .service v .cutCancelled true
  .ite hraised.same hraised

theorem tunerKept_oaUnhosted (h : TunerKept n s t) (x) : TunerKept n s (t.oaUnhosted x) := by
  refine tunerKept_foldl _ (fun u v hu => ?_) h
  split
  · split
    · exact tunerKept_cancelCut hu _ _
    · split
      · exact .ite hu.same hu
      · exact hu
  · exact hu

/-! ## Another tuner's operations -/

section other
variable (hm : n ≠ m)
include hm

theorem tunerKept_laneIdle (h : TunerKept n s t) : TunerKept n s (t.laneIdle m) :=
  tunerKept_qmEnd (t := (t.putFramer m {}).putTracker m {}) (tunerKept_putFramer h hm {}).same m

theorem tunerKept_laneHunt (h : TunerKept n s t) (x) : TunerKept n s (t.laneHunt m x) :=
  tunerKept_buildTracker (tunerKept_putFramer h hm _) _ _

theorem tunerKept_beginTune (h : TunerKept n s t) (x w) : TunerKept n s (t.beginTune m x w) :=
  tunerKept_requestRun (tunerKept_putTuner h hm _) _ _ _

theorem tunerKept_enterFree (h : TunerKept n s t) : TunerKept n s (t.enterFree m) := by
  have hput (r) : TunerKept n s (t.putTuner m r) := tunerKept_putTuner h hm r
  unfold State.enterFree
  dsimp only
  split
  · exact hput _
  · exact (hput _).same
  · split
    · exact (hput _).same
    · next x _ =>
      exact .ite (tunerKept_post (tunerKept_beginTune hm (t := State.dropRequest _ x) (hput _).same _ _) _) (hput _).same

theorem tunerKept_failTune (h : TunerKept n s t) (c) : TunerKept n s (t.failTune m c) :=
  have hraised := tunerKept_raise (tunerKept_laneIdle hm h) .tuner m .tuneFailed true
  (tunerKept_enterFree hm (tunerKept_tellFailure (tunerKept_putTuner hraised hm _) _ _ _ _)).same

theorem tunerKept_tunerOutcome (h : TunerKept n s t) (p o) : TunerKept n s (t.tunerOutcome m p o) :=
  .ite (.ite (tunerKept_putTuner h hm _) (tunerKept_enterFree hm (tunerKept_putTuner h hm _)))
    (.ite (.ite (tunerKept_laneHunt hm (tunerKept_putTuner h hm _) _) (tunerKept_failTune hm h _)) h)

theorem tunerKept_beginHosting (h : TunerKept n s t) : TunerKept n s (t.beginHosting m) := tunerKept_putTuner h hm _

theorem tunerKept_windDown (h : TunerKept n s t) (b) : TunerKept n s (t.windDown m b) := by
  have hput := tunerKept_putTuner h hm { t.tuner m with
      mux := none, work := none, acquire := none, relock := none, windTune := b, windRelease := (t.tunerRec m).release.isSome,
      state := if (b || (t.tunerRec m).release.isSome) = true then .releasing else (t.tuner m).state }
  have hwithdrawn := TunerKept.ite (b := b = true) (tunerKept_withdrawRun hput m .tune) hput
  have hasked := TunerKept.ite (b := (t.tunerRec m).release.isSome = true) (tunerKept_requestRun hwithdrawn m .release 0)
    hwithdrawn
  exact .ite hasked (tunerKept_enterFree hm hasked)

theorem tunerKept_release (h : TunerKept n s t) (r) : TunerKept n s (t.release m r) := by
  have hidle : TunerKept n s (if (t.tuner m).state = .tuning then t else t.laneIdle m) := .ite h (tunerKept_laneIdle hm h)
  unfold State.release
  refine (tunerKept_windDown hm (tunerKept_putRole ?_ hm r) _).same
  split
  · exact .ite hidle.same hidle
  · exact hidle

theorem tunerKept_endVisit (h : TunerKept n s t) (o) : TunerKept n s (t.endVisit m o) := by
  unfold State.endVisit
  split
  · exact h
  · exact (tunerKept_putVisit (tunerKept_putLastOutcome h hm _) hm none).same

theorem tunerKept_visitObserving (h : TunerKept n s t) : TunerKept n s (t.visitObserving m) := by
  unfold State.visitObserving
  split
  · exact tunerKept_putVisit h hm _
  · exact h

theorem tunerKept_visitFails (h : TunerKept n s t) (x c) : TunerKept n s (t.visitFails m x c) :=
  (tunerKept_endVisit (t := t.post _) hm h.same _).same

omit hm in
theorem tunerKept_schReport (h : TunerKept n s t) {r : Report} (hr : n ≠ r.lane) : TunerKept n s (t.schReport r) := by
  unfold State.schReport
  split
  · exact h
  · next v _ =>
    refine .ite ?_ h
    have hcounted := tunerKept_putVisit h hr (some { v with dwell := v.dwell - 1 })
    exact .ite (tunerKept_endVisit hr (tunerKept_release hr (tunerKept_closeCensus hcounted _ _) _) _).same hcounted

theorem tunerKept_swap (h : TunerKept n s t) (x) {l : Nat} (hl : n ≠ l) : TunerKept n s (t.swap x m l) := by
  have hended := tunerKept_post (tunerKept_endVisit (t := t.dropRequest x) hm h.same .promoted) .pickTry
  have hhosts := tunerKept_post (tunerKept_beginHosting hm (tunerKept_putRole hended hm .live)) (.hosted x)
  exact tunerKept_post (.ite (tunerKept_enterFree hl (tunerKept_putRole hhosts hl _)) (tunerKept_release hl hhosts _)) _

theorem tunerKept_serveByTune (h : TunerKept n s t) (x) : TunerKept n s (t.serveByTune x m) :=
  .ite (tunerKept_beginTune (t := t.dropRequest x) hm h.same x .host)
    (.ite (tunerKept_putTuner (tunerKept_release (t := t.markRequest x true) hm h.same .live) hm _)
      (tunerKept_release hm (tunerKept_putTuner h hm _) _))

theorem tunerKept_takePick (h : TunerKept n s t) (x p) : TunerKept n s (t.takePick m x p) := by
  have htune := tunerKept_beginTune hm h x .visit
  unfold State.takePick
  generalize t.beginTune m x .visit = u at htune ⊢
  exact tunerKept_putVisit (tunerKept_putLastOutcome (t := u.setSched (u.sched.advance x p))
    (by cases p <;> exact htune.same) hm none) hm _

end other

end kept

end Sys2Proof.Proofs
end

section
/-! SUPPORT. The proofs of the obligations about an expired acquire timer (R94, R95) and about filings (R99). -/

namespace Sys2Proof.Proofs
open Sys2Proof Sys2Proof.Machine Sys2Proof.Laws

set_option Elab.async false

/-! ## The acquire timer -/

section acquire
variable {s v : State} {n : Nat} {m : Timer}

theorem exec_acquireTimerExpiry (hn : n < 16) (s : State) :
    exec (.acquireTimerExpiry n) s = .next (s.act (fun s => s.acquireExpires n)) := if_pos hn

theorem acquireExpires_of_acquiring (hs : (s.tuner n).state = .acquiring) (htimer : (s.tuner n).acquire = some m) :
    s.acquireExpires n = (s.reach (m.start + m.limit)).failTune n .noLock := by
  simp only [State.acquireExpires, htimer]
  exact if_pos hs

/-- A command whose hand-overs all find nothing to do leaves its own effect. -/
theorem act_findsNothing {f : State → State} {l : List Notice} (hq : s.Quiet) (hf : f s = v.setNotices l)
    (hl : ∀ a ∈ l, FindsNothing v a) (hlen : l.length ≤ 10) (hv : v.notices = []) (hsettled : v.settled = []) :
    s.act f = v := by
  unfold State.act
  rw [wake_quiet s hq, hf, drain_findsNothing hl (Nat.le_trans hlen (by decide)), setNotices_eq hv, setSettled_eq v hsettled]

end acquire

/-- Settles O40: the tune fails, and with no service ranked and no request waiting what it hands on finds nothing to do. -/
theorem acquireTimerFailsHostTune : Obligations.AcquireTimerFailsHostTune := by
  intro s n x m hn hq hcan hrole hs htimer hwork hmux hcommitted hlane hqueue hranks
  have ⟨hnone, hsettled, _⟩ := hq
  let reached := s.reach (m.start + m.limit)
  let idle := (reached.putFramer n {}).putTracker n {}
  obtain ⟨i, g, hraise, hlatched, -⟩ := raise_latches idle .tuner n .tuneFailed true
  let failed := ((idle.setInds i).setMgmt g).putTuner n (failedTuner (s.tuner n))
  have heffect : s.acquireExpires n =
      failed.setNotices [.hostFailed ((s.tuner n).mux.getD 0) .noLock, .serveTry, .serveTry] := by
    rw [acquireExpires_of_acquiring hs htimer, failTune_of_host (s := reached) hcan.tuners hcan.qmLanes hnone hwork hrole
      hcommitted hlane, hraise]
    rfl
  have hserve : FindsNothing failed .serveTry := findsNothing_serveTry hqueue
  have hexec := (exec_acquireTimerExpiry hn s).trans (congrArg _ (act_findsNothing hq heffect
    (List.forall_mem_cons.mpr ⟨findsNothing_hostFailed (s := failed) hranks _ _,
      List.forall_mem_cons.mpr ⟨hserve, List.forall_mem_singleton.mpr hserve⟩⟩) (by simp) hnone hsettled))
  exact ⟨failed, hexec, tuner_putTuner_same (s := (idle.setInds i).setMgmt g) hcan.tuners n _,
    framer_putFramer_same (s := reached) hcan.framers n _, tracker_putTracker_same (s := reached.putFramer n {}) hcan.trackers n _,
    hlatched, fun _ => rfl,
    fun k hk => ⟨tuner_putTuner_other hk _, framer_putFramer_other hk _, tracker_putTracker_other hk _⟩, rfl⟩

/-! ## Filings -/

section filing
variable {s : State} {x : Nat}

theorem queuedHost_iff : s.queuedHost x = true ↔ x ∈ s.hostQueue.map HostReq.mux := by
  simp only [State.queuedHost, List.any_eq_true, decide_eq_true_eq, List.mem_map]

/-- An answer other than UNREACHABLE and a new QUEUED leaves the part as it is (Table 45). -/
theorem fileHost_of_no_effect {a : FileAnswer} (h : s.fileAnswer x = a) (hunreachable : a ≠ .unreachable)
    (hqueued : a = .queued → s.queuedHost x = true) : s.fileHost x = s := by
  unfold State.fileHost
  rw [h]
  cases a with
  | unreachable => exact absurd rfl hunreachable
  | queued => exact if_pos (hqueued rfl)
  | hosted | inProgress | full => rfl

/-- A multiplex that is neither hosted, nor tuned for, nor queued: the last three cases of Table 45. -/
theorem fileAnswer_of_new (hhosted : s.hosted x = false) (htuning : s.hostTuning x = false) (hqueue : s.queuedHost x = false) :
    s.fileAnswer x = if !s.roleReaches .live x then .unreachable else if 16 ≤ s.hostQueue.length then .full else .queued := by
  simp only [State.fileAnswer, hhosted, htuning, hqueue, Bool.false_eq_true, if_false]
  rfl

end filing

/-- Settles O48: the cases of Table 45 in their order. -/
theorem filingAnswers : Obligations.FilingAnswers := by
  intro s x
  refine ⟨fun hhosted => ?hosted, fun hhosted htuning => ?inProgress, fun hhosted htuning => ⟨fun hmem => ?queued, fun hnot =>
    ⟨fun hreach => ?unreachable, fun hreach hfull => ?full, fun hreach hroom => ?joins⟩⟩⟩
  case hosted =>
    have hanswer : s.fileAnswer x = .hosted := if_pos hhosted
    exact ⟨hanswer, fileHost_of_no_effect hanswer nofun nofun⟩
  case inProgress =>
    have hanswer : s.fileAnswer x = .inProgress := by
      simp only [State.fileAnswer, hhosted, htuning, Bool.false_eq_true, if_false, if_true]
    exact ⟨hanswer, fileHost_of_no_effect hanswer nofun nofun⟩
  case queued =>
    have hqueue := queuedHost_iff.mpr hmem
    have hanswer : s.fileAnswer x = .queued := by
      simp only [State.fileAnswer, hhosted, htuning, hqueue, Bool.false_eq_true, if_false, if_true]
    exact ⟨hanswer, fileHost_of_no_effect hanswer nofun (fun _ => hqueue)⟩
  all_goals
    have hqueue : s.queuedHost x = false := Bool.eq_false_iff.mpr (fun h => hnot (queuedHost_iff.mp h))
    have hanswer := fileAnswer_of_new hhosted htuning hqueue
  case unreachable =>
    simp only [hreach, Bool.not_false, if_true] at hanswer
    have heffect : s.fileHost x = s.raise .multiplex x .unreachable := by rw [State.fileHost, hanswer]
    rw [heffect]
    obtain ⟨i, m, hraise, hlatched, -⟩ := raise_latches s .multiplex x .unreachable true
    exact ⟨hanswer, by rw [hraise]; rfl, by rw [hraise]; exact hlatched⟩
  case full =>
    simp only [hreach, hfull, Bool.not_true, Bool.false_eq_true, if_false, if_true] at hanswer
    exact ⟨hanswer, fileHost_of_no_effect hanswer nofun nofun⟩
  case joins =>
    simp only [hreach, Nat.not_le.mpr hroom, Bool.not_true, Bool.false_eq_true, if_false] at hanswer
    have heffect : s.fileHost x = (s.setHostQueue (s.hostQueue ++ [{ mux := x }])).post .serveTry := by
      rw [State.fileHost, hanswer]
      exact if_neg (by simp [hqueue])
    exact ⟨hanswer, by rw [heffect]; rfl, by rw [heffect]; rfl⟩

end Sys2Proof.Proofs
end

section
/-! SUPPORT. The proof of the obligation about picks (R92, R108, R112, R114, R115). -/

namespace Sys2Proof.Proofs
open Sys2Proof Sys2Proof.Machine Sys2Proof.Laws

set_option Elab.async false

/-! ## The rings -/

section ring
variable {s : State} {g : Ring} {ptr : Nat} {ok : Nat → Bool}

/-- A member of a ring that a search admits. -/
def Admitted (s : State) (g : Ring) (ok : Nat → Bool) (y : Nat) : Prop := (s.mux y).ring = g ∧ ok y = true

/-- A search stops at the first admitted member from the pointer on, `k` places after it (R108). -/
theorem ringPick_eq_some {x : Nat} (h : s.ringPick g ptr ok = some x) :
    ∃ k, k < 128 ∧ (ptr + k) % 128 = x ∧ Admitted s g ok x ∧ ∀ j, j < k → ¬ Admitted s g ok ((ptr + j) % 128) := by
  rw [State.ringPick, List.find?_map, Option.map_eq_some_iff] at h
  obtain ⟨k, hfind, hx⟩ := h
  obtain ⟨hk, hmem, hbefore⟩ := List.find?_range_eq_some.mp hfind
  refine ⟨k, List.mem_range.mp hmem, hx, ?_, fun j hj hadmitted => ?_⟩
  · simpa [Admitted, hx] using hk
  · have hnot := hbefore j hj
    simp [hadmitted.1, hadmitted.2] at hnot

/-- Every multiplex of a ring is some number of places after the pointer. -/
theorem place_of_member {y : Nat} (hptr : ptr < 128) (hy : y < 128) : (ptr + (y + 128 - ptr) % 128) % 128 = y := by omega

theorem ringPick_eq_none (hptr : ptr < 128) :
    s.ringPick g ptr ok = none ↔ ∀ y, y < 128 → (s.mux y).ring = g → ok y = false := by
  simp only [State.ringPick, List.find?_eq_none, List.forall_mem_map, List.mem_range]
  constructor
  · intro h y hy hring
    have hplace := h ((y + 128 - ptr) % 128) (Nat.mod_lt _ (by decide))
    rw [place_of_member hptr hy] at hplace
    simpa [hring] using hplace
  · intro h k _
    have hfree := h ((ptr + k) % 128) (Nat.mod_lt _ (by decide))
    simpa using hfree

/-- The pick of a ring comes no later from the pointer than any other admitted member (R108). -/
theorem ringPick_first {x : Nat} (hptr : ptr < 128) (h : s.ringPick g ptr ok = some x) :
    x < 128 ∧ Admitted s g ok x ∧
      ∀ y, y < 128 → Admitted s g ok y → (x + 128 - ptr) % 128 ≤ (y + 128 - ptr) % 128 := by
  obtain ⟨k, hk, hx, hadmitted, hbefore⟩ := ringPick_eq_some h
  refine ⟨by omega, hadmitted, fun y hy hy' => ?_⟩
  have hplace : (x + 128 - ptr) % 128 = k := by omega
  rw [hplace]
  refine Nat.le_of_not_lt (fun hlt => hbefore _ hlt ?_)
  rw [place_of_member hptr hy]
  exact hy'

end ring

/-! ## The order of the sources -/

/-- The pick with nothing excluded, by the multiplexes eligible for the tuner (R114, R115). -/
theorem pick_eq {s : State} {n : Nat} {ok : Nat → Bool} (hok : ∀ x, ok x = s.eligible n x) : s.pick n [] =
    ((((s.sched.urgent.find? ok).map (fun x => (x, PickSource.urgent))).orElse (fun _ =>
      if s.sched.aRun < s.settings.aShare then (s.ringPick .a s.sched.ptrA ok).map (fun x => (x, .ringA)) else none)).orElse
        (fun _ => (s.ringPick .b s.sched.ptrB ok).map (fun x => (x, .ringB)))).orElse
          (fun _ => (s.ringPick .a s.sched.ptrA ok).map (fun x => (x, .ringA))) := by
  have hsame : (fun x => s.eligible n x && !([] : List Nat).contains x) = ok := by
    funext x
    simp [hok]
  simp only [State.pick, hsame]

/-! ## A taken pick -/

section taken
variable {s : State} {n x : Nat} {p : PickSource}

theorem sched_of_reach {u v : State} (h : Reach false 0 u v) : v.sched = u.sched := by
  refine h.keeps (P := fun w => w.sched = u.sched) (fun a b q e => ?_) rfl
  cases q with
  | sched hw => omega
  | _ => exact e

/-- A tune that begins leaves the request queue, the roles and the Scan Scheduler as they are; what the buses do of it leaves
the tuners too (R92). -/
theorem beginTune_frame (s : State) (n x : Nat) (w : Work) : (s.beginTune n x w).hostQueue = s.hostQueue ∧
    (s.beginTune n x w).roles = s.roles ∧ (s.beginTune n x w).sched = s.sched ∧
    (s.beginTune n x w).tuners = (s.putTuner n { s.tuner n with
      state := .tuning, mux := some x, work := some w, acquire := none, relock := none }).tuners := by
  have hreach := reach_requestRun (fl := false) (w := 0) (.refl (s := s.putTuner n { s.tuner n with
    state := .tuning, mux := some x, work := some w, acquire := none, relock := none })) n .tune x
  obtain ⟨htuners, hroles, hqueue⟩ := hreach.level0
  exact ⟨hqueue, hroles, (sched_of_reach hreach).trans rfl, htuners⟩

/-- The record of a tuner that begins a tune (R92). -/
theorem tuner_beginTune (s : State) (n x : Nat) (w : Work) : (s.beginTune n x w).tuner n =
    { s.tuner n with state := .tuning, mux := some x, work := some w, acquire := none, relock := none } := by
  obtain ⟨-, -, -, htuners⟩ := beginTune_frame s n x w
  exact (tuner_congr htuners n).trans (tab_get_set_ne _ _ _ _ (by simp [Tuner.mk.injEq]))

/-- The visit that a taken pick creates (R115). -/
def newVisit (s : State) (x : Nat) (p : PickSource) : Visit :=
  { mux := x, source := p, phase := .tuning, dwell := (s.mux x).dwell }

theorem sched_takePick (s : State) (n x : Nat) (p : PickSource) : (s.takePick n x p).sched = { s.sched.advance x p with
    visits := Tab.set none (s.sched.advance x p).visits n (some (newVisit s x p)),
    lastOutcome := Tab.set none (s.sched.advance x p).lastOutcome n none } := by
  obtain ⟨-, -, hsched, -⟩ := beginTune_frame s n x .visit
  unfold State.takePick
  generalize s.beginTune n x .visit = u at hsched ⊢
  rw [← hsched]
  rfl

theorem tuner_takePick (s : State) (n x : Nat) (p : PickSource) : (s.takePick n x p).tuner n =
    { s.tuner n with state := .tuning, mux := some x, work := some .visit, acquire := none, relock := none } := by
  rw [← tuner_beginTune]
  unfold State.takePick
  generalize s.beginTune n x .visit = u
  rfl

/-- The taking of a pick leaves the visits and outcomes but for those it stores. -/
theorem advance_visits (k : Sched) (x : Nat) (p : PickSource) :
    (k.advance x p).visits = k.visits ∧ (k.advance x p).lastOutcome = k.lastOutcome := by
  cases p <;> exact ⟨rfl, rfl⟩

theorem visit_takePick (hcan : s.Canonical) : (s.takePick n x p).visit n = some (newVisit s x p) ∧
    (s.takePick n x p).lastOutcome n = none := by
  obtain ⟨hvisits, hlast⟩ := advance_visits s.sched x p
  rw [State.visit, State.lastOutcome, sched_takePick, hvisits, hlast]
  exact ⟨tab_get_set_same _ _ 0 _ _ hcan.visits, tab_get_set_same _ _ 0 _ _ hcan.lastOutcome⟩

end taken

/-- Settles O50: the search of a ring, the order of the sources, and the pick as it is taken. -/
theorem picksChooseAndAdvance : Obligations.PicksChooseAndAdvance := by
  refine ⟨fun s g ptr ok hptr => ⟨fun x hpick => ?first, ringPick_eq_none hptr⟩, fun s n ok hok => ⟨fun x hurgent => ?urgent,
    fun hurgent => ⟨fun x hshare hpick => ?ringA, fun hshare => ⟨fun x hpick => ?ringB, fun hpick => ?ringALast⟩⟩⟩,
    fun s t n x p hcan ht => ?taken⟩
  case first =>
    obtain ⟨hx, ⟨hring, hok⟩, hbefore⟩ := ringPick_first hptr hpick
    exact ⟨hx, hring, hok, fun y hy hring' hok' => hbefore y hy ⟨hring', hok'⟩⟩
  case urgent => rw [pick_eq hok, hurgent]; rfl
  case ringA => rw [pick_eq hok, hurgent, hpick, if_pos hshare]; rfl
  case ringB | ringALast =>
    have hnone : (if s.sched.aRun < s.settings.aShare then
        (s.ringPick .a s.sched.ptrA ok).map (fun x => (x, PickSource.ringA)) else none) = none := by
      rcases hshare with hover | hnone
      · exact if_neg (Nat.not_lt.mpr hover)
      · rw [hnone, Option.map_none, ite_self]
    rw [pick_eq hok, hurgent, hnone, hpick]
    rfl
  case taken =>
    subst ht
    obtain ⟨hvisit, hlast⟩ := visit_takePick (n := n) (x := x) (p := p) hcan
    have hothers (m : Nat) (hm : m ≠ n) := tunerKept_takePick hm (.refl m s) x p
    rw [sched_takePick, tuner_takePick]
    refine ⟨hvisit, hlast, rfl, rfl, rfl, fun m hm => ⟨(hothers m hm).visit, (hothers m hm).tuner⟩, ?_, ?_, ?_⟩
    all_goals
      intro hp
      subst hp
      exact ⟨rfl, rfl, rfl, rfl⟩

end Sys2Proof.Proofs
end

section
/-! SUPPORT. The release of a tuner (R95), and the proof of the obligation about the serving of host requests (R101 to R103). -/

namespace Sys2Proof.Proofs
open Sys2Proof Sys2Proof.Machine Sys2Proof.Laws

set_option Elab.async false

/-! ## Release -/

/-- The state once the lane of a released tuner is IDLE; a TUNING tuner's lane already is (R95). -/
def leftLane (s : State) (n : Nat) : State := if (s.tuner n).state = .tuning then s else s.laneIdle n

/-- The state once the hosting of a released tuner has ended too (R95). -/
def hostingEnded (s : State) (n : Nat) : State :=
  match (s.tuner n).mux with
  | some x => if s.hosts n x then (leftLane s n).post (.unhosted x) else leftLane s n
  | none => leftLane s n

/-- The state in which a released tuner begins to wind down, under the role it then has (R95, R102, R104). -/
def released (s : State) (n : Nat) (r : Role) : State := (hostingEnded s n).putRole n r

/-- The record of a tuner that winds down, with the items it waits for (R95). -/
def windingTuner (s : State) (n : Nat) (withdrawn : Bool) : Tuner :=
  { s.tuner n with mux := none, work := none, acquire := none, relock := none, windTune := withdrawn,
                   windRelease := (s.tunerRec n).release.isSome,
                   state := if withdrawn || (s.tunerRec n).release.isSome then .releasing else (s.tuner n).state }

section release
variable {s : State} {n : Nat}

theorem release_eq (s : State) (n : Nat) (r : Role) : s.release n r =
    ((released s n r).windDown n (decide ((s.tuner n).state = .tuning))).post .serveTry := rfl

theorem hostingEnded_cases (s : State) (n : Nat) :
    hostingEnded s n = leftLane s n ∨ ∃ x, hostingEnded s n = (leftLane s n).post (.unhosted x) := by
  unfold hostingEnded
  split
  · split
    · exact .inr ⟨_, rfl⟩
    · exact .inl rfl
  · exact .inl rfl

theorem reach_hostingEnded (s : State) (n : Nat) : Reach false 0 s (hostingEnded s n) := by
  have hleft : Reach false 0 s (leftLane s n) := reach_ite .refl (reach_laneIdle .refl n)
  rcases hostingEnded_cases s n with h | ⟨x, h⟩
  · rw [h]
    exact hleft
  · rw [h]
    exact reach_post hleft _

theorem released_frame (s : State) (n : Nat) (r : Role) : (released s n r).tuners = s.tuners ∧
    (released s n r).hostQueue = s.hostQueue ∧ (released s n r).tables = s.tables := by
  have hended := reach_hostingEnded s n
  obtain ⟨htuners, -, hqueue⟩ := hended.level0
  exact ⟨htuners, hqueue, (handOverFrame_of_reach hended (by omega)).tables⟩

theorem role_released (s : State) (n : Nat) {r : Role} (hr : r ≠ .off) : (released s n r).role n = r :=
  tab_get_set_ne _ _ _ _ hr

/-- A tuner with an item to wait for is RELEASING; its runs touch the buses alone (R95). -/
theorem windDown_of_winding {b : Bool} (h : (b || (s.tunerRec n).release.isSome) = true) :
    Reach false 0 (s.putTuner n (windingTuner s n b)) (s.windDown n b) := by
  have hwithdrawn := reach_ite (b := b = true) (reach_withdrawRun (.refl (s := s.putTuner n (windingTuner s n b))) n .tune)
    (.refl (fl := false) (w := 0))
  have hasked := reach_ite (b := (s.tunerRec n).release.isSome = true) (reach_requestRun hwithdrawn n .release 0) hwithdrawn
  have heq : s.windDown n b = _ := if_pos h
  rw [heq]
  exact hasked

/-- A tuner with nothing to wait for is FREE or OFF at once (R95). -/
theorem windDown_at_once (h : (s.tunerRec n).release = none) :
    s.windDown n false = (s.putTuner n (windingTuner s n false)).enterFree n := by
  simp only [State.windDown, windingTuner, h, Option.isSome_none, Bool.or_self, Bool.false_eq_true, if_false]

theorem enterFree_of_scan (hrole : s.role n = .scan) :
    s.enterFree n = (s.putTuner n { s.tuner n with state := .free, committed := none }).post (.scanFree n) := by
  simp only [State.enterFree, hrole]

/-- A LIVE tuner that enters FREE takes the request committed to it (R103). -/
theorem enterFree_of_committed (hrole : s.role n = .live) {x : Nat} (hcommitted : (s.tuner n).committed = some x)
    (hqueue : s.queuedHost x = true) (hfree : s.occupied x = false) : s.enterFree n =
      (((s.putTuner n { s.tuner n with state := .free, committed := none }).dropRequest x).beginTune n x .host).post
        .serveTry := by
  simp only [State.enterFree, hrole, hcommitted, hqueue, hfree, Bool.not_false, Bool.and_self, if_true]

/-- A multiplex that no tuner occupies stays so when one tuner comes to have no multiplex. -/
theorem occupied_of_left {t : State} {x : Nat} (hothers : ∀ k, k ≠ n → t.tuner k = s.tuner k)
    (hleft : (t.tuner n).mux = none) (h : s.occupied x = false) : t.occupied x = false := by
  simp only [State.occupied, List.any_eq_false, List.mem_range, occupies_eq] at h ⊢
  intro k hk
  by_cases hkn : k = n
  · rw [hkn, holds_none _ hleft]
    decide
  · rw [hothers k hkn]
    exact h k hk

end release

/-! ## The judgement of a request (Table 46) -/

section judge
variable {s : State} {x : Nat}

theorem judgeRequest_of_swap (hreach : s.roleReaches .live x = true) {a l : Nat} (ha : s.visitorOf x = some a)
    (hl : s.serverAmong (fun _ => true) = some l) : s.judgeRequest x = .swap a l := by
  simp only [State.judgeRequest, hreach, ha, hl, Bool.not_true, Bool.false_eq_true, if_false]

theorem judgeRequest_of_no_swap (hreach : s.roleReaches .live x = true)
    (h : s.visitorOf x = none ∨ s.serverAmong (fun _ => true) = none) : s.judgeRequest x =
      if s.occupied x then .waits
      else match s.serverAmong (fun t => s.reaches t (s.mux x).feed) with
        | some l => .tune l
        | none => .waits := by
  unfold State.judgeRequest
  rw [if_neg (by simp [hreach])]
  split
  · next ha hl => rcases h with h | h <;> simp [h] at ha hl
  · rfl

/-- The tuner that serves is the lowest FREE LIVE one that fits, else the lowest idle-hosted one (R102, R103). -/
theorem serverAmong_cases {ok : Nat → Bool} {l : Nat} (h : s.serverAmong ok = some l) :
    (l < 16 ∧ (ok l = true ∧ s.role l = .live ∧ (s.tuner l).state = .free) ∧
      ∀ j, j < l → ¬(ok j = true ∧ s.role j = .live ∧ (s.tuner j).state = .free)) ∨
    (l < 16 ∧ (ok l = true ∧ s.idleHosted l = true) ∧ (∀ j, j < l → ¬(ok j = true ∧ s.idleHosted j = true)) ∧
      ∀ j, j < 16 → ¬(ok j = true ∧ s.role j = .live ∧ (s.tuner j).state = .free)) := by
  unfold State.serverAmong at h
  split at h
  · next k hfree =>
    cases h
    obtain ⟨hfits, hmem, hbefore⟩ := List.find?_range_eq_some.mp hfree
    refine .inl ⟨List.mem_range.mp hmem, by simpa [and_assoc] using hfits, fun j hj hj' => ?_⟩
    have hnot := hbefore j hj
    simp [hj'.1, hj'.2.1, hj'.2.2] at hnot
  · next hnone =>
    obtain ⟨hfits, hmem, hbefore⟩ := List.find?_range_eq_some.mp h
    refine .inr ⟨List.mem_range.mp hmem, by simpa using hfits, fun j hj hj' => ?_, fun j hj hj' => ?_⟩
    · have hnot := hbefore j hj
      simp [hj'.1, hj'.2] at hnot
    · have hnot := List.find?_eq_none.mp hnone j (List.mem_range.mpr hj)
      simp [hj'.1, hj'.2.1, hj'.2.2] at hnot

/-! ## The walk of the queue (R101) -/

/-- A try passes a request over: it is committed, or has to wait. -/
def Passed (s : State) (r : HostReq) : Prop := r.committed = true ∨ s.judgeRequest r.mux = .waits

variable {q : List HostReq} {r : HostReq}

theorem firstServed_cons_passed (h : Passed s r) : s.firstServed (r :: q) = s.firstServed q := by
  rcases h with h | h
  · exact if_pos h
  · simp only [State.firstServed, h, ite_self]

theorem firstServed_cons_taken (h : ¬ Passed s r) : s.firstServed (r :: q) = some (r.mux, s.judgeRequest r.mux) := by
  have hnot : r.committed = false := Bool.eq_false_iff.mpr (fun hc => h (.inl hc))
  cases hj : s.judgeRequest r.mux with
  | waits => exact absurd (.inr hj) h
  | unreachable | swap _ _ | tune _ => simp only [State.firstServed, hnot, hj, Bool.false_eq_true, if_false]

theorem firstServed_eq_none : s.firstServed q = none ↔ ∀ e ∈ q, Passed s e := by
  induction q with
  | nil => exact ⟨fun _ => nofun, fun _ => rfl⟩
  | cons r q ih =>
    by_cases h : Passed s r
    · rw [firstServed_cons_passed h, ih, List.forall_mem_cons]
      exact ⟨fun hq => ⟨h, hq⟩, And.right⟩
    · rw [firstServed_cons_taken h, List.forall_mem_cons]
      exact ⟨nofun, fun hq => absurd hq.1 h⟩

/-- The request a try serves is the first that it does not pass over. -/
theorem firstServed_eq_some {a : Serving} (h : s.firstServed q = some (x, a)) :
    ∃ q1 r q2, q = q1 ++ r :: q2 ∧ r.mux = x ∧ s.judgeRequest x = a ∧ ¬ Passed s r ∧ ∀ e ∈ q1, Passed s e := by
  induction q with
  | nil => cases h
  | cons r q ih =>
    by_cases hr : Passed s r
    · rw [firstServed_cons_passed hr] at h
      obtain ⟨q1, r', q2, rfl, hx, ha, hr', hq1⟩ := ih h
      exact ⟨r :: q1, r', q2, rfl, hx, ha, hr', List.forall_mem_cons.mpr ⟨hr, hq1⟩⟩
    · rw [firstServed_cons_taken hr] at h
      cases h
      exact ⟨[], r, q, rfl, rfl, rfl, hr, nofun⟩

end judge

/-! ## A swap (R102) -/

section swap
variable {s : State} {x a l : Nat} {v : Visit}

/-- The record of a SCAN tuner that comes to host the multiplex it visits (R96, R102). -/
def promotedTuner (s : State) (a : Nat) : Tuner :=
  { s.tuner a with
    work := some .host, relockLimit := (s.tunerRec a).relockLimit,
    relock := if (s.framer a).inLock then none else some { start := s.now, limit := (s.tunerRec a).relockLimit } }

/-- What a swap with a FREE tuner changes but for what it hands on (R102, R121). -/
def swapped (s : State) (x a l : Nat) : State :=
  ((((((s.dropRequest x).putLastOutcome a (some .promoted)).putVisit a none).putRole a .live).putTuner a
    (promotedTuner s a)).putRole l .scan).putTuner l { s.tuner l with committed := none }

theorem swap_of_free (hne : a ≠ l) (hvisit : s.visit a = some v) (hfree : (s.tuner l).state = .free) : s.swap x a l =
    (swapped s x a l).setNotices
      (s.notices ++ [.visitEnd a v.mux .promoted, .pickTry, .hosted x, .scanFree l, .roleChanged]) := by
  let ended := (((s.dropRequest x).putLastOutcome a (some .promoted)).putVisit a none).post (.visitEnd a v.mux .promoted)
  let hosting := (((ended.post .pickTry).putRole a .live).putTuner a (promotedTuner s a)).post (.hosted x)
  have hended : (s.dropRequest x).endVisit a .promoted = ended := by
    have hvisit' : (s.dropRequest x).visit a = some v := hvisit
    simp only [State.endVisit, hvisit']
    rfl
  have hhosting : (((((s.dropRequest x).visitStopped a .promoted).putRole a .live).beginHosting a).post (.hosted x)) =
      hosting := by
    rw [State.visitStopped, hended]
    rfl
  have htuner : hosting.tuner l = s.tuner l := tab_get_set_other _ _ _ _ _ (Ne.symm hne)
  have hkept : ({ s.tuner l with state := .free, committed := none } : Tuner) = { s.tuner l with committed := none } := by
    rw [← hfree]
  have hscan : (hosting.putRole l .scan).role l = .scan := tab_get_set_ne _ _ _ _ (by decide)
  have hlfree : (hosting.tuner l).state = .free := by rw [htuner]; exact hfree
  unfold State.swap
  dsimp only
  rw [hhosting, if_pos hlfree, enterFree_of_scan hscan]
  show (State.post (State.putTuner _ l { hosting.tuner l with state := .free, committed := none }) _).post _ = _
  rw [htuner, hkept]
  refine Eq.trans ?_ (congrArg (swapped s x a l).setNotices (by simp only [List.append_assoc, List.cons_append, List.nil_append] :
    ((((s.notices ++ [.visitEnd a v.mux .promoted]) ++ [.pickTry]) ++ [.hosted x]) ++ [.scanFree l]) ++ [.roleChanged] = _))
  rfl

/-- What a swap leaves of the two tuners and of the visit (R102, R121). -/
theorem swapped_reads (hcan : s.Canonical) (hne : a ≠ l) :
    (swapped s x a l).role a = .live ∧ (swapped s x a l).role l = .scan ∧
      (swapped s x a l).tuner a = promotedTuner s a ∧ (swapped s x a l).tuner l = { s.tuner l with committed := none } ∧
      (swapped s x a l).visit a = none ∧ (swapped s x a l).lastOutcome a = some .promoted :=
  ⟨(tab_get_set_other _ _ _ _ _ hne).trans (tab_get_set_ne _ _ _ _ (by decide)), tab_get_set_ne _ _ _ _ (by decide),
    (tab_get_set_other _ _ _ _ _ hne).trans (tab_get_set_same _ _ 0 _ _ hcan.tuners),
    tab_get_set_same _ _ 0 _ _ (tab_wf_set _ _ _ _ hcan.tuners), tab_get_set_same _ _ 0 _ _ hcan.visits,
    tab_get_set_ne _ _ _ _ (by decide)⟩

end swap

/-! ## A tune (R103) -/

section tune
variable {s : State} {x l : Nat}

/-- A FREE tuner takes the request off the queue and begins the tune. -/
theorem serveByTune_of_free (h : (s.tuner l).state = .free) :
    s.serveByTune x l = (s.dropRequest x).beginTune l x .host := if_pos h

/-- An idle-hosted tuner with a release recipe is RELEASING, the request committed to it. -/
theorem serveByTune_of_recipe (hs : (s.tuner l).state = .observing) (hrel : (s.tunerRec l).release ≠ none) :
    (s.serveByTune x l).tuner l = { windingTuner s l false with committed := some x } ∧
      (s.serveByTune x l).hostQueue = s.hostQueue.map (fun r => if r.mux = x then { r with committed := true } else r) := by
  let marked := s.markRequest x true
  let start := released marked l .live
  have hsome : (s.tunerRec l).release.isSome = true := Option.isSome_iff_ne_none.mpr hrel
  have heq : s.serveByTune x l =
      (marked.release l .live).putTuner l { (marked.release l .live).tuner l with committed := some x } := by
    unfold State.serveByTune
    rw [if_neg (by rw [hs]; decide), if_pos hsome]
  obtain ⟨htuners, hqueue, htables⟩ := released_frame marked l .live
  have hrecipe : (start.tunerRec l).release.isSome = true := by
    rw [State.tunerRec, htables]
    exact hsome
  have hstart : windingTuner start l false = windingTuner s l false := by
    unfold windingTuner
    rw [tuner_congr htuners, State.tunerRec, htables]
    rfl
  have hrelease : marked.release l .live = (start.windDown l false).post .serveTry :=
    congrArg (fun b => (start.windDown l b).post .serveTry)
      (decide_eq_false (show (s.tuner l).state ≠ .tuning by rw [hs]; decide))
  obtain ⟨hwound, -, hkept⟩ := (windDown_of_winding (s := start) (n := l) (b := false) hrecipe).level0
  have hreleasing : windingTuner s l false ≠ {} := fun h => by
    have hstate := congrArg Tuner.state h
    simp [windingTuner, hsome] at hstate
  have htuner : (marked.release l .live).tuner l = windingTuner s l false := by
    rw [hrelease, ← hstart]
    exact (tuner_congr hwound l).trans (tab_get_set_ne _ _ _ _ (hstart ▸ hreleasing))
  rw [heq, htuner]
  refine ⟨tab_get_set_ne _ _ _ _ (by simp [Tuner.mk.injEq]), ?_⟩
  show (marked.release l .live).hostQueue = _
  rw [hrelease]
  exact hkept.trans hqueue

/-- An idle-hosted tuner without a release recipe is FREE at once, and takes the request committed to it. -/
theorem serveByTune_of_no_recipe (hs : (s.tuner l).state = .observing) (hrel : (s.tunerRec l).release = none)
    (hqueued : s.queuedHost x = true) (hfree : s.occupied x = false) :
    ∃ u : State, s.serveByTune x l = ((u.beginTune l x .host).post .serveTry).post .serveTry ∧
      u.hostQueue = s.hostQueue.filter (fun r => !decide (r.mux = x)) := by
  let committed := s.putTuner l { s.tuner l with committed := some x }
  let start := released committed l .live
  let wound := start.putTuner l (windingTuner start l false)
  obtain ⟨htuners, hqueue, htables⟩ := released_frame committed l .live
  have htuner : start.tuner l = { s.tuner l with committed := some x } :=
    (tuner_congr htuners l).trans (tab_get_set_ne _ _ _ _ (by simp [Tuner.mk.injEq]))
  have hother (k : Nat) (hk : k ≠ l) : start.tuner k = s.tuner k :=
    (tuner_congr htuners k).trans (tab_get_set_other _ _ _ _ _ hk)
  have hnone : (start.tunerRec l).release = none := by
    rw [State.tunerRec, htables]
    exact hrel
  have hcommitted : (windingTuner start l false).committed = some x := by
    simp only [windingTuner, htuner]
  have hwound : wound.tuner l = windingTuner start l false :=
    tab_get_set_ne _ _ _ _ (fun h => by rw [h] at hcommitted; cases hcommitted)
  have hunoccupied : wound.occupied x = false :=
    occupied_of_left (n := l) (fun k hk => (tab_get_set_other _ _ _ _ _ hk).trans (hother k hk)) (by rw [hwound]; rfl) hfree
  have hserve : s.serveByTune x l = (wound.enterFree l).post .serveTry := by
    unfold State.serveByTune
    rw [if_neg (by rw [hs]; decide), if_neg (by simp [hrel]), release_eq, ← windDown_at_once hnone]
    have hstate : (committed.tuner l).state = .observing := by
      rw [← tuner_congr htuners l, htuner]
      exact hs
    exact congrArg (fun b => (start.windDown l b).post .serveTry) (decide_eq_false (by rw [hstate]; decide))
  have hqueue' : wound.hostQueue = s.hostQueue := hqueue
  rw [hserve, enterFree_of_committed (s := wound) (role_released committed l (by decide)) (by rw [hwound]; exact hcommitted)
    (by rw [State.queuedHost, hqueue']; exact hqueued) hunoccupied]
  exact ⟨_, rfl, congrArg (List.filter _) hqueue'⟩

end tune

/-- Settles O49: the judgement by its cases, the server by its search, the walk of the queue, the swap and the tunes. -/
theorem requestsServed : Obligations.RequestsServed := by
  refine ⟨fun s x => ⟨fun hreach => ?unreachable, fun hreach => ⟨fun a l => judgeRequest_of_swap hreach, fun hnone =>
    ⟨fun hocc => ?occupied, fun hocc => ⟨fun l hl => ?tune, fun hl => ?waits⟩⟩⟩⟩, fun s ok l hl => ?server, fun s q => ?walk,
    fun s t x l hcan => ⟨fun a v hne hvisit hfree ht => ?swap, fun ht => ⟨fun hfree => ?free, fun hs hrel => ?recipe,
      fun hs hrel hqueued hfree => ?noRecipe⟩⟩⟩
  case unreachable => exact if_pos (by simp [hreach])
  case occupied => rw [judgeRequest_of_no_swap hreach hnone, if_pos hocc]
  case tune => simp only [judgeRequest_of_no_swap hreach hnone, hocc, hl, Bool.false_eq_true, if_false]
  case waits => simp only [judgeRequest_of_no_swap hreach hnone, hocc, hl, Bool.false_eq_true, if_false]
  case server =>
    rcases serverAmong_cases hl with ⟨hlt, ⟨hok, hrole, hfree⟩, hbefore⟩ | ⟨hlt, ⟨hok, hidle⟩, hbefore, hnone⟩
    · exact ⟨hlt, hok, .inl ⟨hrole, hfree, fun j hj hok' hrole' hfree' => hbefore j hj ⟨hok', hrole', hfree'⟩⟩⟩
    · exact ⟨hlt, hok, .inr ⟨hidle, fun j hj hok' hrole' hfree' => hnone j hj ⟨hok', hrole', hfree'⟩,
        fun j hj hok' => Bool.eq_false_iff.mpr (fun hidle' => hbefore j hj ⟨hok', hidle'⟩)⟩⟩
  case walk =>
    refine ⟨fun x a h => ?_, firstServed_eq_none⟩
    obtain ⟨q1, r, q2, hq, hx, ha, hr, hq1⟩ := firstServed_eq_some h
    refine ⟨fun hwaits => hr (.inr ?_), ha, q1, r, q2, hq, hx, Bool.eq_false_iff.mpr (fun hc => hr (.inl hc)), hq1⟩
    rw [hx, ha, hwaits]
  case swap =>
    obtain ⟨hrolea, hrolel, htunera, htunerl, hvisit', hlast⟩ := swapped_reads (x := x) hcan hne
    have hqueue : (swapped s x a l).hostQueue = s.hostQueue.filter (fun r => !decide (r.mux = x)) := rfl
    rw [swap_of_free hne hvisit hfree] at ht
    generalize swapped s x a l = u at *
    subst ht
    exact ⟨hrolea, hrolel, congrArg Tuner.work htunera, (congrArg Tuner.mux htunera).trans rfl,
      (congrArg Tuner.state htunera).trans rfl, hvisit', hlast, htunerl, hqueue, rfl⟩
  case free =>
    rw [serveByTune_of_free hfree] at ht
    subst ht
    obtain ⟨hqueue, -, -, -⟩ := beginTune_frame (s.dropRequest x) l x .host
    rw [tuner_beginTune]
    exact ⟨rfl, rfl, rfl, hqueue⟩
  case recipe =>
    obtain ⟨htuner, hqueue⟩ := serveByTune_of_recipe (x := x) hs hrel
    rw [ht, htuner]
    exact ⟨by simp [windingTuner, Option.isSome_iff_ne_none.mpr hrel], rfl, rfl, hqueue⟩
  case noRecipe =>
    obtain ⟨u, hserve, hqueue⟩ := serveByTune_of_no_recipe hs hrel hqueued hfree
    obtain ⟨hqueue', -, -, -⟩ := beginTune_frame u l x .host
    have htuner : t.tuner l = (u.beginTune l x .host).tuner l := by rw [ht, hserve]; rfl
    rw [htuner, tuner_beginTune, ht, hserve]
    exact ⟨rfl, rfl, rfl, hqueue'.trans hqueue⟩

end Sys2Proof.Proofs
end

section
/-! SUPPORT. A tuner that is set OFF: what its change of role leaves of it, and that no hand-over gives it work again (R95,
R104, R120). -/

namespace Sys2Proof.Proofs
open Sys2Proof Sys2Proof.Machine Sys2Proof.Laws

set_option Elab.async false

/-- A tuner with role OFF that is OFF or winds down. -/
def IsOff (n : Nat) (s : State) : Prop :=
  s.role n = .off ∧ ((s.tuner n).state = .off ∨ (s.tuner n).state = .releasing)

/-- The record names no multiplex and no work, and neither timer runs. -/
def Cleared (r : Tuner) : Prop := r.mux = none ∧ r.work = none ∧ r.acquire = none ∧ r.relock = none

/-- In `t` tuner `n` is OFF or winds down, and it has gained nothing since `s`: no request, multiplex, work or timer, no
framer state, no visit. -/
structure OffKept (n : Nat) (s t : State) : Prop where
  isOff : IsOff n t
  committed : (s.tuner n).committed = none → (t.tuner n).committed = none
  cleared : Cleared (s.tuner n) → Cleared (t.tuner n)
  framer : s.framer n = {} → t.framer n = {}
  visit : s.visit n = none → t.visit n = none ∧ t.lastOutcome n = s.lastOutcome n

section off
variable {n m : Nat} {s t u : State}

theorem OffKept.trans (h : OffKept n s t) (h' : OffKept n t u) : OffKept n s u := by
  refine ⟨h'.isOff, h'.committed ∘ h.committed, h'.cleared ∘ h.cleared, h'.framer ∘ h.framer, fun hv => ?_⟩
  obtain ⟨hvisit, hlast⟩ := h.visit hv
  obtain ⟨hvisit', hlast'⟩ := h'.visit hvisit
  exact ⟨hvisit', hlast'.trans hlast⟩

theorem IsOff.of_kept (h : IsOff n s) (hk : TunerKept n s t) : IsOff n t := by
  rw [IsOff, hk.role, hk.tuner]
  exact h

theorem IsOff.kept (h : IsOff n s) (hk : TunerKept n s t) : OffKept n s t := by
  refine ⟨h.of_kept hk, ?_, ?_, ?_, fun hv => ⟨hk.visit.trans hv, hk.lastOutcome⟩⟩
  · rw [hk.tuner]
    exact id
  · rw [hk.tuner]
    exact id
  · rw [hk.framer]
    exact id

theorem IsOff.refl (h : IsOff n s) : OffKept n s s := h.kept (.refl n s)

theorem OffKept.ite {b : Prop} [Decidable b] {v : State} (hu : OffKept n s u) (hv : OffKept n s v) :
    OffKept n s (if b then u else v) := by
  split
  · exact hu
  · exact hv

/-- A tuner with a visit record: a change of the visits, or of what holds nothing of a tuner. -/
theorem OffKept.visiting (h : OffKept n s t) (hv : s.visit n ≠ none) (hroles : u.roles = t.roles := by rfl)
    (htuners : u.tuners = t.tuners := by rfl) (hframers : u.framers = t.framers := by rfl) : OffKept n s u := by
  have hrole : u.role n = t.role n := by rw [State.role, hroles]; rfl
  have htuner : u.tuner n = t.tuner n := tuner_congr htuners n
  have hframer : u.framer n = t.framer n := by rw [State.framer, hframers]; rfl
  refine ⟨?_, ?_, ?_, ?_, fun hnone => absurd hnone hv⟩
  · rw [IsOff, hrole, htuner]
    exact h.isOff
  · rw [htuner]
    exact h.committed
  · rw [htuner]
    exact h.cleared
  · rw [hframer]
    exact h.framer

/-! ## Serving and picking pass it over (R101, R113) -/

theorem live_of_idleHosted (h : s.idleHosted m = true) : s.role m = .live := by
  unfold State.idleHosted at h
  split at h
  · simp only [Bool.and_eq_true, decide_eq_true_eq] at h
    exact h.1.1.1
  · cases h

theorem live_of_serverAmong {ok : Nat → Bool} (h : s.serverAmong ok = some m) : s.role m = .live := by
  rcases serverAmong_cases h with ⟨-, ⟨-, hrole, -⟩, -⟩ | ⟨-, ⟨-, hidle⟩, -⟩
  · exact hrole
  · exact live_of_idleHosted hidle

theorem scan_of_visitorOf {x : Nat} (h : s.visitorOf x = some m) : s.role m = .scan := by
  have hfound := List.find?_some h
  simp only [Bool.and_eq_true, decide_eq_true_eq] at hfound
  exact hfound.1.1.1

/-- Only a LIVE tuner serves a request, and only a SCAN tuner is swapped with it. -/
theorem roles_of_judged {x : Nat} {a : Serving} (h : s.judgeRequest x = a) :
    match a with
    | .swap k l => s.role k = .scan ∧ s.role l = .live
    | .tune l => s.role l = .live
    | _ => True := by
  unfold State.judgeRequest at h
  split at h
  · subst h; trivial
  · split at h
    · next hscan hlive => subst h; exact ⟨scan_of_visitorOf hscan, live_of_serverAmong hlive⟩
    · split at h
      · subst h; trivial
      · split at h
        · next hlive => subst h; exact live_of_serverAmong hlive
        · subst h; trivial

theorem ne_of_role {r : Role} (hoff : s.role n = .off) (hm : s.role m = r) (hr : r ≠ .off) : n ≠ m :=
  fun h => hr (hm.symm.trans (h ▸ hoff))

theorem tunerKept_serveOne (hoff : s.role n = .off) {x : Nat} {a : Serving} (h : s.judgeRequest x = a) :
    TunerKept n s (s.serveOne x a) := by
  have hroles := roles_of_judged h
  cases a with
  | unreachable => exact tunerKept_post (tunerKept_raise (t := s.dropRequest x) (TunerKept.refl n s).same _ _ _ _) _
  | swap k l =>
    obtain ⟨hscan, hlive⟩ := hroles
    exact tunerKept_swap (ne_of_role hoff hscan nofun) (.refl n s) x (ne_of_role hoff hlive nofun)
  | tune l => exact tunerKept_serveByTune (ne_of_role hoff hroles nofun) (.refl n s) x
  | waits => exact .refl n s

theorem tunerKept_serve (k : Nat) : ∀ {s : State}, s.role n = .off → TunerKept n s (State.serve k s) := by
  induction k with
  | zero => exact fun _ => .refl n _
  | succ k ih =>
    intro s hoff
    simp only [State.serve]
    split
    · exact .refl n s
    · next x a hserved =>
      have hone := tunerKept_serveOne hoff (firstServed_judge hserved)
      exact hone.trans (ih (hone.role.trans hoff))

theorem tunerKept_tryPick (hm : n ≠ m) (k : Nat) (l : List Nat) : TunerKept n s (State.tryPick m k l s) := by
  induction k generalizing l with
  | zero => exact .refl n s
  | succ k ih =>
    simp only [State.tryPick]
    split
    · exact .refl n s
    · split
      · exact tunerKept_takePick hm (.refl n s) _ _
      · exact .refl n s
      · exact ih _

theorem tunerKept_tryPicks (h : TunerKept n s t) (hoff : s.role n = .off) : TunerKept n s t.tryPicks := by
  refine tunerKept_foldl _ (fun u m hu => ?_) h
  split
  · next hpick =>
    simp only [State.pickable, Bool.and_eq_true, decide_eq_true_eq] at hpick
    exact hu.trans (tunerKept_tryPick (ne_of_role (hu.role.trans hoff) hpick.1.1 nofun) _ _)
  · exact hu

/-! ## Winding down (R95) -/

/-- What a record stored for a tuner of role OFF leaves of it. -/
theorem offKept_putTuner (hwf : Tab.wf ({} : Tuner) s.tuners = true) (hrole : s.role n = .off) {r : Tuner}
    (hstate : r.state = .off ∨ r.state = .releasing) (hcommitted : (s.tuner n).committed = none → r.committed = none)
    (hcleared : Cleared (s.tuner n) → Cleared r) : OffKept n s (s.putTuner n r) := by
  have htuner := tuner_putTuner_same hwf n r
  refine ⟨⟨hrole, ?_⟩, ?_, ?_, id, fun hv => ⟨hv, rfl⟩⟩
  · rw [htuner]
    exact hstate
  · rw [htuner]
    exact hcommitted
  · rw [htuner]
    exact hcleared

theorem enterFree_of_role_off (hrole : s.role n = .off) :
    s.enterFree n = s.putTuner n { s.tuner n with state := .off, committed := none } := by
  simp only [State.enterFree, hrole]

theorem offKept_enterFree (hwf : Tab.wf ({} : Tuner) s.tuners = true) (hrole : s.role n = .off) :
    OffKept n s (s.enterFree n) := by
  rw [enterFree_of_role_off hrole]
  exact offKept_putTuner hwf hrole (.inl rfl) (fun _ => rfl) id

theorem windDown_keeps (m : Nat) {b : Bool} (h : (b || (s.tunerRec n).release.isSome) = true) :
    TunerKept m (s.putTuner n (windingTuner s n b)) (s.windDown n b) := by
  have hput := TunerKept.refl m (s.putTuner n (windingTuner s n b))
  have hwithdrawn := TunerKept.ite (b := b = true) (tunerKept_withdrawRun hput n .tune) hput
  have hasked := TunerKept.ite (b := (s.tunerRec n).release.isSome = true) (tunerKept_requestRun hwithdrawn n .release 0)
    hwithdrawn
  have heq : s.windDown n b = _ := if_pos h
  rw [heq]
  exact hasked

/-- A tuner of role OFF winds down: its record is cleared (R95). -/
theorem offKept_windDown (hwf : Tab.wf ({} : Tuner) s.tuners = true) (hrole : s.role n = .off) (b : Bool) :
    OffKept n s (s.windDown n b) ∧ Cleared ((s.windDown n b).tuner n) := by
  have hwf' := tab_wf_set ({} : Tuner) s.tuners n (windingTuner s n b) hwf
  have htuner := tuner_putTuner_same hwf n (windingTuner s n b)
  by_cases h : (b || (s.tunerRec n).release.isSome) = true
  · have hkept := windDown_keeps n h
    have hput := offKept_putTuner (r := windingTuner s n b) hwf hrole (.inr (if_pos h)) id (fun _ => ⟨rfl, rfl, rfl, rfl⟩)
    refine ⟨hput.trans (hput.isOff.kept hkept), ?_⟩
    rw [hkept.tuner, htuner]
    exact ⟨rfl, rfl, rfl, rfl⟩
  · have hone : s.windDown n b = (s.putTuner n (windingTuner s n b)).enterFree n := by
      simp only [Bool.or_eq_true, not_or, Bool.not_eq_true] at h
      simp only [State.windDown, windingTuner, h.1, h.2, Bool.or_self, Bool.false_eq_true, if_false]
    rw [hone, enterFree_of_role_off (s := s.putTuner n _) hrole, htuner, putTuner_putTuner hwf]
    refine ⟨offKept_putTuner hwf hrole (.inl rfl) (fun _ => rfl) (fun _ => ⟨rfl, rfl, rfl, rfl⟩), ?_⟩
    rw [tuner_putTuner_same hwf]
    exact ⟨rfl, rfl, rfl, rfl⟩

/-- The lane of a released tuner is IDLE, unless it was TUNING; its visit stands (R95). -/
theorem hostingEnded_keeps (s : State) (n : Nat) :
    TunerKept n (if (s.tuner n).state = .tuning then s else s.putFramer n {}) (hostingEnded s n) := by
  have hleft : TunerKept n (if (s.tuner n).state = .tuning then s else s.putFramer n {}) (leftLane s n) := by
    unfold leftLane
    split
    · exact .refl n s
    · exact tunerKept_qmEnd (t := (s.putFramer n {}).putTracker n {}) (TunerKept.refl n (s.putFramer n {})).same n
  rcases hostingEnded_cases s n with h | ⟨x, h⟩
  · rw [h]
    exact hleft
  · rw [h]
    exact tunerKept_post hleft _

theorem released_reads (hcan : s.Canonical) (n : Nat) (r : Role) : (released s n r).role n = r ∧
    (released s n r).visit n = s.visit n ∧ (released s n r).lastOutcome n = s.lastOutcome n ∧
    (released s n r).framer n = if (s.tuner n).state = .tuning then s.framer n else {} := by
  have hended := hostingEnded_keeps s n
  refine ⟨tab_get_set_same _ _ 0 _ _ (canonical_of_reach (reach_hostingEnded s n) hcan).roles, hended.visit.trans ?_,
    hended.lastOutcome.trans ?_, hended.framer.trans ?_⟩
  · split <;> rfl
  · split <;> rfl
  · split
    · rfl
    · exact framer_putFramer_same hcan.framers n {}

/-- A tuner released under role OFF: its record is cleared, and its lane is IDLE unless it was TUNING. -/
theorem offKept_release (hcan : s.Canonical) (n : Nat) : OffKept n s (s.release n .off) ∧
    Cleared ((s.release n .off).tuner n) ∧ ((s.tuner n).state ≠ .tuning → (s.release n .off).framer n = {}) := by
  obtain ⟨hrole, hvisit, hlast, hframer⟩ := released_reads hcan n .off
  obtain ⟨htuners, -, -⟩ := released_frame s n .off
  have htuner := tuner_congr htuners n
  obtain ⟨hkept, hcleared⟩ := offKept_windDown (s := released s n .off) (by rw [htuners]; exact hcan.tuners) hrole
    (decide ((s.tuner n).state = .tuning))
  rw [release_eq]
  refine ⟨⟨hkept.isOff, htuner ▸ hkept.committed, fun _ => hcleared, fun hf => hkept.framer ?_, fun hv => ?_⟩, hcleared,
    fun hs => hkept.framer ?_⟩
  · rw [hframer, hf, ite_self]
  · rw [← hlast]
    exact hkept.visit (hvisit.trans hv)
  · rw [hframer, if_neg hs]

/-! ## Hand-overs -/

theorem offKept_endWinding (hcan : s.Canonical) (hoff : IsOff n s) (hs : (s.tuner n).state = .releasing) (p : Purpose) :
    OffKept n s (s.endWinding n p) := by
  have hput : OffKept n s (s.putTuner n
      (if p = .tune then { s.tuner n with windTune := false } else { s.tuner n with windRelease := false })) := by
    refine offKept_putTuner hcan.tuners hoff.1 (.inr ?_) ?_ ?_
    · split <;> exact hs
    · split <;> exact id
    · split <;> exact id
  exact .ite hput (hput.trans (offKept_enterFree (tab_wf_set _ _ _ _ hcan.tuners) hput.isOff.1))

theorem offKept_tunerOutcome (hcan : s.Canonical) (hoff : IsOff n s) (m : Nat) (p o) : OffKept n s (s.tunerOutcome m p o) := by
  by_cases hm : n = m
  · subst hm
    have hnot : ¬((s.tuner n).state = .tuning ∧ p = .tune) := fun h => by
      rcases hoff.2 with hs | hs <;> rw [hs] at h <;> cases h.1
    by_cases hwinds : (s.tuner n).state = .releasing ∧
        ((p = .tune ∧ (s.tuner n).windTune = true) ∨ (p = .release ∧ (s.tuner n).windRelease = true))
    · have hends : s.tunerOutcome n p o = s.endWinding n p := if_pos hwinds
      rw [hends]
      exact offKept_endWinding hcan hoff hwinds.1 p
    · have hstays : s.tunerOutcome n p o = s := (if_neg hwinds).trans (if_neg hnot)
      rw [hstays]
      exact hoff.refl
  · exact hoff.kept (tunerKept_tunerOutcome hm (.refl n s) p o)

theorem offKept_endVisit (h : OffKept n s t) (hv : s.visit n ≠ none) (o) : OffKept n s (t.endVisit n o) := by
  unfold State.endVisit
  split
  · exact h
  · exact h.visiting hv

theorem offKept_schReport (hcan : s.Canonical) (hoff : IsOff n s) (r : Report) : OffKept n s (s.schReport r) := by
  by_cases hr : n = r.lane
  · subst hr
    unfold State.schReport
    split
    · exact hoff.refl
    · next v hvisit =>
      have hv : s.visit r.lane ≠ none := by rw [hvisit]; nofun
      split
      · have hcounted : OffKept r.lane s (s.putVisit r.lane (some { v with dwell := v.dwell - 1 })) := hoff.refl.visiting hv
        dsimp only
        split
        · have hclosed := hcounted.trans (hcounted.isOff.kept (tunerKept_closeCensus (.refl _ _) r.lane v.mux))
          have hcan' : (s.putVisit r.lane (some { v with dwell := v.dwell - 1 })).Canonical :=
            { hcan with visits := tab_wf_set _ _ _ _ hcan.visits }
          have hreleased := hclosed.trans (offKept_release
            (canonical_of_reach (reach_closeCensus (fl := false) (w := 1) .refl r.lane v.mux) hcan') r.lane).1
          unfold State.completeVisit
          rw [hcounted.isOff.1]
          exact (offKept_endVisit hreleased hv .complete).visiting hv
        · exact hcounted
      · exact hoff.refl
  · exact hoff.kept (tunerKept_schReport (.refl n s) hr)

theorem offKept_visitObserving (hoff : IsOff n s) (m : Nat) : OffKept n s (s.visitObserving m) := by
  by_cases hm : n = m
  · subst hm
    unfold State.visitObserving
    split
    · next v hvisit => exact hoff.refl.visiting (by rw [hvisit]; nofun)
    · exact hoff.refl
  · exact hoff.kept (tunerKept_visitObserving hm (.refl n s))

theorem offKept_visitFails (hoff : IsOff n s) (m x : Nat) (c : FailCause) : OffKept n s (s.visitFails m x c) := by
  by_cases hm : n = m
  · subst hm
    have hposted : TunerKept n s (s.post (.zeroWindow x (s.observableCopies x))) := tunerKept_post (.refl n s) _
    by_cases hv : s.visit n = none
    · have hended : (s.post (.zeroWindow x (s.observableCopies x))).endVisit n (failedOutcome c) =
          s.post (.zeroWindow x (s.observableCopies x)) := by
        have hnone : (s.post (.zeroWindow x (s.observableCopies x))).visit n = none := hv
        simp only [State.endVisit, hnone]
      unfold State.visitFails
      rw [hended]
      exact hoff.kept (tunerKept_post hposted _)
    · exact (offKept_endVisit (hoff.kept hposted) hv (failedOutcome c)).visiting hv
  · exact hoff.kept (tunerKept_visitFails hm (.refl n s) x c)

/-- No hand-over gives a tuner of role OFF work again. -/
theorem offKept_takeNotice (hcan : s.Canonical) (hoff : IsOff n s) (a : Notice) : OffKept n s (s.takeNotice a) := by
  have hrefl := TunerKept.refl n s
  have hrole := hoff.1
  cases a with
  | runDone m p o g =>
    show OffKept n s (if p = .measure then _ else _)
    split
    · exact hoff.kept (tunerKept_measureOutcome hrefl m o g)
    · exact offKept_tunerOutcome hcan hoff m p o
  | checkEnd b => exact hoff.kept (tunerKept_endFailing hrefl b)
  | hosted x => exact hoff.kept (tunerKept_tryPicks (tunerKept_dropUrgent (tunerKept_reHosted hrefl x) x) hrole)
  | hostFailed x c => exact hoff.kept (tunerKept_reHostFailed hrefl x)
  | unhosted x => exact hoff.kept (tunerKept_tryPicks (tunerKept_reUnhosted (tunerKept_oaUnhosted hrefl x) x) hrole)
  | observing m => exact offKept_visitObserving hoff m
  | visitFailed m x c => exact offKept_visitFails hoff m x c
  | scanFree m => exact hoff.kept (tunerKept_tryPicks hrefl hrole)
  | roleChanged => exact hoff.kept (tunerKept_tryPicks (tunerKept_pruneUrgent hrefl) hrole)
  | serveTry => exact hoff.kept (tunerKept_serve _ hrole)
  | pickTry => exact hoff.kept (tunerKept_tryPicks hrefl hrole)
  | report r b =>
    have hscored := hoff.kept (tunerKept_reReport hrefl r)
    show OffKept n s (if b then (s.reReport r).schReport r else s.reReport r)
    split
    · exact hscored.trans (offKept_schReport (canonical_of_reach (reach_reReport (fl := false) (w := 1) .refl r nofun) hcan)
        hscored.isOff r)
    · exact hscored
  | zeroWindow x l => exact hoff.kept (tunerKept_reZeroWindow hrefl x l)
  | visitEnd m x o => exact hoff.kept (tunerKept_leaveSweeps hrefl x)
  | dropped x => exact hoff.kept (tunerKept_leaveSweeps hrefl x)
  | cutDone v c => exact hoff.kept (tunerKept_reCutDone hrefl v c)
  | cutCancelled v => exact hoff.kept (tunerKept_reCutCancelled hrefl v)

theorem offKept_drain (k : Nat) : ∀ {s : State}, s.Canonical → IsOff n s → OffKept n s (State.drain k s) := by
  induction k with
  | zero => exact fun _ hoff => hoff.refl
  | succ k ih =>
    intro s hcan hoff
    simp only [State.drain]
    split
    · exact hoff.refl
    · next a rest _ =>
      have hcan' : (s.setNotices rest).Canonical := { hcan with }
      have htaken := (hoff.kept (t := s.setNotices rest) (TunerKept.refl n s).same).trans
        (offKept_takeNotice hcan' hoff a)
      exact htaken.trans (ih (canonical_of_reach (reach_takeNotice (fl := false) (w := 1) .refl a nofun) hcan') htaken.isOff)

end off

end Sys2Proof.Proofs
end

section
/-! SUPPORT. The proof of the obligation about SET_ROLE (R95, R104, R105, R120). -/

namespace Sys2Proof.Proofs
open Sys2Proof Sys2Proof.Machine Sys2Proof.Laws

set_option Elab.async false

/-! ## A tuner set OFF (Table 47) -/

/-- What the change of a tuner's role to OFF makes of it: `t` from `s` (Table 47). -/
structure SetOff (n : Nat) (s t : State) : Prop where
  isOff : IsOff n t
  committed : (s.tuner n).state = .releasing → (t.tuner n).committed = none
  cleared : (s.tuner n).state ≠ .releasing → Cleared (t.tuner n)
  framer : (s.tuner n).state = .acquiring ∨ (s.tuner n).state = .observing → t.framer n = {}
  visit : s.role n = .scan → s.visit n ≠ none → (s.tuner n).state ≠ .releasing → (s.tuner n).state ≠ .free →
    t.visit n = none ∧ t.lastOutcome n = some .aborted

section setOff
variable {n : Nat} {s t u : State}

/-- What a tuner set OFF has lost it does not gain again. -/
theorem SetOff.trans (h : SetOff n s t) (hk : OffKept n t u) : SetOff n s u := by
  refine ⟨hk.isOff, hk.committed ∘ h.committed, hk.cleared ∘ h.cleared, hk.framer ∘ h.framer,
    fun hrole hv hr hf => ?_⟩
  obtain ⟨hvisit, hlast⟩ := h.visit hrole hv hr hf
  obtain ⟨hvisit', hlast'⟩ := hk.visit hvisit
  exact ⟨hvisit', hlast'.trans hlast⟩

/-- A FREE tuner winds down at once under role OFF. -/
theorem setOff_of_free (hcan : s.Canonical) (hs : (s.tuner n).state = .free) :
    SetOff n s ((s.putRole n .off).windDown n false) := by
  have hrole : (s.putRole n .off).role n = .off := tab_get_set_same _ _ 0 _ _ hcan.roles
  obtain ⟨hkept, hcleared⟩ := offKept_windDown (s := s.putRole n .off) hcan.tuners hrole false
  refine ⟨hkept.isOff, fun h => ?_, fun _ => hcleared, fun h => ?_, fun _ _ _ h => absurd hs h⟩
  · rw [hs] at h
    cases h
  · rw [hs] at h
    rcases h with h | h <;> cases h

theorem tuner_clearCommitted (hwf : Tab.wf ({} : Tuner) s.tuners = true) (n : Nat) :
    (s.clearCommitted n).tuner n = { s.tuner n with committed := none } := by
  unfold State.clearCommitted
  split
  · next h =>
    rw [← h]
  · next x _ => exact tuner_putTuner_same (s := s.markRequest x false) hwf n _

theorem roles_clearCommitted (s : State) (n : Nat) : (s.clearCommitted n).roles = s.roles := by
  unfold State.clearCommitted
  split <;> rfl

/-- A RELEASING tuner goes on releasing, without a request committed to it. -/
theorem setOff_of_releasing (hcan : s.Canonical) (hs : (s.tuner n).state = .releasing) :
    SetOff n s ((s.clearCommitted n).putRole n .off) := by
  have hroles : Tab.wf Role.off (s.clearCommitted n).roles = true := by
    rw [roles_clearCommitted]
    exact hcan.roles
  have hrole : ((s.clearCommitted n).putRole n .off).role n = .off := tab_get_set_same _ _ 0 _ _ hroles
  have htuner : ((s.clearCommitted n).putRole n .off).tuner n = { s.tuner n with committed := none } :=
    tuner_clearCommitted hcan.tuners n
  refine ⟨⟨hrole, .inr ?_⟩, fun _ => ?_, fun h => absurd hs h, fun h => ?_, fun _ _ h => absurd hs h⟩
  · rw [htuner]
    exact hs
  · rw [htuner]
  · rw [hs] at h
    rcases h with h | h <;> cases h

/-- A visit that is stopped ends with its outcome, and the tuner stands (R120, R121). -/
theorem visitStopped_reads (hcan : s.Canonical) {v : Visit} (hv : s.visit n = some v) (o : VisitOutcome) :
    (s.visitStopped n o).visit n = none ∧ (s.visitStopped n o).lastOutcome n = some o := by
  have hended : s.endVisit n o = ((s.putLastOutcome n (some o)).putVisit n none).post (.visitEnd n v.mux o) := by
    simp only [State.endVisit, hv]
  rw [State.visitStopped, hended]
  exact ⟨tab_get_set_same _ _ 0 _ _ hcan.visits, tab_get_set_ne _ _ _ _ nofun⟩

/-- A tuner with a multiplex stops its visit, if it makes one, and is released. -/
theorem setOff_of_busy (hcan : s.Canonical) (hs : (s.tuner n).state ≠ .releasing) :
    SetOff n s (if s.role n = .scan then (s.visitStopped n .aborted).release n .off else s.release n .off) := by
  have setOff {u : State} (hu : u.Canonical) (htuner : u.tuner n = s.tuner n) (hvisit : s.role n = .scan →
      s.visit n ≠ none → u.visit n = none ∧ u.lastOutcome n = some .aborted) : SetOff n s (u.release n .off) := by
    obtain ⟨hkept, hcleared, hframer⟩ := offKept_release hu n
    refine ⟨hkept.isOff, fun h => absurd h hs, fun _ => hcleared, fun h => hframer ?_, fun hrole hv _ _ => ?_⟩
    · rw [htuner]
      rcases h with h | h <;> rw [h] <;> decide
    · obtain ⟨hnone, hlast⟩ := hvisit hrole hv
      obtain ⟨hnone', hlast'⟩ := hkept.visit hnone
      exact ⟨hnone', hlast'.trans hlast⟩
  split
  · refine setOff (canonical_of_reach (reach_visitStopped (fl := false) (w := 1) .refl n .aborted) hcan) ?_ (fun _ hv => ?_)
    · unfold State.visitStopped State.endVisit
      split <;> rfl
    · obtain ⟨v, hv⟩ := Option.ne_none_iff_exists'.mp hv
      exact visitStopped_reads hcan hv .aborted
  · next hnot => exact setOff hcan rfl (fun h => absurd h hnot)

theorem setOff_changeRole (hcan : s.Canonical) (hs : (s.tuner n).state ≠ .off) : SetOff n s (s.changeRole n .off) := by
  cases h : (s.tuner n).state with
  | off => exact absurd h hs
  | free =>
    have heq : s.changeRole n .off = (s.putRole n .off).windDown n false := by simp only [State.changeRole, h, if_true]
    exact heq ▸ setOff_of_free hcan h
  | releasing =>
    have heq : s.changeRole n .off = (s.clearCommitted n).putRole n .off := by simp only [State.changeRole, h]
    exact heq ▸ setOff_of_releasing hcan h
  | tuning | acquiring | observing =>
    have heq : s.changeRole n .off =
        if s.role n = .scan then (s.visitStopped n .aborted).release n .off else s.release n .off := by
      simp only [State.changeRole, h]
    exact heq ▸ setOff_of_busy hcan (by rw [h]; decide)

theorem setRole_of_changed {r : Role} (h : s.role n ≠ r) :
    s.setRole n r = ((s.changeRole n r).post .roleChanged).post .serveTry := if_neg h

theorem setOff_setRole (hcan : s.Canonical) (hrole : s.role n ≠ .off) (hs : (s.tuner n).state ≠ .off) :
    SetOff n s (s.setRole n .off) := by
  have hset := setOff_changeRole hcan hs
  rw [setRole_of_changed hrole]
  exact hset.trans (hset.isOff.kept (tunerKept_post (tunerKept_post (.refl _ _) _) _))

end setOff

/-! ## The rows that find nothing more to do -/

section rows
variable {n : Nat} {s v : State} {c : Cmd} {rest : List Cmd}

/-- No scan tuner that waits for a pick finds an eligible multiplex (R112, R113). -/
def NothingToPick (s : State) : Prop := ∀ t, t < 16 → s.pickable t = true → ∀ x, s.eligible t x = false

theorem ringPick_of_none {g : Ring} {ptr : Nat} {ok : Nat → Bool} (h : ∀ x, ok x = false) : s.ringPick g ptr ok = none := by
  simp [State.ringPick, h]

theorem pick_of_none_eligible (h : ∀ x, s.eligible n x = false) : s.pick n [] = none := by
  have hurgent : s.sched.urgent.find? (fun _ => false) = none := List.find?_eq_none.mpr (by simp)
  rw [pick_eq (ok := fun _ => false) (fun x => (h x).symm), hurgent, ringPick_of_none (fun _ => rfl),
    ringPick_of_none (fun _ => rfl)]
  simp

theorem tryPicks_of_nothing (h : NothingToPick s) : s.tryPicks = s := by
  refine foldl_of_fixed (fun t ht => ?_)
  split
  · next hpick => simp only [State.tryPick, pick_of_none_eligible (h t (List.mem_range.mp ht) hpick)]
  · rfl

theorem findsNothing_scanFree (h : NothingToPick s) (t : Nat) : FindsNothing s (.scanFree t) := fun rest =>
  tryPicks_of_nothing (s := s.setNotices rest) h

theorem findsNothing_roleChanged (hurgent : s.sched.urgent = []) (h : NothingToPick s) : FindsNothing s .roleChanged :=
  fun rest => by
    have hprune : (s.setNotices rest).pruneUrgent = s.setNotices rest := by
      simp only [State.pruneUrgent, State.setNotices_sched, hurgent, List.filter_nil, List.foldl_nil]
    show (s.setNotices rest).pruneUrgent.tryPicks = _
    rw [hprune]
    exact tryPicks_of_nothing (s := s.setNotices rest) h

/-- An accepted command whose hand-overs all find nothing to do leaves its own effect. -/
theorem exec_accepted_findsNothing (h : s.Ready c rest) {i : Instr} (ha : s.accepts c i) {act : State → State}
    (hc : commandOf i c (s.setInbound rest) = (s.setInbound rest).checked c (s.checksOf c i) act) {l : List Notice}
    (hact : act (s.setInbound rest) = v.setNotices l) (hl : ∀ a ∈ l, FindsNothing v a) (hlen : l.length ≤ 10)
    (hv : v.notices = []) (hsettled : v.settled = []) : exec i s = .next v := by
  rw [exec_accepted h ha hc, hact, drain_findsNothing hl (Nat.le_trans hlen (by decide)), setNotices_eq hv,
    setSettled_eq v hsettled]

theorem commandRole_eq (s : State) (c : Cmd) (rest : List Cmd) : commandOf .setRole c (s.setInbound rest) =
    (s.setInbound rest).checked c (s.checksOf c .setRole)
      (fun u => (u.setRole c.index (Role.ofCode (c.operand 0))).answer c .done 0 (.bytes [])) := rfl

/-- Where the other tuners stand and found nothing to pick, one tuner decides. -/
theorem nothingToPick_of_others (hpicks : s.NoPicks) (hothers : ∀ t, t ≠ n → TunerKept t s v)
    (hone : v.pickable n = true → ∀ x, v.eligible n x = false) : NothingToPick v := by
  intro t ht hpick
  by_cases htn : t = n
  · subst htn
    exact hone hpick
  · have hkept := hothers t htn
    have hsame : v.pickable t = s.pickable t := by
      rw [State.pickable, hkept.role, hkept.tuner, hkept.visit]
      rfl
    rw [hsame, hpicks t ht] at hpick
    cases hpick

/-- A change of role that makes `v` of the part, with no host request waiting, nothing to prune and nothing to pick, ends with
its reply (R105). -/
theorem exec_setRole_row (h : s.Ready c rest) (ha : s.accepts c .setRole) {r : Role} (hcode : Role.ofCode (c.operand 0) = r)
    (hne : s.role c.index ≠ r) {told : List Notice}
    (hchange : (s.setInbound rest).changeRole c.index r = v.setNotices told)
    (htold : ∀ a ∈ told, a = .serveTry ∨ ∃ t, a = .scanFree t) (hlen : told.length ≤ 1)
    (hqueue : v.hostQueue = []) (hurgent : v.sched.urgent = []) (hpicks : NothingToPick v) (hnotices : v.notices = [])
    (hsettled : v.settled = []) (hreplies : v.mgmt.replies = s.mgmt.replies) :
    exec .setRole s = .next (v.withReply (doneReply c (.bytes []))) := by
  let done := v.withReply (doneReply c (.bytes []))
  have hserve : FindsNothing done .serveTry := findsNothing_serveTry hqueue
  have hscan (t : Nat) : FindsNothing done (.scanFree t) := findsNothing_scanFree (s := done) hpicks t
  have hprune : FindsNothing done .roleChanged := findsNothing_roleChanged (s := done) hurgent hpicks
  refine exec_accepted_findsNothing (v := done) (l := told ++ [.roleChanged] ++ [.serveTry]) h ha (commandRole_eq s c rest)
    ?_ (fun a hmem => ?_) (by simp only [List.length_append, List.length_singleton]; omega) hnotices hsettled
  · show ((s.setInbound rest).setRole c.index _).answer c .done 0 (.bytes []) = _
    rw [hcode, setRole_of_changed (s := s.setInbound rest) hne, hchange]
    exact answer_room (((v.setNotices told).post .roleChanged).post .serveTry) _ _ _ _ (hreplies ▸ h.room)
  · simp only [List.append_assoc, List.mem_append, List.mem_singleton] at hmem
    rcases hmem with hmem | rfl | rfl
    · rcases htold a hmem with rfl | ⟨t, rfl⟩
      · exact hserve
      · exact hscan t
    · exact hprune
    · exact hserve

theorem role_putRole_same {r : Role} (hr : r ≠ .off) : (s.putRole n r).role n = r := tab_get_set_ne _ _ _ _ hr

theorem changeRole_off_to_live (hs : (s.tuner n).state = .off) (hcommitted : (s.tuner n).committed = none)
    (hnotices : s.notices = []) : s.changeRole n .live =
      ((s.putRole n .live).putTuner n { s.tuner n with state := .free }).setNotices [.serveTry] := by
  have henters : s.changeRole n .live = (s.putRole n .live).enterFree n := by simp only [State.changeRole, hs]
  rw [henters, enterFree_of_live (role_putRole_same (by decide)) hcommitted]
  exact post_of_none (by exact hnotices) _

theorem changeRole_free_to_scan (hcan : s.Canonical) (hs : (s.tuner n).state = .free)
    (hcommitted : (s.tuner n).committed = none) (hnotices : s.notices = []) :
    s.changeRole n .scan = (s.putRole n .scan).setNotices [.scanFree n] := by
  have henters : s.changeRole n .scan = (s.putRole n .scan).enterFree n := by
    simp only [State.changeRole, hs, reduceCtorEq, if_false]
  have hrecord : { s.tuner n with state := .free, committed := none } = s.tuner n := by
    rw [← hs, ← hcommitted]
  have hput : (s.putRole n .scan).putTuner n { s.tuner n with state := .free, committed := none } = s.putRole n .scan := by
    rw [hrecord]
    exact congrArg (s.putRole n .scan).setTuners (tab_set_get ({} : Tuner) hcan.tuners n)
  rw [henters, enterFree_of_scan (role_putRole_same (by decide))]
  exact (congrArg (State.post · (.scanFree n)) hput).trans (post_of_none (by exact hnotices) _)

theorem changeRole_of_releasing (hs : (s.tuner n).state = .releasing) (hcommitted : (s.tuner n).committed = none) (r : Role) :
    s.changeRole n r = s.putRole n r := by
  simp only [State.changeRole, State.clearCommitted, hs, hcommitted]

/-- An OFF tuner becomes LIVE and FREE (Table 47). -/
theorem exec_setRole_live (h : s.Ready c rest) (ha : s.accepts c .setRole) (hqueue : s.hostQueue = [])
    (hurgent : s.sched.urgent = []) (hpicks : s.NoPicks) (hcommitted : (s.tuner c.index).committed = none)
    (hop : c.operand 0 = 1) (hrole : s.role c.index = .off) (hs : (s.tuner c.index).state = .off) :
    exec .setRole s = .next ((((s.setInbound rest).putRole c.index .live).putTuner c.index
      { s.tuner c.index with state := .free }).withReply (doneReply c (.bytes []))) := by
  have hchange := changeRole_off_to_live (s := s.setInbound rest) hs hcommitted h.quiet.1
  refine exec_setRole_row h ha (by rw [hop]; rfl) ?_ hchange (fun a hmem => .inl (List.mem_singleton.mp hmem)) (Nat.le_refl 1)
    hqueue hurgent (nothingToPick_of_others (n := c.index) hpicks ?_ fun hpick => ?_) h.quiet.1 h.quiet.2.1 rfl
  · rw [hrole]
    nofun
  · exact fun t ht => tunerKept_putTuner (tunerKept_putRole (TunerKept.refl t s).same ht _) ht _
  · have hlive : (((s.setInbound rest).putRole c.index .live).putTuner c.index
        { s.tuner c.index with state := .free }).role c.index = .live :=
      role_putRole_same (s := s.setInbound rest) (by decide)
    rw [State.pickable, hlive] at hpick
    cases hpick

/-- A FREE tuner that reaches no defined multiplex becomes SCAN and FREE (Table 47). -/
theorem exec_setRole_scan (hcan : s.Canonical) (h : s.Ready c rest) (ha : s.accepts c .setRole) (hqueue : s.hostQueue = [])
    (hurgent : s.sched.urgent = []) (hpicks : s.NoPicks) (hcommitted : (s.tuner c.index).committed = none)
    (hop : c.operand 0 = 2) (hrole : s.role c.index = .live) (hs : (s.tuner c.index).state = .free)
    (hreach : ∀ x, (s.mux x).defined = true → s.reaches c.index (s.mux x).feed = false) :
    exec .setRole s = .next (((s.setInbound rest).putRole c.index .scan).withReply (doneReply c (.bytes []))) := by
  have hchange := changeRole_free_to_scan (s := s.setInbound rest) { hcan with } hs hcommitted h.quiet.1
  refine exec_setRole_row h ha (by rw [hop]; rfl) ?_ hchange (fun a hmem => .inr ⟨_, List.mem_singleton.mp hmem⟩)
    (Nat.le_refl 1) hqueue hurgent (nothingToPick_of_others (n := c.index) hpicks ?_ fun _ x => ?_) h.quiet.1 h.quiet.2.1 rfl
  · rw [hrole]
    nofun
  · exact fun t ht => tunerKept_putRole (TunerKept.refl t s).same ht _
  · show ((s.mux x).defined && s.reaches c.index (s.mux x).feed && _) = false
    cases hdefined : (s.mux x).defined with
    | false => rfl
    | true => rw [hreach x hdefined]; rfl

/-- A RELEASING tuner goes on releasing under its new role (Table 47). -/
theorem exec_setRole_releasing (h : s.Ready c rest) (ha : s.accepts c .setRole) (hqueue : s.hostQueue = [])
    (hurgent : s.sched.urgent = []) (hpicks : s.NoPicks) (hcommitted : (s.tuner c.index).committed = none)
    (hne : s.role c.index ≠ Role.ofCode (c.operand 0)) (hs : (s.tuner c.index).state = .releasing) :
    exec .setRole s = .next (((s.setInbound rest).putRole c.index (Role.ofCode (c.operand 0))).withReply
      (doneReply c (.bytes []))) := by
  have hchange := (changeRole_of_releasing (s := s.setInbound rest) hs hcommitted (Role.ofCode (c.operand 0))).trans
    (setNotices_eq (by exact h.quiet.1)).symm
  refine exec_setRole_row h ha rfl hne hchange nofun (Nat.zero_le 1) hqueue hurgent
    (nothingToPick_of_others (n := c.index) hpicks ?_ fun hpick => ?_) h.quiet.1 h.quiet.2.1 rfl
  · exact fun t ht => tunerKept_putRole (TunerKept.refl t s).same ht _
  · have hfree : (s.tuner c.index).state = .free := by
      simp only [State.pickable, Bool.and_eq_true, decide_eq_true_eq] at hpick
      exact hpick.1.2
    rw [hs] at hfree
    cases hfree

/-- An accepted SET_ROLE to OFF takes the tuner's role and its work from it, and no hand-over gives them back. -/
theorem setOff_exec_setRole (hcan : s.Canonical) (hrole : s.role c.index ≠ .off) (hs : (s.tuner c.index).state ≠ .off)
    (r : Reply) : SetOff c.index (s.setInbound rest)
      ((State.drain Config.handOverFuel (((s.setInbound rest).setRole c.index .off).withReply r)).setSettled []) := by
  have hu : (s.setInbound rest).Canonical := { hcan with }
  have hoff := setOff_setRole hu hrole hs
  have hcan' : (((s.setInbound rest).setRole c.index .off).withReply r).Canonical :=
    { canonical_of_reach (reach_setRole (fl := false) (w := 1) .refl c.index .off) hu with }
  have hreplied := hoff.isOff.kept (t := ((s.setInbound rest).setRole c.index .off).withReply r) (TunerKept.refl _ _).same
  have hdrained := hreplied.trans (offKept_drain Config.handOverFuel hcan' hreplied.isOff)
  exact hoff.trans (hdrained.trans (hdrained.isOff.kept (TunerKept.refl _ _).same))

/-- To the role that the tuner has, SET_ROLE only replies (R105). -/
theorem exec_setRole_same (h : s.Ready c rest) (ha : s.accepts c .setRole)
    (hsame : s.role c.index = Role.ofCode (c.operand 0)) :
    exec .setRole s = .next ((s.setInbound rest).withReply (doneReply c (.bytes []))) := by
  have hstays : (s.setInbound rest).setRole c.index (Role.ofCode (c.operand 0)) = s.setInbound rest := if_pos hsame
  refine exec_accepted_quiet h ha (commandRole_eq s c rest) ?_ h.quiet.1 h.quiet.2.1
  rw [hstays]
  exact answer_setInbound h _ _ _

end rows

/-- Settles O18: the frame from the chain of updates, the tuner set OFF through its hand-overs, and the rows of Table 47. -/
theorem setRoleChangesRole : Obligations.SetRoleChangesRole := by
  intro s c rest hcan h ha
  refine ⟨?_, exec_setRole_same h ha, fun hqueue hurgent hpicks hcommitted =>
    ⟨exec_setRole_live h ha hqueue hurgent hpicks hcommitted, exec_setRole_scan hcan h ha hqueue hurgent hpicks hcommitted,
      exec_setRole_releasing h ha hqueue hurgent hpicks hcommitted⟩⟩
  obtain ⟨t, hexec, ht, htables, hreplies, hinbound, hframe⟩ := exec_stored h ha
    (store := fun u => u.setRole c.index (Role.ofCode (c.operand 0))) (clamped := false) (entry := [])
    (commandRole_eq s c rest) (T := s.tables) rfl (reach_setRole .refl _ _)
  refine ⟨t, hexec, hinbound, htables, hframe, hreplies, fun hop hrole hs => ?_⟩
  have hcode : Role.ofCode (c.operand 0) = .off := by rw [hop]; rfl
  rw [hcode] at ht
  obtain ⟨⟨hoff, hstate⟩, hcommitted, hcleared, hframer, hvisit⟩ := ht ▸ setOff_exec_setRole hcan hrole hs _
  exact ⟨hoff, hstate, hcommitted, hcleared, hframer, hvisit⟩

end Sys2Proof.Proofs
end

section
/-! SUPPORT. The proof of the obligation about URGENT (R109, R113). -/

namespace Sys2Proof.Proofs
open Sys2Proof Sys2Proof.Machine Sys2Proof.Laws

set_option Elab.async false

/-! ## The cases of Table 52 -/

section answer
variable {s : State} {x : Nat}

theorem urgentAnswer_of_undefined (hdef : (s.mux x).defined = false) : s.urgentAnswer x = (.unknown, false) := by
  simp [State.urgentAnswer, hdef]

theorem urgentAnswer_of_hosted (hdef : (s.mux x).defined = true) (hhost : s.hosted x = true) :
    s.urgentAnswer x = (.inUse, false) := by
  simp [State.urgentAnswer, hdef, hhost]

section unhosted
variable (hdef : (s.mux x).defined = true) (hhost : s.hosted x = false)
include hdef hhost

theorem urgentAnswer_of_listed (hlist : x ∈ s.sched.urgent) : s.urgentAnswer x = (.done, false) := by
  simp [State.urgentAnswer, hdef, hhost, hlist]

theorem urgentAnswer_of_unreached (hlist : x ∉ s.sched.urgent) (hreach : s.roleReaches .scan x = false) :
    s.urgentAnswer x = (.unreachable, false) := by
  simp [State.urgentAnswer, hdef, hhost, hlist, hreach]

theorem urgentAnswer_of_full (hlist : x ∉ s.sched.urgent) (hreach : s.roleReaches .scan x = true)
    (hfull : 8 ≤ s.sched.urgent.length) : s.urgentAnswer x = (.full, false) := by
  simp [State.urgentAnswer, hdef, hhost, hlist, hreach, Config.urgentCap, hfull]

theorem urgentAnswer_of_room (hlist : x ∉ s.sched.urgent) (hreach : s.roleReaches .scan x = true)
    (hroom : s.sched.urgent.length < 8) : s.urgentAnswer x = (.done, true) := by
  simp [State.urgentAnswer, hdef, hhost, hlist, hreach, Config.urgentCap, Nat.not_le_of_lt hroom]

end unhosted

/-- The list stands where the multiplex does not join it, and no try of picks is handed on. -/
theorem joinUrgent_of_stays {o : ReplyOutcome} (h : s.urgentAnswer x = (o, false)) : s.joinUrgent x = s := by
  simp only [State.joinUrgent, h, Bool.false_eq_true, if_false]

theorem joinUrgent_of_joins {o : ReplyOutcome} (h : s.urgentAnswer x = (o, true)) :
    s.joinUrgent x = (s.setUrgent (s.sched.urgent ++ [x])).post .pickTry := by
  simp only [State.joinUrgent, h, if_true]

end answer

/-! ## The command -/

section command
variable {s : State} {c : Cmd} {rest : List Cmd}

theorem commandUrgent_eq (s : State) (c : Cmd) (rest : List Cmd) : commandOf .urgent c (s.setInbound rest) =
    (s.setInbound rest).checked c (s.checksOf c .urgent)
      (fun u => (u.joinUrgent c.index).answer c (u.urgentAnswer c.index).1 0 (.bytes [])) := rfl

/-- Table 52 does not read the inbound queue. -/
theorem urgentAnswer_setInbound (s : State) (rest : List Cmd) (x : Nat) :
    (s.setInbound rest).urgentAnswer x = s.urgentAnswer x := rfl

/-- With no tuner to pick for, a try of picks finds nothing to do (R113). -/
theorem findsNothing_pickTry (h : s.NoPicks) : FindsNothing s .pickTry := fun rest =>
  tryPicks_of_noPicks (s := s.setNotices rest) h

theorem exec_urgent_stays (h : s.Ready c rest) (ha : s.accepts c .urgent) {o : ReplyOutcome}
    (hanswer : s.urgentAnswer c.index = (o, false)) : exec .urgent s = .next ((s.setInbound rest).withReply
      { tag := c.tag, kind := c.kind, outcome := o, detail := 0, data := .bytes [] }) := by
  refine exec_accepted_quiet h ha (commandUrgent_eq s c rest) ?_ h.quiet.1 h.quiet.2.1
  rw [joinUrgent_of_stays (s := s.setInbound rest) hanswer, urgentAnswer_setInbound, hanswer]
  exact answer_setInbound h _ _ _

/-- The multiplex joins the tail, and the try of picks that follows finds no tuner. -/
theorem exec_urgent_joins (h : s.Ready c rest) (ha : s.accepts c .urgent) (hpicks : s.NoPicks)
    (hanswer : s.urgentAnswer c.index = (.done, true)) : exec .urgent s =
      .next (((s.setInbound rest).setUrgent (s.sched.urgent ++ [c.index])).withReply (doneReply c (.bytes []))) := by
  let joined := (s.setInbound rest).setUrgent (s.sched.urgent ++ [c.index])
  let done := joined.withReply (doneReply c (.bytes []))
  have htry : FindsNothing done .pickTry := findsNothing_pickTry (s := done) hpicks
  refine exec_accepted_findsNothing (v := done) (l := [.pickTry]) h ha (commandUrgent_eq s c rest) ?_
    (fun a hmem => List.mem_singleton.mp hmem ▸ htry) (by decide) h.quiet.1 h.quiet.2.1
  rw [joinUrgent_of_joins (s := s.setInbound rest) hanswer, urgentAnswer_setInbound, hanswer]
  show (joined.post .pickTry).answer c .done 0 (.bytes []) = _
  rw [post_of_none (s := joined) h.quiet.1]
  exact answer_room (joined.setNotices [.pickTry]) _ _ _ _ h.room

end command

/-- Settles O19: each case of Table 52 gives its answer, and only the last one joins the list. -/
theorem urgentJoinsList : Obligations.UrgentJoinsList := by
  intro s c rest h ha
  refine ⟨fun o hcase => exec_urgent_stays h ha ?_, fun hdef hhost hlist hreach hroom hpicks =>
    exec_urgent_joins h ha hpicks (urgentAnswer_of_room hdef hhost hlist hreach hroom)⟩
  rcases hcase with ⟨hdef, rfl⟩ | ⟨hdef, hhost, rfl⟩ | ⟨hdef, hhost, ⟨hlist, rfl⟩ | ⟨hlist, hrest⟩⟩
  · exact urgentAnswer_of_undefined hdef
  · exact urgentAnswer_of_hosted hdef hhost
  · exact urgentAnswer_of_listed hdef hhost hlist
  · rcases hrest with ⟨hreach, rfl⟩ | ⟨hreach, hfull, rfl⟩
    · exact urgentAnswer_of_unreached hdef hhost hlist hreach
    · exact urgentAnswer_of_full hdef hhost hlist hreach hfull

end Sys2Proof.Proofs
end

section
/-! SUPPORT. The proofs of the obligations about the window score (R124, R125) and the reception score (R126). -/

namespace Sys2Proof.Proofs
open Sys2Proof Sys2Proof.Machine Sys2Proof.Laws

set_option Elab.async false

/-! ## The window score (R124, R125) -/

section window
variable {i : ScoreInput}

/-- A required component without a packet, by its place in the two lists. -/
theorem missingRequired_iff {required : List Bool} {counts : List Nat} : missingRequired required counts = true ↔
    ∃ j, required.getD j false = true ∧ j < counts.length ∧ counts.getD j 0 = 0 := by
  unfold missingRequired
  induction required generalizing counts with
  | nil => simp
  | cons b required ih =>
    cases counts with
    | nil => simp
    | cons n counts =>
      rw [List.zip_cons_cons, List.any_cons, Bool.or_eq_true, ih]
      constructor
      · rintro (hhead | ⟨j, hj⟩)
        · exact ⟨0, by simpa using hhead⟩
        · exact ⟨j + 1, by simpa using hj⟩
      · rintro ⟨_ | j, hj⟩
        · exact .inl (by simpa using hj)
        · exact .inr ⟨j, by simpa using hj⟩

theorem score_of_no_packets (h : i.p = 0) : i.score = 0 := if_pos h

theorem score_of_vetoed (h : i.vetoed = true) : i.score = 0 := by
  simp only [ScoreInput.score, h, if_true, ite_self]

theorem score_of_not_vetoed (hp : 0 < i.p) (h : i.vetoed = false) : i.score = i.v4 := by
  simp only [ScoreInput.score, if_neg (Nat.pos_iff_ne_zero.mp hp), h, Bool.false_eq_true, if_false]

end window

/-- Settles O53: without a packet and under a veto the score is 0, else it is what stages 1 to 5 leave. -/
theorem windowScoreStages : Obligations.WindowScoreStages := by
  intro i
  refine ⟨score_of_no_packets, fun hmismatch => ?mismatch, fun hmissing => ?missing, fun hp hmismatch hcounts => ?stages⟩
  case mismatch => exact score_of_vetoed (by rw [ScoreInput.vetoed, hmismatch, Bool.true_or])
  case missing => exact score_of_vetoed (by rw [ScoreInput.vetoed, missingRequired_iff.mpr hmissing, Bool.or_true])
  case stages =>
    have hnone : missingRequired i.required i.counts = false := by
      rw [Bool.eq_false_iff]
      intro hmissing
      obtain ⟨j, hrequired, hj, hzero⟩ := missingRequired_iff.mp hmissing
      exact hcounts j hj hrequired hzero
    exact score_of_not_vetoed hp (by rw [ScoreInput.vetoed, hmismatch, hnone, Bool.or_false])

/-! ## The reception score (R126) -/

section smoothing
variable {n q w : Nat}

/-- A difference of 0 moves nothing: it rounds up to 0. -/
theorem smooth_same : smooth n (some w) w = w := by
  have hstays := ceilDiv_le_self (w - w) (2 ^ n) (Nat.two_pow_pos n)
  rw [smooth, if_neg (Nat.lt_irrefl w)]
  omega

theorem smooth_of_below (h : q < w) : smooth n (some q) w = q + ceilDiv (w - q) (2 ^ n) := if_pos h

theorem smooth_of_above (h : w < q) : smooth n (some q) w = q - ceilDiv (q - w) (2 ^ n) :=
  if_neg (Nat.not_lt.mpr (Nat.le_of_lt h))

/-- A division rounded up of what is not 0 is not 0. -/
theorem ceilDiv_pos {a b : Nat} (ha : 0 < a) (hb : 0 < b) : 0 < ceilDiv a b := Nat.div_pos (by omega) hb

/-- An observation takes the score toward the window score and not past it. -/
theorem smooth_rises (h : q < w) : q < smooth n (some q) w ∧ smooth n (some q) w ≤ w := by
  have hpow : 0 < 2 ^ n := Nat.two_pow_pos n
  have hle := ceilDiv_le_self (w - q) (2 ^ n) hpow
  have hpos := ceilDiv_pos (a := w - q) (by omega) hpow
  rw [smooth_of_below h]
  omega

theorem smooth_falls (h : w < q) : w ≤ smooth n (some q) w ∧ smooth n (some q) w < q := by
  have hpow : 0 < 2 ^ n := Nat.two_pow_pos n
  have hle := ceilDiv_le_self (q - w) (2 ^ n) hpow
  have hpos := ceilDiv_pos (a := q - w) (by omega) hpow
  rw [smooth_of_above h]
  omega

/-- A recursion that does not look at its count may make its first move at the start. -/
theorem rec_succ_eq (f : Nat → Nat) (q k : Nat) :
    (Nat.rec q (fun _ x => f x) (k + 1) : Nat) = Nat.rec (f q) (fun _ x => f x) k := by
  induction k with
  | zero => rfl
  | succ k ih => exact congrArg f ih

/-- Observations with one window score, each of which brings the score strictly nearer to it, reach it. -/
theorem smooth_reaches (n w q : Nat) : ∃ k, Nat.rec q (fun _ x => smooth n (some x) w) k = w := by
  by_cases hq : q = w
  · exact ⟨0, hq⟩
  · have hnearer : (smooth n (some q) w - w) + (w - smooth n (some q) w) < (q - w) + (w - q) := by
      rcases Nat.lt_or_gt_of_ne hq with h | h
      · have hrises := smooth_rises (n := n) h
        omega
      · have hfalls := smooth_falls (n := n) h
        omega
    obtain ⟨k, hk⟩ := smooth_reaches n w (smooth n (some q) w)
    exact ⟨k + 1, (rec_succ_eq (fun x => smooth n (some x) w) q k).trans hk⟩
termination_by (q - w) + (w - q)

end smoothing

/-- Settles O52: an observation brings the score strictly nearer to the window score, and not past it. -/
theorem smoothingMovesTowardScore : Obligations.SmoothingMovesTowardScore := by
  refine ⟨score_le, fun n w _ hw => ⟨fun l now => ⟨rfl, rfl⟩, rfl, fun q hq => ?_⟩⟩
  exact ⟨fun h => h ▸ smooth_same, smooth_of_below, smooth_of_above, smooth_rises, smooth_falls,
    smooth_le n (some q) w (fun y hy => Option.some.inj hy ▸ hq) hw, smooth_reaches n w q⟩

end Sys2Proof.Proofs
end

section
/-! SUPPORT. The proof of the obligation about a second of the rank clock (R130, R131, R135, R137, R138, R140). -/

namespace Sys2Proof.Proofs
open Sys2Proof Sys2Proof.Machine Sys2Proof.Laws

set_option Elab.async false

/-! ## The live fields of a copy (R130, R131) -/

section live
variable {l : Live} {now limit q o u : Nat}

theorem judgeStale_of_observed (hq : l.q = some q) (ho : l.observedAt = some o) :
    l.judgeStale now limit = { l with stale := decide (limit < now - o) } := by
  simp only [Live.judgeStale, hq, ho]

theorem judgeStale_of_unobserved (h : ∀ q o, l.q = some q → l.observedAt ≠ some o) : l.judgeStale now limit = l := by
  unfold Live.judgeStale
  split
  · next hq ho => exact absurd ho (h _ _ hq)
  · rfl

theorem liftBar_of_unbarred (h : l.barredUntil = none) : l.liftBar now = l := by simp only [Live.liftBar, h]

theorem liftBar_of_due (h : l.barredUntil = some u) (hu : u ≤ now) : l.liftBar now = { l with barredUntil := none } := by
  simp only [Live.liftBar, h, if_pos hu]

theorem liftBar_of_later (h : l.barredUntil = some u) (hu : now < u) : l.liftBar now = l := by
  simp only [Live.liftBar, h, if_neg (Nat.not_le.mpr hu)]

theorem liftBar_of_none_due (h : ∀ u, l.barredUntil = some u → now < u) : l.liftBar now = l := by
  cases hb : l.barredUntil with
  | none => exact liftBar_of_unbarred hb
  | some u => exact liftBar_of_later hb (h u hb)

/-- The mark judged, as one expression of the fields (R131). -/
theorem judgeStale_eq (l : Live) (now limit : Nat) : l.judgeStale now limit = { l with
    stale := match l.q, l.observedAt with
      | some _, some o => decide (limit < now - o)
      | _, _ => l.stale } := by
  obtain ⟨q, w, zeros, observedAt, barredUntil, stale⟩ := l
  cases q with
  | none => rfl
  | some q => cases observedAt <;> rfl

/-- The bar lifted when it is due, as one expression of the fields (R130). -/
theorem liftBar_eq (l : Live) (now : Nat) : l.liftBar now = { l with
    barredUntil := match l.barredUntil with
      | some u => if u ≤ now then none else some u
      | none => none } := by
  obtain ⟨q, w, zeros, observedAt, barredUntil, stale⟩ := l
  cases barredUntil with
  | none => rfl
  | some u =>
    simp only [Live.liftBar]
    split <;> rfl

end live

/-! ## The judgement of the copies -/

/-- The live fields of a copy after a second: the stale mark judged, the bar lifted when it is due (R130, R131). -/
def secondLive (s : State) (i : Nat) : Live :=
  ((s.live i).judgeStale s.clock.secs (s.service (i / 4)).staleLimit).liftBar s.clock.secs

/-- The state with every copy judged, and the services whose copies changed. -/
def judgedCopies (s : State) : State × List Nat := (s.lives.map (·.1)).foldl State.secondOne (s, [])

theorem reSecond_eq (s : State) :
    s.reSecond = (judgedCopies s).2.foldl (fun t v => t.evaluate v .other) (judgedCopies s).1 := rfl

section judged
variable {s : State} {a : State × List Nat} {i k : Nat} {ks : List Nat}

theorem secondOne_fst (a : State × List Nat) (i : Nat) :
    (State.secondOne a i).1 = a.1.putLive i (secondLive a.1 i) := rfl

theorem secondOne_snd (a : State × List Nat) (i : Nat) : (State.secondOne a i).2 =
    if (secondLive a.1 i).stale = (a.1.live i).stale ∧ (secondLive a.1 i).barredUntil = (a.1.live i).barredUntil then a.2
    else addNew a.2 (i / 4) := rfl

theorem secondLive_putLive_other (h : i ≠ k) (l : Live) : secondLive (s.putLive k l) i = secondLive s i := by
  have hlive : (s.putLive k l).live i = s.live i := tab_get_set_other _ _ _ _ _ h
  rw [secondLive, hlive]
  rfl

/-- A copy whose fields stand changes nothing, and its service is not evaluated for it. -/
theorem secondOne_of_unchanged (hwf : Tab.wf ({} : Live) a.1.lives = true) (h : secondLive a.1 i = a.1.live i) :
    State.secondOne a i = a := by
  refine Prod.ext ?_ ?_
  · rw [secondOne_fst, h]
    exact congrArg a.1.setLives (tab_set_get ({} : Live) hwf i)
  · rw [secondOne_snd, h, if_pos ⟨rfl, rfl⟩]

/-- `r` is `a` with the live fields of the copies in `ks` judged, and joined by the services of those that lost their bar. -/
structure Judged (a : State × List Nat) (ks : List Nat) (r : State × List Nat) : Prop where
  eq : r.1 = { a.1 with lives := r.1.lives }
  wf : Tab.wf ({} : Live) r.1.lives = true
  inside : ∀ i ∈ ks, r.1.live i = secondLive a.1 i
  outside : ∀ i, i ∉ ks → r.1.live i = a.1.live i
  stays : ∀ v ∈ a.2, v ∈ r.2
  joins : ∀ i ∈ ks, (secondLive a.1 i).barredUntil ≠ (a.1.live i).barredUntil → i / 4 ∈ r.2

theorem mem_addNew {l : List Nat} {x y : Nat} : y ∈ addNew l x ↔ y ∈ l ∨ y = x := by
  unfold addNew
  split
  · next h => exact ⟨.inl, fun h' => h'.elim id (fun e => e ▸ List.contains_iff_mem.mp h)⟩
  · simp

theorem judged_foldl (hwf : Tab.wf ({} : Live) a.1.lives = true) (hks : ks.Nodup) :
    Judged a ks (ks.foldl State.secondOne a) := by
  induction ks generalizing a with
  | nil => exact ⟨rfl, hwf, nofun, fun _ _ => rfl, fun _ h => h, nofun⟩
  | cons k ks ih =>
    obtain ⟨hk, hks⟩ := List.nodup_cons.mp hks
    let b := State.secondOne a k
    have hlive (i : Nat) (h : i ≠ k) : b.1.live i = a.1.live i := tab_get_set_other _ _ _ _ _ h
    have hsecond (i : Nat) (h : i ≠ k) : secondLive b.1 i = secondLive a.1 i := secondLive_putLive_other h _
    have hsame : b.1.live k = secondLive a.1 k := tab_get_set_same _ _ 0 _ _ hwf
    have hstays : ∀ v ∈ a.2, v ∈ b.2 := by
      intro v hv
      rw [secondOne_snd]
      split
      · exact hv
      · exact mem_addNew.mpr (.inl hv)
    obtain ⟨eq, wf, inside, outside, stays, joins⟩ := ih (a := b) (tab_wf_set _ _ _ _ hwf) hks
    have hne (i : Nat) (hi : i ∈ ks) : i ≠ k := fun e => hk (e ▸ hi)
    refine ⟨eq, wf, fun i hi => ?_, fun i hi => ?_, fun v hv => stays v (hstays v hv), fun i hi hbar => ?_⟩
    · rcases List.mem_cons.mp hi with rfl | hi
      · exact (outside i hk).trans hsame
      · exact (inside i hi).trans (hsecond i (hne i hi))
    · exact (outside i (List.not_mem_of_not_mem_cons hi)).trans (hlive i (List.ne_of_not_mem_cons hi))
    · rcases List.mem_cons.mp hi with rfl | hi
      · refine stays _ ?_
        rw [secondOne_snd, if_neg (fun hboth => hbar hboth.2)]
        exact mem_addNew.mpr (.inr rfl)
      · exact joins i hi (by rw [hsecond i (hne i hi), hlive i (hne i hi)]; exact hbar)

/-- The indices of a canonical table are all different. -/
theorem nodup_indices {α : Type} [DecidableEq α] {d : α} {t : Tab α} {lo : Nat} (h : Tab.wfFrom d lo t = true) :
    (t.map (·.1)).Nodup ∧ ∀ i ∈ t.map (·.1), lo ≤ i := by
  induction t generalizing lo with
  | nil => exact ⟨List.nodup_nil, nofun⟩
  | cons e t ih =>
    obtain ⟨k, w⟩ := e
    simp only [Tab.wfFrom, Bool.and_eq_true, decide_eq_true_eq] at h
    obtain ⟨⟨hlo, -⟩, ht⟩ := h
    obtain ⟨hnodup, habove⟩ := ih ht
    refine ⟨List.nodup_cons.mpr ⟨fun hk => Nat.not_succ_le_self k (habove k hk), hnodup⟩, fun i hi => ?_⟩
    rcases List.mem_cons.mp hi with rfl | hi
    · exact hlo
    · exact Nat.le_trans (Nat.le_succ_of_le hlo) (habove i hi)

/-- A copy whose bar is not due, if it has one, and whose mark agrees with its age stays as it is. -/
theorem secondLive_of_unchanged (hbar : ∀ u, (s.live i).barredUntil = some u → s.clock.secs < u)
    (hmark : ∀ q o, (s.live i).q = some q → (s.live i).observedAt = some o →
      (s.live i).stale = decide ((s.service (i / 4)).staleLimit < s.clock.secs - o)) : secondLive s i = s.live i := by
  have hjudge : (s.live i).judgeStale s.clock.secs (s.service (i / 4)).staleLimit = s.live i := by
    by_cases h : ∃ q o, (s.live i).q = some q ∧ (s.live i).observedAt = some o
    · obtain ⟨q, o, hq, ho⟩ := h
      rw [judgeStale_of_observed hq ho, ← hmark q o hq ho]
    · exact judgeStale_of_unobserved (fun q o hq ho => h ⟨q, o, hq, ho⟩)
  rw [secondLive, hjudge]
  exact liftBar_of_none_due hbar

/-- A copy whose bar is due and that is within the stale limit stands without a bar and without a mark. -/
theorem secondLive_of_due {q o u : Nat} (hq : (s.live i).q = some q) (ho : (s.live i).observedAt = some o)
    (hbar : (s.live i).barredUntil = some u) (hdue : u ≤ s.clock.secs)
    (hfresh : s.clock.secs - o ≤ (s.service (i / 4)).staleLimit) :
    secondLive s i = { s.live i with barredUntil := none, stale := false } := by
  rw [secondLive, judgeStale_of_observed hq ho, decide_eq_false (Nat.not_lt.mpr hfresh)]
  exact liftBar_of_due hbar hdue

/-- A copy that is not listed reads as the default, which a second leaves as it is. -/
theorem secondLive_of_unlisted (h : i ∉ s.lives.map (·.1)) : secondLive s i = s.live i := by
  have hdefault : s.live i = {} := by
    refine Decidable.byContradiction (fun hne => ?_)
    obtain ⟨e, he, rfl⟩ := exists_entry_of_get_ne hne
    exact h (List.mem_map_of_mem he)
  rw [secondLive, hdefault]
  rfl

theorem judged_judgedCopies (hcan : s.Canonical) : Judged (s, []) (s.lives.map (·.1)) (judgedCopies s) :=
  judged_foldl hcan.lives (nodup_indices hcan.lives).1

theorem judgedCopies_eq (hcan : s.Canonical) : (judgedCopies s).1 = { s with lives := (judgedCopies s).1.lives } :=
  (judged_judgedCopies hcan).eq

theorem live_judgedCopies (hcan : s.Canonical) (i : Nat) : (judgedCopies s).1.live i = secondLive s i := by
  have h := judged_judgedCopies hcan
  by_cases hi : i ∈ s.lives.map (·.1)
  · exact h.inside i hi
  · exact (h.outside i hi).trans (secondLive_of_unlisted hi).symm

theorem mem_judgedCopies (hcan : s.Canonical) (h : (secondLive s i).barredUntil ≠ (s.live i).barredUntil) :
    i / 4 ∈ (judgedCopies s).2 := by
  refine (judged_judgedCopies hcan).joins i (Decidable.byContradiction (fun hi => h ?_)) h
  rw [secondLive_of_unlisted hi]

theorem nodup_judgedCopies (s : State) : (judgedCopies s).2.Nodup := by
  refine foldl_keeps (fun a : State × List Nat => a.2.Nodup) _ (fun a i ha => ?_) _ (s, []) List.nodup_nil
  rw [secondOne_snd]
  split
  · exact ha
  · exact addNew_nodup _ _ ha

theorem canonical_judgedCopies (hcan : s.Canonical) : (judgedCopies s).1.Canonical := by
  have h := judged_judgedCopies hcan
  rw [h.eq]
  exact { hcan with lives := h.wf }

/-- While no service is enabled a second is the judgement of the copies alone. -/
theorem reSecond_of_disabled (hcan : s.Canonical) (hoff : ∀ v, (s.service v).enabled = false) :
    s.reSecond = (judgedCopies s).1 := by
  rw [reSecond_eq]
  refine foldl_of_fixed (fun v _ => evaluate_of_disabled ?_ .other)
  rw [judgedCopies_eq hcan]
  exact hoff v

/-- A second that changes no copy does nothing. -/
theorem reSecond_of_unchanged (hcan : s.Canonical) (h : ∀ i, secondLive s i = s.live i) : s.reSecond = s := by
  have hnone : judgedCopies s = (s, []) :=
    foldl_of_fixed (fun i _ => secondOne_of_unchanged (a := (s, [])) hcan.lives (h i))
  rw [reSecond_eq, hnone]
  rfl

/-- A second that lifts the bar of a copy of the one enabled service evaluates that service, and does no more if a cut comes
of it. -/
theorem reSecond_of_lifted {v : Nat} (hcan : s.Canonical) (hone : ∀ w, (s.service w).enabled = true ↔ w = v)
    (hi : i / 4 = v) (hbar : (secondLive s i).barredUntil ≠ (s.live i).barredUntil) :
    s.reSecond = (judgedCopies s).1.evaluate v .other := by
  have hservice (w : Nat) : (judgedCopies s).1.service w = s.service w := by rw [judgedCopies_eq hcan]; rfl
  have htables : ((judgedCopies s).1.evaluate v .other).tables = (judgedCopies s).1.tables :=
    (handOverFrame_of_reach (reach_evaluate (fl := false) (w := 1) .refl v .other) (Nat.le_refl 1)).tables
  have hothers (w : Nat) (hw : w ≠ v) : (s.service w).enabled = false :=
    Bool.eq_false_iff.mpr (fun he => hw ((hone w).mp he))
  rw [reSecond_eq]
  refine foldl_of_one (nodup_judgedCopies s) (hi ▸ mem_judgedCopies hcan hbar)
    (fun w _ hw => evaluate_of_disabled ?_ .other) rfl (fun w _ hw => evaluate_of_disabled ?_ .other)
  · rw [hservice]
    exact hothers w hw
  · rw [State.service, htables]
    exact (congrArg Service.enabled (hservice w)).trans (hothers w hw)

end judged

/-! ## The evaluation of a service with nothing selected (R137, R138) -/

section unserved
variable {s : State} {v slot : Nat}

/-- The rank list is made of the loaded tables and the live fields alone (R133). -/
theorem rankList_of_same {t : State} (htables : t.tables = s.tables) (hlives : t.lives = s.lives) (v : Nat) :
    t.rankList v = s.rankList v := by
  have hlive (a : Nat) : t.liveOf v a = s.liveOf v a := by rw [State.liveOf, State.live, hlives]; rfl
  have hbefore (a b : Nat) : t.ranksBefore v a b = s.ranksBefore v a b := by simp only [State.ranksBefore, hlive]
  have hinsert : t.insertRanked v = s.insertRanked v := by
    funext a l
    induction l with
    | nil => rfl
    | cons b l ih => simp only [State.insertRanked, hbefore, ih]
  have hservice : t.service v = s.service v := by rw [State.service, htables]; rfl
  have hslots : t.definedSlots v = s.definedSlots v := by simp only [State.definedSlots, State.copy, htables]
  rw [State.rankList, State.rankList, hinsert, hservice, hslots]

/-- The state with the cut from no copy to a copy asked for, and the floor as stored in force (R10, R138, R156). -/
def firstCutAsked (s : State) (v slot : Nat) : State :=
  ((s.putFloor v (s.service v).floor).putRank v
    { s.rank v with target := some slot, filing := none, cutting := true, degraded := false }).putCut v
    (some { old := none, new := slot, limit := s.settings.cutLimit, start := s.now, down := true })

/-- A copy that can be emitted is targeted by asking for the cut to it (R138). -/
theorem targetCopy_of_available {fail : State → State} (hcan : s.Canonical) (htgt : (s.rank v).target = none)
    (hav : s.available (s.copyMux v slot) = true) : s.targetCopy fail v slot =
      (s.putRank v { s.rank v with target := some slot, filing := none, cutting := true }).createCut v
        (s.rank v).selected slot := by
  have hdrop : s.dropTarget v = s := by simp only [State.dropTarget, htgt]
  have hav' : (s.putRank v { s.rank v with target := some slot, filing := none }).available (s.copyMux v slot) = true := hav
  show (if ((s.dropTarget v).putRank v _).available _ = true then _ else _) = _
  rw [hdrop]
  refine (if_pos hav').trans ?_
  rw [State.askCut, rank_putRank_same hcan, putRank_putRank hcan]

/-- An enabled service with nothing selected and no target moves to the first copy it can choose; when that one can be
emitted, the cut to it is asked for (R137, case 5). -/
theorem evaluate_asks_first_cut (hcan : s.Canonical) (he : (s.service v).enabled = true) (hcut : (s.rank v).cutting = false)
    (hpin : (s.rank v).pin = none) (hsel : (s.rank v).selected = none) (htgt : (s.rank v).target = none)
    (hfirst : (s.rankList v).find? (s.choosable v) = some slot) (hav : s.available (s.copyMux v slot) = true) (g : Trigger) :
    s.evaluate v g = firstCutAsked s v slot := by
  let u := s.putFloor v (s.service v).floor
  let w := u.putRank v { s.rank v with degraded := false }
  have hu : u.Canonical := { hcan with floors := tab_wf_set _ _ _ _ hcan.floors }
  have hw : w.Canonical := { hu with ranks := tab_wf_set _ _ _ _ hu.ranks }
  have hrank : w.rank v = { s.rank v with degraded := false } := rank_putRank_same hu v _
  obtain ⟨fail, heval⟩ := evaluate_eq he hcut g
  have hbelow : u.belowFloor v = false := belowFloor_eq_false (fun sel q hs => nomatch hsel.symm.trans hs)
  have hjudge : (u.judgeDegraded v).refile fail v = w := by
    rw [judgeDegraded_of_not_below hbelow]
    exact refile_of_no_target (s := w) (by rw [hrank]; exact htgt)
  have hdecide : w.makeDecision fail v g = w.targetCopy fail v slot := by
    have hfind : (w.rankList v).find? (w.choosable v) = some slot :=
      (rankList_of_same (s := s) (t := w) rfl rfl v).symm ▸ hfirst
    simp only [State.makeDecision, State.decideFree, hrank, hpin, htgt, hsel, hfind]
  have htarget : w.targetCopy fail v slot = firstCutAsked s v slot := by
    rw [targetCopy_of_available hw (by rw [hrank]; exact htgt) hav, hrank, putRank_putRank hu, hsel]
    rfl
  refine heval.trans ?_
  show (if (((u.judgeDegraded v).refile fail v).rank v).cutting then (u.judgeDegraded v).refile fail v
    else ((u.judgeDegraded v).refile fail v).makeDecision fail v g) = _
  rw [hjudge, hdecide, htarget, hrank]
  exact if_neg (by rw [hcut]; decide)

theorem rankList_of_one (he : (s.service v).enabled = true) (h : s.definedSlots v = [slot]) : s.rankList v = [slot] := by
  simp only [State.rankList, he, h, if_true, List.foldr_cons, List.foldr_nil, State.insertRanked]

/-- A copy without a bar that was observed, is not stale and has a score above 0 can be chosen (R137). -/
theorem choosable_of_fresh {q : Nat} (hq : (s.liveOf v slot).q = some q) (hpos : 0 < q)
    (hstale : (s.liveOf v slot).stale = false) (hbar : (s.liveOf v slot).barredUntil = none) :
    s.choosable v slot = true := by
  simp [State.choosable, State.barred, Live.barred, Live.cls, hq, hstale, hbar, hpos]

end unserved

/-! ## A bar lifted (R135, R138, R140) -/

/-- `v` is the one enabled service, with nothing selected and nothing under way; its one copy, in `slot`, is local, has a
score above 0 within the stale limit, and a bar that is due. -/
structure BarDue (s : State) (v slot : Nat) : Prop where
  one : ∀ w, (s.service w).enabled = true ↔ w = v
  slots : s.definedSlots v = [slot]
  isLocal : s.copyMux v slot = localMux
  score : ∃ q, (s.liveOf v slot).q = some q ∧ 0 < q
  age : ∃ o, (s.liveOf v slot).observedAt = some o ∧ s.clock.secs - o ≤ (s.service v).staleLimit
  bar : ∃ u, (s.liveOf v slot).barredUntil = some u ∧ u ≤ s.clock.secs
  selected : (s.rank v).selected = none
  target : (s.rank v).target = none
  cutting : (s.rank v).cutting = false
  pin : (s.rank v).pin = none

section due
variable {s : State} {v slot : Nat}

theorem copyIndex_div (h : s.definedSlots v = [slot]) : copyIndex v slot / 4 = v := by
  have hmem : slot ∈ s.definedSlots v := h ▸ List.mem_singleton_self slot
  have hslot : slot < 4 := List.mem_range.mp (List.mem_filter.mp hmem).1
  unfold copyIndex
  omega

theorem BarDue.secondLive_eq (h : BarDue s v slot) :
    secondLive s (copyIndex v slot) = { s.liveOf v slot with barredUntil := none, stale := false } := by
  obtain ⟨q, hq, -⟩ := h.score
  obtain ⟨o, ho, hage⟩ := h.age
  obtain ⟨u, hu, hdue⟩ := h.bar
  exact secondLive_of_due hq ho hu hdue (by rw [copyIndex_div h.slots]; exact hage)

theorem BarDue.liveOf_judged (h : BarDue s v slot) (hcan : s.Canonical) :
    (judgedCopies s).1.liveOf v slot = { s.liveOf v slot with barredUntil := none, stale := false } :=
  (live_judgedCopies hcan _).trans h.secondLive_eq

/-- The evaluation that follows finds the copy, and asks for the cut to it. -/
theorem BarDue.reSecond (h : BarDue s v slot) (hcan : s.Canonical) :
    s.reSecond = firstCutAsked (judgedCopies s).1 v slot := by
  obtain ⟨q, hq, hpos⟩ := h.score
  obtain ⟨u, hu, -⟩ := h.bar
  have hlive := h.liveOf_judged hcan
  have hbar : (secondLive s (copyIndex v slot)).barredUntil ≠ (s.live (copyIndex v slot)).barredUntil := by
    rw [h.secondLive_eq]
    exact fun e => nomatch e.trans hu
  have hchoose : (judgedCopies s).1.choosable v slot = true :=
    choosable_of_fresh (by rw [hlive]; exact hq) hpos (by rw [hlive]) (by rw [hlive])
  have heq := judgedCopies_eq hcan
  have hrank : (judgedCopies s).1.rank v = s.rank v := by rw [heq]; rfl
  have henabled : ((judgedCopies s).1.service v).enabled = true := by rw [heq]; exact (h.one v).mpr rfl
  have hslots : (judgedCopies s).1.definedSlots v = [slot] := by rw [heq]; exact h.slots
  have hlocal : (judgedCopies s).1.copyMux v slot = localMux := by rw [heq]; exact h.isLocal
  rw [reSecond_of_lifted hcan h.one (copyIndex_div h.slots) hbar]
  refine evaluate_asks_first_cut (canonical_judgedCopies hcan) henabled (by rw [hrank, h.cutting]) (by rw [hrank, h.pin])
    (by rw [hrank, h.selected]) (by rw [hrank, h.target]) ?_ ?_ .other
  · rw [rankList_of_one henabled hslots, List.find?_cons_of_pos hchoose]
  · rw [hlocal]
    rfl

theorem firstCutAsked_reads (hcan : s.Canonical) :
    (firstCutAsked s v slot).rank v =
      { s.rank v with target := some slot, filing := none, cutting := true, degraded := false } ∧
    (firstCutAsked s v slot).cut v =
      some { old := none, new := slot, limit := s.settings.cutLimit, start := s.now, down := true } ∧
    (firstCutAsked s v slot).liveOf v slot = s.liveOf v slot ∧ (firstCutAsked s v slot).notices = s.notices ∧
    (firstCutAsked s v slot).settled = s.settled :=
  ⟨tab_get_set_same _ _ 0 _ _ hcan.ranks, tab_get_set_same _ _ 0 _ _ hcan.cuts, rfl, rfl, rfl⟩

/-- The cut is asked for, the copy is free, and nothing is handed on. -/
theorem BarDue.reSecond_reads (h : BarDue s v slot) (hcan : s.Canonical) :
    s.reSecond.rank v = { s.rank v with target := some slot, filing := none, cutting := true, degraded := false } ∧
    s.reSecond.cut v =
      some { old := none, new := slot, limit := s.settings.cutLimit, start := s.now, down := true } ∧
    s.reSecond.liveOf v slot = { s.liveOf v slot with barredUntil := none, stale := false } ∧
    s.reSecond.notices = s.notices ∧ s.reSecond.settled = s.settled := by
  obtain ⟨hrank, hcut, hlive, hnotices, hsettled⟩ :=
    firstCutAsked_reads (v := v) (slot := slot) (canonical_judgedCopies hcan)
  have hjudged := h.liveOf_judged hcan
  have heq := judgedCopies_eq hcan
  rw [h.reSecond hcan]
  refine ⟨hrank.trans ?_, hcut.trans ?_, hlive.trans hjudged, hnotices.trans (by rw [heq]),
    hsettled.trans (by rw [heq])⟩
  · rw [heq]
    rfl
  · rw [heq]
    rfl

end due

/-! ## The event -/

section second
variable {s : State}

theorem clock_tickClock (s : State) : s.tickClock.clock =
    { secs := min 4294967295 (s.clock.secs + 1), since := max s.now (s.clock.since + 1000) } := rfl

theorem canonical_tickClock (hcan : s.Canonical) : s.tickClock.Canonical := { hcan with }

/-- After the clock has risen, all that a second does is what hand-overs may do. -/
theorem handOverFrame_second (s : State) : HandOverFrame s.wake.tickClock (s.act (fun u => u.tickClock.reSecond)) := by
  have h : Reach false 1 s.wake.tickClock s.wake.tickClock.reSecond := reach_reSecond .refl
  have hdrain := reach_drain (fl := false) Config.handOverFuel (Nat.le_refl 1) nofun h
  exact handOverFrame_of_reach (reach_setSettled hdrain []) (Nat.le_refl 1)

/-- What a second does to the clock and leaves of the rest, in any state (R130). -/
theorem second_frame (s : State) : (s.act (fun u => u.tickClock.reSecond)).clock = s.tickClock.clock ∧
    (s.act (fun u => u.tickClock.reSecond)).tables = s.tables ∧
    (s.act (fun u => u.tickClock.reSecond)).inbound = s.inbound ∧
    (s.act (fun u => u.tickClock.reSecond)).prot = s.prot ∧
    (s.act (fun u => u.tickClock.reSecond)).lifetimes = s.lifetimes := by
  have hwake : HandOverFrame s s.wake := handOverFrame_of_reach (reach_wake (fl := false) (w := 1) .refl) (Nat.le_refl 1)
  have hrest := handOverFrame_second s
  obtain ⟨-, hnow, hclock, hlifetimes, hprot, -⟩ := hwake.command
  obtain ⟨-, -, hclock', hlifetimes', hprot', -⟩ := hrest.command
  refine ⟨hclock'.trans ?_, hrest.tables.trans hwake.tables, hrest.inbound.trans hwake.inbound, hprot'.trans hprot,
    hlifetimes'.trans hlifetimes⟩
  rw [clock_tickClock, clock_tickClock, hnow, hclock]

/-- Where nothing else acts and nothing is handed on, a second is the clock's rise and the Ranking Engine's part. -/
theorem act_second {u : State} (hq : s.Quiet) (h : s.tickClock.reSecond = u) (hn : u.notices = s.notices)
    (hs : u.settled = s.settled) : s.act (fun u => u.tickClock.reSecond) = u :=
  (act_quiet _ s hq (h ▸ hn.trans hq.1) (h ▸ hs.trans hq.2.1)).trans h

theorem second_of_disabled (hq : s.Quiet) (hcan : s.Canonical) (hoff : ∀ v, (s.service v).enabled = false) (i : Nat) :
    (s.act (fun u => u.tickClock.reSecond)).live i = secondLive s.tickClock i := by
  have hcan' := canonical_tickClock hcan
  have heq := judgedCopies_eq hcan'
  rw [act_second hq (reSecond_of_disabled hcan' hoff) (by rw [heq]; rfl) (by rw [heq]; rfl)]
  exact live_judgedCopies hcan' i

theorem second_of_unchanged (hq : s.Quiet) (hcan : s.Canonical) (h : ∀ i, secondLive s.tickClock i = s.live i) :
    s.act (fun u => u.tickClock.reSecond) = s.tickClock :=
  act_second hq (reSecond_of_unchanged (canonical_tickClock hcan) h) rfl rfl

/-- What stands after a second that lifts the bar of the copy: the cut asked for, and the copy free. -/
theorem second_of_barDue {v slot : Nat} (hq : s.Quiet) (hcan : s.Canonical) (h : BarDue s.tickClock v slot) :
    (s.act (fun u => u.tickClock.reSecond)).rank v =
      { s.rank v with target := some slot, filing := none, cutting := true, degraded := false } ∧
    (s.act (fun u => u.tickClock.reSecond)).cut v = some { old := none, new := slot, limit := s.settings.cutLimit,
                                                           start := s.tickClock.clock.since, down := true } ∧
    (s.act (fun u => u.tickClock.reSecond)).liveOf v slot =
      { s.liveOf v slot with barredUntil := none, stale := false } := by
  obtain ⟨hrank, hcut, hlive, hnotices, hsettled⟩ := h.reSecond_reads (canonical_tickClock hcan)
  rw [act_second hq rfl hnotices hsettled]
  exact ⟨hrank, hcut, hlive⟩

end second

/-- Settles O39: the clock rises in every state; without an enabled service, or without a change of a copy, no service is
evaluated; a lifted bar has the one enabled service evaluated, which asks for the cut. -/
theorem rankClockSecondPasses : Obligations.RankClockSecondPasses := by
  intro s
  obtain ⟨hclock, htables, hinbound, hprot, hlifetimes⟩ := second_frame s
  refine ⟨_, rfl, hclock.trans (clock_tickClock s), htables, hinbound, hprot, hlifetimes, fun hq hcan hoff i => ?disabled,
    fun hq hcan hstand => ?unchanged, fun v slot q o u hq hcan hone hslots hlocal hlive hpos hdue hfresh hsel htgt hfiling
      hcut hpin => ?lifted⟩
  case disabled =>
    rw [second_of_disabled hq hcan hoff i, hclock]
    refine (congrArg (Live.liftBar s.tickClock.clock.secs) (judgeStale_eq _ _ _)).trans ?_
    exact liftBar_eq _ _
  case unchanged =>
    rw [hclock] at hstand
    have hsame (i : Nat) : secondLive s.tickClock i = s.live i :=
      secondLive_of_unchanged (s := s.tickClock) (hstand i).1 (hstand i).2
    rw [second_of_unchanged hq hcan hsame]
    rfl
  case lifted =>
    rw [hclock] at hdue hfresh ⊢
    obtain ⟨hrank, hcut', hlive'⟩ := second_of_barDue hq hcan (v := v) (slot := slot)
      { one := hone, slots := hslots, isLocal := hlocal, score := ⟨q, congrArg Live.q hlive, hpos⟩,
        age := ⟨o, congrArg Live.observedAt hlive, hfresh⟩, bar := ⟨u, congrArg Live.barredUntil hlive, hdue⟩,
        selected := hsel, target := htgt, cutting := hcut, pin := hpin }
    refine ⟨hrank.trans ?_, hcut', hlive'⟩
    rw [← hfiling]

end Sys2Proof.Proofs
end

section
/-! SUPPORT. What the Output Assembler does with an offer, an admitted packet, an emission slot and the end of a drop period,
and the proofs of the obligations about outputs (R150 to R157). -/

namespace Sys2Proof.Proofs
open Sys2Proof Sys2Proof.Machine Sys2Proof.Laws

set_option Elab.async false

/-! ## The header of a rewritten packet (R153) -/

section header
variable {p : Packet} {ident cc : Nat}

/-- A byte whose `k` low bits are written anew keeps the bits above them. -/
theorem getLsbD_lowBitsWritten (b : Byte) {k low i : Nat} (hlow : low < 2 ^ k) (hk : k ≤ i) (hi : i < 8) :
    (BitVec.ofNat 8 (b.toNat / 2 ^ k * 2 ^ k + low)).getLsbD i = b.getLsbD i := by
  rw [BitVec.getLsbD_ofNat, Nat.mul_comm, Nat.testBit_two_pow_mul_add _ hlow, if_neg (by omega), Nat.testBit_div_two_pow,
    Nat.sub_add_cancel hk, decide_eq_true hi, Bool.true_and]
  rfl

theorem length_rewrite (h : p.length = 188) : (Packet.rewrite p ident cc).length = 188 := by
  simp [Packet.rewrite, h]

theorem drop_rewrite : (Packet.rewrite p ident cc).drop 4 = p.drop 4 := rfl

theorem byteAt_rewrite_sync : byteAt (Packet.rewrite p ident cc) 0 = byteAt p 0 := rfl

theorem flagged_rewrite : Packet.flagged (Packet.rewrite p ident cc) = Packet.flagged p :=
  getLsbD_lowBitsWritten (k := 5) _ (Nat.mod_lt _ (by decide)) (by decide) (by decide)

theorem unitStart_rewrite : Packet.unitStart (Packet.rewrite p ident cc) = Packet.unitStart p :=
  getLsbD_lowBitsWritten (k := 5) _ (Nat.mod_lt _ (by decide)) (by decide) (by decide)

theorem payload_rewrite : Packet.payload (Packet.rewrite p ident cc) = Packet.payload p :=
  getLsbD_lowBitsWritten (k := 4) _ (Nat.mod_lt _ (by decide)) (by decide) (by decide)

theorem ident_rewrite (h : ident < 8192) : Packet.ident (Packet.rewrite p ident cc) = ident := by
  have hbyte := (byteAt p 1).isLt
  show (BitVec.ofNat 8 ((byteAt p 1).toNat / 32 * 32 + ident / 256 % 32)).toNat % 32 * 256 +
    (BitVec.ofNat 8 (ident % 256)).toNat = ident
  simp only [BitVec.toNat_ofNat]
  omega

theorem cc_rewrite (h : cc < 16) : Packet.cc (Packet.rewrite p ident cc) = cc := by
  show (BitVec.ofNat 8 ((byteAt p 3).toNat / 16 * 16 + cc % 16)).toNat % 16 = cc
  simp only [BitVec.toNat_ofNat]
  omega

end header

theorem nextCount_lt {n : Nat} (h : n < 16) (payload : Bool) : nextCount n payload < 16 :=
  Nat.lt_succ_of_le (nextCount_le n payload (Nat.le_of_lt_succ h))

/-! ## Admission (R153 to R155) -/

/-- The output once it has queued a packet under an identifier. -/
def queued (q : OutState) (ident : Nat) (p : Packet) : OutState :=
  let c := nextCount (Tab.get 0 q.counters ident) (Packet.payload p)
  { q with queue := q.queue ++ [Packet.rewrite p ident c], counters := Tab.set 0 q.counters ident c }

/-- The output once it has dropped a packet. -/
def dropped (q : OutState) : OutState := { q with drops := min 65535 (q.drops + 1), overflowRaised := true }

theorem out_putOut_same {s : State} (h : Tab.wf ({} : OutState) s.outs = true) (o) (q) : (s.putOut o q).out o = q :=
  tab_get_set_same _ _ 0 _ _ h

theorem out_raise (s : State) (k i kd val o) : (s.raise k i kd val).out o = s.out o := by
  rw [(sideFrame_raise s k i kd val).eq]
  rfl

theorem counters_wf {s : State} (h : s.Canonical) (o : Nat) : Tab.wf 0 (s.out o).counters = true :=
  tab_all_get (P := fun q : OutState => Tab.wf 0 q.counters = true) rfl _ h.counters o

section admission
variable {s : State} {v comp o : Nat} {p : Packet}

theorem admitPacket_of_disabled (h : (s.outputRec (s.service v).output).enabled = false) : s.admitPacket v comp p = s :=
  if_pos (by simp [h])

variable (ho : (s.service v).output = o) (hen : (s.outputRec o).enabled = true)
include ho hen

theorem admitPacket_of_room (h : (s.out o).queue.length < 256) :
    s.admitPacket v comp p = s.putOut o (queued (s.out o) ((s.service v).outIds.getD comp 0) p) := by
  subst ho
  exact (if_neg (by simp [hen])).trans (if_pos h)

theorem admitPacket_of_full (h : 256 ≤ (s.out o).queue.length) :
    s.admitPacket v comp p = if (s.out o).overflowRaised then s.putOut o (dropped (s.out o))
      else (s.putOut o (dropped (s.out o))).raise .output o .overflow := by
  subst ho
  exact (if_neg (by simp [hen])).trans (if_neg (Nat.not_lt.mpr h))

end admission

/-- An admission changes the outputs, and by its OVERFLOW the indications and the lists of the Management Unit, alone. -/
theorem admitPacket_frame (s : State) (v comp : Nat) (p : Packet) :
    ∃ x i m, s.admitPacket v comp p = ((s.setOuts x).setInds i).setMgmt m := by
  cases hen : (s.outputRec (s.service v).output).enabled with
  | false => exact ⟨s.outs, s.inds, s.mgmt, admitPacket_of_disabled hen⟩
  | true =>
    by_cases hroom : (s.out (s.service v).output).queue.length < 256
    · rw [admitPacket_of_room rfl hen hroom]
      exact ⟨Tab.set {} s.outs _ _, s.inds, s.mgmt, rfl⟩
    · rw [admitPacket_of_full rfl hen (Nat.not_lt.mp hroom)]
      split
      · exact ⟨Tab.set {} s.outs _ _, s.inds, s.mgmt, rfl⟩
      · obtain ⟨i, m, hraise⟩ := raise_frame (s.putOut (s.service v).output (dropped (s.out (s.service v).output)))
          .output (s.service v).output .overflow true
        exact ⟨_, i, m, hraise⟩

/-- Settles O58: what the output holds once the packet is queued, or dropped. -/
theorem admissionRewritesPacket : Obligations.AdmissionRewritesPacket := by
  intro s v comp p o ident ho hid hrange hlen hen hcan hcounts
  refine ⟨fun hroom => ?queued, fun hfull => ?dropped⟩
  case queued =>
    let c := nextCount (Tab.get 0 (s.out o).counters ident) (Packet.payload p)
    have hcc : Packet.cc (Packet.rewrite p ident c) = c := cc_rewrite (nextCount_lt (hcounts ident) _)
    rw [admitPacket_of_room ho hen hroom, hid, out_putOut_same hcan.outs]
    refine ⟨Packet.rewrite p ident c, rfl, length_rewrite hlen, drop_rewrite, byteAt_rewrite_sync, flagged_rewrite,
      unitStart_rewrite, payload_rewrite, ident_rewrite hrange, hcc, fun i => ?_⟩
    rw [hcc]
    split
    · next hi =>
      rw [hi]
      exact tab_get_set_same _ _ 0 _ _ (counters_wf hcan o)
    · next hi => exact tab_get_set_other _ _ _ _ _ hi
  case dropped =>
    have hadmit := admitPacket_of_full (comp := comp) (p := p) ho hen hfull
    have hout : (s.admitPacket v comp p).out o = dropped (s.out o) := by
      rw [hadmit]
      split
      · exact out_putOut_same hcan.outs _ _
      · exact (out_raise ..).trans (out_putOut_same hcan.outs _ _)
    rw [hout]
    refine ⟨rfl, rfl, rfl, fun hfirst => ?_, rfl⟩
    rw [hadmit, hfirst]
    exact latched_raise ..

/-! ## Emission and the drop period (R150, R151, R154) -/

section emission
variable {s t : State} {o : Nat}

/-- An emission slot whose effect hands nothing on does that effect and nothing else. -/
theorem exec_emissionSlot_quiet (hq : s.Quiet) (ho : o < 4) (ht : s.emit o = t) (hnotices : t.notices = s.notices)
    (hsettled : t.settled = s.settled) : exec (.emissionSlot o) s = .next t := by
  have ⟨hnone, hdone, _⟩ := hq
  have hexec : exec (.emissionSlot o) s = .next (s.act (fun s => s.emit o)) := if_pos ho
  exact exec_of_effect hexec hq ht (hnotices.trans hnone) (hsettled.trans hdone)

theorem mgmtTurn_iff : s.mgmtTurn o = true ↔
    o = 0 ∧ s.mgmt.list ≠ [] ∧ ((s.out o).queue = [] ∨ (s.out o).reserve = 31) := by
  simp only [State.mgmtTurn, Bool.and_eq_true, Bool.or_eq_true, Bool.not_eq_true', decide_eq_true_eq, List.isEmpty_iff,
    List.isEmpty_eq_false_iff, and_assoc]
  rfl

theorem nextReserve_eq (s : State) (o : Nat) : s.nextReserve o =
    if o = 0 then (if s.mgmt.list = [] then 0 else (s.out o).reserve + 1) else (s.out o).reserve := by
  simp [State.nextReserve]

theorem sendQueue_of_cons {p : Packet} {rest : List Packet} (h : (s.out o).queue = p :: rest) :
    s.sendQueue o = s.putOut o { s.out o with queue := rest, reserve := s.nextReserve o, port := some (.packet p) } := by
  simp only [State.sendQueue, h]

theorem sendQueue_of_nil (h : (s.out o).queue = []) :
    s.sendQueue o = s.putOut o { s.out o with queue := [], reserve := s.nextReserve o, port := some .null } := by
  simp only [State.sendQueue, h]

theorem emit_of_disabled (h : (s.outputRec o).enabled = false) : s.emit o = s := if_pos (by simp [h])

theorem emit_of_queueTurn (hen : (s.outputRec o).enabled = true) (h : s.mgmtTurn o = false) : s.emit o = s.sendQueue o :=
  (if_neg (by simp [hen])).trans (if_neg (by simp [h]))

theorem emit_of_mgmtTurn {m : MgmtPacket} {rest : List MgmtPacket} (hen : (s.outputRec o).enabled = true)
    (h : s.mgmtTurn o = true) (hlist : s.mgmt.list = m :: rest) : s.emit o = s.sendMgmt o m rest := by
  simp [State.emit, hen, h, hlist]

theorem buildReport_of_noRecord (h : s.mgmt.queue = []) : s.buildReport = s := if_pos (by simp [h])

end emission

/-- Settles O59: a slot is of the queue, of the management list, or of a disabled output; the period's end is one update. -/
theorem outputsEmitAndCount : Obligations.OutputsEmitAndCount := by
  intro s hq
  refine ⟨fun o ho hen hturn => ?queue, fun m rest hen hlist hrecords hturn => ?management, fun o ho hoff => ?disabled,
    fun o ho => ?period⟩
  case queue =>
    have hnoMgmt : s.mgmtTurn o = false := Bool.eq_false_iff.mpr fun h => by
      obtain ⟨hzero, hwaits, hfree⟩ := mgmtTurn_iff.mp h
      obtain ⟨hqueue, hreserve⟩ := hturn hzero hwaits
      exact hfree.elim hqueue hreserve
    refine exec_emissionSlot_quiet hq ho ((emit_of_queueTurn hen hnoMgmt).trans ?_) rfl rfl
    rw [← nextReserve_eq]
    cases hqueue : (s.out o).queue with
    | cons p rest => exact sendQueue_of_cons hqueue
    | nil => exact sendQueue_of_nil hqueue
  case management =>
    have hmgmt : s.mgmtTurn 0 = true := mgmtTurn_iff.mpr ⟨rfl, by simp [hlist], hturn⟩
    exact exec_emissionSlot_quiet hq (by decide)
      ((emit_of_mgmtTurn hen hmgmt hlist).trans (buildReport_of_noRecord hrecords)) rfl rfl
  case disabled => exact exec_emissionSlot_quiet hq ho (emit_of_disabled hoff) rfl rfl
  case period =>
    have ⟨hnone, hdone, _⟩ := hq
    have hexec : exec (.overflowPeriodEnd o) s = .next (s.act (fun s => s.endPeriod o)) := if_pos ho
    exact exec_of_effect hexec hq rfl hnone hdone

/-! ## Offers and the cutting packet (R152, R157) -/

section offers
variable {s : State} {p : Packet} {v slot comp : Nat} {c : Cut}

theorem offer_of_disabled (h : (s.service v).enabled = false) : s.offer p v slot comp = s := if_pos (by simp [h])

section enabled
variable (hen : (s.service v).enabled = true)
include hen

theorem offer_of_cut (hcut : s.cut v = some c) : s.offer p v slot comp =
    if c.new = slot then s.examine v c comp p else if c.old = some slot then s.admitPacket v comp p else s := by
  simp only [State.offer, hen, hcut, Bool.not_true, Bool.false_eq_true, if_false]

theorem offer_of_noCut (hcut : s.cut v = none) : s.offer p v slot comp =
    if s.gate v = some slot then s.admitPacket v comp p else s := by
  simp only [State.offer, hen, hcut, Bool.not_true, Bool.false_eq_true, if_false]

end enabled

theorem examine_of_early (hclean : cleanCut (s.service v) comp p = false) (hdown : c.down = false)
    (hforced : c.forced = false) : s.examine v c comp p = s :=
  if_neg (by simp [hclean, hdown, hforced])

theorem examine_of_due (h : cleanCut (s.service v) comp p = true ∨ c.down = true ∨ c.forced = true) :
    s.examine v c comp p = s.performCut v c comp p :=
  if_pos (by simpa [or_assoc] using h)

/-- The cut as its packet makes it, before any CUT_FORCED. -/
def cutMade (s : State) (v : Nat) (c : Cut) (comp : Nat) (p : Packet) : State :=
  (((s.putGate v (some c.new)).putCut v none).admitPacket v comp p).post (.cutDone v c.new)

theorem performCut_of_timely (h : cleanCut (s.service v) comp p = true ∨ c.down = true) :
    s.performCut v c comp p = cutMade s v c comp p :=
  if_pos (by simpa [or_comm] using h)

theorem performCut_of_forced (hclean : cleanCut (s.service v) comp p = false) (hdown : c.down = false) :
    s.performCut v c comp p = (cutMade s v c comp p).raise .service v .cutForced :=
  if_neg (by simp [hclean, hdown])

theorem notices_post (s : State) (a : Notice) : (s.post a).notices = s.notices ++ [a] := rfl

/-- In `t` the cut of `s` to a slot is made: its gate, the removal of its record, and the cut done. -/
structure CutPerformed (s : State) (v slot : Nat) (t : State) : Prop where
  gates : t.gates = (s.putGate v (some slot)).gates
  cuts : t.cuts = (s.putCut v none).cuts
  notices : t.notices = s.notices ++ [.cutDone v slot]

/-- The packet's admission touches neither the gates nor the cut records, and hands nothing on. -/
theorem cutPerformed_cutMade : CutPerformed s v c.new (cutMade s v c comp p) := by
  let u := (s.putGate v (some c.new)).putCut v none
  obtain ⟨x, i, m, hadmit⟩ := admitPacket_frame u v comp p
  have hgates : (u.admitPacket v comp p).gates = u.gates := by rw [hadmit]; rfl
  have hcuts : (u.admitPacket v comp p).cuts = u.cuts := by rw [hadmit]; rfl
  have hnotices : (u.admitPacket v comp p).notices = s.notices := (admitPacket_quiet u v comp p).1
  exact ⟨hgates, hcuts, (notices_post ..).trans (by rw [hnotices])⟩

theorem CutPerformed.raise {t : State} (h : CutPerformed s v slot t) (k i kd val) :
    CutPerformed s v slot (t.raise k i kd val) := by
  obtain ⟨x, m, hraise⟩ := raise_frame t k i kd val
  rw [hraise]
  exact ⟨h.gates, h.cuts, h.notices⟩

theorem cutPerformed_performCut : CutPerformed s v c.new (s.performCut v c comp p) := by
  by_cases h : cleanCut (s.service v) comp p = true ∨ c.down = true
  · rw [performCut_of_timely h]
    exact cutPerformed_cutMade
  · obtain ⟨hclean, hdown⟩ := not_or.mp h
    rw [performCut_of_forced (Bool.eq_false_iff.mpr hclean) (Bool.eq_false_iff.mpr hdown)]
    exact cutPerformed_cutMade.raise ..

end offers

/-- Settles O57: the rows of Table 70 in their order, the row of the new copy by its examination. -/
theorem offersDecided : Obligations.OffersDecided := by
  intro s p v slot comp
  refine ⟨offer_of_disabled, fun hen => ⟨fun c hcut hnew hclean hdown hforced => ?early, fun c hcut hnew hdue => ?due,
    fun c hcut hnew hold => ?old, fun c hcut hnew hold => ?neither, fun hcut hgate => ?emitting, fun hcut hgate => ?idle⟩⟩
  case early => rw [offer_of_cut hen hcut, if_pos hnew, examine_of_early hclean hdown hforced]
  case due =>
    subst hnew
    rw [offer_of_cut hen hcut, if_pos rfl, examine_of_due hdue]
    obtain ⟨hgates, hcuts, hnotices⟩ : CutPerformed s v c.new (s.performCut v c comp p) := cutPerformed_performCut
    refine ⟨hgates, hcuts, hnotices, fun t ht => ⟨fun htimely => ht ▸ performCut_of_timely htimely, fun hclean hdown => ?_⟩⟩
    rw [performCut_of_forced hclean hdown]
    exact ⟨ht ▸ rfl, fun _ => latched_raise ..⟩
  case old => rw [offer_of_cut hen hcut, if_neg hnew, if_pos hold]
  case neither => rw [offer_of_cut hen hcut, if_neg hnew, if_neg hold]
  case emitting => exact offer_of_emitted hen hcut hgate
  case idle => rw [offer_of_noCut hen hcut, if_neg hgate]

end Sys2Proof.Proofs
end

section
/-! SUPPORT. The proofs of the obligations about a step, the power-on reset, and what every step keeps: the canonical tables
and the protection at level HARD (R171, R179). -/

namespace Sys2Proof.Proofs
open Sys2Proof Sys2Proof.Machine Sys2Proof.Laws

set_option Elab.async false

/-! ## Protection at level HARD -/

section hard
variable {s t u : State}

/-- The lock of the protection is the last check of SET_PROTECTION: where it fails, the command is refused (R171). -/
theorem setProtection_refused_of_locked {c : Cmd} (h : s.prot.locked c.auth = true) :
    ∃ k, firstFailing (s.checksOf c .setProtection) = some k :=
  have hlast : { fails := s.prot.locked c.auth, outcome := .prot, detail := 0 } ∈ s.checksOf c .setProtection :=
    List.mem_of_getElem? (i := 2) rfl
  Option.isSome_iff_exists.mp (List.find?_isSome.mpr ⟨_, hlast, h⟩)

/-- At level HARD SET_PROTECTION does no more than reply (R171). -/
theorem reach_commandProtection_of_hard (h : Reach fl 2 s u) (hhard : u.prot.level = .hard) (c : Cmd) :
    Reach fl 2 s (u.commandProtection c) := by
  obtain ⟨k, hk⟩ := setProtection_refused_of_locked (s := u) (c := c) (by simp [Protection.locked, hhard])
  rw [show u.commandProtection c = _ from checked_of_some hk _]
  exact reach_answer h ..

/-- A chain below level 3 keeps the protection, so at level HARD the row SET_PROTECTION is such a chain as well. -/
theorem reach_setProtection_of_hard (hhard : s.prot.level = .hard) (h : exec .setProtection s = .next t) :
    Reach false 2 s t := by
  cases h
  refine reach_act _ (fun {u} hu => ?_) nofun
  refine reach_takeHead hu _ _ (fun {v} c hv => reach_commandProtection_of_hard hv ?_ c)
  rw [hv.prot_eq (Nat.le_refl 2)]
  exact hhard

theorem reach_idle (s : State) : Reach false 2 s s.idle :=
  reach_act _ (fun hu => hu.step (.now (by omega) _)) nofun

end hard

/-- Settles O8: at level HARD every step but a power-on reset is a chain of primitive updates that leaves the protection out. -/
theorem hardProtectionStays : Obligations.HardProtectionStays := by
  intro s t hhard hfront hstep
  unfold step at hstep
  split at hstep
  · cases hstep
    exact (reach_idle s).prot_eq (Nat.le_refl 2)
  · next i rest hpending =>
    have hreset : i ≠ .powerOnReset := fun e => hfront (by rw [hpending, e, List.head?_cons])
    have hreach : Reach false 2 (s.setPending rest) t := by
      by_cases hset : i = .setProtection
      · subst hset
        exact reach_setProtection_of_hard hhard hstep
      · exact reach_exec i hreset (fun e => absurd e hset) (Nat.le_refl 2) nofun hstep
    exact hreach.prot_eq (Nat.le_refl 2)

/-! ## The power-on reset -/

theorem tab_all_nil {α : Type} (P : α → Prop) : Tab.all P [] := List.forall_mem_nil _

theorem reset_canonical : State.reset.Canonical where
  tables := ⟨rfl, rfl, rfl, rfl, rfl, rfl, rfl⟩
  roles := rfl
  framers := rfl
  trackers := rfl
  censusRecs := rfl
  qmLanes := rfl
  mismatch := rfl
  lifetimes := rfl
  buses := rfl
  tuners := rfl
  visits := rfl
  lastOutcome := rfl
  lives := rfl
  ranks := rfl
  floors := rfl
  outs := rfl
  counters := tab_all_nil _
  gates := rfl
  cuts := rfl
  latched := rfl
  status := rfl

theorem atPowerOn_ok : QmLane.atPowerOn.ok := by simp [QmLane.ok, QmLane.atPowerOn]

theorem reset_withinLimits : State.reset.WithinLimits where
  mgmt := ⟨Nat.zero_le _, Nat.zero_le _, Nat.zero_le _, List.forall_mem_nil _⟩
  hostQueue := ⟨Nat.zero_le _, List.nodup_nil⟩
  sched := ⟨Nat.zero_le _, List.nodup_nil, by decide, by decide, Nat.zero_le _, tab_all_nil _⟩
  outs := tab_all_nil _
  lives := tab_all_nil _
  ranks := tab_all_nil _
  buses := tab_all_nil _
  lanes := fun _ he => List.mem_singleton.mp he ▸ atPowerOn_ok
  trackers := tab_all_nil _
  censusRecs := tab_all_nil _
  dwells := tab_all_nil _
  lifetimes := tab_all_nil _
  inbound := Nat.zero_le _
  notices := List.forall_mem_nil _
  clock := Nat.zero_le _

/-- Settles O3: every table is empty but for lane 16's framer and its first window. -/
theorem resetMeetsInvariants : Obligations.ResetMeetsInvariants :=
  ⟨reset_canonical, reset_withinLimits, oneOccupant_of_no_tuners rfl, fun _ _ _ hen => absurd hen Bool.false_ne_true,
    rfl, rfl, fun _ _ => rfl⟩

/-- Settles O4: a power-on reset leaves canonical tables, and every other step is a chain of primitive updates, each of which
keeps them so. -/
theorem canonicalKept : Obligations.CanonicalKept := by
  intro s t hcan hstep
  rcases step_cases hstep with hreset | hreach
  · exact hreset ▸ canonical_setPending reset_canonical s.pending.tail
  · exact canonical_of_reach hreach (canonical_setPending hcan _)

/-- A table whose only entry is lane 16's reads its default on every other lane. -/
theorem get_lane16_other {α : Type} (d x : α) {n : Nat} (h : n ≠ 16) : Tab.get d [(16, x)] n = d := by
  simp only [Tab.get, h.symm, if_false]

/-- Settles O2: the state is the constant `State.reset`, read back field by field. -/
theorem powerOnResetState : Obligations.PowerOnResetState := by
  intro s
  refine ⟨_, rfl, rfl, rfl, rfl, rfl, rfl, rfl, rfl, rfl, fun _ _ _ => ⟨rfl, rfl⟩, rfl, rfl, rfl, rfl, rfl, rfl, rfl, rfl, rfl,
    rfl, rfl, fun n hn => ⟨get_lane16_other _ _ hn, get_lane16_other _ _ hn⟩, fun _ => ⟨rfl, rfl, rfl, rfl⟩, fun _ => rfl,
    fun _ => ⟨rfl, rfl⟩, rfl, rfl, rfl, fun _ => ⟨rfl, rfl, rfl, rfl⟩, fun _ => rfl⟩

/-! ## A step -/

/-- Settles O1: the two branches of `step`, of which the idle one finds nothing to take. -/
theorem stepRunsFrontCommand : Obligations.StepRunsFrontCommand := by
  refine ⟨fun s c rest hfront => ?front, fun s hquiet hnone => ?idle⟩
  case front => rw [step, hfront]
  case idle =>
    rw [step, hnone]
    exact congrArg _ (act_quiet _ s hquiet hquiet.1 hquiet.2.1)

end Sys2Proof.Proofs
end

section
/-! SUPPORT. What a raise and a reply do to the lists of the Management Unit, and the proofs of the obligations about them
(R167, R172, R175, R176). -/

namespace Sys2Proof.Proofs
open Sys2Proof Sys2Proof.Machine Sys2Proof.Laws

set_option Elab.async false

section lists
variable {s : State} {r : EventRecord}

/-! ## Report packets (R176) -/

theorem buildReport_of_waits (h : s.mgmt.reportWaits = true) : s.buildReport = s := if_pos (by simp [h])

theorem buildReport_of_none (hwaits : s.mgmt.reportWaits = false) (hqueue : s.mgmt.queue ≠ []) : s.buildReport =
    s.setMgmt
      { list := s.mgmt.list ++ [.report s.settings.replyId { lost := s.mgmt.lost, records := s.mgmt.queue.take 6 }],
        queue := s.mgmt.queue.drop 6, lost := false } :=
  if_neg (by simp [hwaits, hqueue])

/-- No packet leaves the list for output 0 when a report packet is built. -/
theorem list_prefix_buildReport (s : State) : s.mgmt.list <+: s.buildReport.mgmt.list := by
  unfold State.buildReport
  split
  · exact List.prefix_refl _
  · exact List.prefix_append _ _

/-! ## Offered records (R174, R175) -/

theorem offerRecord_of_disabled (h : s.settings.mask.getLsbD (r.kind.code - 1) = false) : s.offerRecord r = s :=
  if_pos (by simp [enabledIn, h])

theorem offerRecord_of_room (h : s.settings.mask.getLsbD (r.kind.code - 1) = true) (hroom : s.mgmt.queue.length < 32) :
    s.offerRecord r = (s.setMgmt { s.mgmt with queue := s.mgmt.queue ++ [r] }).buildReport :=
  (if_neg (by simp [enabledIn, h])).trans (if_pos hroom)

theorem offerRecord_of_full (h : s.settings.mask.getLsbD (r.kind.code - 1) = true) (hfull : 32 ≤ s.mgmt.queue.length) :
    s.offerRecord r = s.setMgmt { s.mgmt with lost := true } :=
  (if_neg (by simp [enabledIn, h])).trans (if_neg (Nat.not_lt.mpr hfull))

theorem list_prefix_offerRecord (s : State) (r : EventRecord) : s.mgmt.list <+: (s.offerRecord r).mgmt.list := by
  unfold State.offerRecord
  split
  · exact List.prefix_refl _
  · split
    · exact list_prefix_buildReport (s.setMgmt { s.mgmt with queue := s.mgmt.queue ++ [r] })
    · exact List.prefix_refl _

/-- What is offered does not depend on the indications. -/
theorem offerRecord_setInds (s : State) (x : Indications) (r : EventRecord) :
    (s.setInds x).offerRecord r = (s.offerRecord r).setInds x := by
  unfold State.offerRecord State.buildReport
  simp only [apply_ite (fun u : State => u.setInds x)]
  rfl

end lists

/-! ## Raises (R172) -/

section raise
variable {s : State} {k : SourceKind} {i : Nat} {kd : Kind} {v : Bool}

theorem raise_of_latched (h : s.latched k i kd = true) : s.raise k i kd v =
    s.setInds { s.inds with status := Tab.set false s.inds.status (indKey k i kd) v } := if_pos h

/-- A raise that latches its flag offers one record. -/
theorem raise_of_clear (h : s.latched k i kd = false) : s.raise k i kd v =
    (s.offerRecord { source := k, index := i, kind := kd, status := v, stamp := s.clock.secs }).setInds
      { latched := Tab.set false s.inds.latched (indKey k i kd) true,
        status := Tab.set false s.inds.status (indKey k i kd) v } :=
  (if_neg (by simp [h])).trans (offerRecord_setInds s _ _)

theorem status_raise (s : State) (k i kd v) :
    (s.raise k i kd v).inds.status = Tab.set false s.inds.status (indKey k i kd) v := by
  cases h : s.latched k i kd with
  | true => rw [raise_of_latched h]; rfl
  | false => rw [raise_of_clear h]; rfl

theorem mgmt_raise_of_latched (h : s.latched k i kd = true) : (s.raise k i kd v).mgmt = s.mgmt := by
  rw [raise_of_latched h]; rfl

theorem mgmt_raise_of_clear (h : s.latched k i kd = false) : (s.raise k i kd v).mgmt =
    (s.offerRecord { source := k, index := i, kind := kd, status := v, stamp := s.clock.secs }).mgmt := by
  rw [raise_of_clear h]; rfl

theorem list_prefix_raise (s : State) (k i kd v) : s.mgmt.list <+: (s.raise k i kd v).mgmt.list := by
  cases h : s.latched k i kd with
  | true => simp only [mgmt_raise_of_latched h, List.prefix_refl]
  | false => rw [mgmt_raise_of_clear h]; exact list_prefix_offerRecord ..

/-- Below level 2 no primitive update touches the replies. -/
theorem replies_of_reach {fl : Bool} {w : Nat} {t : State} (h : Reach fl w s t) (hw : w ≤ 1) :
    t.mgmt.replies = s.mgmt.replies := by
  refine h.keeps (P := fun u => u.mgmt.replies = s.mgmt.replies) (fun a b p ha => ?_) rfl
  cases p with
  | mgmt m _ hr => exact (hr.resolve_left (by omega)).trans ha
  | _ => exact ha

theorem replies_raise (s : State) (k i kd v) : (s.raise k i kd v).mgmt.replies = s.mgmt.replies :=
  replies_of_reach (fl := false) (reach_raise .refl k i kd v) (Nat.le_refl 1)

end raise

/-- Settles O29: a raise offers a record when its flag was clear, and what is offered goes by the mask, the room in the report
queue and the report packet that waits. -/
theorem raiseLatchesAndReports : Obligations.RaiseLatchesAndReports := by
  intro s k i kd v hcan
  let r : EventRecord := { source := k, index := i, kind := kd, status := v, stamp := s.clock.secs }
  let u := s.setMgmt { s.mgmt with queue := s.mgmt.queue ++ [r] }
  refine ⟨?status, latched_raise .., fun hoff => ?unoffered, fun hclear hon hfull => ?lost, fun hclear hon hroom =>
    ⟨fun hwaits => ?queued, fun hnone => ?built⟩⟩
  case status =>
    rw [State.statusValue, status_raise]
    exact tab_get_set_same _ _ 0 _ _ hcan.status
  case unoffered =>
    cases hlatched : s.latched k i kd with
    | true => exact mgmt_raise_of_latched hlatched
    | false =>
      have hmask := hoff.resolve_left (by simp [hlatched])
      rw [mgmt_raise_of_clear hlatched, offerRecord_of_disabled hmask]
  case lost => rw [mgmt_raise_of_clear hclear, offerRecord_of_full hon hfull]; rfl
  case queued =>
    rw [mgmt_raise_of_clear hclear, offerRecord_of_room hon hroom]
    exact congrArg State.mgmt (buildReport_of_waits (s := u) hwaits)
  case built =>
    have hqueue : u.mgmt.queue ≠ [] := List.append_ne_nil_of_right_ne_nil _ (List.cons_ne_nil _ _)
    rw [mgmt_raise_of_clear hclear, offerRecord_of_room hon hroom, buildReport_of_none (s := u) hnone hqueue]
    exact ⟨rfl, rfl, rfl⟩

/-! ## Replies (R167) -/

theorem buildReply_of_full {s : State} (h : 16 ≤ s.mgmt.replies.length) (i : Nat) (r : Reply) : s.buildReply i r =
    (s.setMgmt { s.mgmt with list := dropOldestReply s.mgmt.list ++ [.reply i r] }).raise .device 0 .replyOverrun :=
  if_neg (Nat.not_lt.mpr h)

theorem mem_dropOldestReply_of_report {l : List MgmtPacket} {p : MgmtPacket} (hp : p ∈ l) (hreport : p.isReply = false) :
    p ∈ dropOldestReply l := by
  have hmem : p ∈ (dropOldestReply l).filter (fun q => !q.isReply) := by
    rw [dropOldestReply_reports]
    exact List.mem_filter.mpr ⟨hp, by simp [hreport]⟩
  exact (List.mem_filter.mp hmem).1

/-- Settles O27: REPLY_OVERRUN is raised on the list without its oldest reply, and a raise lets no packet of the list go and
adds no reply. -/
theorem replyOverrunDropsOldest : Obligations.ReplyOverrunDropsOldest := by
  intro s i r hfull
  rw [buildReply_of_full hfull]
  refine ⟨?replies, latched_raise .., fun p hp hreport => ?reports⟩
  case replies =>
    rw [replies_raise]
    simp [Mgmt.replies, dropOldestReply_replies]
  case reports =>
    exact (list_prefix_raise _ _ _ _ _).subset (List.mem_append_left _ (mem_dropOldestReply_of_report hp hreport))

end Sys2Proof.Proofs
end

section
/-! SUPPORT. The proofs of the obligations about CLEAR_INDICATION, SET_ENABLES, CLEAR_COUNTERS and SET_PROTECTION (R71, R171,
R173, R174). -/

namespace Sys2Proof.Proofs
open Sys2Proof Sys2Proof.Machine Sys2Proof.Laws

set_option Elab.async false

/-! ## One value written at several indices -/

theorem get_foldl_set {α : Type} [DecidableEq α] (d v : α) (key : Nat → Nat) (l : List Nat) {t : Tab α}
    (h : Tab.wf d t = true) (j : Nat) :
    Tab.get d (l.foldl (fun t n => Tab.set d t (key n) v) t) j = if ∃ n ∈ l, key n = j then v else Tab.get d t j := by
  induction l generalizing t with
  | nil => simp
  | cons n l ih =>
    rw [List.foldl_cons, ih (tab_wf_set _ _ _ _ h)]
    by_cases hj : key n = j
    · subst hj
      simp [tab_get_set_same _ _ 0 _ _ h]
    · simp [hj, tab_get_set_other _ _ _ _ _ (Ne.symm hj)]

/-! ## CLEAR_INDICATION (R173) -/

theorem mem_kindCodes {n : Nat} : n ∈ kindCodes ↔ 1 ≤ n ∧ n ≤ 21 := by
  simp only [kindCodes, List.mem_map, List.mem_range]
  exact ⟨fun ⟨m, hm, hn⟩ => by omega, fun ⟨hlow, hhigh⟩ => ⟨n - 1, by omega, by omega⟩⟩

theorem kindCode_mem (kd : Kind) : kd.code ∈ kindCodes := by cases kd <;> decide

theorem codeKey_inj {k k' i i' n n' : Nat} (hi : i < 65536) (hi' : i' < 65536) (hn : n < 32) (hn' : n' < 32) :
    codeKey k i n = codeKey k' i' n' ↔ k = k' ∧ i = i' ∧ n = n' := by
  unfold codeKey
  omega

/-- The flags that a clearing names are those of its source and its kinds. -/
theorem named_iff {k0 i0 i : Nat} (kinds : BitVec 24) (k : SourceKind) (kd : Kind) (hi : i < 65536) (hi0 : i0 < 65536) :
    (∃ n ∈ kindCodes.filter (fun n => kinds.getLsbD (n - 1)), codeKey k0 i0 n = indKey k i kd) ↔
      k.code = k0 ∧ i = i0 ∧ kinds.getLsbD (kd.code - 1) = true := by
  have hkd := mem_kindCodes.mp (kindCode_mem kd)
  constructor
  · rintro ⟨n, hmem, hkey⟩
    obtain ⟨hcode, hbit⟩ := List.mem_filter.mp hmem
    have hn := mem_kindCodes.mp hcode
    obtain ⟨rfl, rfl, rfl⟩ := (codeKey_inj hi0 hi (by omega) (by omega)).mp hkey
    exact ⟨rfl, rfl, hbit⟩
  · rintro ⟨rfl, rfl, hbit⟩
    exact ⟨kd.code, List.mem_filter.mpr ⟨kindCode_mem kd, hbit⟩, rfl⟩

theorem get_clearedFlags {t : Tab Bool} (h : Tab.wf false t = true) {k0 i0 i : Nat} (kinds : BitVec 24) (k : SourceKind)
    (kd : Kind) (hi : i < 65536) (hi0 : i0 < 65536) :
    Tab.get false (clearedFlags k0 i0 kinds t) (indKey k i kd) = (Tab.get false t (indKey k i kd) &&
      !(decide (k.code = k0) && decide (i = i0) && kinds.getLsbD (kd.code - 1))) := by
  unfold clearedFlags
  rw [get_foldl_set _ _ _ _ h]
  simp only [named_iff kinds k kd hi hi0]
  split
  · next hnamed => simp [hnamed]
  · next hother =>
    have hstands : (decide (k.code = k0) && decide (i = i0) && kinds.getLsbD (kd.code - 1)) = false := by
      simpa [and_assoc] using hother
    rw [hstands, Bool.not_false, Bool.and_true]

theorem Cmd.index_lt (c : Cmd) : c.index < 65536 := by
  have hhi := (byteAt c.bytes 8).isLt
  have hlo := (byteAt c.bytes 9).isLt
  simp only [Cmd.index, word]
  omega

/-! ## CLEAR_COUNTERS (R71) -/

/-- The lifetime counters with those of the lanes of a list at 0. -/
def clearedLifetimes (l : List Nat) (t : Tab Lifetime) : Tab Lifetime := l.foldl (fun t n => Tab.set {} t n {}) t

theorem foldl_putLifetime (l : List Nat) (s : State) :
    l.foldl (fun s n => s.putLifetime n {}) s = s.setLifetimes (clearedLifetimes l s.lifetimes) := by
  induction l generalizing s with
  | nil => rfl
  | cons n l ih => exact ih (s.putLifetime n {})

theorem get_clearedLifetimes {t : Tab Lifetime} (h : Tab.wf {} t = true) (m : BitVec 24) (n : Nat) :
    Tab.get {} (clearedLifetimes ((List.range 17).filter (fun n => m.getLsbD n)) t) n =
      if n < 17 ∧ m.getLsbD n = true then {} else Tab.get {} t n := by
  refine (get_foldl_set ({} : Lifetime) {} id _ h n).trans ?_
  simp

/-- Settles O21: both commands write their table at the indices they name and hand nothing on. -/
theorem clearingCommands : Obligations.ClearingCommands := by
  intro s c rest hcan h
  refine ⟨fun ha => ?indication, fun ha => ?counters⟩
  case indication =>
    have hexec := exec_accepted_quiet h ha
      (act := fun u => (u.clearFlags (c.operand 0) c.index (maskAt c.operands 1)).answer c .done 0 (.bytes []))
      rfl (answer_room _ _ _ _ _ h.room) h.quiet.1 h.quiet.2.1
    exact ⟨_, hexec, fun k i kd hi => get_clearedFlags hcan.latched _ k kd hi (Cmd.index_lt c), rfl⟩
  case counters =>
    let u := (s.setInbound rest).setLifetimes
      (clearedLifetimes ((List.range 17).filter (fun n => (maskAt c.operands 0).getLsbD n)) s.lifetimes)
    have hclear : (s.setInbound rest).clearCounters (maskAt c.operands 0) = u := foldl_putLifetime _ (s.setInbound rest)
    have hexec := exec_accepted_quiet h ha
      (act := fun u => (u.clearCounters (maskAt c.operands 0)).answer c .done 0 (.bytes []))
      (t := u.withReply (doneReply c (.bytes []))) rfl (by rw [hclear]; exact answer_room u _ _ _ _ h.room)
      h.quiet.1 h.quiet.2.1
    exact ⟨_, hexec, get_clearedLifetimes hcan.lifetimes _, rfl⟩

/-! ## SET_ENABLES (R174) -/

theorem getLsbD_storedMask (m : BitVec 24) {j : Nat} (h : j < 24) :
    (storedMask m).getLsbD j = (decide (j < 21) && m.getLsbD j) := by
  have hkinds : ∀ j < 24, (0x1FFFFF#24).getLsbD j = decide (j < 21) := by decide
  rw [storedMask, BitVec.getLsbD_and, hkinds j h, Bool.and_comm]

/-- ALERT is driven by the latched flags of the enabled kinds (R177). -/
theorem alert_iff (s : State) : s.alert = true ↔
    ∃ e ∈ s.inds.latched, e.2 = true ∧ s.settings.mask.getLsbD (e.1 % 32 - 1) = true := by
  simp only [State.alert, enabledIn, List.any_eq_true, Bool.and_eq_true]

/-- Settles O22: the stored mask is the one that ALERT and the offers then read. -/
theorem setEnablesStoresMask : Obligations.SetEnablesStoresMask := by
  intro s c rest h ha
  let m := storedMask (maskAt c.operands 0)
  have hexec := exec_accepted_quiet h ha (act := fun u => (u.putSettings { u.settings with mask := m }).answer c .done 0
      (.bytes (bytesOf 3 m.toNat))) rfl (answer_room _ _ _ _ _ h.room) h.quiet.1 h.quiet.2.1
  exact ⟨_, m, hexec, fun _ hj => getLsbD_storedMask _ hj, rfl, rfl, alert_iff _,
    fun _ => ⟨fun hoff => offerRecord_of_disabled hoff, fun hon hroom => offerRecord_of_room hon hroom⟩⟩

/-! ## SET_PROTECTION (R171) -/

theorem bytesOf_one (x : Nat) : bytesOf 1 x = [BitVec.ofNat 8 x] := by
  have hmod : BitVec.ofNat 8 (x % 256) = BitVec.ofNat 8 x := BitVec.eq_of_toNat_eq (by simp)
  rw [← hmod]
  rfl

theorem protectionBytes_readProtection {c : Cmd} (h : c.operand 1 < 2) : protectionBytes (readProtection c.operands) =
    [BitVec.ofNat 8 (c.operand 0 % 32), BitVec.ofNat 8 (c.operand 1)] := by
  have hlevel : (if (readProtection c.operands).level = .hard then 1 else 0) = c.operand 1 := by
    show (if (if c.operand 1 = 1 then Level.hard else .soft) = .hard then 1 else 0) = c.operand 1
    obtain h0 | h1 : c.operand 1 = 0 ∨ c.operand 1 = 1 := by omega
    · rw [h0]; rfl
    · rw [h1]; rfl
  rw [protectionBytes, hlevel, bytesOf_one, bytesOf_one]
  rfl

/-- A SET_PROTECTION of the right length and with a known level has its lock left to pass. -/
theorem checksOf_setProtection {s : State} {c : Cmd} (hlen : c.len = 2) (hlevel : c.operand 1 < 2) :
    firstFailing (s.checksOf c .setProtection) =
      firstFailing [{ fails := s.prot.locked c.auth, outcome := .prot, detail := 0 }] :=
  (List.find?_cons_of_neg (by simp [lenCheck, rangeCheck, hlen])).trans
    (List.find?_cons_of_neg (by simp [belowCheck, rangeCheck, hlevel]))

/-- Settles O23: the length and the level pass, so the lock of the protection decides. -/
theorem setProtectionDecision : Obligations.SetProtectionDecision := by
  intro s c rest h hkind hlen hlevel
  have hrow : rowTakes .setProtection c = true := by simp [rowTakes, isKind, hkind]
  have hchecks := checksOf_setProtection (s := s) hlen hlevel
  refine ⟨fun hsoft hinst => ?accepted, fun hrefused => ?refused⟩
  case accepted =>
    have hopen : s.prot.locked c.auth = false := by simp [Protection.locked, hsoft, hinst]
    rw [hopen] at hchecks
    rw [← protectionBytes_readProtection hlevel]
    exact exec_accepted_quiet h ⟨hrow, hchecks⟩ (act := fun u => (u.setProt (readProtection c.operands)).answer c .done 0
      (.bytes (protectionBytes (readProtection c.operands)))) rfl (answer_room _ _ _ _ _ h.room) h.quiet.1 h.quiet.2.1
  case refused =>
    have hlocked : s.prot.locked c.auth = true := by simpa [Protection.locked] using hrefused
    rw [hlocked] at hchecks
    exact refusedCommandOnlyReplies s .setProtection c rest _ h hrow hchecks

end Sys2Proof.Proofs
end
